-- ==== Sys2Proof/Word.lean ====
section
/-! DEFINITION. The word types of C63-CORE: a host register is 32 bits (R21), a sample is an
unsigned byte (R30), a coefficient is a signed 16-bit value held in two's complement (R31). -/

namespace Sys2Proof

/-- A host register, a command word, a value on the host interface (R21, R91). -/
abbrev Word := BitVec 32

/-- A sample (`u8`), a quantization-table entry, a memory space id, a register number. -/
abbrev Byte := BitVec 8

/-- A coefficient or a residual (`i16`), in two's complement. -/
abbrev Half := BitVec 16

end Sys2Proof
end

