-- ==== Sys2Proof/Syntax.lean ====
section
/-! DEFINITION. The syntax of C63-CORE's commands: one constructor of `Instr` per row of the
opcode map R95 (spec/opcode_table.json). The pseudo-instructions of R101 are sequences of host
accesses and have no constructor. -/

namespace Sys2Proof

/-- The colour component a command names: "a bounded 3-variant component type" (R12, R97). -/
inductive Comp where
  /-- Luma, `c = 0`. -/
  | y
  /-- Chroma U, `c = 1`. -/
  | u
  /-- Chroma V, `c = 2`. -/
  | v
deriving DecidableEq, Repr

/-- A command of the opcode map R95. Macroblock and band indices are the fields `FY` and `FX`
(R93), read as numbers; memory space ids stay the bits the word holds, because a reserved id is a
legal encoding (R96). -/
inductive Instr where
  /-- CTX_NEW: construct the encode context from ARG0 and ARG1 (R121). -/
  | ctxNew
  /-- ENCODE_IMAGE: accept the picture in `PIC_IN` (R124). -/
  | encodeImage
  /-- STREAM_END: record the clean end of the input (R128). -/
  | streamEnd
  /-- ABORT: record a fatal input error (R129). -/
  | abort
  /-- SAD: distortion of two windows, spaces `SPA` and `SPB` (R142). -/
  | sad (spA spB : Byte)
  /-- ME_BLOCK: search macroblock `(mbX, mbY)` of a component (R159). -/
  | meBlock (c : Comp) (mbY mbX : Nat)
  /-- ME_COMP: search every macroblock of a component (R160). -/
  | meComp (c : Comp)
  /-- MC_BLOCK: compensate macroblock `(mbX, mbY)` of a component (R172). -/
  | mcBlock (c : Comp) (mbY mbX : Nat)
  /-- MC_COMP: compensate every macroblock of a component (R173). -/
  | mcComp (c : Comp)
  /-- DCTQ_BLOCK: forward path on the block buffer (R197). -/
  | dctqBlock (c : Comp)
  /-- DEQIDCT_BLOCK: inverse path on the block buffer (R198). -/
  | deqidctBlock (c : Comp)
  /-- DCTQ_ROW: forward path over one row-band (R201). -/
  | dctqRow (c : Comp) (band : Nat)
  /-- DEQIDCT_ROW: inverse path over one row-band (R202). -/
  | deqidctRow (c : Comp) (band : Nat)
  /-- DCTQ_PLANE: forward path over a component (R203). -/
  | dctqPlane (c : Comp)
  /-- DEQIDCT_PLANE: inverse path over a component (R204). -/
  | deqidctPlane (c : Comp)
  /-- ZZ_FWD: the zig-zag reorder alone (R199). -/
  | zzFwd
  /-- ZZ_INV: the inverse reorder alone (R200). -/
  | zzInv
deriving DecidableEq, Repr

end Sys2Proof
end

