-- ==== Sys2Proof/WellFormed.lean ====
section
/-! DEFINITION. Which terms of `Instr` have an encoding: the fields `FY` and `FX` are 11 bits wide,
so an index is at most 2047 (R93). A component is one of three by its type (R97) and a space id is
eight bits by its type. -/

namespace Sys2Proof

/-- An index fits the 11-bit field `FY` or `FX` (R93). -/
abbrev fitsField (n : Nat) : Prop := n < 2048

/-- The instruction has an encoding: every index fits its field (R92, R93). -/
def Instr.wellFormed : Instr → Bool
  | .ctxNew => true
  | .encodeImage => true
  | .streamEnd => true
  | .abort => true
  | .sad _ _ => true
  | .meBlock _ mbY mbX => decide (fitsField mbY) && decide (fitsField mbX)
  | .meComp _ => true
  | .mcBlock _ mbY mbX => decide (fitsField mbY) && decide (fitsField mbX)
  | .mcComp _ => true
  | .dctqBlock _ => true
  | .deqidctBlock _ => true
  | .dctqRow _ band => decide (fitsField band)
  | .deqidctRow _ band => decide (fitsField band)
  | .dctqPlane _ => true
  | .deqidctPlane _ => true
  | .zzFwd => true
  | .zzInv => true

end Sys2Proof
end

