-- ==== Sys2Proof/Decode.lean ====
section
/-! DEFINITION. Decoding and encoding of the 32-bit command word (R90 to R98). Decoding is total: a
word is one of the seventeen commands or is rejected by name. It looks at the opcode first, then at
the must-be-zero bits, then at the component (R98), and at no state of the block. -/

namespace Sys2Proof

/-- The seventeen opcodes of R95. -/
inductive Opcode where
  | ctxNew | encodeImage | streamEnd | abort | sad | meBlock | meComp | mcBlock | mcComp
  | dctqBlock | deqidctBlock | dctqRow | deqidctRow | dctqPlane | deqidctPlane | zzFwd | zzInv
deriving DecidableEq, Repr

/-- The five formats of R92. -/
inductive Format where
  /-- No field. -/
  | n
  /-- A component. -/
  | c
  /-- A component and a row-band. -/
  | r
  /-- A component and a macroblock. -/
  | m
  /-- Two memory spaces. -/
  | s
deriving DecidableEq, Repr

/-- Why a word is no command (R96). -/
inductive DecodeError where
  /-- `OPC` is not one of the seventeen of R95. -/
  | unknownOpcode
  /-- A bit the format marks "0" is 1 (R92). -/
  | reservedBitSet
  /-- `COMP` is 3 (R97). -/
  | noComponent
deriving DecidableEq, Repr

/-- The opcode numbers of R95, bits [31:24] of the word. -/
def Opcode.code : Opcode → Byte
  | .ctxNew => 0x01#8
  | .encodeImage => 0x02#8
  | .streamEnd => 0x03#8
  | .abort => 0x04#8
  | .sad => 0x10#8
  | .meBlock => 0x20#8
  | .meComp => 0x21#8
  | .mcBlock => 0x30#8
  | .mcComp => 0x31#8
  | .dctqBlock => 0x40#8
  | .deqidctBlock => 0x41#8
  | .dctqRow => 0x42#8
  | .deqidctRow => 0x43#8
  | .dctqPlane => 0x44#8
  | .deqidctPlane => 0x45#8
  | .zzFwd => 0x46#8
  | .zzInv => 0x47#8

/-- Every opcode, in the order of R95. -/
def Opcode.all : List Opcode :=
  [.ctxNew, .encodeImage, .streamEnd, .abort, .sad, .meBlock, .meComp, .mcBlock, .mcComp,
   .dctqBlock, .deqidctBlock, .dctqRow, .deqidctRow, .dctqPlane, .deqidctPlane, .zzFwd, .zzInv]

/-- The format column of R95. -/
def Opcode.format : Opcode → Format
  | .ctxNew | .encodeImage | .streamEnd | .abort | .zzFwd | .zzInv => .n
  | .sad => .s
  | .meBlock | .mcBlock => .m
  | .dctqRow | .deqidctRow => .r
  | .meComp | .mcComp | .dctqBlock | .deqidctBlock | .dctqPlane | .deqidctPlane => .c

/-- How many low bits of the word the format marks "0" (R92). -/
def Format.zeroBits : Format → Nat
  | .n => 24
  | .c => 22
  | .r => 11
  | .m => 0
  | .s => 8

/-- The formats that hold a component in bits [23:22] (R92). -/
def Format.hasComp : Format → Bool
  | .n | .s => false
  | .c | .r | .m => true

/-- The `match` column of R95. -/
def Opcode.matchWord (op : Opcode) : Word := op.code ++ 0#24

/-- The `mask` column of R95: the opcode bits and the must-be-zero bits. -/
def Opcode.maskWord (op : Opcode) : Word :=
  0xFF000000#32 ||| BitVec.ofNat 32 (2 ^ op.format.zeroBits - 1)

/-- The number of a component in `COMP` (R12). -/
def Comp.number : Comp → Nat
  | .y => 0
  | .u => 1
  | .v => 2

/-- The component a number names (R12): 3 names none (R97). -/
def Comp.ofNumber : Nat → Option Comp
  | 0 => some .y
  | 1 => some .u
  | 2 => some .v
  | _ => none

/-- `OPC` = `w[31:24]` (R93). -/
def opcField (w : Word) : Byte := w.extractLsb' 24 8

/-- `COMP` = `w[23:22]` (R93). -/
def compField (w : Word) : BitVec 2 := w.extractLsb' 22 2

/-- `FY` = `w[21:11]` (R93). -/
def fyField (w : Word) : Nat := (w.extractLsb' 11 11).toNat

/-- `FX` = `w[10:0]` (R93). -/
def fxField (w : Word) : Nat := (w.extractLsb' 0 11).toNat

/-- `SPA` = `w[23:16]` (R93). -/
def spAField (w : Word) : Byte := w.extractLsb' 16 8

/-- `SPB` = `w[15:8]` (R93). -/
def spBField (w : Word) : Byte := w.extractLsb' 8 8

/-- The opcode with a given number, if there is one (R95). -/
def Opcode.ofCode (b : Byte) : Option Opcode := Opcode.all.find? (fun op => op.code == b)

/-- An instruction of a format with a component, or the rejection of `COMP` = 3 (R97). -/
def decodeComp (w : Word) (make : Comp → Instr) : Except DecodeError Instr :=
  match Comp.ofNumber (compField w).toNat with
  | none => .error .noComponent
  | some c => .ok (make c)

/-- The fields of a word whose opcode is known and whose must-be-zero bits are zero (R93, R95). -/
def decodeFields (op : Opcode) (w : Word) : Except DecodeError Instr :=
  match op with
  | .ctxNew => .ok .ctxNew
  | .encodeImage => .ok .encodeImage
  | .streamEnd => .ok .streamEnd
  | .abort => .ok .abort
  | .sad => .ok (.sad (spAField w) (spBField w))
  | .meBlock => decodeComp w (fun c => .meBlock c (fyField w) (fxField w))
  | .meComp => decodeComp w .meComp
  | .mcBlock => decodeComp w (fun c => .mcBlock c (fyField w) (fxField w))
  | .mcComp => decodeComp w .mcComp
  | .dctqBlock => decodeComp w .dctqBlock
  | .deqidctBlock => decodeComp w .deqidctBlock
  | .dctqRow => decodeComp w (fun c => .dctqRow c (fyField w))
  | .deqidctRow => decodeComp w (fun c => .deqidctRow c (fyField w))
  | .dctqPlane => decodeComp w .dctqPlane
  | .deqidctPlane => decodeComp w .deqidctPlane
  | .zzFwd => .ok .zzFwd
  | .zzInv => .ok .zzInv

/-- The command a word is, or why it is none (R95 to R98). -/
def decode (w : Word) : Except DecodeError Instr :=
  match Opcode.ofCode (opcField w) with
  | none => .error .unknownOpcode
  | some op =>
    if w.toNat % 2 ^ op.format.zeroBits = 0 then decodeFields op w else .error .reservedBitSet

/-- The opcode of an instruction (R95). -/
def Instr.opcode : Instr → Opcode
  | .ctxNew => .ctxNew
  | .encodeImage => .encodeImage
  | .streamEnd => .streamEnd
  | .abort => .abort
  | .sad _ _ => .sad
  | .meBlock _ _ _ => .meBlock
  | .meComp _ => .meComp
  | .mcBlock _ _ _ => .mcBlock
  | .mcComp _ => .mcComp
  | .dctqBlock _ => .dctqBlock
  | .deqidctBlock _ => .deqidctBlock
  | .dctqRow _ _ => .dctqRow
  | .deqidctRow _ _ => .deqidctRow
  | .dctqPlane _ => .dctqPlane
  | .deqidctPlane _ => .deqidctPlane
  | .zzFwd => .zzFwd
  | .zzInv => .zzInv

/-- A word of format N (R92). -/
def wordN (op : Opcode) : Word := op.code ++ 0#24

/-- A word of format C (R92). -/
def wordC (op : Opcode) (c : Comp) : Word := op.code ++ BitVec.ofNat 2 c.number ++ 0#22

/-- A word of format R (R92). -/
def wordR (op : Opcode) (c : Comp) (fy : Nat) : Word :=
  op.code ++ BitVec.ofNat 2 c.number ++ BitVec.ofNat 11 fy ++ 0#11

/-- A word of format M (R92). -/
def wordM (op : Opcode) (c : Comp) (fy fx : Nat) : Word :=
  op.code ++ BitVec.ofNat 2 c.number ++ BitVec.ofNat 11 fy ++ BitVec.ofNat 11 fx

/-- A word of format S (R92). -/
def wordS (op : Opcode) (spA spB : Byte) : Word := op.code ++ spA ++ spB ++ 0#8

/-- The word of an instruction (R92, R95, R100). -/
def encode : Instr → Word
  | .ctxNew => wordN .ctxNew
  | .encodeImage => wordN .encodeImage
  | .streamEnd => wordN .streamEnd
  | .abort => wordN .abort
  | .sad spA spB => wordS .sad spA spB
  | .meBlock c mbY mbX => wordM .meBlock c mbY mbX
  | .meComp c => wordC .meComp c
  | .mcBlock c mbY mbX => wordM .mcBlock c mbY mbX
  | .mcComp c => wordC .mcComp c
  | .dctqBlock c => wordC .dctqBlock c
  | .deqidctBlock c => wordC .deqidctBlock c
  | .dctqRow c band => wordR .dctqRow c band
  | .deqidctRow c band => wordR .deqidctRow c band
  | .dctqPlane c => wordC .dctqPlane c
  | .deqidctPlane c => wordC .deqidctPlane c
  | .zzFwd => wordN .zzFwd
  | .zzInv => wordN .zzInv

/-- The decoder on a word of the opcode table: `nbits` low bits of `w`, the rest zero. Every command
is one 32-bit word (R91), so there is nothing to lay out. -/
def decodeTableWord (nbits w : Nat) : Option Instr :=
  match decode (BitVec.ofNat 32 (w % 2 ^ nbits)) with
  | .ok i => some i
  | .error _ => none

end Sys2Proof
end

