-- ==== Sys2Proof/Config.lean ====
section
/-! DEFINITION. What an instance of the block fixes (R8): the open parameters, which the spec makes
arguments of the model, the constants the spec fixes, the shape of the numerics record (R182) and
the one unspecified value of the interface (R245). -/

namespace Sys2Proof

/-- The open parameters of R8, arguments of the model. They are plain data that `State.params`
carries and no step changes, so a claim over every state is a claim over every instance. -/
structure Params where
  /-- `ME_RANGE`: configured search range, 0 to 128 by its type (R158). -/
  meRange : Fin 129
  /-- `KF_INTERVAL`: keyframe interval. -/
  kfInterval : Word
  /-- `QT_DEF_LUMA`: default luma table, in zig-zag order. -/
  qtDefLuma : Vector Byte 64
  /-- `QT_DEF_CHROMA`: default chroma table, in zig-zag order. -/
  qtDefChroma : Vector Byte 64
  /-- `INTRA_FILL`: what every predicted sample of a new frame holds (R45). -/
  intraFill : Byte
deriving DecidableEq, Repr

/-- The numerics record of R182: the two block functions as total functions of their 64 inputs and
the 64 table entries alone (property P1 of R196). The machine runs the instance REF32
(`Sys2Proof.Machine.ref32`). -/
structure XformNumerics where
  /-- `fwd_block`: 64 residuals in row-major order to 64 coefficients in zig-zag order. -/
  fwd : List Half → List Byte → List Half
  /-- `inv_block`: 64 coefficients in zig-zag order to 64 residuals in row-major order. -/
  inv : List Half → List Byte → List Half

namespace Config

/-- `QP`, "fixed at 25 by policy" (R7). -/
def qp : Nat := 25

/-- `MAX_DIM` (R8). -/
def maxDim : Nat := 16384

/-- The test configuration TC1 (R9), the instance `State.reset` stands for.
DESIGN CHOICE (log entry 2): the spec leaves the parameters open. -/
def tc1 : Params where
  meRange := 16
  kfInterval := 100#32
  qtDefLuma := Vector.replicate 64 25#8
  qtDefChroma := Vector.replicate 64 50#8
  intraFill := 128#8

/-- What the host gets from a read that would itself fault while the block is FAULTED: "an
unspecified 32-bit value" (R245, U25). Free: no body is visible to a proof. Its argument is the count
of such reads, so two of them need not agree. -/
opaque freeRead : Nat → BitVec 32

end Config

end Sys2Proof
end

