-- ==== Sys2Proof/Machine/State.lean ====
section
/-! DEFINITION. The state of C63-CORE as plain data (R20): the host register file, the lifecycle
flags, the quantization tables, the two frame slots, the input picture, the block buffers, and the
model's own record of the host's traffic. INVENTORY.md lists every field with its rule and reset
value. -/

namespace Sys2Proof.Machine

/-- A memory space (R60): the defined elements as (index, value) pairs, indices strictly rising. An
index that is not listed is `undef` (R66). A space of samples is a list of `Host.Cell`. -/
abbrev Space (α : Type) : Type := List (Nat × α)

/-- One value per colour component (R12). -/
structure Triple (α : Type) where
  y : α
  u : α
  v : α
deriving DecidableEq, Repr

/-- The geometry registers of one component: PADW, PADH, MBCOLS, MBROWS (R21, R220). -/
structure Geometry where
  padW : Word
  padH : Word
  mbCols : Word
  mbRows : Word
deriving DecidableEq, Repr

/-- A macroblock record: the inter flag and a whole-sample vector in two's complement (R32). -/
structure MbRecord where
  useMv : Bool
  mvX : Byte
  mvY : Byte
deriving DecidableEq, Repr

/-- A frame (R34): three planes of each kind, the coefficient planes, the macroblock grids and the
keyframe flag. -/
structure Frame where
  orig : Triple (Space Byte)
  recons : Triple (Space Byte)
  pred : Triple (Space Byte)
  resid : Triple (Space Half)
  mb : Triple (Space MbRecord)
  keyframe : Bool
deriving DecidableEq, Repr

/-- One input of the block (R16, R270): a register access of the host, or reset. A register number is
eight bits (log entry 5). -/
inductive HostAccess where
  /-- The reset event (R270). -/
  | reset
  /-- A host read of a register (R21). -/
  | read (reg : Byte)
  /-- A host write of a register; a write of CMD issues a command (R90). -/
  | write (reg : Byte) (value : Word)
deriving DecidableEq, Repr

/-- The causes a fault is recorded with (R240). These are recorded in FAULT and the machine goes on,
so they are no outcome of a step. -/
inductive Cause where
  /-- `E_CONFIG`: illegal dimensions. -/
  | config
  /-- `E_INPUT`: the host reported a malformed picture read. -/
  | input
  /-- `E_GEOMETRY`: an index or a window outside its grid, plane or space. -/
  | geometry
  /-- `E_STATE`: a command the lifecycle or frame state does not accept. -/
  | state
  /-- `E_ILLEGAL_CMD`: a word that is no command. -/
  | illegalCmd
  /-- `E_UNDEF`: an element nothing has written was read. -/
  | undef
  /-- `E_ACCESS`: an illegal host access. -/
  | access
deriving DecidableEq, Repr

/-- The state of the block and of the host's pending traffic. -/
structure State where
  /-- The instance's parameters (R8): ME_RANGE and KF_INTERVAL read them; no step changes them. -/
  params : Params
  /-- ARG0, ARG1, ARG2 (R22). -/
  arg0 : Word
  arg1 : Word
  arg2 : Word
  /-- SAD_ACC (R43). -/
  sadAcc : Word
  /-- ME_BEST (R23). -/
  meBest : Word
  /-- ME_MV, in the layout of R32 (R23). -/
  meMv : Word
  /-- POS, the position counter of the grid controller (R24). -/
  pos : Word
  /-- WIDTH, HEIGHT (R27). -/
  width : Word
  height : Word
  /-- PADW_*, PADH_*, MBCOLS_*, MBROWS_* (R27). -/
  geom : Triple Geometry
  /-- FRAMENUM, FRAMES_SINCE_KF (R27). -/
  frameNum : Word
  framesSinceKf : Word
  /-- MSEL, MADDR: the memory window (R28). -/
  msel : Word
  maddr : Word
  /-- STATUS.CTX_VALID, STATUS.ENDED, STATUS.FAULTED (R25). CUR_VALID, REF_VALID, CUR_KEY and REF_KEY
  are read off the two slots. -/
  ctxValid : Bool
  ended : Bool
  faulted : Bool
  /-- FAULT, FAULT_INFO (R26). -/
  fault : Word
  faultInfo : Word
  /-- The quantization tables `QT[c]` (R36). -/
  qt : Triple (Space Byte)
  /-- The frame slots CUR and REF (R37). -/
  cur : Option Frame
  ref : Option Frame
  /-- The input picture `PIC_IN[c]` (R39). -/
  picIn : Triple (Space Byte)
  /-- The block buffers (R38). -/
  blkIn : Space Half
  blkOut : Space Half
  /-- The model's own: host accesses not yet performed, the first is next (log entry 3). -/
  pending : List HostAccess
  /-- The model's own: what the host's latest read returned, none if it returned nothing
  (log entry 4). -/
  hostRead : Option Word
  /-- The model's own: how many unspecified values reads have taken (log entry 6). -/
  freeReads : Nat
deriving DecidableEq, Repr

/-- What stops the machine. Nothing does: every error the spec describes is recorded in FAULT, FAULT_INFO
and STATUS and the block goes on answering the host (R244, R245), so there is no constructor and no
step ends in a fault. That is safe: no behaviour is cut off. -/
inductive Fault
deriving DecidableEq, Repr

/-- What the model has no meaning for. -/
inductive Refusal where
  /-- Raised by an arm of `exec` for an instruction that has no meaning yet; no arm does now. Safe: the
  model stops where the hardware goes on. -/
  | notModelled (mnemonic : String)
deriving DecidableEq, Repr

/-- Geometry registers before construction (R21). -/
def Geometry.zero : Geometry := ⟨0#32, 0#32, 0#32, 0#32⟩

/-- The state reset leaves in an instance with parameters `p` (R47, R270, R271): every register at its
reset value, no context, no frame, every element of the block buffers `undef`. No host access is
pending. -/
def State.resetWith (p : Params) : State where
  params := p
  arg0 := 0#32
  arg1 := 0#32
  arg2 := 0#32
  sadAcc := 0#32
  meBest := 0x7FFFFFFF#32
  meMv := 0#32
  pos := 0#32
  width := 0#32
  height := 0#32
  geom := ⟨Geometry.zero, Geometry.zero, Geometry.zero⟩
  frameNum := 0#32
  framesSinceKf := 0#32
  msel := 0#32
  maddr := 0#32
  ctxValid := false
  ended := false
  faulted := false
  fault := 0#32
  faultInfo := 0#32
  qt := ⟨[], [], []⟩
  cur := none
  ref := none
  picIn := ⟨[], [], []⟩
  blkIn := []
  blkOut := []
  pending := []
  hostRead := none
  freeReads := 0

/-- The machine right after reset, for the instance TC1 of R9 (DESIGN CHOICE, log entry 2). -/
def State.reset : State := State.resetWith Config.tc1

end Sys2Proof.Machine
end

