-- ==== Sys2Proof/Machine/Ops.lean ====
section
/-! DEFINITION. The named operations over memory spaces and registers: reading and writing an element
(R11, R66), integer conversions (R10), taking a fault (R244), and running a command to its end or to
its first fault (R11, R120). -/

namespace Sys2Proof.Machine

/-! ### Triples -/

/-- The value of component `c` (R12). -/
def Triple.get {α : Type} (t : Triple α) : Comp → α
  | .y => t.y
  | .u => t.u
  | .v => t.v

/-- Component `c` replaced. -/
def Triple.set {α : Type} (t : Triple α) (c : Comp) (a : α) : Triple α :=
  match c with
  | .y => { t with y := a }
  | .u => { t with u := a }
  | .v => { t with v := a }

/-- "one routine parameterized by a per-component geometry descriptor" (R232): the triple of a
function of the component. -/
def Triple.of {α : Type} (f : Comp → α) : Triple α := ⟨f .y, f .u, f .v⟩

/-! ### Memory spaces -/

/-- `MemRead` without its fault: the element, or none where it is `undef` (R11, R66). -/
def Space.read {α : Type} : Space α → Nat → Option α
  | [], _ => none
  | (k, v) :: rest, i => if k = i then some v else Space.read rest i

/-- `MemWrite`: store an element, which becomes defined (R11). The list stays sorted. -/
def Space.write {α : Type} : Space α → Nat → α → Space α
  | [], i, a => [(i, a)]
  | (k, v) :: rest, i, a =>
    if i < k then (i, a) :: (k, v) :: rest
    else if i = k then (i, a) :: rest
    else (k, v) :: Space.write rest i a

/-- Consecutive elements from index `i` on take the values of a list. -/
def Space.writeFrom {α : Type} (m : Space α) (i : Nat) : List α → Space α
  | [] => m
  | a :: as => Space.writeFrom (Space.write m i a) (i + 1) as

/-- The elements at a list of indices, or none if one of them is `undef`. -/
def Space.readAll {α : Type} (m : Space α) : List Nat → Option (List α)
  | [] => some []
  | i :: is =>
    match Space.read m i with
    | none => none
    | some a =>
      match Space.readAll m is with
      | none => none
      | some as => some (a :: as)

/-- A space of `n` elements that all hold `a`. -/
def Space.fill {α : Type} (n : Nat) (a : α) : Space α := (List.range n).map (fun i => (i, a))

/-- Elements `0 .. n-1` are all defined. -/
def Space.allDefined {α : Type} (m : Space α) (n : Nat) : Bool :=
  (List.range n).all (fun i => (Space.read m i).isSome)

/-- Every index of a list is above `b`, and the list strictly rises. -/
def Space.risesAbove {α : Type} (b : Nat) : Space α → Bool
  | [] => true
  | (k, _) :: rest => decide (b < k) && Space.risesAbove k rest

/-- The canonical form of a space of `n` elements: indices strictly rising and below `n`. -/
def Space.wf {α : Type} (n : Nat) : Space α → Bool
  | [] => true
  | (k, v) :: rest =>
    Space.risesAbove k rest && ((k, v) :: rest).all (fun e => decide (e.1 < n))

/-! ### Integers (R10) -/

/-- `clamp(v, lo, hi)`. -/
def clamp (v lo hi : Int) : Int := if v < lo then lo else if hi < v then hi else v

/-- `sat16(n)` as an `i16`. -/
def sat16 (n : Int) : Half := BitVec.ofInt 16 (clamp n (-32768) 32767)

/-- The absolute difference of two samples, formed without wrap-around (R143). -/
def absDiff (a b : Byte) : Nat := ((a.toNat : Int) - (b.toNat : Int)).natAbs

/-! ### The macroblock record -/

/-- The default record (R32, R46). -/
def MbRecord.default : MbRecord := ⟨false, 0#8, 0#8⟩

/-- The record word: bit 0 `use_mv`, [15:8] `mv_x`, [23:16] `mv_y`, the rest zero (R32). -/
def MbRecord.word (m : MbRecord) : Word :=
  0#8 ++ m.mvY ++ m.mvX ++ 0#7 ++ BitVec.ofBool m.useMv

/-! ### Faults -/

/-- The fault codes of R240. -/
def Cause.code : Cause → Byte
  | .config => 0x01#8
  | .input => 0x02#8
  | .geometry => 0x03#8
  | .state => 0x04#8
  | .illegalCmd => 0x05#8
  | .undef => 0x06#8
  | .access => 0x07#8

/-- The three writes of fault entry (R244). -/
def State.recordFault (s : State) (c : Cause) (info : Word) : State :=
  { s with fault := c.code.setWidth 32, faultInfo := info, faulted := true }

/-- Taking a fault: "`raise F(info)`, when STATUS.FAULTED = 0, does exactly this" (R244); a second fault
cannot be recorded (R247). There is no return from a fault (R247): only reset leaves FAULTED. -/
def State.raise (s : State) (c : Cause) (info : Word) : State :=
  if s.faulted then s else s.recordFault c info

/-! ### Running a command -/

/-- How far a command has come: it is done, or it has raised a fault in a state that keeps what was
written before (R120, R244). -/
inductive Run where
  | done (s : State)
  | raised (c : Cause) (s : State)

/-- The state a run has reached, before any fault is recorded. -/
def Run.state : Run → State
  | .done s => s
  | .raised _ s => s

/-- Go on after a part that did not fault: "A `raise` ends the command" (R120). -/
def Run.andThen (r : Run) (next : State → Run) : Run :=
  match r with
  | .done s => next s
  | .raised c s => .raised c s

/-- The end of a command whose word is `info`: its fault is recorded with that word (R26). -/
def Run.commit (info : Word) : Run → State
  | .done s => s
  | .raised c s => s.raise c info

/-- A sweep: one unit after the other, up to the first fault (R15, R244). -/
def sweep {α : Type} (unit : α → State → Run) : List α → State → Run
  | [], s => .done s
  | u :: us, s => (unit u s).andThen (sweep unit us)

/-! ### Updates of one part of the state -/

/-- POS written at the start of a unit (R24). -/
def State.setPos (s : State) (w : Word) : State := { s with pos := w }

/-- SAD_ACC receives a finished sum (R43). -/
def State.setSadAcc (s : State) (w : Word) : State := { s with sadAcc := w }

/-- The result registers of the motion estimator (R23). -/
def State.setMeResult (s : State) (best mv : Word) : State := { s with meBest := best, meMv := mv }

/-- The frame in CUR replaced. -/
def State.setCur (s : State) (f : Frame) : State := { s with cur := some f }

/-- `BLK_OUT` replaced (R38). -/
def State.setBlkOut (s : State) (m : Space Half) : State := { s with blkOut := m }

/-- A frame with one record of `MB[c]` written. -/
def Frame.writeMb (f : Frame) (c : Comp) (j : Nat) (m : MbRecord) : Frame :=
  { f with mb := f.mb.set c (Space.write (f.mb.get c) j m) }

/-- A frame with `PRED[c]` replaced. -/
def Frame.setPred (f : Frame) (c : Comp) (m : Space Byte) : Frame :=
  { f with pred := f.pred.set c m }

/-- A frame with `RECONS[c]` replaced. -/
def Frame.setRecons (f : Frame) (c : Comp) (m : Space Byte) : Frame :=
  { f with recons := f.recons.set c m }

/-- A frame with `RESID[c]` replaced. -/
def Frame.setResid (f : Frame) (c : Comp) (m : Space Half) : Frame :=
  { f with resid := f.resid.set c m }

end Sys2Proof.Machine
end

