-- ==== Sys2Proof/Machine/Grid.lean ====
section
/-! DEFINITION. The macroblock-grid controller (R220 to R234): the padded geometry, the order of the
sweeps, the position counter and the address arithmetic of planes, grids and windows. -/

namespace Sys2Proof.Machine

/-- Luma padding: up to the next multiple of 16 (R221). -/
def lumaPad (n : Nat) : Nat := (n + 15) / 16 * 16

/-- Padded dimension of a component (R221, R222): chroma has exactly half the luma dimension. -/
def padDim (c : Comp) (n : Nat) : Nat :=
  match c with
  | .y => lumaPad n
  | .u => lumaPad n / 2
  | .v => lumaPad n / 2

/-- The geometry of a component for raw dimensions `w` and `h` (R221 to R223). -/
def geometryOf (w h : Nat) (c : Comp) : Geometry where
  padW := BitVec.ofNat 32 (padDim c w)
  padH := BitVec.ofNat 32 (padDim c h)
  mbCols := BitVec.ofNat 32 (padDim c w / 8)
  mbRows := BitVec.ofNat 32 (padDim c h / 8)

/-- `pw[c]` (R12). -/
def State.pw (s : State) (c : Comp) : Nat := (s.geom.get c).padW.toNat

/-- `ph[c]` (R12). -/
def State.ph (s : State) (c : Comp) : Nat := (s.geom.get c).padH.toNat

/-- `cols[c]` (R12). -/
def State.cols (s : State) (c : Comp) : Nat := (s.geom.get c).mbCols.toNat

/-- `rows[c]` (R12). -/
def State.rows (s : State) (c : Comp) : Nat := (s.geom.get c).mbRows.toNat

/-- Elements of a plane of component `c` (R30, R31). -/
def State.planeSize (s : State) (c : Comp) : Nat := s.pw c * s.ph c

/-- Records of a grid of component `c` (R33). -/
def State.gridSize (s : State) (c : Comp) : Nat := s.cols c * s.rows c

/-- POS for the unit `(x, y)` of component `c` (R24, R230). -/
def posWord (c : Comp) (x y : Nat) : Word :=
  BitVec.ofNat 32 (2 ^ 22 * c.number + 2 ^ 11 * y + x)

/-- Raster order: row by row from the top, left to right (R226, R227). -/
def raster (cols rows : Nat) : List (Nat × Nat) :=
  (List.range rows).flatMap (fun y => (List.range cols).map (fun x => (x, y)))

/-- The offsets of the 64 samples of an 8x8 window of stride `t`, row by row (R65). -/
def blockOffsets (t : Nat) : List Nat :=
  (List.range 8).flatMap (fun r => (List.range 8).map (fun k => r * t + k))

/-- The indices of the 64 samples of the window with origin `o` and stride `t` (R65). -/
def windowIndices (o t : Nat) : List Nat := (blockOffsets t).map (fun d => o + d)

/-- "The window is valid when `o + 7 * t + 7 < size(S)`" (R65). -/
def windowValid (o t size : Nat) : Bool := decide (o + 7 * t + 7 < size)

/-- Element of sample `(x, y)` in a plane of width `pw` (R12, R233). -/
def sampleIndex (pw x y : Nat) : Nat := y * pw + x

end Sys2Proof.Machine
end

