-- ==== Sys2Proof/Machine/Operands.lean ====
section
/-! DEFINITION. The operand forms: memory space ids (R61), host register numbers (R21), the elements
of the spaces as words of the host window (R63), the signed and unsigned reading of the operand
registers (R94). -/

namespace Sys2Proof.Machine

/-- The two frame slots (R13). -/
inductive Slot where
  | cur
  | ref
deriving DecidableEq, Repr

/-- The memory spaces of R61. -/
inductive SpaceRef where
  | orig (f : Slot) (c : Comp)
  | recons (f : Slot) (c : Comp)
  | pred (f : Slot) (c : Comp)
  | resid (f : Slot) (c : Comp)
  | mb (f : Slot) (c : Comp)
  | picIn (c : Comp)
  | qt (c : Comp)
  | blkIn
  | blkOut
deriving DecidableEq, Repr

/-- The base of a slot's ids (R61): `slot * 0x20`. -/
def Slot.base : Slot → Nat
  | .cur => 0x00
  | .ref => 0x20

/-- The id of a space (R61): for the frame spaces `slot * 0x20 + kind * 4 + c`. -/
def SpaceRef.id : SpaceRef → Nat
  | .orig f c => f.base + 0x00 + c.number
  | .recons f c => f.base + 0x04 + c.number
  | .pred f c => f.base + 0x08 + c.number
  | .resid f c => f.base + 0x0C + c.number
  | .mb f c => f.base + 0x10 + c.number
  | .picIn c => 0x40 + c.number
  | .qt c => 0x44 + c.number
  | .blkIn => 0x48
  | .blkOut => 0x49

/-- The frame space of a slot with a given kind number (R61). -/
def frameSpace (f : Slot) (kind : Nat) (c : Comp) : Option SpaceRef :=
  match kind with
  | 0 => some (.orig f c)
  | 1 => some (.recons f c)
  | 2 => some (.pred f c)
  | 3 => some (.resid f c)
  | 4 => some (.mb f c)
  | _ => none

/-- The space an id names; a reserved id names none (R61). -/
def SpaceRef.ofId (id : Byte) : Option SpaceRef :=
  let n := id.toNat
  if n = 0x48 then some .blkIn
  else if n = 0x49 then some .blkOut
  else
    match Comp.ofNumber (n % 4) with
    | none => none
    | some c =>
      if n < 0x20 then frameSpace .cur (n / 4) c
      else if n < 0x40 then frameSpace .ref (n / 4 - 8) c
      else if n < 0x44 then some (.picIn c)
      else if n < 0x48 then some (.qt c)
      else none

/-- The frame in a slot, if there is one (R37). -/
def State.frame (s : State) : Slot → Option Frame
  | .cur => s.cur
  | .ref => s.ref

/-- Column "Exists when" of R61. -/
def State.hasSpace (s : State) : SpaceRef → Bool
  | .orig f _ => (s.frame f).isSome
  | .recons f _ => (s.frame f).isSome
  | .pred f _ => (s.frame f).isSome
  | .resid f _ => (s.frame f).isSome
  | .mb f _ => (s.frame f).isSome
  | .picIn _ => s.ctxValid
  | .qt _ => s.ctxValid
  | .blkIn => true
  | .blkOut => true

/-- Column "Elements" of R61. -/
def State.spaceSize (s : State) : SpaceRef → Nat
  | .orig _ c => s.planeSize c
  | .recons _ c => s.planeSize c
  | .pred _ c => s.planeSize c
  | .resid _ c => s.planeSize c
  | .mb _ c => s.gridSize c
  | .picIn c => s.planeSize c
  | .qt _ => 64
  | .blkIn => 64
  | .blkOut => 64

/-- Column "Host may" of R61: the spaces the host may write. -/
def SpaceRef.hostMayWrite : SpaceRef → Bool
  | .pred .cur _ => true
  | .picIn _ => true
  | .blkIn => true
  | .orig _ _ => false
  | .recons _ _ => false
  | .pred .ref _ => false
  | .resid _ _ => false
  | .mb _ _ => false
  | .qt _ => false
  | .blkOut => false

/-- A sample or table entry on the host interface: `zext_8` (R63). -/
def wordOfByte (b : Byte) : Word := b.setWidth 32

/-- A coefficient on the host interface: `sext_16` (R63). -/
def wordOfHalf (h : Half) : Word := h.signExtend 32

/-- A plane of a slot; an empty slot has no element. -/
def State.plane {α : Type} (s : State) (f : Slot) (part : Frame → Triple (Space α)) (c : Comp) :
    Space α :=
  match s.frame f with
  | none => []
  | some fr => (part fr).get c

/-- An element of a space as the word a host read of it returns, none where it is `undef` or the space
does not exist (R63, R66). -/
def State.element (s : State) (sp : SpaceRef) (i : Nat) : Option Word :=
  match sp with
  | .orig f c => (Space.read (s.plane f Frame.orig c) i).map wordOfByte
  | .recons f c => (Space.read (s.plane f Frame.recons c) i).map wordOfByte
  | .pred f c => (Space.read (s.plane f Frame.pred c) i).map wordOfByte
  | .resid f c => (Space.read (s.plane f Frame.resid c) i).map wordOfHalf
  | .mb f c => (Space.read (s.plane f Frame.mb c) i).map MbRecord.word
  | .picIn c => (Space.read (s.picIn.get c) i).map wordOfByte
  | .qt c => (Space.read (s.qt.get c) i).map wordOfByte
  | .blkIn => (Space.read s.blkIn i).map wordOfHalf
  | .blkOut => (Space.read s.blkOut i).map wordOfHalf

/-- A value stored through the host window: the element takes the low bits of the value and becomes
defined (R63). Only the spaces the host may write are reached (R64); a store to another changes
nothing. -/
def State.storeElement (s : State) (sp : SpaceRef) (i : Nat) (v : Word) : State :=
  match sp with
  | .pred .cur c =>
    match s.cur with
    | none => s
    | some f => s.setCur (f.setPred c (Space.write (f.pred.get c) i (v.setWidth 8)))
  | .picIn c => { s with picIn := s.picIn.set c (Space.write (s.picIn.get c) i (v.setWidth 8)) }
  | .blkIn => { s with blkIn := Space.write s.blkIn i (v.setWidth 16) }
  | .orig _ _ => s
  | .recons _ _ => s
  | .pred .ref _ => s
  | .resid _ _ => s
  | .mb _ _ => s
  | .qt _ => s
  | .blkOut => s

/-- A sample space a SAD may name: it exists, its elements are `u8`, and it is no table (R142). -/
def State.sadSpace (s : State) (id : Byte) : Option (Space Byte × Nat) :=
  match SpaceRef.ofId id with
  | some (.orig f c) => (s.frame f).map (fun fr => (fr.orig.get c, s.planeSize c))
  | some (.recons f c) => (s.frame f).map (fun fr => (fr.recons.get c, s.planeSize c))
  | some (.pred f c) => (s.frame f).map (fun fr => (fr.pred.get c, s.planeSize c))
  | some (.picIn c) => if s.ctxValid then some (s.picIn.get c, s.planeSize c) else none
  | some (.resid _ _) => none
  | some (.mb _ _) => none
  | some (.qt _) => none
  | some .blkIn => none
  | some .blkOut => none
  | none => none

/-- The registers of R21. -/
inductive HostReg where
  | cmd | status | fault | faultInfo | arg0 | arg1 | arg2
  | sadAcc | meBest | meMv | pos | width | height
  | padW (c : Comp) | padH (c : Comp) | mbCols (c : Comp) | mbRows (c : Comp)
  | qp | meRange | kfInterval | frameNum | framesSinceKf
  | msel | maddr | mdata
deriving DecidableEq, Repr

/-- The number of a register (R21). -/
def HostReg.number : HostReg → Nat
  | .cmd => 0x00
  | .status => 0x01
  | .fault => 0x02
  | .faultInfo => 0x03
  | .arg0 => 0x04
  | .arg1 => 0x05
  | .arg2 => 0x06
  | .sadAcc => 0x08
  | .meBest => 0x09
  | .meMv => 0x0A
  | .pos => 0x0B
  | .width => 0x10
  | .height => 0x11
  | .padW c => 0x12 + 2 * c.number
  | .padH c => 0x13 + 2 * c.number
  | .mbCols c => 0x18 + 2 * c.number
  | .mbRows c => 0x19 + 2 * c.number
  | .qp => 0x1E
  | .meRange => 0x1F
  | .kfInterval => 0x20
  | .frameNum => 0x21
  | .framesSinceKf => 0x22
  | .msel => 0x30
  | .maddr => 0x31
  | .mdata => 0x32

/-- Every register of R21. -/
def HostReg.all : List HostReg :=
  [.cmd, .status, .fault, .faultInfo, .arg0, .arg1, .arg2, .sadAcc, .meBest, .meMv, .pos,
   .width, .height, .padW .y, .padH .y, .padW .u, .padH .u, .padW .v, .padH .v,
   .mbCols .y, .mbRows .y, .mbCols .u, .mbRows .u, .mbCols .v, .mbRows .v,
   .qp, .meRange, .kfInterval, .frameNum, .framesSinceKf, .msel, .maddr, .mdata]

/-- The register with a number; "a number not in the table does not exist" (R21). -/
def HostReg.ofNumber (n : Byte) : Option HostReg :=
  HostReg.all.find? (fun r => r.number == n.toNat)

/-- Column "Access" of R21: the registers the host may write. -/
def HostReg.writable : HostReg → Bool
  | .cmd | .arg0 | .arg1 | .arg2 | .msel | .maddr | .mdata => true
  | .status | .fault | .faultInfo | .sadAcc | .meBest | .meMv | .pos | .width | .height => false
  | .padW _ | .padH _ | .mbCols _ | .mbRows _ => false
  | .qp | .meRange | .kfInterval | .frameNum | .framesSinceKf => false

/-- `width = sext_32(x[ARG0])` (R94). -/
def State.widthOperand (s : State) : Int := s.arg0.toInt

/-- `height = sext_32(x[ARG1])` (R94). -/
def State.heightOperand (s : State) : Int := s.arg1.toInt

/-- `off_a = zext_32(x[ARG0])` (R94). -/
def State.offA (s : State) : Nat := s.arg0.toNat

/-- `off_b = zext_32(x[ARG1])` (R94). -/
def State.offB (s : State) : Nat := s.arg1.toNat

/-- `stride = zext_32(x[ARG2])` (R94). -/
def State.stride (s : State) : Nat := s.arg2.toNat

/-- The information word of a fault a host access raises:
`(register number << 24) | (x[MSEL][7:0] << 16) | x[MADDR][15:0]` (R26). -/
def State.accessWord (s : State) (reg : Byte) : Word :=
  reg ++ s.msel.extractLsb' 0 8 ++ s.maddr.extractLsb' 0 16

end Sys2Proof.Machine
end

