-- ==== Sys2Proof/Machine/Flags.lean ====
section
/-! DEFINITION. The status flags (R25), the lifecycle (R41) and the acceptance table (R241). -/

namespace Sys2Proof.Machine

/-- STATUS.CUR_VALID (R25). -/
def State.curValid (s : State) : Bool := s.cur.isSome

/-- STATUS.REF_VALID (R25). -/
def State.refValid (s : State) : Bool := s.ref.isSome

/-- The keyframe flag of a slot's frame; 0 for an empty slot (R25, R34). -/
def keyFlag (f : Option Frame) : Bool :=
  match f with
  | none => false
  | some fr => fr.keyframe

/-- STATUS.CUR_KEY (R25). -/
def State.curKey (s : State) : Bool := keyFlag s.cur

/-- STATUS.REF_KEY (R25). -/
def State.refKey (s : State) : Bool := keyFlag s.ref

/-- STATUS: bits 0 to 6, the rest read as zero (R25). -/
def State.status (s : State) : Word :=
  0#25 ++ BitVec.ofBool s.faulted ++ BitVec.ofBool s.ended ++ BitVec.ofBool s.refKey
    ++ BitVec.ofBool s.curKey ++ BitVec.ofBool s.refValid ++ BitVec.ofBool s.curValid
    ++ BitVec.ofBool s.ctxValid

/-- The states of the block (R41). -/
inductive Lifecycle where
  | unconstructed
  | ready
  | ended
  | faulted
deriving DecidableEq, Repr

/-- "The lifecycle state is read from STATUS"; FAULTED overrides the others (R241). -/
def State.lifecycle (s : State) : Lifecycle :=
  if s.faulted then .faulted
  else if !s.ctxValid then .unconstructed
  else if s.ended then .ended
  else .ready

/-- The columns READY and ENDED both accept; UNCONSTRUCTED does not (R241). -/
def Lifecycle.constructed : Lifecycle → Bool
  | .unconstructed => false
  | .ready => true
  | .ended => true
  | .faulted => false

/-- The motion estimator's frame state: CUR_VALID = 1, REF_VALID = 1, CUR_KEY = 0 (R151). -/
def State.searchable (s : State) : Bool := s.curValid && s.refValid && !s.curKey

/-- The acceptance table R241, with the column "Further state the command needs". A command that is
not accepted raises `E_STATE`; ABORT is exempt (R129). In FAULTED nothing is executed (R245). -/
def accepts (i : Instr) (s : State) : Bool :=
  match i with
  | .ctxNew => s.lifecycle == .unconstructed
  | .encodeImage => s.lifecycle == .ready && s.frameNum != 0xFFFFFFFF#32
  | .streamEnd => s.lifecycle == .ready
  | .abort => s.lifecycle != .faulted
  | .sad _ _ => s.lifecycle.constructed
  | .meBlock _ _ _ => s.lifecycle.constructed && s.searchable
  | .meComp _ => s.lifecycle.constructed && s.searchable
  | .mcBlock _ _ _ => s.lifecycle.constructed && s.curValid
  | .mcComp _ => s.lifecycle.constructed && s.curValid
  | .dctqBlock _ => s.lifecycle.constructed
  | .deqidctBlock _ => s.lifecycle.constructed
  | .dctqRow _ _ => s.lifecycle.constructed && s.curValid
  | .deqidctRow _ _ => s.lifecycle.constructed && s.curValid
  | .dctqPlane _ => s.lifecycle.constructed && s.curValid
  | .deqidctPlane _ => s.lifecycle.constructed && s.curValid
  | .zzFwd => s.lifecycle.constructed
  | .zzInv => s.lifecycle.constructed

/-- A command: the lifecycle check, then its rule, then the fault it raised if it raised one, recorded
with the command word (R90, R120, R243). Every command is one step to a next state (R11). -/
def runCommand (i : Instr) (body : State → Run) (s : State) :
    Host.Outcome State Fault Refusal :=
  .next (if accepts i s then (body s).commit (encode i) else s.raise .state (encode i))

end Sys2Proof.Machine
end

