-- ==== Sys2Proof/Machine/Distortion.lean ====
section
/-! DEFINITION. The distortion metric and the command SAD (R140 to R145). -/

namespace Sys2Proof.Machine

/-- The sum of the absolute differences of two lists of samples, pair by pair (R141). -/
def sumAbsDiff : List Byte → List Byte → Nat
  | a :: as, b :: bs => absDiff a b + sumAbsDiff as bs
  | _, _ => 0

/-- `sad(A, oa, B, ob, t)`: none where one of the 128 elements is `undef` (R141). -/
def sadValue (a : Space Byte) (oa : Nat) (b : Space Byte) (ob t : Nat) : Option Nat :=
  match Space.readAll a (windowIndices oa t), Space.readAll b (windowIndices ob t) with
  | some as, some bs => some (sumAbsDiff as bs)
  | _, _ => none

/-- SAD after the lifecycle check: the two spaces, the two windows, then the sum (R142). -/
def sadBody (spA spB : Byte) (s : State) : Run :=
  match s.sadSpace spA, s.sadSpace spB with
  | some (a, sizeA), some (b, sizeB) =>
    if windowValid s.offA s.stride sizeA && windowValid s.offB s.stride sizeB then
      match sadValue a s.offA b s.offB s.stride with
      | some d => .done (s.setSadAcc (BitVec.ofNat 32 d))
      | none => .raised .undef s
    else .raised .geometry s
  | _, _ => .raised .geometry s

/-- SAD (R142). -/
def execSad (spA spB : Byte) (s : State) : Host.Outcome State Fault Refusal :=
  runCommand (.sad spA spB) (sadBody spA spB) s

end Sys2Proof.Machine
end

