-- ==== Sys2Proof/Machine/MotionEstimation.lean ====
section
/-! DEFINITION. The motion estimator: the exhaustive block search of one macroblock, the sweep of a
component, and the commands ME_BLOCK and ME_COMP (R150 to R161). -/

namespace Sys2Proof.Machine

/-- `rng(c)`: the configured range for luma, half of it for chroma (R152). -/
def State.rng (s : State) (c : Comp) : Nat :=
  match c with
  | .y => s.params.meRange.val
  | .u => s.params.meRange.val / 2
  | .v => s.params.meRange.val / 2

/-- The clipped search window of one macroblock (R153): half-open in both axes. -/
structure SearchWindow where
  left : Nat
  right : Nat
  top : Nat
  bottom : Nat
deriving DecidableEq, Repr

/-- The clips of R153. Subtraction of naturals stops at 0, which is the clip at 0 on the left; a plane
narrower than a block has no candidate on either reading. -/
def searchWindow (pw ph r ax ay : Nat) : SearchWindow where
  left := ax - r
  right := min (ax + r) (pw - 8)
  top := ay - r
  bottom := min (ay + r) (ph - 8)

/-- The candidates in raster order: `left <= x < right`, `top <= y < bottom`, top row first (R153). -/
def SearchWindow.candidates (w : SearchWindow) : List (Nat × Nat) :=
  (List.range' w.top (w.bottom - w.top)).flatMap
    (fun y => (List.range' w.left (w.right - w.left)).map (fun x => (x, y)))

/-- The search's working state (R42): the smallest distortion so far, its vector, and the last finished
sum, which is what SAD_ACC holds. -/
structure Search where
  best : Nat
  mvX : Byte
  mvY : Byte
  sadAcc : Word
deriving DecidableEq, Repr

/-- One candidate whose distortion is `d`: kept only when strictly smaller (R154). -/
def Search.consider (st : Search) (ax ay : Nat) (cand : Nat × Nat) (d : Nat) : Search :=
  if d < st.best then
    { best := d
      mvX := BitVec.ofInt 8 ((cand.1 : Int) - ax)
      mvY := BitVec.ofInt 8 ((cand.2 : Int) - ay)
      sadAcc := BitVec.ofNat 32 d }
  else { st with sadAcc := BitVec.ofNat 32 d }

/-- Every candidate in order, or up to the first whose distortion cannot be formed because a sample is
`undef`; the flag says whether every candidate was evaluated (R154, R157). -/
def searchLoop (score : Nat × Nat → Option Nat) (ax ay : Nat) :
    List (Nat × Nat) → Search → Search × Bool
  | [], st => (st, true)
  | cand :: rest, st =>
    match score cand with
    | none => (st, false)
    | some d => searchLoop score ax ay rest (st.consider ax ay cand d)

/-- The search window of macroblock `(mbX, mbY)` of component `c` (R153). -/
def State.meWindow (s : State) (c : Comp) (mbX mbY : Nat) : SearchWindow :=
  searchWindow (s.pw c) (s.ph c) (s.rng c) (mbX * 8) (mbY * 8)

/-- The distortion of one candidate: the anchor block of the original plane against the candidate
window of the reconstructed reference plane (R150, R153). -/
def meScore (orig recons : Space Byte) (pw ax ay : Nat) (cand : Nat × Nat) : Option Nat :=
  sadValue orig (sampleIndex pw ax ay) recons (sampleIndex pw cand.1 cand.2) pw

/-- The state in which a search starts: the record's old vector, and a best no sum reaches (R157). -/
def searchStart (old : MbRecord) (sadAcc : Word) : Search where
  best := 0x7FFFFFFF
  mvX := old.mvX
  mvY := old.mvY
  sadAcc := sadAcc

/-- The search of macroblock `mb = (mbX, mbY)` over the given planes (R153 to R157). -/
def meSearch (s : State) (cur ref : Frame) (c : Comp) (mb : Nat × Nat) (old : MbRecord) :
    Search × Bool :=
  searchLoop
    (meScore (cur.orig.get c) (ref.recons.get c) (s.pw c) (mb.1 * 8) (mb.2 * 8))
    (mb.1 * 8) (mb.2 * 8) (s.meWindow c mb.1 mb.2).candidates (searchStart old s.sadAcc)

/-- The record a finished search writes: `use_mv` true unconditionally (R155). -/
def Search.record (st : Search) : MbRecord := ⟨true, st.mvX, st.mvY⟩

/-- `me_block(c, mb_x, mb_y)` after POS is written (R157), `mb = (mbX, mbY)`. The frames are present when
it runs: the commands check them (R151), and a non-keyframe has a reference (R124). -/
def meAt (c : Comp) (mb : Nat × Nat) (s : State) : Run :=
  match s.cur, s.ref with
  | some cur, some ref =>
    let j := mb.2 * s.cols c + mb.1
    match Space.read (cur.mb.get c) j with
    | none => .raised .undef s
    | some old =>
      match meSearch s cur ref c mb old with
      | (st, true) =>
        .done (((s.setSadAcc st.sadAcc).setCur (cur.writeMb c j st.record)).setMeResult
          (BitVec.ofNat 32 st.best) st.record.word)
      | (st, false) => .raised .undef (s.setSadAcc st.sadAcc)
  | _, _ => .raised .state s

/-- `me_block(c, mb_x, mb_y)`: POS first, then the search (R157). -/
def meUnit (c : Comp) (mb : Nat × Nat) (s : State) : Run :=
  meAt c mb (s.setPos (posWord c mb.1 mb.2))

/-- `me_component(c)`: every macroblock in raster order (R157, R226). -/
def meSweep (c : Comp) (s : State) : Run := sweep (meUnit c) (raster (s.cols c) (s.rows c)) s

/-- ME_BLOCK after the lifecycle check (R159). -/
def meBlockBody (c : Comp) (mbY mbX : Nat) (s : State) : Run :=
  if mbX < s.cols c ∧ mbY < s.rows c then meUnit c (mbX, mbY) s else .raised .geometry s

/-- ME_BLOCK (R159). -/
def execMeBlock (c : Comp) (mbY mbX : Nat) (s : State) : Host.Outcome State Fault Refusal :=
  runCommand (.meBlock c mbY mbX) (meBlockBody c mbY mbX) s

/-- ME_COMP (R160). -/
def execMeComp (c : Comp) (s : State) : Host.Outcome State Fault Refusal :=
  runCommand (.meComp c) (meSweep c) s

end Sys2Proof.Machine
end

