-- ==== Sys2Proof/Machine/Context.lean ====
section
/-! DEFINITION. The encode context and its commands: CTX_NEW, ENCODE_IMAGE, STREAM_END, ABORT
(R120 to R129). -/

namespace Sys2Proof.Machine

/-! ### CTX_NEW -/

/-- A legal raw dimension: 1 to 16384 (R121). -/
def legalDim (n : Int) : Bool := decide (0 < n) && decide (n ≤ Config.maxDim)

/-- A table entry: `max(1, (e * 10) div QP)` (R122). -/
def qtEntry (e : Byte) : Byte := BitVec.ofNat 8 (max 1 (e.toNat * 10 / Config.qp))

/-- A quantization table built from a default table, by zig-zag position (R122). -/
def buildTable (defaults : Vector Byte 64) : Space Byte :=
  defaults.toList.mapIdx (fun k e => (k, qtEntry e))

/-- The three tables: one for luma, one shared by both chroma components (R122). -/
def buildTables (p : Params) : Triple (Space Byte) :=
  ⟨buildTable p.qtDefLuma, buildTable p.qtDefChroma, buildTable p.qtDefChroma⟩

/-- The state CTX_NEW leaves for legal dimensions `w` and `h` (R121). -/
def State.construct (s : State) (w h : Nat) : State :=
  { s with
    width := BitVec.ofNat 32 w
    height := BitVec.ofNat 32 h
    geom := Triple.of (geometryOf w h)
    qt := buildTables s.params
    frameNum := 0#32
    framesSinceKf := 0#32
    cur := none
    ref := none
    picIn := ⟨[], [], []⟩
    ctxValid := true }

/-- CTX_NEW after the lifecycle check: nothing is written before the dimensions pass (R121). -/
def ctxNewBody (s : State) : Run :=
  if legalDim s.widthOperand && legalDim s.heightOperand then
    .done (s.construct s.widthOperand.toNat s.heightOperand.toNat)
  else .raised .config s

/-- CTX_NEW (R121). -/
def execCtxNew (s : State) : Host.Outcome State Fault Refusal := runCommand .ctxNew ctxNewBody s

/-! ### ENCODE_IMAGE -/

/-- Every element of `PIC_IN` is defined (R126). -/
def State.pictureComplete (s : State) : Bool :=
  Space.allDefined (s.picIn.get .y) (s.planeSize .y) &&
  Space.allDefined (s.picIn.get .u) (s.planeSize .u) &&
  Space.allDefined (s.picIn.get .v) (s.planeSize .v)

/-- The keyframe decision (R124 (b)). -/
def State.nextIsKey (s : State) : Bool :=
  s.frameNum == 0#32 || s.framesSinceKf == s.params.kfInterval

/-- A newly allocated frame (R44 to R46). -/
def State.newFrame (s : State) (key : Bool) : Frame where
  orig := s.picIn
  recons := ⟨[], [], []⟩
  pred := Triple.of (fun c => Space.fill (s.planeSize c) s.params.intraFill)
  resid := ⟨[], [], []⟩
  mb := Triple.of (fun c => Space.fill (s.gridSize c) MbRecord.default)
  keyframe := key

/-- Steps (a) to (c): the move, the keyframe decision, the new frame (R124). -/
def State.acceptPicture (s : State) : State :=
  { s with
    ref := s.cur
    framesSinceKf := if s.nextIsKey then 0#32 else s.framesSinceKf
    cur := some (s.newFrame s.nextIsKey) }

/-- Step (e): both counters, unconditionally (R124). -/
def State.countPicture (s : State) : State :=
  { s with frameNum := s.frameNum + 1#32, framesSinceKf := s.framesSinceKf + 1#32 }

/-- Step (d): the search over Y, then U, then V (R124, R226). -/
def meFrame (s : State) : Run := sweep meSweep [Comp.y, Comp.u, Comp.v] s

/-- ENCODE_IMAGE after the lifecycle and counter check (R124). -/
def encodeImageBody (s : State) : Run :=
  if s.pictureComplete then
    (if s.nextIsKey then .done s.acceptPicture else meFrame s.acceptPicture).andThen
      (fun t => .done t.countPicture)
  else .raised .undef s

/-- ENCODE_IMAGE (R124). -/
def execEncodeImage (s : State) : Host.Outcome State Fault Refusal :=
  runCommand .encodeImage encodeImageBody s

/-! ### STREAM_END and ABORT -/

/-- STATUS.ENDED set (R128). -/
def State.setEnded (s : State) : State := { s with ended := true }

/-- STREAM_END (R128). -/
def execStreamEnd (s : State) : Host.Outcome State Fault Refusal :=
  runCommand .streamEnd (fun s => .done s.setEnded) s

/-- ABORT always takes `E_INPUT` and changes nothing else (R129). -/
def execAbort (s : State) : Host.Outcome State Fault Refusal :=
  runCommand .abort (fun s => .raised .input s) s

end Sys2Proof.Machine
end

