-- ==== Sys2Proof/Machine/MotionCompensation.lean ====
section
/-! DEFINITION. The motion compensator: the whole-sample block copy of one macroblock, the sweep of a
component, and the commands MC_BLOCK and MC_COMP (R170 to R175). -/

namespace Sys2Proof.Machine

/-- Copy samples one by one, from source index to destination index, up to the first `undef` source;
what was copied before stays (R171, R172). The flag says whether all were copied. -/
def copySamples (src : Space Byte) : List (Nat × Nat) → Space Byte → Space Byte × Bool
  | [], dst => (dst, true)
  | (i, j) :: rest, dst =>
    match Space.read src i with
    | none => (dst, false)
    | some v => copySamples src rest (Space.write dst j v)

/-- The 64 moves of one block, row by row (R171). -/
def blockMoves (pw srcOrigin dstOrigin : Nat) : List (Nat × Nat) :=
  (blockOffsets pw).map (fun d => (srcOrigin + d, dstOrigin + d))

/-- The source position lies inside the plane: `0 <= p <= dim - 8` (R171). -/
def sourceInside (p : Int) (dim : Nat) : Bool := decide (0 ≤ p) && decide (p ≤ (dim : Int) - 8)

/-- `mc_block(c, mb_x, mb_y)` after POS is written (R171), `mb = (mbX, mbY)`. -/
def mcAt (c : Comp) (mb : Nat × Nat) (s : State) : Run :=
  match s.cur, s.ref with
  | some cur, some ref =>
    match Space.read (cur.mb.get c) (mb.2 * s.cols c + mb.1) with
    | none => .raised .undef s
    | some m =>
      if m.useMv then
        let sx : Int := (mb.1 * 8 : Nat) + m.mvX.toInt
        let sy : Int := (mb.2 * 8 : Nat) + m.mvY.toInt
        if sourceInside sx (s.pw c) && sourceInside sy (s.ph c) then
          match copySamples (ref.recons.get c)
              (blockMoves (s.pw c) (sampleIndex (s.pw c) sx.toNat sy.toNat)
                (sampleIndex (s.pw c) (mb.1 * 8) (mb.2 * 8)))
              (cur.pred.get c) with
          | (p, true) => .done (s.setCur (cur.setPred c p))
          | (p, false) => .raised .undef (s.setCur (cur.setPred c p))
        else .raised .geometry s
      else .done s
  | _, _ => .raised .state s

/-- `mc_block(c, mb_x, mb_y)`: POS first, then the copy (R171). -/
def mcUnit (c : Comp) (mb : Nat × Nat) (s : State) : Run :=
  mcAt c mb (s.setPos (posWord c mb.1 mb.2))

/-- `mc_component(c)`: every macroblock in raster order (R171, R227). -/
def mcSweep (c : Comp) (s : State) : Run := sweep (mcUnit c) (raster (s.cols c) (s.rows c)) s

/-- MC_BLOCK after the check that a current frame exists: the grid, then the keyframe case, which only
writes POS (R172, R174). -/
def mcBlockBody (c : Comp) (mbY mbX : Nat) (s : State) : Run :=
  if mbX < s.cols c ∧ mbY < s.rows c then
    if s.curKey then .done (s.setPos (posWord c mbX mbY))
    else if s.refValid then mcUnit c (mbX, mbY) s
    else .raised .state s
  else .raised .geometry s

/-- MC_COMP after the check that a current frame exists (R173, R174). -/
def mcCompBody (c : Comp) (s : State) : Run :=
  if s.curKey then .done (s.setPos (posWord c (s.cols c - 1) (s.rows c - 1)))
  else if s.refValid then mcSweep c s
  else .raised .state s

/-- MC_BLOCK (R172). -/
def execMcBlock (c : Comp) (mbY mbX : Nat) (s : State) : Host.Outcome State Fault Refusal :=
  runCommand (.mcBlock c mbY mbX) (mcBlockBody c mbY mbX) s

/-- MC_COMP (R173). -/
def execMcComp (c : Comp) (s : State) : Host.Outcome State Fault Refusal :=
  runCommand (.mcComp c) (mcCompBody c) s

end Sys2Proof.Machine
end

