-- ==== Sys2Proof/Machine/Float32.lean ====
section
/-! DEFINITION. The binary32 arithmetic of REF32 (R182): every product, sum and quotient rounded once to
a 24-bit significand, to nearest, ties to even. A value is an integer significand times a power of
two. R185 shows that no NaN, infinity, overflow or subnormal arises and that the sign of zero is not
seen, so the exponent is unbounded and zero has one form (log entry 8). -/

namespace Sys2Proof.Machine

/-- A finite binary32 value `sig * 2 ^ exp`. -/
structure F32 where
  sig : Int
  exp : Int
deriving DecidableEq, Repr

/-- 0.0 -/
def F32.zero : F32 := ⟨0, 0⟩

/-- A magnitude `n * 2 ^ e` rounded to 24 bits, nearest, ties to even (R182 (a)). -/
def roundMag (n : Nat) (e : Int) : Nat × Int :=
  if n < 2 ^ 24 then (n, e)
  else
    let shift := Nat.log2 n - 23
    let unit := 2 ^ shift
    let q := n / unit
    let rem := n % unit
    let up := unit < 2 * rem ∨ (unit = 2 * rem ∧ q % 2 = 1)
    (if up then q + 1 else q, e + shift)

/-- `m * 2 ^ e` rounded to binary32. -/
def F32.round (m e : Int) : F32 :=
  if m = 0 then .zero
  else
    let r := roundMag m.natAbs e
    ⟨if m < 0 then -(r.1 : Int) else r.1, r.2⟩

/-- A rounded product. -/
def F32.mul (a b : F32) : F32 := F32.round (a.sig * b.sig) (a.exp + b.exp)

/-- A rounded sum. -/
def F32.add (a b : F32) : F32 :=
  let e := min a.exp b.exp
  F32.round (a.sig * 2 ^ (a.exp - e).toNat + b.sig * 2 ^ (b.exp - e).toNat) e

/-- A rounded quotient: the exact quotient to 60 binary places and one sticky bit below them, which
decides the rounding of 24 bits. A divisor is never 0 (R185). -/
def F32.div (a b : F32) : F32 :=
  let n := a.sig.natAbs * 2 ^ 60
  let d := b.sig.natAbs
  let q := 2 * (n / d) + (if n % d = 0 then 0 else 1)
  F32.round (if (a.sig < 0) = (b.sig < 0) then (q : Int) else -(q : Int)) (a.exp - b.exp - 61)

/-- An integer of magnitude at most 2^24, exact (R182 (c)). -/
def F32.ofInt (n : Int) : F32 := F32.round n 0

/-- A normal number's bit pattern: sign, biased exponent, fraction. -/
def F32.ofBits (w : Word) : F32 :=
  let sig : Nat := 2 ^ 23 + (w.extractLsb' 0 23).toNat
  ⟨if w.getMsbD 0 then -(sig : Int) else sig, ((w.extractLsb' 23 8).toNat : Int) - 150⟩

/-- `floor(n / d + 1/2)` for naturals. -/
def halfUp (n d : Nat) : Nat := (2 * n + d) / (2 * d)

/-- `rha`: the nearest integer, ties away from zero (R10, R182 (h)). -/
def F32.rha (a : F32) : Int :=
  let mag : Nat :=
    if 0 ≤ a.exp then a.sig.natAbs * 2 ^ a.exp.toNat else halfUp a.sig.natAbs (2 ^ (-a.exp).toNat)
  if a.sig < 0 then -(mag : Int) else mag

end Sys2Proof.Machine
end

