-- ==== Sys2Proof/Machine/Ref32.lean ====
section
/-! DEFINITION. The block functions of the transform and quantization engine under the reference
numerics REF32 (R180 to R196): basis, passes, scaling, zig-zag, quantization. -/

namespace Sys2Proof.Machine

/-! ### Zig-zag (R186, R187) -/

/-- `ZIGZAG[k]`: the row-major index that stands at zig-zag position `k` (R186). -/
def zigzag : List Nat :=
  [0, 1, 8, 16, 9, 2, 3, 10] ++ [17, 24, 32, 25, 18, 11, 4, 5] ++
  [12, 19, 26, 33, 40, 48, 41, 34] ++ [27, 20, 13, 6, 7, 14, 21, 28] ++
  [35, 42, 49, 56, 57, 50, 43, 36] ++ [29, 22, 15, 23, 30, 37, 44, 51] ++
  [58, 59, 52, 45, 38, 31, 39, 46] ++ [53, 60, 61, 54, 47, 55, 62, 63]

/-- `ZIGZAG_INV[i]`: the zig-zag position of row-major index `i`, found in the table (R187). -/
def zigzagInv : List Nat := (List.range 64).map (fun i => zigzag.idxOf i)

/-- Gather: element `k` of the result is element `t[k]` of the block. -/
def permute {α : Type} (t : List Nat) (d : α) (block : List α) : List α :=
  t.map (fun i => block.getD i d)

/-- Row-major to zig-zag order: `zz[k] = s[ZIGZAG[k]]` (R187). -/
def toZigzag {α : Type} (d : α) (block : List α) : List α := permute zigzag d block

/-- Zig-zag to row-major order: `m[ZIGZAG[k]] = zz[k]` (R187). -/
def fromZigzag {α : Type} (d : α) (coeffs : List α) : List α := permute zigzagInv d coeffs

/-! ### Basis and passes (R182 to R184) -/

/-- `B32[u][x]` as bit patterns, row `u` (R184). -/
def basisBits : List (List Word) :=
  [[0x3F3504F3#32, 0x3F3504F3#32, 0x3F3504F3#32, 0x3F3504F3#32,
    0x3F3504F3#32, 0x3F3504F3#32, 0x3F3504F3#32, 0x3F3504F3#32],
   [0x3F7B14BE#32, 0x3F54DB31#32, 0x3F0E39DA#32, 0x3E47C5C2#32,
    0xBE47C5C2#32, 0xBF0E39DA#32, 0xBF54DB31#32, 0xBF7B14BE#32],
   [0x3F6C835E#32, 0x3EC3EF15#32, 0xBEC3EF15#32, 0xBF6C835E#32,
    0xBF6C835E#32, 0xBEC3EF15#32, 0x3EC3EF15#32, 0x3F6C835E#32],
   [0x3F54DB31#32, 0xBE47C5C2#32, 0xBF7B14BE#32, 0xBF0E39DA#32,
    0x3F0E39DA#32, 0x3F7B14BE#32, 0x3E47C5C2#32, 0xBF54DB31#32],
   [0x3F3504F3#32, 0xBF3504F3#32, 0xBF3504F3#32, 0x3F3504F3#32,
    0x3F3504F3#32, 0xBF3504F3#32, 0xBF3504F3#32, 0x3F3504F3#32],
   [0x3F0E39DA#32, 0xBF7B14BE#32, 0x3E47C5C2#32, 0x3F54DB31#32,
    0xBF54DB31#32, 0xBE47C5C2#32, 0x3F7B14BE#32, 0xBF0E39DA#32],
   [0x3EC3EF15#32, 0xBF6C835E#32, 0x3F6C835E#32, 0xBEC3EF15#32,
    0xBEC3EF15#32, 0x3F6C835E#32, 0xBF6C835E#32, 0x3EC3EF15#32],
   [0x3E47C5C2#32, 0xBF0E39DA#32, 0x3F54DB31#32, 0xBF7B14BE#32,
    0x3F7B14BE#32, 0xBF54DB31#32, 0x3F0E39DA#32, 0xBE47C5C2#32]]

/-- The basis as binary32 values. -/
def basis : List (List F32) := basisBits.map (fun row => row.map F32.ofBits)

/-- Column `j` of eight rows. -/
def column (rows : List (List F32)) (j : Nat) : List F32 := rows.map (fun row => row.getD j .zero)

/-- The transpose of an 8x8 array held as its rows (R182 (e)). -/
def transpose8 (rows : List (List F32)) : List (List F32) := (List.range 8).map (column rows)

/-- A dot product, accumulated from 0.0 in ascending index order (R182 (d)). -/
def dotFrom (acc : F32) : List F32 → List F32 → F32
  | x :: xs, b :: bs => dotFrom (F32.add acc (F32.mul x b)) xs bs
  | _, _ => acc

/-- `fdct_1d`: output `u` pairs the input with row `u` of the basis (R182 (d)). -/
def fdct1d (row : List F32) : List F32 := basis.map (dotFrom .zero row)

/-- `idct_1d`: output `x` pairs the input with column `x` of the basis (R182 (d)). -/
def idct1d (row : List F32) : List F32 := (transpose8 basis).map (dotFrom .zero row)

/-- One pass along the rows, transpose, repeat, transpose back (R181, R182 (e)). -/
def twoPass (pass : List F32 → List F32) (rows : List (List F32)) : List (List F32) :=
  transpose8 ((transpose8 (rows.map pass)).map pass)

/-- `ISQRT2` (R182 (b)). -/
def isqrt2 : F32 := F32.ofBits 0x3F3504F3#32

/-- `SQRT2` (R182 (b)). -/
def sqrt2 : F32 := F32.ofBits 0x3FB504F3#32

/-- One scaling factor: `k` at zero frequency, else 1.0, whose product is exact (R182 (f)). -/
def scaleAxis (k : F32) (freq : Nat) (a : F32) : F32 := if freq = 0 then F32.mul a k else a

/-- Scaling of an 8x8 array: the horizontal factor first, then the vertical one (R182 (f)). -/
def scale (k : F32) (rows : List (List F32)) : List (List F32) :=
  rows.mapIdx (fun v row => row.mapIdx (fun u a => scaleAxis k v (scaleAxis k u a)))

/-- A 64-entry block as eight rows. -/
def toRows (d : F32) (block : List F32) : List (List F32) :=
  (List.range 8).map (fun r => (List.range 8).map (fun k => block.getD (8 * r + k) d))

/-! ### Quantization (R182 (g)) -/

/-- 4.0 -/
def four : F32 := ⟨4, 0⟩

/-- A table entry as a binary32 value. -/
def entryF32 (q : Byte) : F32 := F32.ofInt q.toNat

/-- Divide by 4, then by the table entry, round, store as `i16` (R189 step 5, R192). -/
def quantize (a : F32) (q : Byte) : Half :=
  sat16 (F32.div (F32.div a four) (entryF32 q)).rha

/-- Multiply by the table entry, divide by 4, round (R190). -/
def dequantize (a : Half) (q : Byte) : Int :=
  (F32.div (F32.mul (F32.ofInt a.toInt) (entryF32 q)) four).rha

/-! ### The block functions -/

/-- The scaled coefficients of a residual block in row-major order (R189 steps 2 and 3). -/
def fwdScaled (r : List Half) : List F32 :=
  (scale isqrt2 (twoPass fdct1d (toRows .zero (r.map (fun h => F32.ofInt h.toInt))))).flatten

/-- `fwd_block(r, c)` with the table of the component (R189). -/
def fwdBlock (r : List Half) (table : List Byte) : List Half :=
  List.zipWith quantize (toZigzag .zero (fwdScaled r)) table

/-- `inv_block(q, c)` with the table of the component (R190). -/
def invBlock (q : List Half) (table : List Byte) : List Half :=
  let dq := List.zipWith dequantize q table
  let rows := toRows .zero (fromZigzag .zero (dq.map F32.ofInt))
  ((twoPass idct1d (scale sqrt2 rows)).flatten).map (fun a => sat16 a.rha)

/-- The reference numerics REF32 (R182). -/
def ref32 : XformNumerics := ⟨fwdBlock, invBlock⟩

end Sys2Proof.Machine
end

