-- ==== Sys2Proof/Machine/Transform.lean ====
section
/-! DEFINITION. The commands of the transform and quantization engine: the block-buffer commands
(R197 to R200) and the row and plane drivers (R201 to R206). -/

namespace Sys2Proof.Machine

/-- The numerics instance the machine runs: REF32 (DESIGN CHOICE of the spec, D20; log entry 7). -/
def xform : XformNumerics := ref32

/-- The 64 entries of a space, or none if one is `undef`. -/
def read64 {α : Type} (m : Space α) : Option (List α) := Space.readAll m (List.range 64)

/-- `QT[c]` as 64 entries (R36, R188). -/
def State.table (s : State) (c : Comp) : Option (List Byte) := read64 (s.qt.get c)

/-! ### Block-buffer commands -/

/-- A block-buffer command: all 64 inputs are read before anything is written, then all 64 outputs are
written (R197 to R200). -/
def bufferCommand (f : List Half → Option (List Half)) (s : State) : Run :=
  match read64 s.blkIn with
  | none => .raised .undef s
  | some block =>
    match f block with
    | none => .raised .undef s
    | some out => .done (s.setBlkOut (Space.writeFrom s.blkOut 0 out))

/-- DCTQ_BLOCK (R197). -/
def execDctqBlock (c : Comp) (s : State) : Host.Outcome State Fault Refusal :=
  runCommand (.dctqBlock c) (bufferCommand (fun b => (s.table c).map (xform.fwd b))) s

/-- DEQIDCT_BLOCK: no prediction is added and no clamp applied (R198). -/
def execDeqidctBlock (c : Comp) (s : State) : Host.Outcome State Fault Refusal :=
  runCommand (.deqidctBlock c) (bufferCommand (fun b => (s.table c).map (xform.inv b))) s

/-- ZZ_FWD: elements are moved unchanged (R199). -/
def execZzFwd (s : State) : Host.Outcome State Fault Refusal :=
  runCommand .zzFwd (bufferCommand (fun b => some (toZigzag 0#16 b))) s

/-- ZZ_INV (R200). -/
def execZzInv (s : State) : Host.Outcome State Fault Refusal :=
  runCommand .zzInv (bufferCommand (fun b => some (fromZigzag 0#16 b))) s

/-! ### Row and plane drivers -/

/-- The indices of the 64 samples of block `(bx, by)` in a plane of width `pw`, row by row (R201). -/
def blockIndices (pw bx band : Nat) : List Nat :=
  windowIndices (sampleIndex pw (bx * 8) (band * 8)) pw

/-- The first coefficient of block `(bx, by)` in a coefficient plane (R62). -/
def coeffIndex (pw bx band : Nat) : Nat := (band * (pw / 8) + bx) * 64

/-- Step 1: original minus prediction, in -255..255, held as `i16` (R201). -/
def residual (orig pred : List Byte) : List Half :=
  List.zipWith (fun a p => BitVec.ofInt 16 ((a.toNat : Int) - (p.toNat : Int))) orig pred

/-- One block of DCTQ_ROW after POS is written (R201): the 128 samples, the forward path, the 64
coefficients. -/
def dctqAt (c : Comp) (band bx : Nat) (s : State) : Run :=
  match s.cur with
  | none => .raised .state s
  | some cur =>
    match Space.readAll (cur.orig.get c) (blockIndices (s.pw c) bx band),
        Space.readAll (cur.pred.get c) (blockIndices (s.pw c) bx band), s.table c with
    | some o, some p, some q =>
      .done (s.setCur (cur.setResid c
        (Space.writeFrom (cur.resid.get c) (coeffIndex (s.pw c) bx band)
          (xform.fwd (residual o p) q))))
    | _, _, _ => .raised .undef s

/-- One block of DCTQ_ROW: POS first (R201, R230). -/
def dctqUnit (c : Comp) (band bx : Nat) (s : State) : Run :=
  dctqAt c band bx (s.setPos (posWord c bx band))

/-- A reconstructed sample: the sum, formed without wrap-around, clamped to 0..255 (R202). -/
def reconSample (r : Half) (p : Byte) : Byte :=
  BitVec.ofInt 8 (clamp (r.toInt + (p.toNat : Int)) 0 255)

/-- The reconstruction of a block, sample by sample, up to the first `undef` prediction (R202). The flag
says whether all were stored. -/
def reconLoop (pred : Space Byte) : List (Nat × Half) → Space Byte → Space Byte × Bool
  | [], dst => (dst, true)
  | (i, r) :: rest, dst =>
    match Space.read pred i with
    | none => (dst, false)
    | some p => reconLoop pred rest (Space.write dst i (reconSample r p))

/-- One block of DEQIDCT_ROW after POS is written (R202): the 64 coefficients, the inverse path, the 64
samples. -/
def deqidctAt (c : Comp) (band bx : Nat) (s : State) : Run :=
  match s.cur with
  | none => .raised .state s
  | some cur =>
    match Space.readAll (cur.resid.get c) (List.range' (coeffIndex (s.pw c) bx band) 64),
        s.table c with
    | some k, some q =>
      match reconLoop (cur.pred.get c)
          ((blockIndices (s.pw c) bx band).zip (xform.inv k q)) (cur.recons.get c) with
      | (m, true) => .done (s.setCur (cur.setRecons c m))
      | (m, false) => .raised .undef (s.setCur (cur.setRecons c m))
    | _, _ => .raised .undef s

/-- One block of DEQIDCT_ROW: POS first (R202, R230). -/
def deqidctUnit (c : Comp) (band bx : Nat) (s : State) : Run :=
  deqidctAt c band bx (s.setPos (posWord c bx band))

/-- A row-band, block by block from the left (R229); a band outside the plane is refused first (R201,
R202). -/
def bandBody (unit : Comp → Nat → Nat → State → Run) (c : Comp) (band : Nat) (s : State) : Run :=
  if band < s.ph c / 8 then sweep (unit c band) (List.range (s.pw c / 8)) s
  else .raised .geometry s

/-- A plane, band by band from the top (R203, R204, R229). -/
def planeBody (unit : Comp → Nat → Nat → State → Run) (c : Comp) (s : State) : Run :=
  sweep (bandBody unit c) (List.range (s.ph c / 8)) s

/-- DCTQ_ROW (R201). -/
def execDctqRow (c : Comp) (band : Nat) (s : State) : Host.Outcome State Fault Refusal :=
  runCommand (.dctqRow c band) (bandBody dctqUnit c band) s

/-- DEQIDCT_ROW (R202). -/
def execDeqidctRow (c : Comp) (band : Nat) (s : State) : Host.Outcome State Fault Refusal :=
  runCommand (.deqidctRow c band) (bandBody deqidctUnit c band) s

/-- DCTQ_PLANE (R203). -/
def execDctqPlane (c : Comp) (s : State) : Host.Outcome State Fault Refusal :=
  runCommand (.dctqPlane c) (planeBody dctqUnit c) s

/-- DEQIDCT_PLANE (R204). -/
def execDeqidctPlane (c : Comp) (s : State) : Host.Outcome State Fault Refusal :=
  runCommand (.deqidctPlane c) (planeBody deqidctUnit c) s

end Sys2Proof.Machine
end

