-- ==== Sys2Proof/Machine/Dispatch.lean ====
section
/-! DEFINITION. One arm per command: each calls its meaning. -/

namespace Sys2Proof.Machine

def exec (i : Instr) (s : State) : Host.Outcome State Fault Refusal :=
  match i with
  | .ctxNew => Sys2Proof.Machine.execCtxNew s
  | .encodeImage => Sys2Proof.Machine.execEncodeImage s
  | .streamEnd => Sys2Proof.Machine.execStreamEnd s
  | .abort => Sys2Proof.Machine.execAbort s
  | .sad spA spB => Sys2Proof.Machine.execSad spA spB s
  | .meBlock c mbY mbX => Sys2Proof.Machine.execMeBlock c mbY mbX s
  | .meComp c => Sys2Proof.Machine.execMeComp c s
  | .mcBlock c mbY mbX => Sys2Proof.Machine.execMcBlock c mbY mbX s
  | .mcComp c => Sys2Proof.Machine.execMcComp c s
  | .dctqBlock c => Sys2Proof.Machine.execDctqBlock c s
  | .deqidctBlock c => Sys2Proof.Machine.execDeqidctBlock c s
  | .dctqRow c band => Sys2Proof.Machine.execDctqRow c band s
  | .deqidctRow c band => Sys2Proof.Machine.execDeqidctRow c band s
  | .dctqPlane c => Sys2Proof.Machine.execDctqPlane c s
  | .deqidctPlane c => Sys2Proof.Machine.execDeqidctPlane c s
  | .zzFwd => Sys2Proof.Machine.execZzFwd s
  | .zzInv => Sys2Proof.Machine.execZzInv s

end Sys2Proof.Machine
end

