-- ==== Sys2Proof/Machine/HostPort.lean ====
section
/-! DEFINITION. The host interface: reads and writes of registers (R21 to R29), the memory window (R63,
R64), the issue of a command (R90), behaviour while faulted (R245), and reset (R270). -/

namespace Sys2Proof.Machine

/-! ### The memory window -/

/-- The element the window selects, if the access is allowed at all (R64): MSEL's upper bits are zero,
the id names a space, the space exists, MADDR is below its size. -/
def State.windowTarget (s : State) : Option SpaceRef :=
  if s.msel.extractLsb' 8 24 = 0#24 then
    match SpaceRef.ofId (s.msel.extractLsb' 0 8) with
    | none => none
    | some sp => if s.hasSpace sp && decide (s.maddr.toNat < s.spaceSize sp) then some sp else none
  else none

/-- A read of MDATA: the element, `E_ACCESS` or `E_UNDEF` (R63, R64). -/
def State.windowRead (s : State) : Except Cause Word :=
  match s.windowTarget with
  | none => .error .access
  | some sp =>
    match s.element sp s.maddr.toNat with
    | none => .error .undef
    | some w => .ok w

/-- A write of MDATA: one element stored, or `E_ACCESS` (R63, R64). -/
def State.windowWrite (s : State) (v : Word) : Except Cause State :=
  match s.windowTarget with
  | none => .error .access
  | some sp =>
    if sp.hostMayWrite then .ok (s.storeElement sp s.maddr.toNat v) else .error .access

/-! ### Reads -/

/-- The value of a register the host reads, or the fault of the read (R21, R27, R29). -/
def State.readReg (s : State) : HostReg → Except Cause Word
  | .cmd => .error .access
  | .status => .ok s.status
  | .fault => .ok s.fault
  | .faultInfo => .ok s.faultInfo
  | .arg0 => .ok s.arg0
  | .arg1 => .ok s.arg1
  | .arg2 => .ok s.arg2
  | .sadAcc => .ok s.sadAcc
  | .meBest => .ok s.meBest
  | .meMv => .ok s.meMv
  | .pos => .ok s.pos
  | .width => .ok s.width
  | .height => .ok s.height
  | .padW c => .ok (s.geom.get c).padW
  | .padH c => .ok (s.geom.get c).padH
  | .mbCols c => .ok (s.geom.get c).mbCols
  | .mbRows c => .ok (s.geom.get c).mbRows
  | .qp => .ok (BitVec.ofNat 32 Config.qp)
  | .meRange => .ok (BitVec.ofNat 32 s.params.meRange.val)
  | .kfInterval => .ok s.params.kfInterval
  | .frameNum => .ok s.frameNum
  | .framesSinceKf => .ok s.framesSinceKf
  | .msel => .ok s.msel
  | .maddr => .ok s.maddr
  | .mdata => s.windowRead

/-- The value of the register with a number; an absent number is an illegal access (R29). -/
def State.readNumber (s : State) (reg : Byte) : Except Cause Word :=
  match HostReg.ofNumber reg with
  | none => .error .access
  | some r => s.readReg r

/-- A read that returns `w`. -/
def State.returnRead (s : State) (w : Word) : State := { s with hostRead := some w }

/-- A faulting read while FAULTED: an unspecified value, nothing recorded, nothing changed (R245). -/
def State.returnUnspecified (s : State) : State :=
  { s with hostRead := some (Config.freeRead s.freeReads), freeReads := s.freeReads + 1 }

/-- A faulting read: the fault is taken and no value is returned (R26, R66). -/
def State.faultRead (s : State) (c : Cause) (reg : Byte) : State :=
  { s.raise c (s.accessWord reg) with hostRead := none }

/-- A host read of a register (R29, R245). -/
def hostRead (reg : Byte) (s : State) : State :=
  match s.readNumber reg with
  | .ok w => s.returnRead w
  | .error c => if s.faulted then s.returnUnspecified else s.faultRead c reg

/-! ### Writes -/

/-- A host write of a register other than CMD: the new state, or the fault of the write (R22, R27,
R29). A write of an illegal value to MSEL is accepted (R27). -/
def State.writeReg (s : State) (v : Word) : HostReg → Except Cause State
  | .arg0 => .ok { s with arg0 := v }
  | .arg1 => .ok { s with arg1 := v }
  | .arg2 => .ok { s with arg2 := v }
  | .msel => .ok { s with msel := v }
  | .maddr => .ok { s with maddr := v }
  | .mdata => s.windowWrite v
  | .cmd => .ok s
  | .status | .fault | .faultInfo => .error .access
  | .sadAcc | .meBest | .meMv | .pos | .width | .height => .error .access
  | .padW _ | .padH _ | .mbCols _ | .mbRows _ => .error .access
  | .qp | .meRange | .kfInterval | .frameNum | .framesSinceKf => .error .access

/-- The issue of a command word: decode, then the command, or `E_ILLEGAL_CMD` with the word (R90, R96,
R98). -/
def issue (w : Word) (s : State) : Host.Outcome State Fault Refusal :=
  match decode w with
  | .ok i => exec i s
  | .error _ => .next (s.raise .illegalCmd w)

/-- A host write: ignored while FAULTED; a write of CMD issues a command (R29, R90, R245). -/
def hostWrite (reg : Byte) (v : Word) (s : State) : Host.Outcome State Fault Refusal :=
  if s.faulted then .next s
  else
    match HostReg.ofNumber reg with
    | none => .next (s.raise .access (s.accessWord reg))
    | some .cmd => issue v s
    | some r =>
      match s.writeReg v r with
      | .ok t => .next t
      | .error c => .next (s.raise c (s.accessWord reg))

/-! ### Reset -/

/-- The reset event (R270): the reset state of the same instance. The host's pending accesses and the
count of unspecified reads are the model's own and go on. -/
def State.applyReset (s : State) : State :=
  { State.resetWith s.params with pending := s.pending, freeReads := s.freeReads }

/-- One input of the block (R16, R270). -/
def hostAccess (a : HostAccess) (s : State) : Host.Outcome State Fault Refusal :=
  match a with
  | .reset => .next s.applyReset
  | .read reg => .next (hostRead reg s)
  | .write reg v => hostWrite reg v s

end Sys2Proof.Machine
end

