-- ==== Sys2Proof/Machine/Step.lean ====
section
/-! DEFINITION. One step: the next pending host access (R16). The block fetches nothing (R24, R75); "the
order of commands is the order in which the host writes CMD", so the place a program stands is
`State.pending`. -/

namespace Sys2Proof.Machine

/-- One step. With no host access pending the block is idle and holds its state (R256). -/
def step (s : State) : Host.Outcome State Fault Refusal :=
  match s.pending with
  | [] => .next s
  | a :: rest => hostAccess a { s with pending := rest }

/-- The state with a command word as the next host access: a write of it to CMD (R90). -/
def State.withFetchWord (s : State) (nbits w : Nat) : State :=
  { s with pending := .write 0x00#8 (BitVec.ofNat 32 (w % 2 ^ nbits)) :: s.pending }

end Sys2Proof.Machine
end

