-- ==== Sys2Proof/Exact32.lean ====
section
/-! DEFINITION. The arithmetic of the transform path over the rational numbers, written out from R10 and
R182 to R191 for the claims: rounding, the basis from its cosines, the passes, the scaling, and the two
block functions element by element. The machine does not use it: it computes on significands
(`Sys2Proof.Machine.F32`), and the claims say that the two agree. -/

namespace Sys2Proof.Exact32

/-! ### Rounding -/

/-- The nearest integer, ties to even. -/
def roundEven (x : ℚ) : Int :=
  if x - ⌊x⌋ < 1 / 2 then ⌊x⌋
  else if 1 / 2 < x - ⌊x⌋ then ⌊x⌋ + 1
  else if ⌊x⌋ % 2 = 0 then ⌊x⌋
  else ⌊x⌋ + 1

/-- The unit in the last of 24 significant bits of a nonzero rational. -/
def ulp (x : ℚ) : ℚ := 2 ^ (Int.log 2 |x| - 23)

/-- `f32(x)`: rounded once to 24 significant bits, nearest, ties to even (R182 (a)). By R185 nothing on this
path leaves the exponents of binary32, so none bounds the result (log entry 8). -/
def f32 (x : ℚ) : ℚ := if x = 0 then 0 else roundEven (x / ulp x) * ulp x

/-- `rha(x) = floor(x + 0.5)` for `x >= 0` and `-floor(-x + 0.5)` for `x < 0` (R10, R191). -/
def rha (x : ℚ) : Int := if 0 ≤ x then ⌊x + 1 / 2⌋ else -⌊-x + 1 / 2⌋

/-- `sat16(n) = clamp(n, -32768, 32767)`, held as `i16` (R10, R192). -/
def sat16 (n : Int) : Half := BitVec.ofInt 16 (max (-32768) (min 32767 n))

/-! ### Basis (R183, R184) -/

/-- The seven magnitudes of R184: `cos(n pi / 16)` for `n` = 1..7, each a significand of 24 bits; 0 for other
`n`. -/
def cosine : Nat → ℚ
  | 1 => 0xFB14BE / 2 ^ 24
  | 2 => 0xEC835E / 2 ^ 24
  | 3 => 0xD4DB31 / 2 ^ 24
  | 4 => 0xB504F3 / 2 ^ 24
  | 5 => 0x8E39DA / 2 ^ 24
  | 6 => 0xC3EF15 / 2 ^ 25
  | 7 => 0xC7C5C2 / 2 ^ 26
  | _ => 0

/-- `cos(n pi / 16)` for `n` below 32, by the symmetries of the cosine. -/
def cosineOf (n : Nat) : ℚ :=
  if n < 8 then cosine n
  else if n ≤ 16 then -cosine (16 - n)
  else if n < 24 then -cosine (n - 16)
  else cosine (32 - n)

/-- `B32[u][x]`: `k(u) * cos((2x + 1) u pi / 16)` (R183), with the magnitudes of R184. -/
def B (u x : Nat) : ℚ := if u = 0 then cosine 4 else cosineOf ((2 * x + 1) * u % 32)

/-- `ISQRT2` = 0x3F3504F3 (R182 (b)). -/
def isqrt2 : ℚ := 0xB504F3 / 2 ^ 24

/-- `SQRT2` = 0x3FB504F3 (R182 (b)). -/
def sqrt2 : ℚ := 0xB504F3 / 2 ^ 23

/-! ### Passes and scaling (R182 (d) to (f)) -/

/-- `acc <- 0.0`, then `acc <- f32(acc + f32(p(i)))` for the first `n` indices in ascending order. -/
def accumulate (p : Nat → ℚ) : Nat → ℚ
  | 0 => 0
  | n + 1 => f32 (accumulate p n + f32 (p n))

/-- `fdct_1d`. -/
def fdct (row : Nat → ℚ) (u : Nat) : ℚ := accumulate (fun x => row x * B u x) 8

/-- `idct_1d`. -/
def idct (row : Nat → ℚ) (x : Nat) : ℚ := accumulate (fun u => row u * B u x) 8

/-- A pass along every row of `m` (first index the row). -/
def rows (pass : (Nat → ℚ) → Nat → ℚ) (m : Nat → Nat → ℚ) : Nat → Nat → ℚ := fun i => pass (m i)

/-- `transpose(m)`. -/
def transpose (m : Nat → Nat → ℚ) : Nat → Nat → ℚ := fun i j => m j i

/-- A pass along the rows, transpose, repeat, transpose back. -/
def twoPass (pass : (Nat → ℚ) → Nat → ℚ) (m : Nat → Nat → ℚ) : Nat → Nat → ℚ :=
  transpose (rows pass (transpose (rows pass m)))

/-- `scale_fwd` with `a = ISQRT2`, `scale_inv` with `a = SQRT2`: row `v` and column `u` of frequency 0 are
multiplied by `a`, the others by 1.0. -/
def scale (a : ℚ) (m : Nat → Nat → ℚ) : Nat → Nat → ℚ := fun v u =>
  f32 (f32 (m v u * if u = 0 then a else 1) * if v = 0 then a else 1)

/-! ### The block functions (R182 (c), (g), (h), R189, R190) -/

/-- The scaled coefficient `S[v][u]` of the residuals `r[y*8 + x]`. -/
def scaled (r : Nat → Half) : Nat → Nat → ℚ :=
  scale isqrt2 (twoPass fdct (fun y x => f32 (r (y * 8 + x)).toInt))

/-- Element `i` of `fwd_block`'s result before the reorder, with the table entry `e` of its position:
`sat16(rha(f32(f32(s[i] / 4.0) / f32(e))))`. -/
def coefficient (r : Nat → Half) (e : Byte) (i : Nat) : Half :=
  sat16 (rha (f32 (f32 (scaled r (i / 8) (i % 8) / 4) / f32 e.toNat)))

/-- `dq[k] = rha(f32(f32(f32(q[k]) * f32(Q[k])) / 4.0))`. -/
def dequantized (q : Half) (e : Byte) : Int := rha (f32 (f32 (f32 q.toInt * f32 e.toNat) / 4))

/-- Residual `(x, y)` of `inv_block`, for coefficients `q[k]`, table entries `e[k]` and the position `pos(i)` at
which row-major index `i` stands in zig-zag order: `sat16(rha(m[i]))`. -/
def residual (q : Nat → Half) (e : Nat → Byte) (pos : Nat → Nat) (y x : Nat) : Half :=
  sat16 (rha (twoPass idct (scale sqrt2 (fun v u =>
    f32 (dequantized (q (pos (v * 8 + u))) (e (pos (v * 8 + u)))))) y x))

end Sys2Proof.Exact32
end

