-- ==== Sys2Proof/Safety.lean ====
section
/-! DEFINITION. What counts as a safe run, in the terms the claims use: a completed run (R128, R246), the
canonical form of the memory spaces, and the invariants every step keeps (R40, R234). -/

namespace Sys2Proof.Machine

/-- "a run of the block is complete, and only then, when ENDED is set and FAULTED is clear" (R128). -/
def State.runComplete (s : State) : Bool := s.ended && !s.faulted

/-- The three components, in the order Y, U, V (R12). -/
def Comp.all : List Comp := [.y, .u, .v]

/-- Every space of a frame is in canonical form, for planes of `n c` and grids of `g c` elements. -/
def Frame.wf (n g : Comp → Nat) (f : Frame) : Bool :=
  Comp.all.all (fun c =>
    Space.wf (n c) (f.orig.get c) && Space.wf (n c) (f.recons.get c) &&
    Space.wf (n c) (f.pred.get c) && Space.wf (n c) (f.resid.get c) &&
    Space.wf (g c) (f.mb.get c))

/-- Every memory space is in canonical form: indices strictly rising and below the space's size
(R60, R61). -/
def Memory.wf (s : State) : Bool :=
  Comp.all.all (fun c => Space.wf (s.planeSize c) (s.picIn.get c) && Space.wf 64 (s.qt.get c)) &&
  Space.wf 64 s.blkIn && Space.wf 64 s.blkOut &&
  s.cur.all (Frame.wf s.planeSize s.gridSize) && s.ref.all (Frame.wf s.planeSize s.gridSize)

/-- The planes and grids a frame has from its allocation on are wholly defined (R44 to R46). -/
def Frame.defined (n g : Comp → Nat) (f : Frame) : Bool :=
  Comp.all.all (fun c =>
    Space.allDefined (f.orig.get c) (n c) && Space.allDefined (f.pred.get c) (n c) &&
    Space.allDefined (f.mb.get c) (g c))

/-- Memory: canonical form, and every frame defined where allocation defines it. -/
def State.MemoryInv (s : State) : Prop :=
  Memory.wf s = true ∧ (∀ f, s.cur = some f → f.defined s.planeSize s.gridSize = true) ∧
    ∀ f, s.ref = some f → f.defined s.planeSize s.gridSize = true

/-- What holds before construction: no geometry, no table, no picture, no frame, counters at 0 (R35,
R47). -/
def State.unconstructed (s : State) : Prop :=
  s.width = 0#32 ∧ s.height = 0#32 ∧ s.geom = ⟨Geometry.zero, Geometry.zero, Geometry.zero⟩ ∧
    s.qt = ⟨[], [], []⟩ ∧ s.picIn = ⟨[], [], []⟩ ∧ s.cur = none ∧ s.ref = none ∧
    s.frameNum = 0#32 ∧ s.framesSinceKf = 0#32 ∧ s.ended = false

/-- What holds from construction on: legal raw dimensions, the geometry they give, the tables of the
instance (R27, R36, R220). -/
def State.constructed (s : State) : Prop :=
  (1 ≤ s.width.toNat ∧ s.width.toNat ≤ 16384) ∧ (1 ≤ s.height.toNat ∧ s.height.toNat ≤ 16384) ∧
    s.geom = Triple.of (geometryOf s.width.toNat s.height.toNat) ∧ s.qt = buildTables s.params

/-- The context: all of it or none of it (R35, R220, R234). -/
def State.ContextInv (s : State) : Prop :=
  (s.ctxValid = false → s.unconstructed) ∧ (s.ctxValid = true → s.constructed)

/-- The fault record: empty while no fault is recorded, one of the seven codes once one is (R26, R240,
R244). -/
def State.FaultInv (s : State) : Prop :=
  (s.faulted = false → s.fault = 0#32 ∧ s.faultInfo = 0#32) ∧
    (s.faulted = true → 1 ≤ s.fault.toNat ∧ s.fault.toNat ≤ 7)

/-- The frame history (R124, R127): the counters agree with the slots, a reference is never without a
current frame, and a non-keyframe always has a reference. -/
def State.HistoryInv (s : State) : Prop :=
  s.framesSinceKf.toNat ≤ s.frameNum.toNat ∧
    (s.frameNum = 0#32 ↔ s.cur = none) ∧ (s.framesSinceKf = 0#32 ↔ s.frameNum = 0#32) ∧
    (s.cur = none → s.ref = none) ∧
    (∀ f, s.cur = some f → f.keyframe = false → s.ref ≠ none)

/-- The keyframe schedule (R125): with an interval `K` of at least 1, from the first picture on the frames
since the last keyframe are 1 to `K` and agree with FRAMENUM modulo `K`; with `K` = 0 they are at least
1. -/
def State.ScheduleInv (s : State) : Prop :=
  s.frameNum ≠ 0#32 →
    1 ≤ s.framesSinceKf.toNat ∧ s.framesSinceKf.toNat ≤ s.frameNum.toNat ∧
      (s.params.kfInterval ≠ 0#32 →
        s.framesSinceKf.toNat ≤ s.params.kfInterval.toNat ∧
          s.params.kfInterval.toNat ∣ s.frameNum.toNat - s.framesSinceKf.toNat)

/-- A vector component is 0 or within the effective range, and the window it names lies inside the
plane (I4 of R40, R158). -/
def vectorInside (mv : Byte) (rng anchor dim : Nat) : Prop :=
  (mv.toInt = 0 ∨ (-(rng : Int) ≤ mv.toInt ∧ mv.toInt ≤ (rng : Int) - 1)) ∧
    0 ≤ (anchor : Int) + mv.toInt ∧ (anchor : Int) + mv.toInt ≤ (dim : Int) - 8

/-- The records of a frame: all default on a keyframe (I3), every vector inside its plane (I4). -/
def Frame.VectorsInside (s : State) (f : Frame) : Prop :=
  (∀ c j m, f.keyframe = true → Space.read (f.mb.get c) j = some m → m = MbRecord.default) ∧
    ∀ c x y m, x < s.cols c → y < s.rows c →
      Space.read (f.mb.get c) (y * s.cols c + x) = some m →
      vectorInside m.mvX (s.rng c) (x * 8) (s.pw c) ∧ vectorInside m.mvY (s.rng c) (y * 8) (s.ph c)

/-- The invariants I3 and I4 of R40 for both slots. -/
def State.VectorInv (s : State) : Prop :=
  (∀ f, s.cur = some f → f.VectorsInside s) ∧ ∀ f, s.ref = some f → f.VectorsInside s

/-- The result registers: SAD_ACC is a possible sum, ME_BEST a sum or the empty window's value, ME_MV a
record word, POS a position of the grid (R23, R24, R43, R144). -/
def State.ResultInv (s : State) : Prop :=
  s.sadAcc.toNat ≤ 16320 ∧ (s.meBest.toNat ≤ 16320 ∨ s.meBest = 0x7FFFFFFF#32) ∧
    (∃ m : MbRecord, s.meMv = m.word) ∧ (s.ctxValid = false → s.pos = 0#32) ∧
    (s.ctxValid = true → ∃ c x y, s.pos = posWord c x y ∧ x < s.cols c ∧ y < s.rows c)

end Sys2Proof.Machine
end

