-- ==== Sys2Proof/Certificates/Slice0/Obligations.lean ====
section
/-! DEFINITION. The statements for the provers, from the spec's numbered rules. The words they are
written in come first: hypotheses on a state, the shape of a frame, and the arithmetic of the rules
written out from the spec's text. -/

namespace Sys2Proof.Claim

open Sys2Proof.Machine

/-! ### States -/

/-- Constructed and without a fault: the lifecycle states READY and ENDED (R241). -/
def Live (s : State) : Prop := s.faulted = false ∧ s.ctxValid = true

/-- The next host access is `a`, and `rest` follows it. -/
def Next (s : State) (a : HostAccess) (rest : List HostAccess) : Prop := s.pending = a :: rest

/-- The host access has been taken off the queue. -/
def taken (s : State) (rest : List HostAccess) : State := { s with pending := rest }

/-- A fault recorded: the three writes of R244, with the code of R240. -/
def recorded (s : State) (code info : Word) : State :=
  { s with fault := code, faultInfo := info, faulted := true }

/-- The access word of R26: register number, MSEL[7:0], MADDR[15:0]. -/
def accessInfo (s : State) (reg : Byte) : Word :=
  BitVec.ofNat 32 (2 ^ 24 * reg.toNat + 2 ^ 16 * (s.msel.toNat % 2 ^ 8) + s.maddr.toNat % 2 ^ 16)

/-- POS naming unit `(x, y)` of a component (R24). -/
def posOf (c : Comp) (x y : Nat) : Word := BitVec.ofNat 32 (2 ^ 22 * c.number + 2 ^ 11 * y + x)

/-- The grid consistency of R234, as it holds in every constructed state. -/
def GridOk (s : State) : Prop :=
  ∀ c, 1 ≤ s.cols c ∧ 1 ≤ s.rows c ∧ s.pw c = 8 * s.cols c ∧ s.ph c = 8 * s.rows c

/-- The first `n` elements of a space hold the values `A`. -/
def Holds {α : Type} (m : Space α) (n : Nat) (A : Nat → α) : Prop :=
  ∀ i, i < n → Space.read m i = some (A i)

/-- Every element of every space reads as before, but for those of `P`. -/
def MemoryFrame (s t : State) (P : SpaceRef → Nat → Prop) : Prop :=
  ∀ sp i, ¬ P sp i → t.element sp i = s.element sp i

/-- The slots and flags that no component command touches: the same slots are filled, with the same
keyframe flags. -/
def SlotsFrame (s t : State) : Prop :=
  t.curValid = s.curValid ∧ t.curKey = s.curKey ∧ t.ref = s.ref

/-! ### Encoding: the opcode map R95, transcribed -/

/-- A row of R95: opcode, match, mask, and whether the format holds a component. -/
def opcodeMap : List (Opcode × Word × Word × Bool) :=
  [(.ctxNew, 0x01000000#32, 0xFFFFFFFF#32, false), (.encodeImage, 0x02000000#32, 0xFFFFFFFF#32, false),
   (.streamEnd, 0x03000000#32, 0xFFFFFFFF#32, false), (.abort, 0x04000000#32, 0xFFFFFFFF#32, false),
   (.sad, 0x10000000#32, 0xFF0000FF#32, false), (.meBlock, 0x20000000#32, 0xFF000000#32, true),
   (.meComp, 0x21000000#32, 0xFF3FFFFF#32, true), (.mcBlock, 0x30000000#32, 0xFF000000#32, true),
   (.mcComp, 0x31000000#32, 0xFF3FFFFF#32, true)] ++
  [(.dctqBlock, 0x40000000#32, 0xFF3FFFFF#32, true), (.deqidctBlock, 0x41000000#32, 0xFF3FFFFF#32, true),
   (.dctqRow, 0x42000000#32, 0xFF0007FF#32, true), (.deqidctRow, 0x43000000#32, 0xFF0007FF#32, true),
   (.dctqPlane, 0x44000000#32, 0xFF3FFFFF#32, true), (.deqidctPlane, 0x45000000#32, 0xFF3FFFFF#32, true),
   (.zzFwd, 0x46000000#32, 0xFFFFFFFF#32, false), (.zzInv, 0x47000000#32, 0xFFFFFFFF#32, false)]

/-! ### The acceptance table R241, transcribed -/

/-- The current frame is an inter frame and there is a reference (R151). -/
def InterFrame (s : State) : Prop :=
  ∃ cur ref, s.cur = some cur ∧ cur.keyframe = false ∧ s.ref = some ref

/-- The state accepts the command (R241, columns UNCONSTRUCTED, READY, ENDED and "further state"). -/
def Accepted (i : Instr) (s : State) : Prop :=
  match i with
  | .ctxNew => s.ctxValid = false
  | .encodeImage => s.ctxValid = true ∧ s.ended = false ∧ s.frameNum ≠ 0xFFFFFFFF#32
  | .streamEnd => s.ctxValid = true ∧ s.ended = false
  | .abort => True
  | .sad _ _ | .dctqBlock _ | .deqidctBlock _ | .zzFwd | .zzInv => s.ctxValid = true
  | .meBlock _ _ _ | .meComp _ => s.ctxValid = true ∧ InterFrame s
  | .mcBlock _ _ _ | .mcComp _ | .dctqRow _ _ | .deqidctRow _ _ | .dctqPlane _ | .deqidctPlane _ =>
    s.ctxValid = true ∧ s.cur ≠ none

/-! ### Distortion and search -/

/-- The sample spaces a SAD may name (R142). -/
def isSampleSpace : SpaceRef → Bool
  | .orig _ _ | .recons _ _ | .pred _ _ | .picIn _ => true
  | .resid _ _ | .mb _ _ | .qt _ | .blkIn | .blkOut => false

/-- The sum of R141 over planes given by their samples. -/
def distortion (A B : Nat → Byte) (oa ob t : Nat) : Nat :=
  ∑ r ∈ Finset.range 8, ∑ k ∈ Finset.range 8,
    (((A (oa + r * t + k)).toNat : Int) - ((B (ob + r * t + k)).toNat : Int)).natAbs

/-- The effective search range (R152). -/
def effectiveRange (s : State) (c : Comp) : Int :=
  if c = .y then (s.params.meRange.val : Int) else (s.params.meRange.val / 2 : Nat)

/-- `(x, y)` is a candidate for macroblock `(mbX, mbY)`: the clipped half-open window (R153). -/
def Candidate (s : State) (c : Comp) (mbX mbY x y : Nat) : Prop :=
  max ((mbX * 8 : Nat) - effectiveRange s c) 0 ≤ x ∧
    (x : Int) < min ((mbX * 8 : Nat) + effectiveRange s c) ((s.pw c : Int) - 8) ∧
    max ((mbY * 8 : Nat) - effectiveRange s c) 0 ≤ y ∧
    (y : Int) < min ((mbY * 8 : Nat) + effectiveRange s c) ((s.ph c : Int) - 8)

/-- The distortion of a candidate: anchor block against candidate window, both of stride `pw[c]`
(R153). -/
def candidateScore (s : State) (c : Comp) (A B : Nat → Byte) (mbX mbY x y : Nat) : Nat :=
  distortion A B (mbY * 8 * s.pw c + mbX * 8) (y * s.pw c + x) (s.pw c)

/-- Raster order of candidates: top row first, left to right (R153). -/
def rasterBefore (p q : Nat × Nat) : Prop := p.2 < q.2 ∨ (p.2 = q.2 ∧ p.1 < q.1)

/-- The record and best distortion R154 to R156 give a macroblock: with candidates, the first one in
raster order among those of least distortion; without, the old vector and the largest `i32`. -/
def SearchResult (s : State) (c : Comp) (A B : Nat → Byte) (mbX mbY : Nat) (old rec : MbRecord)
    (best : Word) : Prop :=
  rec.useMv = true ∧
    ((∀ x y, ¬ Candidate s c mbX mbY x y) →
      rec.mvX = old.mvX ∧ rec.mvY = old.mvY ∧ best = 0x7FFFFFFF#32) ∧
    ((∃ x y, Candidate s c mbX mbY x y) →
      ∃ x y, Candidate s c mbX mbY x y ∧
        rec.mvX.toInt = (x : Int) - (mbX * 8 : Nat) ∧ rec.mvY.toInt = (y : Int) - (mbY * 8 : Nat) ∧
        best.toNat = candidateScore s c A B mbX mbY x y ∧
        ∀ x' y', Candidate s c mbX mbY x' y' →
          candidateScore s c A B mbX mbY x y ≤ candidateScore s c A B mbX mbY x' y' ∧
          (rasterBefore (x', y') (x, y) →
            candidateScore s c A B mbX mbY x y < candidateScore s c A B mbX mbY x' y'))

/-- `(x, y)` is the candidate the search of macroblock `(mbX, mbY)` evaluates last (R153). -/
def LastCandidate (s : State) (c : Comp) (mbX mbY x y : Nat) : Prop :=
  Candidate s c mbX mbY x y ∧ ∀ x' y', Candidate s c mbX mbY x' y' → x' ≤ x ∧ y' ≤ y

/-- Sample `(r, k)` of the window at `(x, y)` of a component's plane: its element (R65). -/
def windowSample (s : State) (c : Comp) (x y r k : Nat) : Nat := (y + r) * s.pw c + x + k

/-- Every sample of every candidate window of a macroblock holds its value of `B` in the reference. -/
def WindowsHold (s : State) (c : Comp) (ref : Frame) (B : Nat → Byte) (mbX mbY : Nat) : Prop :=
  ∀ x y r k, Candidate s c mbX mbY x y → r < 8 → k < 8 →
    Space.read (ref.recons.get c) (windowSample s c x y r k) = some (B (windowSample s c x y r k))

/-- The search of macroblock `(mbX, mbY)` stops at the candidate `(x, y)`: the first in raster order whose
window holds an `undef` sample (R66, R154). -/
def SearchStopsAt (s : State) (c : Comp) (ref : Frame) (B : Nat → Byte) (mbX mbY x y : Nat) : Prop :=
  Candidate s c mbX mbY x y ∧
    (∃ r k, r < 8 ∧ k < 8 ∧ Space.read (ref.recons.get c) (windowSample s c x y r k) = none) ∧
    ∀ x' y' r k, Candidate s c mbX mbY x' y' → rasterBefore (x', y') (x, y) → r < 8 → k < 8 →
      Space.read (ref.recons.get c) (windowSample s c x' y' r k) =
        some (B (windowSample s c x' y' r k))

/-- SAD_ACC after a search that stops at the candidate `(x, y)`: the distortion of the candidate before it,
or the old value `old` where there is none (R43). -/
def SadBefore (s : State) (c : Comp) (A B : Nat → Byte) (mbX mbY x y : Nat) (old new : Word) : Prop :=
  ((∀ x' y', Candidate s c mbX mbY x' y' → ¬ rasterBefore (x', y') (x, y)) → new = old) ∧
    ∀ x' y', Candidate s c mbX mbY x' y' → rasterBefore (x', y') (x, y) →
      (∀ x₁ y₁, Candidate s c mbX mbY x₁ y₁ → rasterBefore (x₁, y₁) (x, y) →
        ¬ rasterBefore (x', y') (x₁, y₁)) →
      new.toNat = candidateScore s c A B mbX mbY x' y'

/-- What a search needs besides the reference's samples: the two frames, the component's original plane with
samples `A`, the grid of records `M`, a consistent geometry. -/
structure Startable (s : State) (c : Comp) (cur ref : Frame) (A : Nat → Byte) (M : Nat → MbRecord) :
    Prop where
  live : Live s
  cur_eq : s.cur = some cur
  inter : cur.keyframe = false
  ref_eq : s.ref = some ref
  grid : GridOk s
  orig : Holds (cur.orig.get c) (s.planeSize c) A
  records : Holds (cur.mb.get c) (s.gridSize c) M

/-- What a search needs: the two frames, the component's original plane with samples `A`, the
reference's reconstructed plane with samples `B`, the grid of records `M`, a consistent geometry. -/
structure Searchable (s : State) (c : Comp) (cur ref : Frame) (A B : Nat → Byte)
    (M : Nat → MbRecord) : Prop where
  live : Live s
  cur_eq : s.cur = some cur
  inter : cur.keyframe = false
  ref_eq : s.ref = some ref
  grid : GridOk s
  orig : Holds (cur.orig.get c) (s.planeSize c) A
  recons : Holds (ref.recons.get c) (s.planeSize c) B
  records : Holds (cur.mb.get c) (s.gridSize c) M

/-- Macroblock `(mbX, mbY)` belongs to the component's grid (R33). -/
def InGrid (s : State) (c : Comp) (mbX mbY : Nat) : Prop := mbX < s.cols c ∧ mbY < s.rows c

/-- The order of the macroblocks of a picture: Y, then U, then V, each in raster order (R226). -/
def unitBefore (s : State) (p q : Comp × Nat × Nat) : Prop :=
  p.1.number < q.1.number ∨
    (p.1 = q.1 ∧ p.2.2 * s.cols p.1 + p.2.1 < q.2.2 * s.cols p.1 + q.2.1)

/-! ### Compensation -/

/-- The column and the row of the source window a record `m` gives macroblock `(mbX, mbY)` (R171). -/
def sourceX (mbX : Nat) (m : MbRecord) : Int := (mbX * 8 : Nat) + m.mvX.toInt
def sourceY (mbY : Nat) (m : MbRecord) : Int := (mbY * 8 : Nat) + m.mvY.toInt

/-- The source window lies inside the plane (R171). -/
def SourceInside (s : State) (c : Comp) (mbX mbY : Nat) (m : MbRecord) : Prop :=
  0 ≤ sourceX mbX m ∧ sourceX mbX m ≤ (s.pw c : Int) - 8 ∧
    0 ≤ sourceY mbY m ∧ sourceY mbY m ≤ (s.ph c : Int) - 8

/-- The element of sample `(r, k)` of the source window (R171). -/
def sourceSample (s : State) (c : Comp) (mbX mbY : Nat) (m : MbRecord) (r k : Nat) : Nat :=
  windowSample s c (sourceX mbX m).toNat (sourceY mbY m).toNat r k

/-- `mc_block` completes: no vector, or a source window inside the plane whose samples hold `B` (R171). -/
def Compensable (s : State) (c : Comp) (ref : Frame) (B : Nat → Byte) (mbX mbY : Nat) (m : MbRecord) :
    Prop :=
  m.useMv = true → SourceInside s c mbX mbY m ∧ ∀ r k, r < 8 → k < 8 →
    Space.read (ref.recons.get c) (sourceSample s c mbX mbY m r k) =
      some (B (sourceSample s c mbX mbY m r k))

/-- `mc_block` faults with `code` after `n` samples: `E_GEOMETRY` before the first where the source window
leaves the plane, `E_UNDEF` where sample `n` of the window, row by row, is the first `undef` one
(R66, R171, R172). -/
def CopyStops (s : State) (c : Comp) (ref : Frame) (B : Nat → Byte) (mbX mbY : Nat) (m : MbRecord)
    (code : Word) (n : Nat) : Prop :=
  m.useMv = true ∧
    ((code = 0x03#32 ∧ n = 0 ∧ ¬ SourceInside s c mbX mbY m) ∨
      (code = 0x06#32 ∧ n < 64 ∧ SourceInside s c mbX mbY m ∧
        (∀ i, i < n → Space.read (ref.recons.get c) (sourceSample s c mbX mbY m (i / 8) (i % 8)) =
          some (B (sourceSample s c mbX mbY m (i / 8) (i % 8)))) ∧
        Space.read (ref.recons.get c) (sourceSample s c mbX mbY m (n / 8) (n % 8)) = none))

/-! ### Transform -/

/-- Residual `y * 8 + x` of block `(bx, band)` of a plane of width `pw` (R201 step 1). -/
def residualSample (A P : Nat → Byte) (pw bx band : Nat) (i : Nat) : Half :=
  BitVec.ofInt 16 (((A ((band * 8 + i / 8) * pw + bx * 8 + i % 8)).toNat : Int) -
    ((P ((band * 8 + i / 8) * pw + bx * 8 + i % 8)).toNat : Int))

/-- Coefficient `k` of the forward path, for the residuals `r` and the table `Q`, by the formula of R189. -/
def forwardPath (r : Nat → Half) (Q : Nat → Byte) (k : Nat) : Half :=
  Exact32.coefficient r (Q k) (zigzag.getD k 0)

/-- Residual `(x, y)` of the inverse path, for the coefficients `q` and the table `Q`, by the formula of
R190. -/
def inversePath (q : Nat → Half) (Q : Nat → Byte) (y x : Nat) : Half :=
  Exact32.residual q Q (fun i => zigzagInv.getD i 0) y x

/-- Every table entry is at least 1 (R36). -/
def EntriesPositive (Q : Nat → Byte) : Prop := ∀ k, k < 64 → 1 ≤ (Q k).toNat

/-- A sum clamped to 0..255 and stored as a sample (R202). -/
def clampedSample (r : Half) (p : Byte) : Byte :=
  BitVec.ofInt 8 (max 0 (min 255 (r.toInt + (p.toNat : Int))))

/-- Coefficient `k` of block `(bx, band)` of a coefficient plane `K` (R62). -/
def blockCoeff (K : Nat → Half) (cols bx band k : Nat) : Half := K ((band * cols + bx) * 64 + k)

/-- Sample `(x, y)` of block `(bx, band)` as the inverse driver stores it (R202). -/
def reconstructed (s : State) (c : Comp) (K : Nat → Half) (P Q : Nat → Byte) (bx band y x : Nat) :
    Word :=
  (clampedSample (inversePath (blockCoeff K (s.cols c) bx band) Q y x)
    (P ((band * 8 + y) * s.pw c + bx * 8 + x))).setWidth 32

/-- What the forward path over a component needs (R201). -/
structure Transformable (s : State) (c : Comp) (cur : Frame) (A P Q : Nat → Byte) : Prop where
  live : Live s
  cur_eq : s.cur = some cur
  grid : GridOk s
  orig : Holds (cur.orig.get c) (s.planeSize c) A
  pred : Holds (cur.pred.get c) (s.planeSize c) P
  table : Holds (s.qt.get c) 64 Q
  entries : EntriesPositive Q

/-- What the inverse path over a component needs (R202). -/
structure Reconstructible (s : State) (c : Comp) (cur : Frame) (P Q : Nat → Byte) : Prop where
  live : Live s
  cur_eq : s.cur = some cur
  grid : GridOk s
  pred : Holds (cur.pred.get c) (s.planeSize c) P
  table : Holds (s.qt.get c) 64 Q

end Sys2Proof.Claim

open Sys2Proof Sys2Proof.Machine Sys2Proof.Claim

/-! ### Decoding and encoding -/

/-- Every well-formed instruction is read back from its word, with every operand (R92 to R95). -/
def Obligations.DecodeOfEncode : Prop :=
  ∀ i : Instr, i.wellFormed = true → decode (encode i) = .ok i

/-- A word that is a command is the encoding of that command, which is well formed: every bit of the
word is accounted for (R92, R93). -/
def Obligations.EncodeOfDecode : Prop :=
  ∀ (w : Word) (i : Instr), decode w = .ok i → encode i = w ∧ i.wellFormed = true

/-- R95: word `w` is a row's command exactly when `(w & mask) == match` and, for formats C, R and M,
`w[23:22] != 3`. -/
def Obligations.DecodeFollowsOpcodeMap : Prop :=
  ∀ row ∈ opcodeMap, ∀ w : Word,
    (∃ i, decode w = .ok i ∧ i.opcode = row.1) ↔
      (w &&& row.2.2.1 = row.2.1 ∧ (row.2.2.2 = true → w.toNat / 2 ^ 22 % 4 ≠ 3))

/-- Words written out from R100, one or more of each family, are read as the commands they stand
for. -/
def Obligations.DecodeOfSampleWords : Prop :=
  decode 0x01000000#32 = .ok .ctxNew ∧ decode 0x10002400#32 = .ok (.sad 0x00#8 0x24#8) ∧
    decode 0x20401003#32 = .ok (.meBlock .u 2 3) ∧ decode 0x21800000#32 = .ok (.meComp .v) ∧
    decode 0x30800001#32 = .ok (.mcBlock .v 0 1) ∧ decode 0x42802800#32 = .ok (.dctqRow .v 5) ∧
    decode 0x43408800#32 = .ok (.deqidctRow .u 17) ∧ decode 0x45400000#32 = .ok (.deqidctPlane .u) ∧
    decode 0x47000000#32 = .ok .zzInv

/-! ### Steps -/

/-- R90: a host write of a word to CMD, in a state without a fault, is the command the word decodes to; in
particular the step from a state with the word placed next runs exactly that command. -/
def Obligations.StepRunsDecodedCommand : Prop :=
  (∀ (s : State) (w : Word) (i : Instr) (rest : List HostAccess),
    Next s (.write 0x00#8 w) rest → s.faulted = false → decode w = .ok i →
    step s = exec i (taken s rest)) ∧
  ∀ (s : State) (w : Word) (i : Instr), s.faulted = false → decode w = .ok i →
    step (s.withFetchWord 32 w.toNat) = exec i s

/-- R96: the issue of a word that is no command raises `E_ILLEGAL_CMD` with the word and changes
nothing else. -/
def Obligations.StepRefusesIllegalWord : Prop :=
  ∀ (s : State) (w : Word) (e : DecodeError) (rest : List HostAccess),
    Next s (.write 0x00#8 w) rest → s.faulted = false → decode w = .error e →
    step s = .next (recorded (taken s rest) 0x05#32 w)

/-- R278, R256: every step ends in a next state; with no host access pending the state stays. -/
def Obligations.StepAlwaysAnswers : Prop :=
  (∀ s : State, ∃ t, step s = .next t) ∧ ∀ s : State, s.pending = [] → step s = .next s

/-- R270, R271: the reset event, in any state, leaves exactly the reset values; the parameters stay. The
model's own fields: the pending accesses go on, the latest read is cleared, the count of unspecified
reads goes on (log entries 3, 4, 6). -/
def Obligations.ResetLeavesResetValues : Prop :=
  ∀ (s : State) (rest : List HostAccess), Next s .reset rest →
    ∃ t, step s = .next t ∧
      (t.arg0 = 0#32 ∧ t.arg1 = 0#32 ∧ t.arg2 = 0#32 ∧ t.sadAcc = 0#32 ∧
        t.meBest = 0x7FFFFFFF#32 ∧ t.meMv = 0#32 ∧ t.pos = 0#32) ∧
      (t.width = 0#32 ∧ t.height = 0#32 ∧ t.frameNum = 0#32 ∧ t.framesSinceKf = 0#32 ∧
        ∀ c, t.pw c = 0 ∧ t.ph c = 0 ∧ t.cols c = 0 ∧ t.rows c = 0) ∧
      (t.status = 0#32 ∧ t.fault = 0#32 ∧ t.faultInfo = 0#32 ∧ t.msel = 0#32 ∧ t.maddr = 0#32) ∧
      (t.ctxValid = false ∧ t.ended = false ∧ t.faulted = false ∧ t.cur = none ∧ t.ref = none) ∧
      (∀ i, t.element .blkIn i = none ∧ t.element .blkOut i = none) ∧
      (∀ c i, t.element (.picIn c) i = none ∧ t.element (.qt c) i = none) ∧
      t.params = s.params ∧ t.pending = rest ∧ t.hostRead = none ∧ t.freeReads = s.freeReads

/-! ### Host accesses -/

/-- R21, R29: a host read of a readable register other than MDATA returns the register and has no side
effect, faulted or not. -/
def Obligations.HostReadReturnsRegister : Prop :=
  ∀ (s : State) (rest : List HostAccess) (n : Nat) (v : Word), Next s (.read (BitVec.ofNat 8 n)) rest →
    (n, v) ∈
      [(0x01, s.status), (0x02, s.fault), (0x03, s.faultInfo), (0x04, s.arg0), (0x05, s.arg1),
       (0x06, s.arg2), (0x08, s.sadAcc), (0x09, s.meBest), (0x0A, s.meMv), (0x0B, s.pos),
       (0x10, s.width), (0x11, s.height)] ++
      [(0x12, s.geom.y.padW), (0x13, s.geom.y.padH), (0x14, s.geom.u.padW), (0x15, s.geom.u.padH),
       (0x16, s.geom.v.padW), (0x17, s.geom.v.padH), (0x18, s.geom.y.mbCols), (0x19, s.geom.y.mbRows),
       (0x1A, s.geom.u.mbCols), (0x1B, s.geom.u.mbRows), (0x1C, s.geom.v.mbCols),
       (0x1D, s.geom.v.mbRows)] ++
      [(0x1E, 25#32), (0x1F, BitVec.ofNat 32 s.params.meRange.val), (0x20, s.params.kfInterval),
       (0x21, s.frameNum), (0x22, s.framesSinceKf), (0x30, s.msel), (0x31, s.maddr)] →
    step s = .next { taken s rest with hostRead := some v }

/-- R25: the bits of STATUS. -/
def Obligations.StatusBits : Prop :=
  ∀ s : State,
    s.status.toNat =
      s.ctxValid.toNat + 2 * s.cur.isSome.toNat + 4 * s.ref.isSome.toNat +
        8 * (s.cur.any Frame.keyframe).toNat + 16 * (s.ref.any Frame.keyframe).toNat +
        32 * s.ended.toNat + 64 * s.faulted.toNat

/-- R29, R240: without a fault, a read of CMD, a write of a register that is not writable, and any access to
a register number that does not exist raise `E_ACCESS` with the access word and change nothing else
(the read returns no value: log entry 4). -/
def Obligations.IllegalRegisterAccessFaults : Prop :=
  ∀ (s : State) (rest : List HostAccess) (n : Byte), s.faulted = false →
    (Next s (.read n) rest →
      (n = 0x00#8 ∨ n = 0x07#8 ∨ (0x0C ≤ n.toNat ∧ n.toNat ≤ 0x0F) ∨
        (0x23 ≤ n.toNat ∧ n.toNat ≤ 0x2F) ∨ 0x33 ≤ n.toNat) →
      step s = .next { recorded (taken s rest) 0x07#32 (accessInfo s n) with hostRead := none }) ∧
    ∀ v, Next s (.write n v) rest →
      ((0x01 ≤ n.toNat ∧ n.toNat ≤ 0x03) ∨ (0x07 ≤ n.toNat ∧ n.toNat ≤ 0x2F) ∨ 0x33 ≤ n.toNat) →
      step s = .next (recorded (taken s rest) 0x07#32 (accessInfo s n))

/-- R22, R27, R28: a host write of an operand register or of MSEL or MADDR stores the value, whatever it
is, and changes nothing else. -/
def Obligations.HostWriteStoresRegister : Prop :=
  ∀ (s : State) (rest : List HostAccess) (v : Word), s.faulted = false →
    (Next s (.write 0x04#8 v) rest → step s = .next { taken s rest with arg0 := v }) ∧
    (Next s (.write 0x05#8 v) rest → step s = .next { taken s rest with arg1 := v }) ∧
    (Next s (.write 0x06#8 v) rest → step s = .next { taken s rest with arg2 := v }) ∧
    (Next s (.write 0x30#8 v) rest → step s = .next { taken s rest with msel := v }) ∧
    (Next s (.write 0x31#8 v) rest → step s = .next { taken s rest with maddr := v })

/-- R61: the id of every space names it, and an id names a space only if it is that space's; the frame
spaces stand at `slot * 0x20 + kind * 4 + c`. -/
def Obligations.SpaceIdsNameSpaces : Prop :=
  (∀ sp : SpaceRef, SpaceRef.ofId (BitVec.ofNat 8 sp.id) = some sp) ∧
    (∀ (b : Byte) (sp : SpaceRef), SpaceRef.ofId b = some sp → sp.id = b.toNat) ∧
    (∀ c : Comp, SpaceRef.id (.orig .cur c) = 0 * 0x20 + 0 * 4 + c.number ∧
      SpaceRef.id (.recons .cur c) = 0 * 0x20 + 1 * 4 + c.number ∧
      SpaceRef.id (.pred .cur c) = 0 * 0x20 + 2 * 4 + c.number ∧
      SpaceRef.id (.resid .cur c) = 0 * 0x20 + 3 * 4 + c.number ∧
      SpaceRef.id (.mb .cur c) = 0 * 0x20 + 4 * 4 + c.number ∧
      SpaceRef.id (.orig .ref c) = 1 * 0x20 + 0 * 4 + c.number ∧
      SpaceRef.id (.recons .ref c) = 1 * 0x20 + 1 * 4 + c.number ∧
      SpaceRef.id (.pred .ref c) = 1 * 0x20 + 2 * 4 + c.number ∧
      SpaceRef.id (.resid .ref c) = 1 * 0x20 + 3 * 4 + c.number ∧
      SpaceRef.id (.mb .ref c) = 1 * 0x20 + 4 * 4 + c.number ∧
      SpaceRef.id (.picIn c) = 0x40 + c.number ∧ SpaceRef.id (.qt c) = 0x44 + c.number) ∧
    SpaceRef.id .blkIn = 0x48 ∧ SpaceRef.id .blkOut = 0x49

/-- R63, R64: a read of MDATA returns the selected element; it raises `E_ACCESS` when MSEL[31:8] is not
zero, the id is reserved, the space does not exist or the index is not below its size, and `E_UNDEF`
when the element is `undef`. Nothing else changes. -/
def Obligations.WindowReadFollowsRules : Prop :=
  ∀ (s : State) (rest : List HostAccess), Next s (.read 0x32#8) rest →
    (∀ sp v, s.msel = BitVec.ofNat 32 sp.id → s.hasSpace sp = true →
      s.maddr.toNat < s.spaceSize sp → s.element sp s.maddr.toNat = some v →
      step s = .next { taken s rest with hostRead := some v }) ∧
    (∀ sp, s.msel = BitVec.ofNat 32 sp.id → s.hasSpace sp = true →
      s.maddr.toNat < s.spaceSize sp → s.element sp s.maddr.toNat = none → s.faulted = false →
      step s = .next
        { recorded (taken s rest) 0x06#32 (accessInfo s 0x32#8) with hostRead := none }) ∧
    ((∀ sp, s.msel = BitVec.ofNat 32 sp.id → s.hasSpace sp = true →
        s.spaceSize sp ≤ s.maddr.toNat) → s.faulted = false →
      step s = .next
        { recorded (taken s rest) 0x07#32 (accessInfo s 0x32#8) with hostRead := none })

/-- R61, R63, R64: a write of MDATA to a space the host may write makes the selected element the low bits of
the value and leaves every other element and register; to any other space it raises `E_ACCESS`, and so
it does when MSEL[31:8] is not zero, the id is reserved, the space does not exist or the index is not
below its size; then nothing else changes. -/
def Obligations.WindowWriteFollowsRules : Prop :=
  ∀ (s : State) (rest : List HostAccess) (v : Word), s.faulted = false →
    Next s (.write 0x32#8 v) rest →
    (∀ sp, s.msel = BitVec.ofNat 32 sp.id → s.hasSpace sp = true →
      s.maddr.toNat < s.spaceSize sp →
      ((∃ c, sp = .picIn c ∨ sp = .pred .cur c) →
        ∃ t, step s = .next t ∧
          t = { taken s rest with picIn := t.picIn, cur := t.cur } ∧ SlotsFrame s t ∧
          t.element sp s.maddr.toNat = some (BitVec.ofNat 32 (v.toNat % 2 ^ 8)) ∧
          MemoryFrame s t (fun sp' i => sp' = sp ∧ i = s.maddr.toNat)) ∧
      (sp = .blkIn →
        ∃ t, step s = .next t ∧ t = { taken s rest with blkIn := t.blkIn } ∧
          t.element sp s.maddr.toNat = some ((v.setWidth 16).signExtend 32) ∧
          MemoryFrame s t (fun sp' i => sp' = sp ∧ i = s.maddr.toNat)) ∧
      ((∀ c, sp ≠ .picIn c ∧ sp ≠ .pred .cur c) → sp ≠ .blkIn →
        step s = .next (recorded (taken s rest) 0x07#32 (accessInfo s 0x32#8)))) ∧
    ((∀ sp, s.msel = BitVec.ofNat 32 sp.id → s.hasSpace sp = true →
        s.spaceSize sp ≤ s.maddr.toNat) →
      step s = .next (recorded (taken s rest) 0x07#32 (accessInfo s 0x32#8)))

/-! ### Faults -/

/-- R241, R243: a command the state does not accept raises `E_STATE` with its word and changes nothing
else, whatever its operands. -/
def Obligations.UnacceptedCommandFaults : Prop :=
  ∀ (i : Instr) (s : State), s.faulted = false → ¬ Accepted i s →
    exec i s = .next (recorded s 0x04#32 (encode i))

/-- R245, R247: while FAULTED, no host access but reset changes a register, a flag or an element; only the
model's record of what reads returned moves on. -/
def Obligations.FaultedStateIsAbsorbing : Prop :=
  ∀ (s t : State) (a : HostAccess) (rest : List HostAccess), s.faulted = true → Next s a rest →
    a ≠ .reset → step s = .next t →
    t = { s with pending := rest, hostRead := t.hostRead, freeReads := t.freeReads }

/-- R121, R142, R159, R172, R201, R202, R240: an accepted command whose operand check fails raises
`E_CONFIG` or `E_GEOMETRY` with its word and changes nothing else: a dimension that is not in
1..16384, a macroblock outside the grid, a row-band outside the plane. -/
def Obligations.OperandCheckFaultsChangeNothingElse : Prop :=
  ∀ s : State, s.faulted = false →
    (Accepted .ctxNew s →
      (s.arg0.toInt ≤ 0 ∨ s.arg1.toInt ≤ 0 ∨ 16384 < s.arg0.toInt ∨ 16384 < s.arg1.toInt) →
      exec .ctxNew s = .next (recorded s 0x01#32 0x01000000#32)) ∧
    (∀ c mbY mbX, s.cols c ≤ mbX ∨ s.rows c ≤ mbY →
      (Accepted (.meBlock c mbY mbX) s →
        exec (.meBlock c mbY mbX) s = .next (recorded s 0x03#32 (encode (.meBlock c mbY mbX)))) ∧
      (Accepted (.mcBlock c mbY mbX) s →
        exec (.mcBlock c mbY mbX) s = .next (recorded s 0x03#32 (encode (.mcBlock c mbY mbX))))) ∧
    ∀ c band, s.ph c / 8 ≤ band →
      (Accepted (.dctqRow c band) s →
        exec (.dctqRow c band) s = .next (recorded s 0x03#32 (encode (.dctqRow c band)))) ∧
      (Accepted (.deqidctRow c band) s →
        exec (.deqidctRow c band) s = .next (recorded s 0x03#32 (encode (.deqidctRow c band))))

/-- R129: ABORT raises `E_INPUT` in every unfaulted state and changes nothing else. -/
def Obligations.AbortRecordsInputError : Prop :=
  ∀ s : State, s.faulted = false → exec .abort s = .next (recorded s 0x02#32 0x04000000#32)

/-! ### Whole-machine rules -/

/-- R22, R38, R39, R90: every command ends in a next state and leaves the operand registers, the memory
window, `BLK_IN`, the parameters, the host's accesses and, but for CTX_NEW, `PIC_IN`. -/
def Obligations.CommandsLeaveHostRegisters : Prop :=
  ∀ (i : Instr) (s : State), ∃ t, exec i s = .next t ∧
    t.arg0 = s.arg0 ∧ t.arg1 = s.arg1 ∧ t.arg2 = s.arg2 ∧ t.msel = s.msel ∧ t.maddr = s.maddr ∧
    t.blkIn = s.blkIn ∧ t.params = s.params ∧ t.pending = s.pending ∧ t.hostRead = s.hostRead ∧
    t.freeReads = s.freeReads ∧ (i ≠ .ctxNew → t.picIn = s.picIn)

/-- R123: once the context is constructed, no step but reset undoes it or changes the geometry registers or
the tables, and a second CTX_NEW is refused with `E_STATE`. -/
def Obligations.GeometryAndTablesAreImmutable : Prop :=
  (∀ s t : State, s.ctxValid = true → s.pending.head? ≠ some .reset → step s = .next t →
    t.ctxValid = true ∧ t.width = s.width ∧ t.height = s.height ∧ t.geom = s.geom ∧ t.qt = s.qt ∧
      t.params = s.params) ∧
    ∀ s : State, s.ctxValid = true → s.faulted = false →
      exec .ctxNew s = .next (recorded s 0x04#32 0x01000000#32)

/-- R74, R37: only ENCODE_IMAGE and CTX_NEW change the frame history: every other command leaves the
counters, the reference frame, and the current frame's original planes and keyframe flag. -/
def Obligations.OnlyEncodeImageMovesFrames : Prop :=
  ∀ (i : Instr) (s t : State), i ≠ .encodeImage → i ≠ .ctxNew → exec i s = .next t →
    t.frameNum = s.frameNum ∧ t.framesSinceKf = s.framesSinceKf ∧ t.ref = s.ref ∧
      t.cur.map Frame.orig = s.cur.map Frame.orig ∧
      t.cur.map Frame.keyframe = s.cur.map Frame.keyframe

/-! ### Invariants -/

/-- The context invariant holds after every step. -/
def Obligations.StepKeepsContext : Prop :=
  ∀ s t : State, s.ContextInv → step s = .next t → t.ContextInv

/-- The fault record stays legal. -/
def Obligations.StepKeepsFaultRecord : Prop :=
  ∀ s t : State, s.FaultInv → step s = .next t → t.FaultInv

/-- The frame history stays consistent; in particular a non-keyframe always has a reference. -/
def Obligations.StepKeepsFrameHistory : Prop :=
  ∀ s t : State, s.HistoryInv → step s = .next t → t.HistoryInv

/-- R125: the keyframe schedule. After every step the frames since the last keyframe still say where in the
interval the stream is, and so, for `KF_INTERVAL` >= 1, a picture is a keyframe exactly when the
interval divides FRAMENUM; for `KF_INTERVAL` = 0, only when FRAMENUM is 0. -/
def Obligations.KeyframesComeEveryInterval : Prop :=
  (∀ s t : State, s.ScheduleInv → step s = .next t → t.ScheduleInv) ∧
    ∀ s : State, s.ScheduleInv →
      (s.params.kfInterval ≠ 0#32 →
        (s.nextIsKey = true ↔ s.params.kfInterval.toNat ∣ s.frameNum.toNat)) ∧
      (s.params.kfInterval = 0#32 → (s.nextIsKey = true ↔ s.frameNum = 0#32))

/-- Every memory space keeps its canonical form and its allocation's definedness. -/
def Obligations.StepKeepsMemory : Prop :=
  ∀ s t : State, s.ContextInv → s.MemoryInv → step s = .next t → t.MemoryInv

/-- I3 and I4 of R40: keyframes keep default records and no vector ever leaves its plane. -/
def Obligations.StepKeepsVectorsInside : Prop :=
  ∀ s t : State, s.ContextInv → s.VectorInv → step s = .next t → t.VectorInv

/-- The result registers stay in range. -/
def Obligations.StepKeepsResultRegisters : Prop :=
  ∀ s t : State, s.ContextInv → s.ResultInv → step s = .next t → t.ResultInv

/-- Every invariant holds in the reset state of every instance. -/
def Obligations.ResetMeetsInvariants : Prop :=
  ∀ p : Params, (State.resetWith p).ContextInv ∧ (State.resetWith p).FaultInv ∧
    (State.resetWith p).HistoryInv ∧ (State.resetWith p).ScheduleInv ∧
    (State.resetWith p).MemoryInv ∧ (State.resetWith p).VectorInv ∧ (State.resetWith p).ResultInv

/-! ### Context commands -/

/-- R121, R221 to R223: CTX_NEW with legal dimensions constructs the context: raw and padded dimensions,
grids, empty history, an `undef` picture; nothing else changes. -/
def Obligations.CtxNewConstructs : Prop :=
  ∀ (s : State) (w h : Nat), s.faulted = false → Accepted .ctxNew s →
    s.arg0.toInt = w → s.arg1.toInt = h → 1 ≤ w → w ≤ 16384 → 1 ≤ h → h ≤ 16384 →
    ∃ t, exec .ctxNew s = .next t ∧
      t = { s with
        width := s.arg0, height := s.arg1, geom := t.geom, qt := t.qt, frameNum := 0#32,
        framesSinceKf := 0#32, cur := none, ref := none, picIn := t.picIn, ctxValid := true } ∧
      t.pw .y = (w + 15) / 16 * 16 ∧ t.ph .y = (h + 15) / 16 * 16 ∧
      (∀ c, c ≠ .y → t.pw c = (w + 15) / 16 * 8 ∧ t.ph c = (h + 15) / 16 * 8) ∧
      (∀ c, t.cols c = t.pw c / 8 ∧ t.rows c = t.ph c / 8) ∧
      ∀ c i, t.element (.picIn c) i = none

/-- R122, R36: the tables CTX_NEW builds: `max(1, (e * 10) div 25)` by zig-zag position, one default table
for luma and one shared by both chroma components; every entry is 1..255. -/
def Obligations.CtxNewBuildsTables : Prop :=
  ∀ s : State, s.faulted = false → Accepted .ctxNew s →
    1 ≤ s.arg0.toInt → s.arg0.toInt ≤ 16384 → 1 ≤ s.arg1.toInt → s.arg1.toInt ≤ 16384 →
    ∃ t, exec .ctxNew s = .next t ∧ t.qt.u = t.qt.v ∧
      ∀ k : Fin 64,
        t.element (.qt .y) k = some (BitVec.ofNat 32 (max 1 (s.params.qtDefLuma[k].toNat * 10 / 25))) ∧
        t.element (.qt .u) k =
          some (BitVec.ofNat 32 (max 1 (s.params.qtDefChroma[k].toNat * 10 / 25))) ∧
        ∀ c, ∃ v, t.element (.qt c) k = some v ∧ 1 ≤ v.toNat ∧ v.toNat ≤ 255

/-- R234: the geometry CTX_NEW computes is consistent. -/
def Obligations.CtxNewGeometryIsConsistent : Prop :=
  ∀ s t : State, s.ctxValid = false → exec .ctxNew s = .next t → t.ctxValid = true →
    GridOk t ∧ 16 ∣ t.pw .y ∧ 16 ∣ t.ph .y ∧
      (∀ c, t.planeSize c = 64 * t.gridSize c ∧ t.pw c ≤ 16384 ∧ t.ph c ≤ 16384) ∧
      ∀ c, c ≠ .y →
        t.cols c * 2 = t.cols .y ∧ t.rows c * 2 = t.rows .y ∧ t.planeSize c * 4 = t.planeSize .y

/-- R124 to R126, R44 to R46: ENCODE_IMAGE of a keyframe: the move, the new frame with the picture as its
original planes, flat prediction, default records and nothing else defined, the counters; no search
runs. -/
def Obligations.EncodeImageOfKeyframe : Prop :=
  ∀ (s : State) (X : Comp → Nat → Byte), s.faulted = false → Accepted .encodeImage s →
    (∀ c, Holds (s.picIn.get c) (s.planeSize c) (X c)) →
    (s.frameNum = 0#32 ∨ s.framesSinceKf = s.params.kfInterval) →
    ∃ t f, exec .encodeImage s = .next t ∧
      t = { s with
        ref := s.cur, cur := some f, frameNum := s.frameNum + 1#32, framesSinceKf := 1#32 } ∧
      f.keyframe = true ∧
      ∀ c, f.orig.get c = s.picIn.get c ∧ f.recons.get c = [] ∧ f.resid.get c = [] ∧
        Holds (f.pred.get c) (s.planeSize c) (fun _ => s.params.intraFill) ∧
        Holds (f.mb.get c) (s.gridSize c) (fun _ => ⟨false, 0#8, 0#8⟩)

/-- R124 (d), R150 to R157: ENCODE_IMAGE of an inter frame whose reference is wholly reconstructed: it
completes, moves and allocates the frames, and every record of every grid is the search's result;
both counters go up; ME_BEST and ME_MV are those of the last macroblock of V, SAD_ACC that of the last
candidate of all. -/
def Obligations.EncodeImageOfInterFrame : Prop :=
  ∀ (s : State) (X B : Comp → Nat → Byte) (old : Frame), s.faulted = false →
    Accepted .encodeImage s → GridOk s →
    (∀ c, Holds (s.picIn.get c) (s.planeSize c) (X c)) → s.cur = some old →
    (∀ c, Holds (old.recons.get c) (s.planeSize c) (B c)) →
    s.frameNum ≠ 0#32 → s.framesSinceKf ≠ s.params.kfInterval →
    ∃ t f, exec .encodeImage s = .next t ∧
      t = { s with
        ref := some old, cur := some f, frameNum := s.frameNum + 1#32,
        framesSinceKf := s.framesSinceKf + 1#32, pos := posOf .v (s.cols .v - 1) (s.rows .v - 1),
        sadAcc := t.sadAcc, meBest := t.meBest, meMv := t.meMv } ∧
      f.keyframe = false ∧
      (∀ c, f.orig.get c = s.picIn.get c ∧ f.recons.get c = [] ∧ f.resid.get c = [] ∧
        Holds (f.pred.get c) (s.planeSize c) (fun _ => s.params.intraFill) ∧
        ∀ x y, x < s.cols c → y < s.rows c →
          ∃ m best, Space.read (f.mb.get c) (y * s.cols c + x) = some m ∧
            SearchResult s c (X c) (B c) x y ⟨false, 0#8, 0#8⟩ m best) ∧
      (∃ m, Space.read (f.mb.get .v) (s.gridSize .v - 1) = some m ∧ t.meMv = m.word ∧
        SearchResult s .v (X .v) (B .v) (s.cols .v - 1) (s.rows .v - 1) ⟨false, 0#8, 0#8⟩ m
          t.meBest) ∧
      ((∀ c x y, InGrid s c x y → ∀ x' y', ¬ Candidate s c x y x' y') → t.sadAcc = s.sadAcc) ∧
      ∀ c x y x' y', InGrid s c x y → LastCandidate s c x y x' y' →
        (∀ c₁ x₁ y₁, InGrid s c₁ x₁ y₁ → unitBefore s (c, x, y) (c₁, x₁, y₁) →
          ∀ x₂ y₂, ¬ Candidate s c₁ x₁ y₁ x₂ y₂) →
        t.sadAcc.toNat = candidateScore s c (X c) (B c) x y x' y'

/-- R126: ENCODE_IMAGE with an `undef` element anywhere in `PIC_IN` raises `E_UNDEF` and changes nothing
else. -/
def Obligations.EncodeImageNeedsWholePicture : Prop :=
  ∀ (s : State) (c : Comp) (i : Nat), s.faulted = false → Accepted .encodeImage s →
    i < s.planeSize c → Space.read (s.picIn.get c) i = none →
    exec .encodeImage s = .next (recorded s 0x06#32 0x02000000#32)

/-- R274, R124: a non-keyframe ENCODE_IMAGE whose search reaches an `undef` sample of the reference, at
whichever macroblock of whichever component, raises `E_UNDEF` there, after the move and the allocation
and before the counters: the macroblocks before it have their records, the others the default one.
At the first luma macroblock ME_BEST and ME_MV are still the old ones. -/
def Obligations.EncodeImageNeedsReconstructedReference : Prop :=
  ∀ (s : State) (X B : Comp → Nat → Byte) (old : Frame) (c : Comp) (mbX mbY x y : Nat),
    s.faulted = false → Accepted .encodeImage s → GridOk s →
    (∀ c, Holds (s.picIn.get c) (s.planeSize c) (X c)) → s.cur = some old →
    s.frameNum ≠ 0#32 → s.framesSinceKf ≠ s.params.kfInterval → InGrid s c mbX mbY →
    (∀ c₁ x₁ y₁, InGrid s c₁ x₁ y₁ → unitBefore s (c₁, x₁, y₁) (c, mbX, mbY) →
      WindowsHold s c₁ old (B c₁) x₁ y₁) →
    SearchStopsAt s c old (B c) mbX mbY x y →
    ∃ t f, exec .encodeImage s = .next (recorded t 0x06#32 0x02000000#32) ∧
      t = { s with
        ref := some old, cur := some f, pos := posOf c mbX mbY, sadAcc := t.sadAcc,
        meBest := t.meBest, meMv := t.meMv } ∧
      f.keyframe = false ∧
      (∀ c₁, f.orig.get c₁ = s.picIn.get c₁ ∧ f.recons.get c₁ = [] ∧ f.resid.get c₁ = [] ∧
        Holds (f.pred.get c₁) (s.planeSize c₁) (fun _ => s.params.intraFill) ∧
        ∀ x₁ y₁, InGrid s c₁ x₁ y₁ →
          (unitBefore s (c₁, x₁, y₁) (c, mbX, mbY) →
            ∃ m best, Space.read (f.mb.get c₁) (y₁ * s.cols c₁ + x₁) = some m ∧
              SearchResult s c₁ (X c₁) (B c₁) x₁ y₁ ⟨false, 0#8, 0#8⟩ m best) ∧
          (¬ unitBefore s (c₁, x₁, y₁) (c, mbX, mbY) →
            Space.read (f.mb.get c₁) (y₁ * s.cols c₁ + x₁) = some ⟨false, 0#8, 0#8⟩)) ∧
      SadBefore s c (X c) (B c) mbX mbY x y t.sadAcc t.sadAcc ∧
      (c = .y → mbX = 0 → mbY = 0 → t.meBest = s.meBest ∧ t.meMv = s.meMv ∧
        SadBefore s c (X c) (B c) mbX mbY x y s.sadAcc t.sadAcc)

/-- R128: STREAM_END sets ENDED and changes nothing else. -/
def Obligations.StreamEndSetsEnded : Prop :=
  ∀ s : State, s.faulted = false → Accepted .streamEnd s →
    exec .streamEnd s = .next { s with ended := true }

/-! ### SAD -/

/-- R141 to R143: SAD of two existing sample spaces with both windows valid and defined writes the sum of
the 64 absolute differences to SAD_ACC and changes nothing else. -/
def Obligations.SadSumsAbsoluteDifferences : Prop :=
  ∀ (s : State) (a b : SpaceRef) (A B : Nat → Byte), Live s →
    isSampleSpace a = true → isSampleSpace b = true → s.hasSpace a = true → s.hasSpace b = true →
    s.arg0.toNat + 7 * s.arg2.toNat + 7 < s.spaceSize a →
    s.arg1.toNat + 7 * s.arg2.toNat + 7 < s.spaceSize b →
    (∀ r k, r < 8 → k < 8 →
      s.element a (s.arg0.toNat + r * s.arg2.toNat + k) =
        some ((A (s.arg0.toNat + r * s.arg2.toNat + k)).setWidth 32)) →
    (∀ r k, r < 8 → k < 8 →
      s.element b (s.arg1.toNat + r * s.arg2.toNat + k) =
        some ((B (s.arg1.toNat + r * s.arg2.toNat + k)).setWidth 32)) →
    exec (.sad (BitVec.ofNat 8 a.id) (BitVec.ofNat 8 b.id)) s =
      .next { s with
        sadAcc := BitVec.ofNat 32 (distortion A B s.arg0.toNat s.arg1.toNat s.arg2.toNat) }

/-- R142: SAD raises `E_GEOMETRY` when an id names no existing sample space or a window is not valid, and
otherwise `E_UNDEF` when an element is `undef`; SAD_ACC and everything else stay. -/
def Obligations.SadFaultsLeaveAccumulator : Prop :=
  ∀ (s : State) (ia ib : Byte), Live s →
    ((∀ a, SpaceRef.ofId ia = some a → isSampleSpace a = true → s.hasSpace a = true →
        s.spaceSize a ≤ s.arg0.toNat + 7 * s.arg2.toNat + 7) ∨
      (∀ b, SpaceRef.ofId ib = some b → isSampleSpace b = true → s.hasSpace b = true →
        s.spaceSize b ≤ s.arg1.toNat + 7 * s.arg2.toNat + 7) →
      exec (.sad ia ib) s = .next (recorded s 0x03#32 (encode (.sad ia ib)))) ∧
    ∀ a b r k, SpaceRef.ofId ia = some a → SpaceRef.ofId ib = some b →
      isSampleSpace a = true → isSampleSpace b = true → s.hasSpace a = true → s.hasSpace b = true →
      s.arg0.toNat + 7 * s.arg2.toNat + 7 < s.spaceSize a →
      s.arg1.toNat + 7 * s.arg2.toNat + 7 < s.spaceSize b → r < 8 → k < 8 →
      (s.element a (s.arg0.toNat + r * s.arg2.toNat + k) = none ∨
        s.element b (s.arg1.toNat + r * s.arg2.toNat + k) = none) →
      exec (.sad ia ib) s = .next (recorded s 0x06#32 (encode (.sad ia ib)))

/-- R144, R145: a distortion is at most 16320, reached exactly when every pair of samples is 0 and 255; it is
symmetric, 0 exactly when the windows are equal sample by sample, and depends on the 128 sample values
alone, not on where they stand. -/
def Obligations.DistortionLaws : Prop :=
  ∀ (m n : Space Byte) (oa ob t d : Nat), sadValue m oa n ob t = some d →
    d ≤ 16320 ∧
      (d = 16320 ↔ ∀ r k, r < 8 → k < 8 →
        (Space.read m (oa + r * t + k) = some 0#8 ∧ Space.read n (ob + r * t + k) = some 255#8) ∨
        (Space.read m (oa + r * t + k) = some 255#8 ∧ Space.read n (ob + r * t + k) = some 0#8)) ∧
      sadValue n ob m oa t = some d ∧
      (d = 0 ↔ ∀ r k, r < 8 → k < 8 →
        Space.read m (oa + r * t + k) = Space.read n (ob + r * t + k)) ∧
      ∀ (m' n' : Space Byte) (oa' ob' t' : Nat),
        (∀ r k, r < 8 → k < 8 →
          Space.read m' (oa' + r * t' + k) = Space.read m (oa + r * t + k) ∧
          Space.read n' (ob' + r * t' + k) = Space.read n (ob + r * t + k)) →
        sadValue m' oa' n' ob' t' = some d

/-! ### Motion estimation -/

/-- R153 to R159: ME_BLOCK on a macroblock of the grid completes; the record is the search's result, ME_BEST
and ME_MV show it, SAD_ACC is the last candidate's distortion, POS names the macroblock; nothing else
changes. -/
def Obligations.MeBlockFindsFirstMinimum : Prop :=
  ∀ (s : State) (c : Comp) (cur ref : Frame) (A B : Nat → Byte) (M : Nat → MbRecord)
    (mbX mbY : Nat), Searchable s c cur ref A B M → mbX < s.cols c → mbY < s.rows c →
    ∃ t m, exec (.meBlock c mbY mbX) s = .next t ∧
      t = { s with
        pos := posOf c mbX mbY, sadAcc := t.sadAcc, meBest := t.meBest, meMv := m.word,
        cur := t.cur } ∧
      SlotsFrame s t ∧ t.element (.mb .cur c) (mbY * s.cols c + mbX) = some m.word ∧
      MemoryFrame s t (fun sp i => sp = .mb .cur c ∧ i = mbY * s.cols c + mbX) ∧
      SearchResult s c A B mbX mbY (M (mbY * s.cols c + mbX)) m t.meBest ∧
      ((∀ x y, ¬ Candidate s c mbX mbY x y) → t.sadAcc = s.sadAcc) ∧
      ∀ x y, LastCandidate s c mbX mbY x y → t.sadAcc.toNat = candidateScore s c A B mbX mbY x y

/-- R157, R160: ME_COMP completes, searches every macroblock of the component, and leaves POS, ME_BEST and
ME_MV as the last macroblock leaves them, SAD_ACC as the last candidate of all; nothing but the
component's records and those registers changes. -/
def Obligations.MeCompSearchesEveryMacroblock : Prop :=
  ∀ (s : State) (c : Comp) (cur ref : Frame) (A B : Nat → Byte) (M : Nat → MbRecord),
    Searchable s c cur ref A B M →
    ∃ t, exec (.meComp c) s = .next t ∧
      t = { s with
        pos := posOf c (s.cols c - 1) (s.rows c - 1), sadAcc := t.sadAcc, meBest := t.meBest,
        meMv := t.meMv, cur := t.cur } ∧
      SlotsFrame s t ∧ MemoryFrame s t (fun sp i => sp = .mb .cur c ∧ i < s.gridSize c) ∧
      (∀ x y, x < s.cols c → y < s.rows c →
        ∃ m best, t.element (.mb .cur c) (y * s.cols c + x) = some m.word ∧
          SearchResult s c A B x y (M (y * s.cols c + x)) m best) ∧
      (∃ m, t.element (.mb .cur c) (s.gridSize c - 1) = some m.word ∧ t.meMv = m.word ∧
        SearchResult s c A B (s.cols c - 1) (s.rows c - 1) (M (s.gridSize c - 1)) m t.meBest) ∧
      ((∀ x y, InGrid s c x y → ∀ x' y', ¬ Candidate s c x y x' y') → t.sadAcc = s.sadAcc) ∧
      ∀ x y x' y', InGrid s c x y → LastCandidate s c x y x' y' →
        (∀ x₁ y₁, InGrid s c x₁ y₁ → unitBefore s (c, x, y) (c, x₁, y₁) →
          ∀ x₂ y₂, ¬ Candidate s c x₁ y₁ x₂ y₂) →
        t.sadAcc.toNat = candidateScore s c A B x y x' y'

/-- R161 (a), (b): the zero vector is no candidate in the last column or row, and the right-most and lowest
window positions of the plane are never candidates. -/
def Obligations.LastColumnHasNoZeroVector : Prop :=
  ∀ (s : State) (c : Comp) (mbX mbY x y : Nat), GridOk s → mbX < s.cols c → mbY < s.rows c →
    (x, y) ∈ (s.meWindow c mbX mbY).candidates →
    Candidate s c mbX mbY x y ∧ x + 8 < s.pw c ∧ y + 8 < s.ph c ∧
      (mbX = s.cols c - 1 → x < mbX * 8) ∧ (mbY = s.rows c - 1 → y < mbY * 8)

/-! ### Motion compensation -/

/-- R171, R172: MC_BLOCK of an inter macroblock whose source window lies inside the defined reference copies
the 64 samples at the anchor plus the vector to the anchor's region; nothing but that region and POS
changes. -/
def Obligations.McBlockCopiesDisplacedBlock : Prop :=
  ∀ (s : State) (c : Comp) (cur ref : Frame) (B : Nat → Byte) (m : MbRecord) (mbX mbY sx sy : Nat),
    Live s → s.cur = some cur → cur.keyframe = false → s.ref = some ref → GridOk s →
    Holds (ref.recons.get c) (s.planeSize c) B → mbX < s.cols c → mbY < s.rows c →
    Space.read (cur.mb.get c) (mbY * s.cols c + mbX) = some m → m.useMv = true →
    (sx : Int) = (mbX * 8 : Nat) + m.mvX.toInt → (sy : Int) = (mbY * 8 : Nat) + m.mvY.toInt →
    sx + 8 ≤ s.pw c → sy + 8 ≤ s.ph c →
    ∃ t, exec (.mcBlock c mbY mbX) s = .next t ∧
      t = { s with pos := posOf c mbX mbY, cur := t.cur } ∧ SlotsFrame s t ∧
      (∀ r k, r < 8 → k < 8 →
        t.element (.pred .cur c) ((mbY * 8 + r) * s.pw c + mbX * 8 + k) =
          some ((B ((sy + r) * s.pw c + sx + k)).setWidth 32)) ∧
      MemoryFrame s t (fun sp i => sp = .pred .cur c ∧
        ∃ r k, r < 8 ∧ k < 8 ∧ i = (mbY * 8 + r) * s.pw c + mbX * 8 + k)

/-- R171, R172, R174 (and the source's property S1): MC_BLOCK of a macroblock with `use_mv` false, and
MC_BLOCK and MC_COMP on a keyframe with or without a reference, change nothing but POS. -/
def Obligations.McWithoutVectorOnlyWritesPos : Prop :=
  ∀ (s : State) (c : Comp) (cur : Frame), Live s → s.cur = some cur →
    (∀ mbX mbY m, mbX < s.cols c → mbY < s.rows c → cur.keyframe = false → s.ref ≠ none →
      Space.read (cur.mb.get c) (mbY * s.cols c + mbX) = some m → m.useMv = false →
      exec (.mcBlock c mbY mbX) s = .next { s with pos := posOf c mbX mbY }) ∧
    (∀ mbX mbY, mbX < s.cols c → mbY < s.rows c → cur.keyframe = true →
      exec (.mcBlock c mbY mbX) s = .next { s with pos := posOf c mbX mbY }) ∧
    (cur.keyframe = true →
      exec (.mcComp c) s = .next { s with pos := posOf c (s.cols c - 1) (s.rows c - 1) })

/-- R171, R173: MC_COMP on an inter frame whose vectors lie inside the defined reference completes: every
macroblock with `use_mv` true has its region replaced by the displaced block, every other region
keeps its samples; nothing but the component's prediction and POS changes. -/
def Obligations.McCompCompensatesEveryMacroblock : Prop :=
  ∀ (s : State) (c : Comp) (cur ref : Frame) (B : Nat → Byte) (M : Nat → MbRecord),
    Live s → s.cur = some cur → cur.keyframe = false → s.ref = some ref → GridOk s →
    Holds (ref.recons.get c) (s.planeSize c) B → Holds (cur.mb.get c) (s.gridSize c) M →
    (∀ x y, x < s.cols c → y < s.rows c → (M (y * s.cols c + x)).useMv = true →
      0 ≤ (x * 8 : Nat) + (M (y * s.cols c + x)).mvX.toInt ∧
      (x * 8 : Nat) + (M (y * s.cols c + x)).mvX.toInt ≤ (s.pw c : Int) - 8 ∧
      0 ≤ (y * 8 : Nat) + (M (y * s.cols c + x)).mvY.toInt ∧
      (y * 8 : Nat) + (M (y * s.cols c + x)).mvY.toInt ≤ (s.ph c : Int) - 8) →
    ∃ t, exec (.mcComp c) s = .next t ∧
      t = { s with pos := posOf c (s.cols c - 1) (s.rows c - 1), cur := t.cur } ∧
      SlotsFrame s t ∧ MemoryFrame s t (fun sp i => sp = .pred .cur c ∧ i < s.planeSize c) ∧
      ∀ x y r k, x < s.cols c → y < s.rows c → r < 8 → k < 8 →
        t.element (.pred .cur c) ((y * 8 + r) * s.pw c + x * 8 + k) =
          if (M (y * s.cols c + x)).useMv = true then
            some ((B ((((y * 8 : Nat) + (M (y * s.cols c + x)).mvY.toInt).toNat + r) * s.pw c +
              ((x * 8 : Nat) + (M (y * s.cols c + x)).mvX.toInt).toNat + k)).setWidth 32)
          else s.element (.pred .cur c) ((y * 8 + r) * s.pw c + x * 8 + k)

/-- R66, R154, R157, R159, R160, R171 to R173, R175: on an inter frame whose reference is reconstructed in
part or not at all. ME_BLOCK whose search reaches an `undef` sample raises `E_UNDEF` with the record,
ME_BEST and ME_MV unchanged; ME_COMP does so at that macroblock, the ones before it searched and the
rest left. MC_BLOCK whose vector leaves the plane raises `E_GEOMETRY`, and one that reaches an `undef`
sample `E_UNDEF`, with the samples before it copied; MC_COMP does so at that macroblock, the ones
before it compensated and the rest left. POS names the macroblock; nothing else changes. -/
def Obligations.MotionCommandsNeedReference : Prop :=
  ∀ (s : State) (c : Comp) (cur ref : Frame) (A B : Nat → Byte) (M : Nat → MbRecord)
    (mbX mbY : Nat), Startable s c cur ref A M → InGrid s c mbX mbY →
    (∀ x y, SearchStopsAt s c ref B mbX mbY x y →
      (∃ t, exec (.meBlock c mbY mbX) s =
          .next (recorded t 0x06#32 (encode (.meBlock c mbY mbX))) ∧
        t = { s with pos := posOf c mbX mbY, sadAcc := t.sadAcc } ∧
        SadBefore s c A B mbX mbY x y s.sadAcc t.sadAcc) ∧
      ((∀ x₁ y₁, InGrid s c x₁ y₁ → unitBefore s (c, x₁, y₁) (c, mbX, mbY) →
          WindowsHold s c ref B x₁ y₁) →
        ∃ t, exec (.meComp c) s = .next (recorded t 0x06#32 (encode (.meComp c))) ∧
          t = { s with
            pos := posOf c mbX mbY, sadAcc := t.sadAcc, meBest := t.meBest, meMv := t.meMv,
            cur := t.cur } ∧
          SlotsFrame s t ∧
          MemoryFrame s t (fun sp i => sp = .mb .cur c ∧ i < mbY * s.cols c + mbX) ∧
          (∀ x₁ y₁, InGrid s c x₁ y₁ → unitBefore s (c, x₁, y₁) (c, mbX, mbY) →
            ∃ m best, t.element (.mb .cur c) (y₁ * s.cols c + x₁) = some m.word ∧
              SearchResult s c A B x₁ y₁ (M (y₁ * s.cols c + x₁)) m best ∧
              (y₁ * s.cols c + x₁ + 1 = mbY * s.cols c + mbX →
                t.meMv = m.word ∧ t.meBest = best)) ∧
          (mbX = 0 → mbY = 0 → t.meBest = s.meBest ∧ t.meMv = s.meMv) ∧
          SadBefore s c A B mbX mbY x y t.sadAcc t.sadAcc)) ∧
    ∀ code n, CopyStops s c ref B mbX mbY (M (mbY * s.cols c + mbX)) code n →
      (∃ t, exec (.mcBlock c mbY mbX) s = .next (recorded t code (encode (.mcBlock c mbY mbX))) ∧
        t = { s with pos := posOf c mbX mbY, cur := t.cur } ∧ SlotsFrame s t ∧
        (n = 0 → t.cur = s.cur) ∧
        (∀ i, i < n → t.element (.pred .cur c) (windowSample s c (mbX * 8) (mbY * 8) (i / 8) (i % 8)) =
          some ((B (sourceSample s c mbX mbY (M (mbY * s.cols c + mbX)) (i / 8) (i % 8))).setWidth
            32)) ∧
        MemoryFrame s t (fun sp j => sp = .pred .cur c ∧
          ∃ i, i < n ∧ j = windowSample s c (mbX * 8) (mbY * 8) (i / 8) (i % 8))) ∧
      ((∀ x₁ y₁, InGrid s c x₁ y₁ → unitBefore s (c, x₁, y₁) (c, mbX, mbY) →
          Compensable s c ref B x₁ y₁ (M (y₁ * s.cols c + x₁))) →
        ∃ t, exec (.mcComp c) s = .next (recorded t code (encode (.mcComp c))) ∧
          t = { s with pos := posOf c mbX mbY, cur := t.cur } ∧ SlotsFrame s t ∧
          (∀ x₁ y₁ r k, InGrid s c x₁ y₁ → unitBefore s (c, x₁, y₁) (c, mbX, mbY) → r < 8 → k < 8 →
            (M (y₁ * s.cols c + x₁)).useMv = true →
            t.element (.pred .cur c) (windowSample s c (x₁ * 8) (y₁ * 8) r k) =
              some ((B (sourceSample s c x₁ y₁ (M (y₁ * s.cols c + x₁)) r k)).setWidth 32)) ∧
          (∀ i, i < n →
            t.element (.pred .cur c) (windowSample s c (mbX * 8) (mbY * 8) (i / 8) (i % 8)) =
              some ((B (sourceSample s c mbX mbY (M (mbY * s.cols c + mbX)) (i / 8)
                (i % 8))).setWidth 32)) ∧
          MemoryFrame s t (fun sp j => sp = .pred .cur c ∧
            ((∃ x₁ y₁ r k, InGrid s c x₁ y₁ ∧ unitBefore s (c, x₁, y₁) (c, mbX, mbY) ∧ r < 8 ∧ k < 8 ∧
                (M (y₁ * s.cols c + x₁)).useMv = true ∧
                j = windowSample s c (x₁ * 8) (y₁ * 8) r k) ∨
              ∃ i, i < n ∧ j = windowSample s c (mbX * 8) (mbY * 8) (i / 8) (i % 8))))

/-! ### Transform -/

/-- R187: the zig-zag order is a bijection of 0..63, its inverse is the table the rule prints, the forward
reorder takes element `ZIGZAG[k]` to position `k`, the inverse takes it back, and the two undo each other
on every 64-entry array. -/
def Obligations.ZigzagIsBijection : Prop :=
  (∀ i, i < 64 → ∃ k, k < 64 ∧ zigzag.getD k 0 = i ∧ zigzagInv.getD i 0 = k ∧
    ∀ k', k' < 64 → zigzag.getD k' 0 = i → k' = k) ∧
  zigzagInv =
    [0, 1, 5, 6, 14, 15, 27, 28] ++ [2, 4, 7, 13, 16, 26, 29, 42] ++
    [3, 8, 12, 17, 25, 30, 41, 43] ++ [9, 11, 18, 24, 31, 40, 44, 53] ++
    [10, 19, 23, 32, 39, 45, 52, 54] ++ [20, 22, 33, 38, 46, 51, 55, 60] ++
    [21, 34, 37, 47, 50, 56, 59, 61] ++ [35, 36, 48, 49, 57, 58, 62, 63] ∧
  ∀ a : List Half, a.length = 64 →
    fromZigzag 0#16 (toZigzag 0#16 a) = a ∧ toZigzag 0#16 (fromZigzag 0#16 a) = a ∧
    ∀ k, k < 64 →
      (toZigzag 0#16 a).getD k 0#16 = a.getD (zigzag.getD k 0) 0#16 ∧
      (fromZigzag 0#16 a).getD (zigzag.getD k 0) 0#16 = a.getD k 0#16

/-- R193: the forward and the inverse path take the zero block to the zero block, for every table. -/
def Obligations.ZeroBlockRoundTrip : Prop :=
  ∀ q : List Byte, q.length = 64 →
    xform.fwd (List.replicate 64 0#16) q = List.replicate 64 0#16 ∧
      xform.inv (List.replicate 64 0#16) q = List.replicate 64 0#16

/-- R182 to R184, R188 to R191 and R196 P1, P2, P5. The basis is the cosine matrix of R183 rounded to
nearest (no entry is off by more than half a unit in the last place). For every block and every table
whose entries are at least 1, coefficient `k` is the formula of R189 with entry `k` of the table, and
residual `(x, y)` of the inverse path the formula of R190. The forward path gives 64 coefficients and
the inverse path 64 residuals, and coefficient `k` depends on entry `k` of the table alone. -/
def Obligations.TableEntryMatchesPosition : Prop :=
  (∀ u x : Nat, u < 8 → x < 8 →
    |(Exact32.B u x : ℝ) - (if u = 0 then 1 / Real.sqrt 2 else Real.cos ((2 * x + 1) * u * Real.pi / 16))| ≤
      (Exact32.ulp (Exact32.B u x) : ℝ) / 2) ∧
  (∀ (r q : Nat → Half) (Q : Nat → Byte),
    (EntriesPositive Q → ∀ k, k < 64 →
      (xform.fwd ((List.range 64).map r) ((List.range 64).map Q)).getD k 0#16 = forwardPath r Q k) ∧
    ∀ y x, y < 8 → x < 8 →
      (xform.inv ((List.range 64).map q) ((List.range 64).map Q)).getD (y * 8 + x) 0#16 =
        inversePath q Q y x) ∧
  ∀ (r : List Half) (q q' : List Byte), r.length = 64 → q.length = 64 → q'.length = 64 →
    (xform.fwd r q).length = 64 ∧ (xform.inv r q).length = 64 ∧
      ∀ k : Nat, q[k]? = q'[k]? → (xform.fwd r q)[k]? = (xform.fwd r q')[k]?

/-- R196, last sentence, for results that do not saturate: negating every residual negates every
coefficient. (At a saturated result the sentence itself is not true of REF32: log entry 9.) And R192:
with residuals in -255..255, as the row drivers form them, and entries of at least 1, no coefficient
exceeds 2040 in magnitude, so that none saturates. -/
def Obligations.ForwardPathIsOdd : Prop :=
  (∀ (r : List Half) (q : List Byte), r.length = 64 → q.length = 64 → (∀ h ∈ r, h ≠ 0x8000#16) →
    (∀ h ∈ xform.fwd r q, h ≠ 0x8000#16 ∧ h ≠ 0x7FFF#16) →
    xform.fwd (r.map (fun h => -h)) q = (xform.fwd r q).map (fun h => -h)) ∧
  ∀ (r : List Half) (q : List Byte), r.length = 64 → q.length = 64 → (∀ e ∈ q, 1 ≤ e.toNat) →
    (∀ h ∈ r, -255 ≤ h.toInt ∧ h.toInt ≤ 255) →
    ∀ h ∈ xform.fwd r q, -2040 ≤ h.toInt ∧ h.toInt ≤ 2040

/-- R196, last sentence as it stands: for every block without the value -32768, negating every residual
negates every coefficient. It FAILS for REF32 where a result saturates: 64 residuals of 32767 with a
table of ones give `q[0]` = 32767 (V-TQ-8) and their negations give -32768, because `sat16` is not
symmetric (log entry 9). -/
def Obligations.ForwardPathIsOddEverywhere : Prop :=
  ∀ (r : List Half) (q : List Byte), r.length = 64 → q.length = 64 →
    (∀ e ∈ q, 1 ≤ e.toNat) → (∀ h ∈ r, h ≠ 0x8000#16) →
    xform.fwd (r.map (fun h => -h)) q = (xform.fwd r q).map (fun h => -h)

/-- R189, R190, R197 to R200: the block-buffer commands, with all 64 inputs defined (and, for the two paths,
the component's table), complete, write all 64 outputs, and change nothing else: DCTQ_BLOCK the
formula of the forward path (for entries of at least 1, R36), DEQIDCT_BLOCK that of the inverse path,
ZZ_FWD and ZZ_INV the reorders. -/
def Obligations.BlockBufferCommandsWriteBlkOut : Prop :=
  ∀ (s : State) (R : Nat → Half), Live s → Holds s.blkIn 64 R →
    (∀ c Q, Holds (s.qt.get c) 64 Q →
      (EntriesPositive Q →
        ∃ t, exec (.dctqBlock c) s = .next t ∧ t = { s with blkOut := t.blkOut } ∧
          MemoryFrame s t (fun sp i => sp = .blkOut ∧ i < 64) ∧
          ∀ k, k < 64 → t.element .blkOut k = some ((forwardPath R Q k).signExtend 32)) ∧
      ∃ t, exec (.deqidctBlock c) s = .next t ∧ t = { s with blkOut := t.blkOut } ∧
        MemoryFrame s t (fun sp i => sp = .blkOut ∧ i < 64) ∧
        ∀ y x, y < 8 → x < 8 →
          t.element .blkOut (y * 8 + x) = some ((inversePath R Q y x).signExtend 32)) ∧
    (∃ t, exec .zzFwd s = .next t ∧ t = { s with blkOut := t.blkOut } ∧
      MemoryFrame s t (fun sp i => sp = .blkOut ∧ i < 64) ∧
      ∀ k, k < 64 → t.element .blkOut k = some ((R (zigzag.getD k 0)).signExtend 32)) ∧
    ∃ t, exec .zzInv s = .next t ∧ t = { s with blkOut := t.blkOut } ∧
      MemoryFrame s t (fun sp i => sp = .blkOut ∧ i < 64) ∧
      ∀ k, k < 64 → t.element .blkOut (zigzag.getD k 0) = some ((R k).signExtend 32)

/-- R197 to R200: a block-buffer command with an `undef` input raises `E_UNDEF` before any write. -/
def Obligations.BlockBufferCommandsNeedWholeBlock : Prop :=
  ∀ (s : State) (i : Nat) (c : Comp), Live s → i < 64 → Space.read s.blkIn i = none →
    exec (.dctqBlock c) s = .next (recorded s 0x06#32 (encode (.dctqBlock c))) ∧
    exec (.deqidctBlock c) s = .next (recorded s 0x06#32 (encode (.deqidctBlock c))) ∧
    exec .zzFwd s = .next (recorded s 0x06#32 0x46000000#32) ∧
    exec .zzInv s = .next (recorded s 0x06#32 0x47000000#32)

/-- R201, R189, R62: DCTQ_ROW stores the forward path of every residual block of the band, by its formula and
block-linear, leaves POS at the last block, and changes nothing else. -/
def Obligations.DctqRowTransformsBand : Prop :=
  ∀ (s : State) (c : Comp) (cur : Frame) (A P Q : Nat → Byte) (band : Nat),
    Transformable s c cur A P Q → band < s.rows c →
    ∃ t, exec (.dctqRow c band) s = .next t ∧
      t = { s with pos := posOf c (s.cols c - 1) band, cur := t.cur } ∧ SlotsFrame s t ∧
      (∀ bx k, bx < s.cols c → k < 64 →
        t.element (.resid .cur c) ((band * s.cols c + bx) * 64 + k) =
          some ((forwardPath (residualSample A P (s.pw c) bx band) Q k).signExtend 32)) ∧
      MemoryFrame s t (fun sp i => sp = .resid .cur c ∧
        ∃ bx k, bx < s.cols c ∧ k < 64 ∧ i = (band * s.cols c + bx) * 64 + k)

/-- R203: DCTQ_PLANE does so for every band. -/
def Obligations.DctqPlaneTransformsPlane : Prop :=
  ∀ (s : State) (c : Comp) (cur : Frame) (A P Q : Nat → Byte), Transformable s c cur A P Q →
    ∃ t, exec (.dctqPlane c) s = .next t ∧
      t = { s with pos := posOf c (s.cols c - 1) (s.rows c - 1), cur := t.cur } ∧ SlotsFrame s t ∧
      (∀ bx band k, bx < s.cols c → band < s.rows c → k < 64 →
        t.element (.resid .cur c) ((band * s.cols c + bx) * 64 + k) =
          some ((forwardPath (residualSample A P (s.pw c) bx band) Q k).signExtend 32)) ∧
      MemoryFrame s t (fun sp i => sp = .resid .cur c ∧ i < s.planeSize c)

/-- R202, R190: DEQIDCT_ROW adds the prediction to the inverse path of every block of the band, by its
formula, clamps the sum to 0..255 and stores it, leaves POS at the last block, and changes nothing else. -/
def Obligations.DeqidctRowReconstructsBand : Prop :=
  ∀ (s : State) (c : Comp) (cur : Frame) (K : Nat → Half) (P Q : Nat → Byte) (band : Nat),
    Reconstructible s c cur P Q → band < s.rows c →
    (∀ bx k, bx < s.cols c → k < 64 →
      Space.read (cur.resid.get c) ((band * s.cols c + bx) * 64 + k) =
        some (K ((band * s.cols c + bx) * 64 + k))) →
    ∃ t, exec (.deqidctRow c band) s = .next t ∧
      t = { s with pos := posOf c (s.cols c - 1) band, cur := t.cur } ∧ SlotsFrame s t ∧
      (∀ bx y x, bx < s.cols c → y < 8 → x < 8 →
        t.element (.recons .cur c) ((band * 8 + y) * s.pw c + bx * 8 + x) =
          some (reconstructed s c K P Q bx band y x)) ∧
      MemoryFrame s t (fun sp i => sp = .recons .cur c ∧
        ∃ bx y x, bx < s.cols c ∧ y < 8 ∧ x < 8 ∧ i = (band * 8 + y) * s.pw c + bx * 8 + x)

/-- R204: DEQIDCT_PLANE does so for every band; the reconstructed plane is thereby wholly defined. -/
def Obligations.DeqidctPlaneReconstructsPlane : Prop :=
  ∀ (s : State) (c : Comp) (cur : Frame) (K : Nat → Half) (P Q : Nat → Byte),
    Reconstructible s c cur P Q → Holds (cur.resid.get c) (s.planeSize c) K →
    ∃ t, exec (.deqidctPlane c) s = .next t ∧
      t = { s with pos := posOf c (s.cols c - 1) (s.rows c - 1), cur := t.cur } ∧ SlotsFrame s t ∧
      (∀ bx band y x, bx < s.cols c → band < s.rows c → y < 8 → x < 8 →
        t.element (.recons .cur c) ((band * 8 + y) * s.pw c + bx * 8 + x) =
          some (reconstructed s c K P Q bx band y x)) ∧
      (∀ i, i < s.planeSize c → t.element (.recons .cur c) i ≠ none) ∧
      MemoryFrame s t (fun sp i => sp = .recons .cur c ∧ i < s.planeSize c)

/-- R202, R204, R205, R66: DEQIDCT_ROW over a band whose first block's coefficients are not all defined raises
`E_UNDEF` with POS at that block and no sample written. Where the first such block is a later one of the
band, or for DEQIDCT_PLANE of the plane, it raises `E_UNDEF` with POS at that block, the blocks before
it reconstructed and no other sample written. -/
def Obligations.DeqidctRowNeedsCoefficients : Prop :=
  (∀ (s : State) (c : Comp) (cur : Frame) (band k : Nat), Live s → s.cur = some cur → GridOk s →
    band < s.rows c → k < 64 →
    Space.read (cur.resid.get c) (band * s.cols c * 64 + k) = none →
    exec (.deqidctRow c band) s =
      .next (recorded { s with pos := posOf c 0 band } 0x06#32 (encode (.deqidctRow c band)))) ∧
  ∀ (s : State) (c : Comp) (cur : Frame) (K : Nat → Half) (P Q : Nat → Byte) (bx band k : Nat),
    Reconstructible s c cur P Q → InGrid s c bx band → k < 64 →
    Space.read (cur.resid.get c) ((band * s.cols c + bx) * 64 + k) = none →
    ((∀ bx₁ k₁, bx₁ < bx → k₁ < 64 →
        Space.read (cur.resid.get c) ((band * s.cols c + bx₁) * 64 + k₁) =
          some (K ((band * s.cols c + bx₁) * 64 + k₁))) →
      ∃ t, exec (.deqidctRow c band) s =
          .next (recorded t 0x06#32 (encode (.deqidctRow c band))) ∧
        t = { s with pos := posOf c bx band, cur := t.cur } ∧ SlotsFrame s t ∧
        (∀ bx₁ y x, bx₁ < bx → y < 8 → x < 8 →
          t.element (.recons .cur c) (windowSample s c (bx₁ * 8) (band * 8) y x) =
            some (reconstructed s c K P Q bx₁ band y x)) ∧
        MemoryFrame s t (fun sp i => sp = .recons .cur c ∧ ∃ bx₁ y x, bx₁ < bx ∧ y < 8 ∧ x < 8 ∧
          i = windowSample s c (bx₁ * 8) (band * 8) y x)) ∧
    ((∀ bx₁ band₁ k₁, InGrid s c bx₁ band₁ → unitBefore s (c, bx₁, band₁) (c, bx, band) → k₁ < 64 →
        Space.read (cur.resid.get c) ((band₁ * s.cols c + bx₁) * 64 + k₁) =
          some (K ((band₁ * s.cols c + bx₁) * 64 + k₁))) →
      ∃ t, exec (.deqidctPlane c) s = .next (recorded t 0x06#32 (encode (.deqidctPlane c))) ∧
        t = { s with pos := posOf c bx band, cur := t.cur } ∧ SlotsFrame s t ∧
        (∀ bx₁ band₁ y x, InGrid s c bx₁ band₁ → unitBefore s (c, bx₁, band₁) (c, bx, band) →
          y < 8 → x < 8 →
          t.element (.recons .cur c) (windowSample s c (bx₁ * 8) (band₁ * 8) y x) =
            some (reconstructed s c K P Q bx₁ band₁ y x)) ∧
        MemoryFrame s t (fun sp i => sp = .recons .cur c ∧ ∃ bx₁ band₁ y x, InGrid s c bx₁ band₁ ∧
          unitBefore s (c, bx₁, band₁) (c, bx, band) ∧ y < 8 ∧ x < 8 ∧
          i = windowSample s c (bx₁ * 8) (band₁ * 8) y x))
end

