-- ==== Sys2Proof/Laws/Space.lean ====
section
/-! SUPPORT. The laws of triples and of memory spaces: read after write, the canonical form, fills,
consecutive writes, reads of several elements. -/

namespace Sys2Proof.Machine

variable {α : Type}

/-! ### Triples -/

@[simp] theorem Triple.get_of (f : Comp → α) (c : Comp) : (Triple.of f).get c = f c := by
  cases c <;> rfl

@[simp] theorem Triple.get_set_same (t : Triple α) (c : Comp) (a : α) : (t.set c a).get c = a := by
  cases c <;> rfl

theorem Triple.get_set_of_ne (t : Triple α) {c d : Comp} (a : α) (h : d ≠ c) :
    (t.set c a).get d = t.get d := by
  cases c <;> cases d <;> first | rfl | exact absurd rfl h

theorem Triple.get_set (t : Triple α) (c d : Comp) (a : α) :
    (t.set c a).get d = if d = c then a else t.get d := by
  split
  · next h => subst h; simp
  · next h => exact Triple.get_set_of_ne t a h

theorem Comp.all_eq_true (p : Comp → Bool) : Comp.all.all p = true ↔ ∀ c, p c = true := by
  constructor
  · intro h c
    cases c <;> simp_all [Comp.all]
  · intro h
    simp [Comp.all, h]

/-! ### Reading and writing one element -/

@[simp] theorem Space.read_nil (i : Nat) : Space.read ([] : Space α) i = none := rfl

@[simp] theorem Space.read_write_same (m : Space α) (i : Nat) (a : α) :
    Space.read (Space.write m i a) i = some a := by
  induction m with
  | nil => simp [Space.write, Space.read]
  | cons e rest ih =>
    obtain ⟨k, v⟩ := e
    unfold Space.write
    split
    · simp [Space.read]
    · split
      · simp [Space.read]
      · next h => simp [Space.read, Ne.symm h, ih]

theorem Space.read_write_of_ne (m : Space α) {i j : Nat} (a : α) (h : j ≠ i) :
    Space.read (Space.write m i a) j = Space.read m j := by
  induction m with
  | nil => simp [Space.write, Space.read, Ne.symm h]
  | cons e rest ih =>
    obtain ⟨k, v⟩ := e
    unfold Space.write
    split
    · simp [Space.read, Ne.symm h]
    · split
      · next hk => subst hk; simp [Space.read, Ne.symm h]
      · simp only [Space.read]; rw [ih]

theorem Space.read_write (m : Space α) (i j : Nat) (a : α) :
    Space.read (Space.write m i a) j = if j = i then some a else Space.read m j := by
  split
  · next h => subst h; simp
  · next h => exact Space.read_write_of_ne m a h

/-! ### The canonical form -/

theorem Space.risesAbove_mono {b b' : Nat} (h : b' ≤ b) {m : Space α}
    (hm : Space.risesAbove b m = true) : Space.risesAbove b' m = true := by
  cases m with
  | nil => rfl
  | cons e rest =>
    obtain ⟨k, v⟩ := e
    simp only [Space.risesAbove, Bool.and_eq_true, decide_eq_true_eq] at hm ⊢
    exact ⟨by omega, hm.2⟩

theorem Space.risesAbove_write {b i : Nat} (hb : b < i) (a : α) {m : Space α}
    (hm : Space.risesAbove b m = true) : Space.risesAbove b (Space.write m i a) = true := by
  induction m generalizing b with
  | nil => simp [Space.write, Space.risesAbove, hb]
  | cons e rest ih =>
    obtain ⟨k, v⟩ := e
    simp only [Space.risesAbove, Bool.and_eq_true, decide_eq_true_eq] at hm
    unfold Space.write
    split
    · next h => simp [Space.risesAbove, hb, h, hm.2]
    · split
      · next h => subst h; simp [Space.risesAbove, hb, hm.2]
      · simp only [Space.risesAbove, Bool.and_eq_true, decide_eq_true_eq]
        exact ⟨hm.1, ih (by omega) hm.2⟩

theorem Space.bounded_write {n i : Nat} (hi : i < n) (a : α) {m : Space α}
    (hm : m.all (fun e => decide (e.1 < n)) = true) :
    (Space.write m i a).all (fun e => decide (e.1 < n)) = true := by
  induction m with
  | nil => simp [Space.write, hi]
  | cons e rest ih =>
    obtain ⟨k, v⟩ := e
    simp only [List.all_cons, Bool.and_eq_true, decide_eq_true_eq] at hm
    unfold Space.write
    split
    · simp only [List.all_cons, Bool.and_eq_true, decide_eq_true_eq]; exact ⟨hi, hm.1, hm.2⟩
    · split
      · simp only [List.all_cons, Bool.and_eq_true, decide_eq_true_eq]; exact ⟨hi, hm.2⟩
      · simp only [List.all_cons, Bool.and_eq_true, decide_eq_true_eq]; exact ⟨hm.1, ih hm.2⟩

/-- The canonical form, said without the case on the first element. -/
theorem Space.wf_iff {n : Nat} {m : Space α} :
    Space.wf n m = true ↔
      (∀ k v rest, m = (k, v) :: rest → Space.risesAbove k rest = true) ∧
        m.all (fun e => decide (e.1 < n)) = true := by
  cases m with
  | nil => simp [Space.wf]
  | cons e rest => obtain ⟨k, v⟩ := e; simp [Space.wf]

/-- Every write inside a space keeps its canonical form. -/
theorem Space.wf_write {n i : Nat} (hi : i < n) (a : α) {m : Space α} (hm : Space.wf n m = true) :
    Space.wf n (Space.write m i a) = true := by
  rw [Space.wf_iff] at hm ⊢
  refine ⟨?_, Space.bounded_write hi a hm.2⟩
  intro k v rest h
  cases m with
  | nil =>
    simp only [Space.write, List.cons.injEq] at h
    rw [← h.2]
    rfl
  | cons e tail =>
    obtain ⟨k0, v0⟩ := e
    have h0 := hm.1 k0 v0 tail rfl
    unfold Space.write at h
    split at h
    · next hlt =>
      simp only [List.cons.injEq, Prod.mk.injEq] at h
      obtain ⟨⟨rfl, rfl⟩, rfl⟩ := h
      simp [Space.risesAbove, hlt, h0]
    · split at h
      · next heq =>
        simp only [List.cons.injEq, Prod.mk.injEq] at h
        obtain ⟨⟨rfl, rfl⟩, rfl⟩ := h
        subst heq; exact h0
      · simp only [List.cons.injEq, Prod.mk.injEq] at h
        obtain ⟨⟨rfl, rfl⟩, rfl⟩ := h
        exact Space.risesAbove_write (by omega) a h0

@[simp] theorem Space.wf_nil (n : Nat) : Space.wf n ([] : Space α) = true := rfl

/-- An element at or beyond the size of a canonical space is not there (R60). -/
theorem Space.read_eq_none_of_wf {n i : Nat} {m : Space α} (hm : Space.wf n m = true) (hi : n ≤ i) :
    Space.read m i = none := by
  have hb := (Space.wf_iff.mp hm).2
  clear hm
  induction m with
  | nil => rfl
  | cons e rest ih =>
    obtain ⟨k, v⟩ := e
    simp only [List.all_cons, Bool.and_eq_true, decide_eq_true_eq] at hb
    have : k ≠ i := by omega
    simp [Space.read, this, ih hb.2]

/-! ### Fills and defined ranges -/

theorem Space.read_map_range (f : Nat → α) (n i : Nat) :
    Space.read ((List.range n).map (fun j => (j, f j))) i = if i < n then some (f i) else none := by
  induction n with
  | zero => simp
  | succ n ih =>
    have key : ∀ (l : Space α) (x : α), Space.read (l ++ [(n, x)]) i =
        match Space.read l i with
        | some v => some v
        | none => if n = i then some x else none := by
      intro l x
      induction l with
      | nil => simp [Space.read]
      | cons e r ihl =>
        obtain ⟨k, v⟩ := e
        simp only [List.cons_append, Space.read]
        split
        · rfl
        · exact ihl
    rw [List.range_succ, List.map_append, List.map_cons, List.map_nil, key, ih]
    by_cases h : i < n
    · simp [h, Nat.lt_succ_of_lt h]
    · simp only [h, if_false]
      by_cases h2 : n = i
      · subst h2; simp
      · rw [if_neg h2, if_neg (by omega)]

@[simp] theorem Space.read_fill (n : Nat) (a : α) (i : Nat) :
    Space.read (Space.fill n a) i = if i < n then some a else none :=
  Space.read_map_range (fun _ => a) n i

theorem Space.risesAbove_map_range' (f : Nat → α) (n b k : Nat) (h : b < k) :
    Space.risesAbove b ((List.range' k n).map (fun j => (j, f j))) = true := by
  induction n generalizing b k with
  | zero => rfl
  | succ n ih => simp [List.range'_succ, Space.risesAbove, h, ih]

theorem Space.wf_map_range (f : Nat → α) (n : Nat) :
    Space.wf n ((List.range n).map (fun j => (j, f j))) = true := by
  rw [Space.wf_iff]
  constructor
  · intro k v rest h
    cases n with
    | zero => simp at h
    | succ n =>
      rw [List.range_eq_range', List.range'_succ] at h
      simp only [List.map_cons, List.cons.injEq, Prod.mk.injEq] at h
      obtain ⟨⟨rfl, _⟩, rfl⟩ := h
      exact Space.risesAbove_map_range' f n 0 1 (by omega)
  · simp

@[simp] theorem Space.wf_fill (n : Nat) (a : α) : Space.wf n (Space.fill n a) = true :=
  Space.wf_map_range (fun _ => a) n

theorem Space.allDefined_iff {m : Space α} {n : Nat} :
    Space.allDefined m n = true ↔ ∀ i, i < n → ∃ a, Space.read m i = some a := by
  simp [Space.allDefined, List.all_eq_true, Option.isSome_iff_exists]

@[simp] theorem Space.allDefined_fill (n : Nat) (a : α) :
    Space.allDefined (Space.fill n a) n = true := by
  rw [Space.allDefined_iff]
  intro i hi
  exact ⟨a, by simp [hi]⟩

theorem Space.allDefined_write {m : Space α} {n : Nat} (i : Nat) (a : α)
    (h : Space.allDefined m n = true) : Space.allDefined (Space.write m i a) n = true := by
  rw [Space.allDefined_iff] at h ⊢
  intro j hj
  rw [Space.read_write]
  split
  · exact ⟨a, rfl⟩
  · exact h j hj

/-! ### Consecutive writes -/

theorem Space.read_writeFrom (m : Space α) (i : Nat) (as : List α) (j : Nat) :
    Space.read (Space.writeFrom m i as) j =
      if i ≤ j ∧ j < i + as.length then as[j - i]? else Space.read m j := by
  induction as generalizing m i with
  | nil =>
    have : ¬ (i ≤ j ∧ j < i + 0) := by omega
    simp only [Space.writeFrom, List.length_nil]
    rw [if_neg this]
  | cons a as ih =>
    simp only [Space.writeFrom, List.length_cons]
    rw [ih, Space.read_write]
    by_cases h1 : j = i
    · subst h1
      rw [if_neg (by omega), if_pos (by simp), if_pos (by omega)]
      simp
    · by_cases h2 : i + 1 ≤ j ∧ j < i + 1 + as.length
      · rw [if_pos h2, if_pos (by omega)]
        have : j - i = (j - (i + 1)) + 1 := by omega
        rw [this, List.getElem?_cons_succ]
      · rw [if_neg h2, if_neg h1, if_neg (by omega)]

theorem Space.wf_writeFrom {n : Nat} {m : Space α} (hm : Space.wf n m = true) (i : Nat)
    (as : List α) (h : i + as.length ≤ n) : Space.wf n (Space.writeFrom m i as) = true := by
  induction as generalizing m i with
  | nil => exact hm
  | cons a as ih =>
    simp only [List.length_cons] at h
    exact ih (Space.wf_write (by omega) a hm) (i + 1) (by omega)

/-! ### Reads of several elements -/

/-- A list of elements is read whole exactly when each one is defined. -/
theorem Space.readAll_eq_some_iff {m : Space α} {is : List Nat} {as : List α} :
    Space.readAll m is = some as ↔ is.map (Space.read m) = as.map some := by
  induction is generalizing as with
  | nil => cases as <;> simp [Space.readAll]
  | cons i is ih =>
    simp only [Space.readAll, List.map_cons]
    cases hr : Space.read m i with
    | none => cases as <;> simp
    | some a =>
      cases hrs : Space.readAll m is with
      | none =>
        cases as with
        | nil => simp
        | cons b bs =>
          simp only [List.map_cons, List.cons.injEq]
          constructor
          · intro h; cases h
          · rintro ⟨_, h⟩
            rw [ih.mpr h] at hrs
            cases hrs
      | some rs =>
        cases as with
        | nil => simp
        | cons b bs =>
          have := (ih (as := rs)).mp hrs
          simp only [List.map_cons, List.cons.injEq, Option.some.injEq, this]
          constructor
          · rintro ⟨rfl, rfl⟩; exact ⟨rfl, rfl⟩
          · rintro ⟨rfl, h⟩
            exact ⟨rfl, List.map_injective_iff.mpr (Option.some_injective _) h⟩

/-- Where every element at the indices holds the value a function gives, the read returns those. -/
theorem Space.readAll_of_forall {m : Space α} {is : List Nat} {f : Nat → α}
    (h : ∀ i ∈ is, Space.read m i = some (f i)) : Space.readAll m is = some (is.map f) := by
  rw [Space.readAll_eq_some_iff, List.map_map]
  exact List.map_congr_left (by intro i hi; simp [h i hi])

theorem Space.readAll_length {m : Space α} {is : List Nat} {as : List α}
    (h : Space.readAll m is = some as) : as.length = is.length := by
  have := congrArg List.length (Space.readAll_eq_some_iff.mp h)
  simpa using this.symm

/-- One `undef` element makes the read fail. -/
theorem Space.readAll_eq_none_iff {m : Space α} {is : List Nat} :
    Space.readAll m is = none ↔ ∃ i ∈ is, Space.read m i = none := by
  induction is with
  | nil => simp [Space.readAll]
  | cons i is ih =>
    simp only [Space.readAll, List.mem_cons, exists_eq_or_imp]
    cases hr : Space.read m i with
    | none => simp
    | some a =>
      cases hrs : Space.readAll m is with
      | none => simpa using ih.mp hrs
      | some rs =>
        simp only [reduceCtorEq, false_or, false_iff]
        intro hc
        rw [ih.mpr hc] at hrs
        cases hrs

end Sys2Proof.Machine
end

