-- ==== Sys2Proof/Laws/Grid.lean ====
section
/-! SUPPORT. The laws of the grid controller: raster order, window indices, the padded geometry. -/

namespace Sys2Proof.Machine

@[simp] theorem mem_raster {cols rows : Nat} {p : Nat × Nat} :
    p ∈ raster cols rows ↔ p.1 < cols ∧ p.2 < rows := by
  obtain ⟨x, y⟩ := p
  simp only [raster, List.mem_flatMap, List.mem_map, List.mem_range, Prod.mk.injEq]
  constructor
  · rintro ⟨y', hy, x', hx, rfl, rfl⟩; exact ⟨hx, hy⟩
  · rintro ⟨hx, hy⟩; exact ⟨y, hy, x, hx, rfl, rfl⟩

theorem raster_length (cols rows : Nat) : (raster cols rows).length = cols * rows := by
  simp [raster, List.length_flatMap, Nat.mul_comm]

theorem raster_succ (cols rows : Nat) :
    raster cols (rows + 1) = raster cols rows ++ (List.range cols).map (fun x => (x, rows)) := by
  simp [raster, List.range_succ, List.flatMap_append]

/-- The unit a sweep reaches after `k` others (R226, R227). -/
theorem raster_getElem? (cols rows : Nat) {k : Nat} (h : k < cols * rows) :
    (raster cols rows)[k]? = some (k % cols, k / cols) := by
  induction rows with
  | zero => simp at h
  | succ n ih =>
    rw [raster_succ]
    by_cases hk : k < cols * n
    · rw [List.getElem?_append_left (by rwa [raster_length]), ih hk]
    · have hc : 0 < cols := Nat.pos_of_ne_zero (by rintro rfl; simp at h)
      obtain ⟨d, rfl⟩ : ∃ d, k = cols * n + d := ⟨k - cols * n, by omega⟩
      have hd : d < cols := by rw [Nat.mul_succ] at h; omega
      rw [List.getElem?_append_right (by rw [raster_length]; omega), raster_length,
        Nat.add_sub_cancel_left, List.getElem?_map, List.getElem?_range hd]
      simp [Nat.mod_eq_of_lt hd, Nat.mul_add_div hc, Nat.div_eq_of_lt hd]

theorem mem_blockOffsets {t d : Nat} :
    d ∈ blockOffsets t ↔ ∃ r k, r < 8 ∧ k < 8 ∧ d = r * t + k := by
  simp only [blockOffsets, List.mem_flatMap, List.mem_map, List.mem_range]
  constructor
  · rintro ⟨r, hr, k, hk, rfl⟩; exact ⟨r, k, hr, hk, rfl⟩
  · rintro ⟨r, k, hr, hk, rfl⟩; exact ⟨r, hr, k, hk, rfl⟩

theorem mem_windowIndices {o t i : Nat} :
    i ∈ windowIndices o t ↔ ∃ r k, r < 8 ∧ k < 8 ∧ i = o + r * t + k := by
  simp only [windowIndices, List.mem_map, mem_blockOffsets]
  constructor
  · rintro ⟨_, ⟨r, k, hr, hk, rfl⟩, rfl⟩; exact ⟨r, k, hr, hk, by omega⟩
  · rintro ⟨r, k, hr, hk, rfl⟩; exact ⟨_, ⟨r, k, hr, hk, rfl⟩, by omega⟩

@[simp] theorem blockOffsets_length (t : Nat) : (blockOffsets t).length = 64 := rfl

@[simp] theorem windowIndices_length (o t : Nat) : (windowIndices o t).length = 64 := by
  simp [windowIndices]

/-- A sample of a valid window lies inside the space (R65). -/
theorem lt_of_windowValid {o t size i : Nat} (hv : windowValid o t size = true)
    (hi : i ∈ windowIndices o t) : i < size := by
  obtain ⟨r, k, hr, hk, rfl⟩ := mem_windowIndices.mp hi
  simp only [windowValid, decide_eq_true_eq] at hv
  have : r * t ≤ 7 * t := Nat.mul_le_mul_right t (by omega)
  omega

/-- A sample of an 8x8 block inside a plane is an element of the plane (R65, R233). -/
theorem block_sample_lt {w h x y r k : Nat} (hx : x + 8 ≤ w) (hy : y + 8 ≤ h) (hr : r < 8)
    (hk : k < 8) : sampleIndex w x y + r * w + k < w * h := by
  unfold sampleIndex
  have h1 : y * w + r * w + (x + k) < (y + r + 1) * w := by
    rw [Nat.add_mul, Nat.add_mul]; omega
  have h2 : (y + r + 1) * w ≤ h * w := Nat.mul_le_mul_right w (by omega)
  rw [Nat.mul_comm w h]
  omega

/-- Macroblock `(x, y)` of a grid has a record in it (R33). -/
theorem record_lt {cols rows x y : Nat} (hx : x < cols) (hy : y < rows) :
    y * cols + x < cols * rows := by
  have : (y + 1) * cols ≤ rows * cols := Nat.mul_le_mul_right cols (by omega)
  rw [Nat.add_mul, Nat.one_mul] at this
  rw [Nat.mul_comm cols rows]
  omega

/-- Coefficient `k` of block `(bx, band)` is an element of the plane (R62). -/
theorem coeff_lt {w h bx band k : Nat} (hx : bx < w / 8) (hy : band < h / 8) (hk : k < 64) :
    coeffIndex w bx band + k < w * h := by
  unfold coeffIndex
  have h1 : band * (w / 8) + bx < (w / 8) * (h / 8) := record_lt hx hy
  have h2 : (w / 8) * (h / 8) * 64 ≤ w * h := by
    have hw : w / 8 * 8 ≤ w := Nat.div_mul_le_self w 8
    have hh : h / 8 * 8 ≤ h := Nat.div_mul_le_self h 8
    calc (w / 8) * (h / 8) * 64 = (w / 8 * 8) * (h / 8 * 8) := by ring
      _ ≤ w * h := Nat.mul_le_mul hw hh
  omega

/-- Luma padding rounds up to a multiple of 16 (R221). -/
theorem lumaPad_spec (n : Nat) : 16 ∣ lumaPad n ∧ n ≤ lumaPad n ∧ lumaPad n < n + 16 := by
  unfold lumaPad
  refine ⟨⟨(n + 15) / 16, by omega⟩, by omega, by omega⟩

/-- The padded dimension of a legal raw dimension is a positive multiple of 8 that a register holds
(R224, R234). -/
theorem padDim_spec (c : Comp) {n : Nat} (h1 : 1 ≤ n) (h2 : n ≤ 16384) :
    8 ≤ padDim c n ∧ padDim c n ≤ 16384 ∧ padDim c n / 8 * 8 = padDim c n := by
  cases c <;> simp only [padDim, lumaPad] <;> omega

end Sys2Proof.Machine
end

