-- ==== Sys2Proof/Laws/State.lean ====
section
/-! SUPPORT. What each named update does to each field of the state: one lemma per field per update, true
by definition, so that no proof unfolds a record update. -/

namespace Sys2Proof.Machine

variable (s : State)

/-! ### setPos -/

@[simp] theorem State.setPos_params (w : Word) : (s.setPos w).params = s.params := rfl
@[simp] theorem State.setPos_arg0 (w : Word) : (s.setPos w).arg0 = s.arg0 := rfl
@[simp] theorem State.setPos_arg1 (w : Word) : (s.setPos w).arg1 = s.arg1 := rfl
@[simp] theorem State.setPos_arg2 (w : Word) : (s.setPos w).arg2 = s.arg2 := rfl
@[simp] theorem State.setPos_sadAcc (w : Word) : (s.setPos w).sadAcc = s.sadAcc := rfl
@[simp] theorem State.setPos_meBest (w : Word) : (s.setPos w).meBest = s.meBest := rfl
@[simp] theorem State.setPos_meMv (w : Word) : (s.setPos w).meMv = s.meMv := rfl
@[simp] theorem State.setPos_pos (w : Word) : (s.setPos w).pos = w := rfl
@[simp] theorem State.setPos_width (w : Word) : (s.setPos w).width = s.width := rfl
@[simp] theorem State.setPos_height (w : Word) : (s.setPos w).height = s.height := rfl
@[simp] theorem State.setPos_geom (w : Word) : (s.setPos w).geom = s.geom := rfl
@[simp] theorem State.setPos_frameNum (w : Word) : (s.setPos w).frameNum = s.frameNum := rfl
@[simp] theorem State.setPos_framesSinceKf (w : Word) :
    (s.setPos w).framesSinceKf = s.framesSinceKf := rfl
@[simp] theorem State.setPos_msel (w : Word) : (s.setPos w).msel = s.msel := rfl
@[simp] theorem State.setPos_maddr (w : Word) : (s.setPos w).maddr = s.maddr := rfl
@[simp] theorem State.setPos_ctxValid (w : Word) : (s.setPos w).ctxValid = s.ctxValid := rfl
@[simp] theorem State.setPos_ended (w : Word) : (s.setPos w).ended = s.ended := rfl
@[simp] theorem State.setPos_faulted (w : Word) : (s.setPos w).faulted = s.faulted := rfl
@[simp] theorem State.setPos_fault (w : Word) : (s.setPos w).fault = s.fault := rfl
@[simp] theorem State.setPos_faultInfo (w : Word) : (s.setPos w).faultInfo = s.faultInfo := rfl
@[simp] theorem State.setPos_qt (w : Word) : (s.setPos w).qt = s.qt := rfl
@[simp] theorem State.setPos_cur (w : Word) : (s.setPos w).cur = s.cur := rfl
@[simp] theorem State.setPos_ref (w : Word) : (s.setPos w).ref = s.ref := rfl
@[simp] theorem State.setPos_picIn (w : Word) : (s.setPos w).picIn = s.picIn := rfl
@[simp] theorem State.setPos_blkIn (w : Word) : (s.setPos w).blkIn = s.blkIn := rfl
@[simp] theorem State.setPos_blkOut (w : Word) : (s.setPos w).blkOut = s.blkOut := rfl
@[simp] theorem State.setPos_pending (w : Word) : (s.setPos w).pending = s.pending := rfl
@[simp] theorem State.setPos_hostRead (w : Word) : (s.setPos w).hostRead = s.hostRead := rfl
@[simp] theorem State.setPos_freeReads (w : Word) : (s.setPos w).freeReads = s.freeReads := rfl

/-! ### setSadAcc -/

@[simp] theorem State.setSadAcc_params (w : Word) : (s.setSadAcc w).params = s.params := rfl
@[simp] theorem State.setSadAcc_arg0 (w : Word) : (s.setSadAcc w).arg0 = s.arg0 := rfl
@[simp] theorem State.setSadAcc_arg1 (w : Word) : (s.setSadAcc w).arg1 = s.arg1 := rfl
@[simp] theorem State.setSadAcc_arg2 (w : Word) : (s.setSadAcc w).arg2 = s.arg2 := rfl
@[simp] theorem State.setSadAcc_sadAcc (w : Word) : (s.setSadAcc w).sadAcc = w := rfl
@[simp] theorem State.setSadAcc_meBest (w : Word) : (s.setSadAcc w).meBest = s.meBest := rfl
@[simp] theorem State.setSadAcc_meMv (w : Word) : (s.setSadAcc w).meMv = s.meMv := rfl
@[simp] theorem State.setSadAcc_pos (w : Word) : (s.setSadAcc w).pos = s.pos := rfl
@[simp] theorem State.setSadAcc_width (w : Word) : (s.setSadAcc w).width = s.width := rfl
@[simp] theorem State.setSadAcc_height (w : Word) : (s.setSadAcc w).height = s.height := rfl
@[simp] theorem State.setSadAcc_geom (w : Word) : (s.setSadAcc w).geom = s.geom := rfl
@[simp] theorem State.setSadAcc_frameNum (w : Word) : (s.setSadAcc w).frameNum = s.frameNum := rfl
@[simp] theorem State.setSadAcc_framesSinceKf (w : Word) :
    (s.setSadAcc w).framesSinceKf = s.framesSinceKf := rfl
@[simp] theorem State.setSadAcc_msel (w : Word) : (s.setSadAcc w).msel = s.msel := rfl
@[simp] theorem State.setSadAcc_maddr (w : Word) : (s.setSadAcc w).maddr = s.maddr := rfl
@[simp] theorem State.setSadAcc_ctxValid (w : Word) : (s.setSadAcc w).ctxValid = s.ctxValid := rfl
@[simp] theorem State.setSadAcc_ended (w : Word) : (s.setSadAcc w).ended = s.ended := rfl
@[simp] theorem State.setSadAcc_faulted (w : Word) : (s.setSadAcc w).faulted = s.faulted := rfl
@[simp] theorem State.setSadAcc_fault (w : Word) : (s.setSadAcc w).fault = s.fault := rfl
@[simp] theorem State.setSadAcc_faultInfo (w : Word) :
    (s.setSadAcc w).faultInfo = s.faultInfo := rfl
@[simp] theorem State.setSadAcc_qt (w : Word) : (s.setSadAcc w).qt = s.qt := rfl
@[simp] theorem State.setSadAcc_cur (w : Word) : (s.setSadAcc w).cur = s.cur := rfl
@[simp] theorem State.setSadAcc_ref (w : Word) : (s.setSadAcc w).ref = s.ref := rfl
@[simp] theorem State.setSadAcc_picIn (w : Word) : (s.setSadAcc w).picIn = s.picIn := rfl
@[simp] theorem State.setSadAcc_blkIn (w : Word) : (s.setSadAcc w).blkIn = s.blkIn := rfl
@[simp] theorem State.setSadAcc_blkOut (w : Word) : (s.setSadAcc w).blkOut = s.blkOut := rfl
@[simp] theorem State.setSadAcc_pending (w : Word) : (s.setSadAcc w).pending = s.pending := rfl
@[simp] theorem State.setSadAcc_hostRead (w : Word) : (s.setSadAcc w).hostRead = s.hostRead := rfl
@[simp] theorem State.setSadAcc_freeReads (w : Word) :
    (s.setSadAcc w).freeReads = s.freeReads := rfl

/-! ### setMeResult -/

@[simp] theorem State.setMeResult_params (b m : Word) : (s.setMeResult b m).params = s.params := rfl
@[simp] theorem State.setMeResult_arg0 (b m : Word) : (s.setMeResult b m).arg0 = s.arg0 := rfl
@[simp] theorem State.setMeResult_arg1 (b m : Word) : (s.setMeResult b m).arg1 = s.arg1 := rfl
@[simp] theorem State.setMeResult_arg2 (b m : Word) : (s.setMeResult b m).arg2 = s.arg2 := rfl
@[simp] theorem State.setMeResult_sadAcc (b m : Word) : (s.setMeResult b m).sadAcc = s.sadAcc := rfl
@[simp] theorem State.setMeResult_meBest (b m : Word) : (s.setMeResult b m).meBest = b := rfl
@[simp] theorem State.setMeResult_meMv (b m : Word) : (s.setMeResult b m).meMv = m := rfl
@[simp] theorem State.setMeResult_pos (b m : Word) : (s.setMeResult b m).pos = s.pos := rfl
@[simp] theorem State.setMeResult_width (b m : Word) : (s.setMeResult b m).width = s.width := rfl
@[simp] theorem State.setMeResult_height (b m : Word) : (s.setMeResult b m).height = s.height := rfl
@[simp] theorem State.setMeResult_geom (b m : Word) : (s.setMeResult b m).geom = s.geom := rfl
@[simp] theorem State.setMeResult_frameNum (b m : Word) :
    (s.setMeResult b m).frameNum = s.frameNum := rfl
@[simp] theorem State.setMeResult_framesSinceKf (b m : Word) :
    (s.setMeResult b m).framesSinceKf = s.framesSinceKf := rfl
@[simp] theorem State.setMeResult_msel (b m : Word) : (s.setMeResult b m).msel = s.msel := rfl
@[simp] theorem State.setMeResult_maddr (b m : Word) : (s.setMeResult b m).maddr = s.maddr := rfl
@[simp] theorem State.setMeResult_ctxValid (b m : Word) :
    (s.setMeResult b m).ctxValid = s.ctxValid := rfl
@[simp] theorem State.setMeResult_ended (b m : Word) : (s.setMeResult b m).ended = s.ended := rfl
@[simp] theorem State.setMeResult_faulted (b m : Word) :
    (s.setMeResult b m).faulted = s.faulted := rfl
@[simp] theorem State.setMeResult_fault (b m : Word) : (s.setMeResult b m).fault = s.fault := rfl
@[simp] theorem State.setMeResult_faultInfo (b m : Word) :
    (s.setMeResult b m).faultInfo = s.faultInfo := rfl
@[simp] theorem State.setMeResult_qt (b m : Word) : (s.setMeResult b m).qt = s.qt := rfl
@[simp] theorem State.setMeResult_cur (b m : Word) : (s.setMeResult b m).cur = s.cur := rfl
@[simp] theorem State.setMeResult_ref (b m : Word) : (s.setMeResult b m).ref = s.ref := rfl
@[simp] theorem State.setMeResult_picIn (b m : Word) : (s.setMeResult b m).picIn = s.picIn := rfl
@[simp] theorem State.setMeResult_blkIn (b m : Word) : (s.setMeResult b m).blkIn = s.blkIn := rfl
@[simp] theorem State.setMeResult_blkOut (b m : Word) : (s.setMeResult b m).blkOut = s.blkOut := rfl
@[simp] theorem State.setMeResult_pending (b m : Word) :
    (s.setMeResult b m).pending = s.pending := rfl
@[simp] theorem State.setMeResult_hostRead (b m : Word) :
    (s.setMeResult b m).hostRead = s.hostRead := rfl
@[simp] theorem State.setMeResult_freeReads (b m : Word) :
    (s.setMeResult b m).freeReads = s.freeReads := rfl

/-! ### setCur -/

@[simp] theorem State.setCur_params (f : Frame) : (s.setCur f).params = s.params := rfl
@[simp] theorem State.setCur_arg0 (f : Frame) : (s.setCur f).arg0 = s.arg0 := rfl
@[simp] theorem State.setCur_arg1 (f : Frame) : (s.setCur f).arg1 = s.arg1 := rfl
@[simp] theorem State.setCur_arg2 (f : Frame) : (s.setCur f).arg2 = s.arg2 := rfl
@[simp] theorem State.setCur_sadAcc (f : Frame) : (s.setCur f).sadAcc = s.sadAcc := rfl
@[simp] theorem State.setCur_meBest (f : Frame) : (s.setCur f).meBest = s.meBest := rfl
@[simp] theorem State.setCur_meMv (f : Frame) : (s.setCur f).meMv = s.meMv := rfl
@[simp] theorem State.setCur_pos (f : Frame) : (s.setCur f).pos = s.pos := rfl
@[simp] theorem State.setCur_width (f : Frame) : (s.setCur f).width = s.width := rfl
@[simp] theorem State.setCur_height (f : Frame) : (s.setCur f).height = s.height := rfl
@[simp] theorem State.setCur_geom (f : Frame) : (s.setCur f).geom = s.geom := rfl
@[simp] theorem State.setCur_frameNum (f : Frame) : (s.setCur f).frameNum = s.frameNum := rfl
@[simp] theorem State.setCur_framesSinceKf (f : Frame) :
    (s.setCur f).framesSinceKf = s.framesSinceKf := rfl
@[simp] theorem State.setCur_msel (f : Frame) : (s.setCur f).msel = s.msel := rfl
@[simp] theorem State.setCur_maddr (f : Frame) : (s.setCur f).maddr = s.maddr := rfl
@[simp] theorem State.setCur_ctxValid (f : Frame) : (s.setCur f).ctxValid = s.ctxValid := rfl
@[simp] theorem State.setCur_ended (f : Frame) : (s.setCur f).ended = s.ended := rfl
@[simp] theorem State.setCur_faulted (f : Frame) : (s.setCur f).faulted = s.faulted := rfl
@[simp] theorem State.setCur_fault (f : Frame) : (s.setCur f).fault = s.fault := rfl
@[simp] theorem State.setCur_faultInfo (f : Frame) : (s.setCur f).faultInfo = s.faultInfo := rfl
@[simp] theorem State.setCur_qt (f : Frame) : (s.setCur f).qt = s.qt := rfl
@[simp] theorem State.setCur_cur (f : Frame) : (s.setCur f).cur = some f := rfl
@[simp] theorem State.setCur_ref (f : Frame) : (s.setCur f).ref = s.ref := rfl
@[simp] theorem State.setCur_picIn (f : Frame) : (s.setCur f).picIn = s.picIn := rfl
@[simp] theorem State.setCur_blkIn (f : Frame) : (s.setCur f).blkIn = s.blkIn := rfl
@[simp] theorem State.setCur_blkOut (f : Frame) : (s.setCur f).blkOut = s.blkOut := rfl
@[simp] theorem State.setCur_pending (f : Frame) : (s.setCur f).pending = s.pending := rfl
@[simp] theorem State.setCur_hostRead (f : Frame) : (s.setCur f).hostRead = s.hostRead := rfl
@[simp] theorem State.setCur_freeReads (f : Frame) : (s.setCur f).freeReads = s.freeReads := rfl

/-! ### setBlkOut -/

@[simp] theorem State.setBlkOut_params (m : Space Half) : (s.setBlkOut m).params = s.params := rfl
@[simp] theorem State.setBlkOut_arg0 (m : Space Half) : (s.setBlkOut m).arg0 = s.arg0 := rfl
@[simp] theorem State.setBlkOut_arg1 (m : Space Half) : (s.setBlkOut m).arg1 = s.arg1 := rfl
@[simp] theorem State.setBlkOut_arg2 (m : Space Half) : (s.setBlkOut m).arg2 = s.arg2 := rfl
@[simp] theorem State.setBlkOut_sadAcc (m : Space Half) : (s.setBlkOut m).sadAcc = s.sadAcc := rfl
@[simp] theorem State.setBlkOut_meBest (m : Space Half) : (s.setBlkOut m).meBest = s.meBest := rfl
@[simp] theorem State.setBlkOut_meMv (m : Space Half) : (s.setBlkOut m).meMv = s.meMv := rfl
@[simp] theorem State.setBlkOut_pos (m : Space Half) : (s.setBlkOut m).pos = s.pos := rfl
@[simp] theorem State.setBlkOut_width (m : Space Half) : (s.setBlkOut m).width = s.width := rfl
@[simp] theorem State.setBlkOut_height (m : Space Half) : (s.setBlkOut m).height = s.height := rfl
@[simp] theorem State.setBlkOut_geom (m : Space Half) : (s.setBlkOut m).geom = s.geom := rfl
@[simp] theorem State.setBlkOut_frameNum (m : Space Half) :
    (s.setBlkOut m).frameNum = s.frameNum := rfl
@[simp] theorem State.setBlkOut_framesSinceKf (m : Space Half) :
    (s.setBlkOut m).framesSinceKf = s.framesSinceKf := rfl
@[simp] theorem State.setBlkOut_msel (m : Space Half) : (s.setBlkOut m).msel = s.msel := rfl
@[simp] theorem State.setBlkOut_maddr (m : Space Half) : (s.setBlkOut m).maddr = s.maddr := rfl
@[simp] theorem State.setBlkOut_ctxValid (m : Space Half) :
    (s.setBlkOut m).ctxValid = s.ctxValid := rfl
@[simp] theorem State.setBlkOut_ended (m : Space Half) : (s.setBlkOut m).ended = s.ended := rfl
@[simp] theorem State.setBlkOut_faulted (m : Space Half) :
    (s.setBlkOut m).faulted = s.faulted := rfl
@[simp] theorem State.setBlkOut_fault (m : Space Half) : (s.setBlkOut m).fault = s.fault := rfl
@[simp] theorem State.setBlkOut_faultInfo (m : Space Half) :
    (s.setBlkOut m).faultInfo = s.faultInfo := rfl
@[simp] theorem State.setBlkOut_qt (m : Space Half) : (s.setBlkOut m).qt = s.qt := rfl
@[simp] theorem State.setBlkOut_cur (m : Space Half) : (s.setBlkOut m).cur = s.cur := rfl
@[simp] theorem State.setBlkOut_ref (m : Space Half) : (s.setBlkOut m).ref = s.ref := rfl
@[simp] theorem State.setBlkOut_picIn (m : Space Half) : (s.setBlkOut m).picIn = s.picIn := rfl
@[simp] theorem State.setBlkOut_blkIn (m : Space Half) : (s.setBlkOut m).blkIn = s.blkIn := rfl
@[simp] theorem State.setBlkOut_blkOut (m : Space Half) : (s.setBlkOut m).blkOut = m := rfl
@[simp] theorem State.setBlkOut_pending (m : Space Half) :
    (s.setBlkOut m).pending = s.pending := rfl
@[simp] theorem State.setBlkOut_hostRead (m : Space Half) :
    (s.setBlkOut m).hostRead = s.hostRead := rfl
@[simp] theorem State.setBlkOut_freeReads (m : Space Half) :
    (s.setBlkOut m).freeReads = s.freeReads := rfl

/-! ### recordFault -/

@[simp] theorem State.recordFault_params (k : Cause) (i : Word) :
    (s.recordFault k i).params = s.params := rfl
@[simp] theorem State.recordFault_arg0 (k : Cause) (i : Word) :
    (s.recordFault k i).arg0 = s.arg0 := rfl
@[simp] theorem State.recordFault_arg1 (k : Cause) (i : Word) :
    (s.recordFault k i).arg1 = s.arg1 := rfl
@[simp] theorem State.recordFault_arg2 (k : Cause) (i : Word) :
    (s.recordFault k i).arg2 = s.arg2 := rfl
@[simp] theorem State.recordFault_sadAcc (k : Cause) (i : Word) :
    (s.recordFault k i).sadAcc = s.sadAcc := rfl
@[simp] theorem State.recordFault_meBest (k : Cause) (i : Word) :
    (s.recordFault k i).meBest = s.meBest := rfl
@[simp] theorem State.recordFault_meMv (k : Cause) (i : Word) :
    (s.recordFault k i).meMv = s.meMv := rfl
@[simp] theorem State.recordFault_pos (k : Cause) (i : Word) :
    (s.recordFault k i).pos = s.pos := rfl
@[simp] theorem State.recordFault_width (k : Cause) (i : Word) :
    (s.recordFault k i).width = s.width := rfl
@[simp] theorem State.recordFault_height (k : Cause) (i : Word) :
    (s.recordFault k i).height = s.height := rfl
@[simp] theorem State.recordFault_geom (k : Cause) (i : Word) :
    (s.recordFault k i).geom = s.geom := rfl
@[simp] theorem State.recordFault_frameNum (k : Cause) (i : Word) :
    (s.recordFault k i).frameNum = s.frameNum := rfl
@[simp] theorem State.recordFault_framesSinceKf (k : Cause) (i : Word) :
    (s.recordFault k i).framesSinceKf = s.framesSinceKf := rfl
@[simp] theorem State.recordFault_msel (k : Cause) (i : Word) :
    (s.recordFault k i).msel = s.msel := rfl
@[simp] theorem State.recordFault_maddr (k : Cause) (i : Word) :
    (s.recordFault k i).maddr = s.maddr := rfl
@[simp] theorem State.recordFault_ctxValid (k : Cause) (i : Word) :
    (s.recordFault k i).ctxValid = s.ctxValid := rfl
@[simp] theorem State.recordFault_ended (k : Cause) (i : Word) :
    (s.recordFault k i).ended = s.ended := rfl
@[simp] theorem State.recordFault_faulted (k : Cause) (i : Word) :
    (s.recordFault k i).faulted = true := rfl
@[simp] theorem State.recordFault_fault (k : Cause) (i : Word) :
    (s.recordFault k i).fault = k.code.setWidth 32 := rfl
@[simp] theorem State.recordFault_faultInfo (k : Cause) (i : Word) :
    (s.recordFault k i).faultInfo = i := rfl
@[simp] theorem State.recordFault_qt (k : Cause) (i : Word) : (s.recordFault k i).qt = s.qt := rfl
@[simp] theorem State.recordFault_cur (k : Cause) (i : Word) :
    (s.recordFault k i).cur = s.cur := rfl
@[simp] theorem State.recordFault_ref (k : Cause) (i : Word) :
    (s.recordFault k i).ref = s.ref := rfl
@[simp] theorem State.recordFault_picIn (k : Cause) (i : Word) :
    (s.recordFault k i).picIn = s.picIn := rfl
@[simp] theorem State.recordFault_blkIn (k : Cause) (i : Word) :
    (s.recordFault k i).blkIn = s.blkIn := rfl
@[simp] theorem State.recordFault_blkOut (k : Cause) (i : Word) :
    (s.recordFault k i).blkOut = s.blkOut := rfl
@[simp] theorem State.recordFault_pending (k : Cause) (i : Word) :
    (s.recordFault k i).pending = s.pending := rfl
@[simp] theorem State.recordFault_hostRead (k : Cause) (i : Word) :
    (s.recordFault k i).hostRead = s.hostRead := rfl
@[simp] theorem State.recordFault_freeReads (k : Cause) (i : Word) :
    (s.recordFault k i).freeReads = s.freeReads := rfl

/-! ### construct -/

@[simp] theorem State.construct_params (w h : Nat) : (s.construct w h).params = s.params := rfl
@[simp] theorem State.construct_arg0 (w h : Nat) : (s.construct w h).arg0 = s.arg0 := rfl
@[simp] theorem State.construct_arg1 (w h : Nat) : (s.construct w h).arg1 = s.arg1 := rfl
@[simp] theorem State.construct_arg2 (w h : Nat) : (s.construct w h).arg2 = s.arg2 := rfl
@[simp] theorem State.construct_sadAcc (w h : Nat) : (s.construct w h).sadAcc = s.sadAcc := rfl
@[simp] theorem State.construct_meBest (w h : Nat) : (s.construct w h).meBest = s.meBest := rfl
@[simp] theorem State.construct_meMv (w h : Nat) : (s.construct w h).meMv = s.meMv := rfl
@[simp] theorem State.construct_pos (w h : Nat) : (s.construct w h).pos = s.pos := rfl
@[simp] theorem State.construct_width (w h : Nat) :
    (s.construct w h).width = BitVec.ofNat 32 w := rfl
@[simp] theorem State.construct_height (w h : Nat) :
    (s.construct w h).height = BitVec.ofNat 32 h := rfl
@[simp] theorem State.construct_geom (w h : Nat) :
    (s.construct w h).geom = Triple.of (geometryOf w h) := rfl
@[simp] theorem State.construct_frameNum (w h : Nat) : (s.construct w h).frameNum = 0#32 := rfl
@[simp] theorem State.construct_framesSinceKf (w h : Nat) :
    (s.construct w h).framesSinceKf = 0#32 := rfl
@[simp] theorem State.construct_msel (w h : Nat) : (s.construct w h).msel = s.msel := rfl
@[simp] theorem State.construct_maddr (w h : Nat) : (s.construct w h).maddr = s.maddr := rfl
@[simp] theorem State.construct_ctxValid (w h : Nat) : (s.construct w h).ctxValid = true := rfl
@[simp] theorem State.construct_ended (w h : Nat) : (s.construct w h).ended = s.ended := rfl
@[simp] theorem State.construct_faulted (w h : Nat) : (s.construct w h).faulted = s.faulted := rfl
@[simp] theorem State.construct_fault (w h : Nat) : (s.construct w h).fault = s.fault := rfl
@[simp] theorem State.construct_faultInfo (w h : Nat) :
    (s.construct w h).faultInfo = s.faultInfo := rfl
@[simp] theorem State.construct_qt (w h : Nat) : (s.construct w h).qt = buildTables s.params := rfl
@[simp] theorem State.construct_cur (w h : Nat) : (s.construct w h).cur = none := rfl
@[simp] theorem State.construct_ref (w h : Nat) : (s.construct w h).ref = none := rfl
@[simp] theorem State.construct_picIn (w h : Nat) : (s.construct w h).picIn = ⟨[], [], []⟩ := rfl
@[simp] theorem State.construct_blkIn (w h : Nat) : (s.construct w h).blkIn = s.blkIn := rfl
@[simp] theorem State.construct_blkOut (w h : Nat) : (s.construct w h).blkOut = s.blkOut := rfl
@[simp] theorem State.construct_pending (w h : Nat) : (s.construct w h).pending = s.pending := rfl
@[simp] theorem State.construct_hostRead (w h : Nat) :
    (s.construct w h).hostRead = s.hostRead := rfl
@[simp] theorem State.construct_freeReads (w h : Nat) :
    (s.construct w h).freeReads = s.freeReads := rfl

/-! ### acceptPicture -/

@[simp] theorem State.acceptPicture_params : (s.acceptPicture).params = s.params := rfl
@[simp] theorem State.acceptPicture_arg0 : (s.acceptPicture).arg0 = s.arg0 := rfl
@[simp] theorem State.acceptPicture_arg1 : (s.acceptPicture).arg1 = s.arg1 := rfl
@[simp] theorem State.acceptPicture_arg2 : (s.acceptPicture).arg2 = s.arg2 := rfl
@[simp] theorem State.acceptPicture_sadAcc : (s.acceptPicture).sadAcc = s.sadAcc := rfl
@[simp] theorem State.acceptPicture_meBest : (s.acceptPicture).meBest = s.meBest := rfl
@[simp] theorem State.acceptPicture_meMv : (s.acceptPicture).meMv = s.meMv := rfl
@[simp] theorem State.acceptPicture_pos : (s.acceptPicture).pos = s.pos := rfl
@[simp] theorem State.acceptPicture_width : (s.acceptPicture).width = s.width := rfl
@[simp] theorem State.acceptPicture_height : (s.acceptPicture).height = s.height := rfl
@[simp] theorem State.acceptPicture_geom : (s.acceptPicture).geom = s.geom := rfl
@[simp] theorem State.acceptPicture_frameNum : (s.acceptPicture).frameNum = s.frameNum := rfl
@[simp] theorem State.acceptPicture_framesSinceKf :
    (s.acceptPicture).framesSinceKf = if s.nextIsKey then 0#32 else s.framesSinceKf := rfl
@[simp] theorem State.acceptPicture_msel : (s.acceptPicture).msel = s.msel := rfl
@[simp] theorem State.acceptPicture_maddr : (s.acceptPicture).maddr = s.maddr := rfl
@[simp] theorem State.acceptPicture_ctxValid : (s.acceptPicture).ctxValid = s.ctxValid := rfl
@[simp] theorem State.acceptPicture_ended : (s.acceptPicture).ended = s.ended := rfl
@[simp] theorem State.acceptPicture_faulted : (s.acceptPicture).faulted = s.faulted := rfl
@[simp] theorem State.acceptPicture_fault : (s.acceptPicture).fault = s.fault := rfl
@[simp] theorem State.acceptPicture_faultInfo : (s.acceptPicture).faultInfo = s.faultInfo := rfl
@[simp] theorem State.acceptPicture_qt : (s.acceptPicture).qt = s.qt := rfl
@[simp] theorem State.acceptPicture_cur :
    (s.acceptPicture).cur = some (s.newFrame s.nextIsKey) := rfl
@[simp] theorem State.acceptPicture_ref : (s.acceptPicture).ref = s.cur := rfl
@[simp] theorem State.acceptPicture_picIn : (s.acceptPicture).picIn = s.picIn := rfl
@[simp] theorem State.acceptPicture_blkIn : (s.acceptPicture).blkIn = s.blkIn := rfl
@[simp] theorem State.acceptPicture_blkOut : (s.acceptPicture).blkOut = s.blkOut := rfl
@[simp] theorem State.acceptPicture_pending : (s.acceptPicture).pending = s.pending := rfl
@[simp] theorem State.acceptPicture_hostRead : (s.acceptPicture).hostRead = s.hostRead := rfl
@[simp] theorem State.acceptPicture_freeReads : (s.acceptPicture).freeReads = s.freeReads := rfl

/-! ### countPicture -/

@[simp] theorem State.countPicture_params : (s.countPicture).params = s.params := rfl
@[simp] theorem State.countPicture_arg0 : (s.countPicture).arg0 = s.arg0 := rfl
@[simp] theorem State.countPicture_arg1 : (s.countPicture).arg1 = s.arg1 := rfl
@[simp] theorem State.countPicture_arg2 : (s.countPicture).arg2 = s.arg2 := rfl
@[simp] theorem State.countPicture_sadAcc : (s.countPicture).sadAcc = s.sadAcc := rfl
@[simp] theorem State.countPicture_meBest : (s.countPicture).meBest = s.meBest := rfl
@[simp] theorem State.countPicture_meMv : (s.countPicture).meMv = s.meMv := rfl
@[simp] theorem State.countPicture_pos : (s.countPicture).pos = s.pos := rfl
@[simp] theorem State.countPicture_width : (s.countPicture).width = s.width := rfl
@[simp] theorem State.countPicture_height : (s.countPicture).height = s.height := rfl
@[simp] theorem State.countPicture_geom : (s.countPicture).geom = s.geom := rfl
@[simp] theorem State.countPicture_frameNum : (s.countPicture).frameNum = s.frameNum + 1#32 := rfl
@[simp] theorem State.countPicture_framesSinceKf :
    (s.countPicture).framesSinceKf = s.framesSinceKf + 1#32 := rfl
@[simp] theorem State.countPicture_msel : (s.countPicture).msel = s.msel := rfl
@[simp] theorem State.countPicture_maddr : (s.countPicture).maddr = s.maddr := rfl
@[simp] theorem State.countPicture_ctxValid : (s.countPicture).ctxValid = s.ctxValid := rfl
@[simp] theorem State.countPicture_ended : (s.countPicture).ended = s.ended := rfl
@[simp] theorem State.countPicture_faulted : (s.countPicture).faulted = s.faulted := rfl
@[simp] theorem State.countPicture_fault : (s.countPicture).fault = s.fault := rfl
@[simp] theorem State.countPicture_faultInfo : (s.countPicture).faultInfo = s.faultInfo := rfl
@[simp] theorem State.countPicture_qt : (s.countPicture).qt = s.qt := rfl
@[simp] theorem State.countPicture_cur : (s.countPicture).cur = s.cur := rfl
@[simp] theorem State.countPicture_ref : (s.countPicture).ref = s.ref := rfl
@[simp] theorem State.countPicture_picIn : (s.countPicture).picIn = s.picIn := rfl
@[simp] theorem State.countPicture_blkIn : (s.countPicture).blkIn = s.blkIn := rfl
@[simp] theorem State.countPicture_blkOut : (s.countPicture).blkOut = s.blkOut := rfl
@[simp] theorem State.countPicture_pending : (s.countPicture).pending = s.pending := rfl
@[simp] theorem State.countPicture_hostRead : (s.countPicture).hostRead = s.hostRead := rfl
@[simp] theorem State.countPicture_freeReads : (s.countPicture).freeReads = s.freeReads := rfl

/-! ### setEnded -/

@[simp] theorem State.setEnded_params : (s.setEnded).params = s.params := rfl
@[simp] theorem State.setEnded_arg0 : (s.setEnded).arg0 = s.arg0 := rfl
@[simp] theorem State.setEnded_arg1 : (s.setEnded).arg1 = s.arg1 := rfl
@[simp] theorem State.setEnded_arg2 : (s.setEnded).arg2 = s.arg2 := rfl
@[simp] theorem State.setEnded_sadAcc : (s.setEnded).sadAcc = s.sadAcc := rfl
@[simp] theorem State.setEnded_meBest : (s.setEnded).meBest = s.meBest := rfl
@[simp] theorem State.setEnded_meMv : (s.setEnded).meMv = s.meMv := rfl
@[simp] theorem State.setEnded_pos : (s.setEnded).pos = s.pos := rfl
@[simp] theorem State.setEnded_width : (s.setEnded).width = s.width := rfl
@[simp] theorem State.setEnded_height : (s.setEnded).height = s.height := rfl
@[simp] theorem State.setEnded_geom : (s.setEnded).geom = s.geom := rfl
@[simp] theorem State.setEnded_frameNum : (s.setEnded).frameNum = s.frameNum := rfl
@[simp] theorem State.setEnded_framesSinceKf : (s.setEnded).framesSinceKf = s.framesSinceKf := rfl
@[simp] theorem State.setEnded_msel : (s.setEnded).msel = s.msel := rfl
@[simp] theorem State.setEnded_maddr : (s.setEnded).maddr = s.maddr := rfl
@[simp] theorem State.setEnded_ctxValid : (s.setEnded).ctxValid = s.ctxValid := rfl
@[simp] theorem State.setEnded_ended : (s.setEnded).ended = true := rfl
@[simp] theorem State.setEnded_faulted : (s.setEnded).faulted = s.faulted := rfl
@[simp] theorem State.setEnded_fault : (s.setEnded).fault = s.fault := rfl
@[simp] theorem State.setEnded_faultInfo : (s.setEnded).faultInfo = s.faultInfo := rfl
@[simp] theorem State.setEnded_qt : (s.setEnded).qt = s.qt := rfl
@[simp] theorem State.setEnded_cur : (s.setEnded).cur = s.cur := rfl
@[simp] theorem State.setEnded_ref : (s.setEnded).ref = s.ref := rfl
@[simp] theorem State.setEnded_picIn : (s.setEnded).picIn = s.picIn := rfl
@[simp] theorem State.setEnded_blkIn : (s.setEnded).blkIn = s.blkIn := rfl
@[simp] theorem State.setEnded_blkOut : (s.setEnded).blkOut = s.blkOut := rfl
@[simp] theorem State.setEnded_pending : (s.setEnded).pending = s.pending := rfl
@[simp] theorem State.setEnded_hostRead : (s.setEnded).hostRead = s.hostRead := rfl
@[simp] theorem State.setEnded_freeReads : (s.setEnded).freeReads = s.freeReads := rfl

/-! ### returnRead -/

@[simp] theorem State.returnRead_params (w : Word) : (s.returnRead w).params = s.params := rfl
@[simp] theorem State.returnRead_arg0 (w : Word) : (s.returnRead w).arg0 = s.arg0 := rfl
@[simp] theorem State.returnRead_arg1 (w : Word) : (s.returnRead w).arg1 = s.arg1 := rfl
@[simp] theorem State.returnRead_arg2 (w : Word) : (s.returnRead w).arg2 = s.arg2 := rfl
@[simp] theorem State.returnRead_sadAcc (w : Word) : (s.returnRead w).sadAcc = s.sadAcc := rfl
@[simp] theorem State.returnRead_meBest (w : Word) : (s.returnRead w).meBest = s.meBest := rfl
@[simp] theorem State.returnRead_meMv (w : Word) : (s.returnRead w).meMv = s.meMv := rfl
@[simp] theorem State.returnRead_pos (w : Word) : (s.returnRead w).pos = s.pos := rfl
@[simp] theorem State.returnRead_width (w : Word) : (s.returnRead w).width = s.width := rfl
@[simp] theorem State.returnRead_height (w : Word) : (s.returnRead w).height = s.height := rfl
@[simp] theorem State.returnRead_geom (w : Word) : (s.returnRead w).geom = s.geom := rfl
@[simp] theorem State.returnRead_frameNum (w : Word) : (s.returnRead w).frameNum = s.frameNum := rfl
@[simp] theorem State.returnRead_framesSinceKf (w : Word) :
    (s.returnRead w).framesSinceKf = s.framesSinceKf := rfl
@[simp] theorem State.returnRead_msel (w : Word) : (s.returnRead w).msel = s.msel := rfl
@[simp] theorem State.returnRead_maddr (w : Word) : (s.returnRead w).maddr = s.maddr := rfl
@[simp] theorem State.returnRead_ctxValid (w : Word) : (s.returnRead w).ctxValid = s.ctxValid := rfl
@[simp] theorem State.returnRead_ended (w : Word) : (s.returnRead w).ended = s.ended := rfl
@[simp] theorem State.returnRead_faulted (w : Word) : (s.returnRead w).faulted = s.faulted := rfl
@[simp] theorem State.returnRead_fault (w : Word) : (s.returnRead w).fault = s.fault := rfl
@[simp] theorem State.returnRead_faultInfo (w : Word) :
    (s.returnRead w).faultInfo = s.faultInfo := rfl
@[simp] theorem State.returnRead_qt (w : Word) : (s.returnRead w).qt = s.qt := rfl
@[simp] theorem State.returnRead_cur (w : Word) : (s.returnRead w).cur = s.cur := rfl
@[simp] theorem State.returnRead_ref (w : Word) : (s.returnRead w).ref = s.ref := rfl
@[simp] theorem State.returnRead_picIn (w : Word) : (s.returnRead w).picIn = s.picIn := rfl
@[simp] theorem State.returnRead_blkIn (w : Word) : (s.returnRead w).blkIn = s.blkIn := rfl
@[simp] theorem State.returnRead_blkOut (w : Word) : (s.returnRead w).blkOut = s.blkOut := rfl
@[simp] theorem State.returnRead_pending (w : Word) : (s.returnRead w).pending = s.pending := rfl
@[simp] theorem State.returnRead_hostRead (w : Word) : (s.returnRead w).hostRead = some w := rfl
@[simp] theorem State.returnRead_freeReads (w : Word) :
    (s.returnRead w).freeReads = s.freeReads := rfl

/-! ### returnUnspecified -/

@[simp] theorem State.returnUnspecified_params : (s.returnUnspecified).params = s.params := rfl
@[simp] theorem State.returnUnspecified_arg0 : (s.returnUnspecified).arg0 = s.arg0 := rfl
@[simp] theorem State.returnUnspecified_arg1 : (s.returnUnspecified).arg1 = s.arg1 := rfl
@[simp] theorem State.returnUnspecified_arg2 : (s.returnUnspecified).arg2 = s.arg2 := rfl
@[simp] theorem State.returnUnspecified_sadAcc : (s.returnUnspecified).sadAcc = s.sadAcc := rfl
@[simp] theorem State.returnUnspecified_meBest : (s.returnUnspecified).meBest = s.meBest := rfl
@[simp] theorem State.returnUnspecified_meMv : (s.returnUnspecified).meMv = s.meMv := rfl
@[simp] theorem State.returnUnspecified_pos : (s.returnUnspecified).pos = s.pos := rfl
@[simp] theorem State.returnUnspecified_width : (s.returnUnspecified).width = s.width := rfl
@[simp] theorem State.returnUnspecified_height : (s.returnUnspecified).height = s.height := rfl
@[simp] theorem State.returnUnspecified_geom : (s.returnUnspecified).geom = s.geom := rfl
@[simp] theorem State.returnUnspecified_frameNum :
    (s.returnUnspecified).frameNum = s.frameNum := rfl
@[simp] theorem State.returnUnspecified_framesSinceKf :
    (s.returnUnspecified).framesSinceKf = s.framesSinceKf := rfl
@[simp] theorem State.returnUnspecified_msel : (s.returnUnspecified).msel = s.msel := rfl
@[simp] theorem State.returnUnspecified_maddr : (s.returnUnspecified).maddr = s.maddr := rfl
@[simp] theorem State.returnUnspecified_ctxValid :
    (s.returnUnspecified).ctxValid = s.ctxValid := rfl
@[simp] theorem State.returnUnspecified_ended : (s.returnUnspecified).ended = s.ended := rfl
@[simp] theorem State.returnUnspecified_faulted : (s.returnUnspecified).faulted = s.faulted := rfl
@[simp] theorem State.returnUnspecified_fault : (s.returnUnspecified).fault = s.fault := rfl
@[simp] theorem State.returnUnspecified_faultInfo :
    (s.returnUnspecified).faultInfo = s.faultInfo := rfl
@[simp] theorem State.returnUnspecified_qt : (s.returnUnspecified).qt = s.qt := rfl
@[simp] theorem State.returnUnspecified_cur : (s.returnUnspecified).cur = s.cur := rfl
@[simp] theorem State.returnUnspecified_ref : (s.returnUnspecified).ref = s.ref := rfl
@[simp] theorem State.returnUnspecified_picIn : (s.returnUnspecified).picIn = s.picIn := rfl
@[simp] theorem State.returnUnspecified_blkIn : (s.returnUnspecified).blkIn = s.blkIn := rfl
@[simp] theorem State.returnUnspecified_blkOut : (s.returnUnspecified).blkOut = s.blkOut := rfl
@[simp] theorem State.returnUnspecified_pending : (s.returnUnspecified).pending = s.pending := rfl
@[simp] theorem State.returnUnspecified_hostRead :
    (s.returnUnspecified).hostRead = some (Config.freeRead s.freeReads) := rfl
@[simp] theorem State.returnUnspecified_freeReads :
    (s.returnUnspecified).freeReads = s.freeReads + 1 := rfl

/-! ### Views that an update leaves alone -/

@[simp] theorem State.setPos_pw (w : Word) (c : Comp) : (s.setPos w).pw c = s.pw c := rfl
@[simp] theorem State.setPos_ph (w : Word) (c : Comp) : (s.setPos w).ph c = s.ph c := rfl
@[simp] theorem State.setPos_cols (w : Word) (c : Comp) : (s.setPos w).cols c = s.cols c := rfl
@[simp] theorem State.setPos_rows (w : Word) (c : Comp) : (s.setPos w).rows c = s.rows c := rfl
@[simp] theorem State.setPos_planeSize (w : Word) (c : Comp) : (s.setPos w).planeSize c = s.planeSize c := rfl
@[simp] theorem State.setPos_gridSize (w : Word) (c : Comp) : (s.setPos w).gridSize c = s.gridSize c := rfl
@[simp] theorem State.setPos_rng (w : Word) (c : Comp) : (s.setPos w).rng c = s.rng c := by
  cases c <;> rfl
@[simp] theorem State.setPos_table (w : Word) (c : Comp) : (s.setPos w).table c = s.table c := rfl
@[simp] theorem State.setSadAcc_pw (w : Word) (c : Comp) : (s.setSadAcc w).pw c = s.pw c := rfl
@[simp] theorem State.setSadAcc_ph (w : Word) (c : Comp) : (s.setSadAcc w).ph c = s.ph c := rfl
@[simp] theorem State.setSadAcc_cols (w : Word) (c : Comp) : (s.setSadAcc w).cols c = s.cols c := rfl
@[simp] theorem State.setSadAcc_rows (w : Word) (c : Comp) : (s.setSadAcc w).rows c = s.rows c := rfl
@[simp] theorem State.setSadAcc_planeSize (w : Word) (c : Comp) : (s.setSadAcc w).planeSize c = s.planeSize c := rfl
@[simp] theorem State.setSadAcc_gridSize (w : Word) (c : Comp) : (s.setSadAcc w).gridSize c = s.gridSize c := rfl
@[simp] theorem State.setSadAcc_rng (w : Word) (c : Comp) : (s.setSadAcc w).rng c = s.rng c := by
  cases c <;> rfl
@[simp] theorem State.setSadAcc_table (w : Word) (c : Comp) : (s.setSadAcc w).table c = s.table c := rfl
@[simp] theorem State.setMeResult_pw (b m : Word) (c : Comp) : (s.setMeResult b m).pw c = s.pw c := rfl
@[simp] theorem State.setMeResult_ph (b m : Word) (c : Comp) : (s.setMeResult b m).ph c = s.ph c := rfl
@[simp] theorem State.setMeResult_cols (b m : Word) (c : Comp) : (s.setMeResult b m).cols c = s.cols c := rfl
@[simp] theorem State.setMeResult_rows (b m : Word) (c : Comp) : (s.setMeResult b m).rows c = s.rows c := rfl
@[simp] theorem State.setMeResult_planeSize (b m : Word) (c : Comp) : (s.setMeResult b m).planeSize c = s.planeSize c := rfl
@[simp] theorem State.setMeResult_gridSize (b m : Word) (c : Comp) : (s.setMeResult b m).gridSize c = s.gridSize c := rfl
@[simp] theorem State.setMeResult_rng (b m : Word) (c : Comp) : (s.setMeResult b m).rng c = s.rng c := by
  cases c <;> rfl
@[simp] theorem State.setMeResult_table (b m : Word) (c : Comp) : (s.setMeResult b m).table c = s.table c := rfl
@[simp] theorem State.setCur_pw (f : Frame) (c : Comp) : (s.setCur f).pw c = s.pw c := rfl
@[simp] theorem State.setCur_ph (f : Frame) (c : Comp) : (s.setCur f).ph c = s.ph c := rfl
@[simp] theorem State.setCur_cols (f : Frame) (c : Comp) : (s.setCur f).cols c = s.cols c := rfl
@[simp] theorem State.setCur_rows (f : Frame) (c : Comp) : (s.setCur f).rows c = s.rows c := rfl
@[simp] theorem State.setCur_planeSize (f : Frame) (c : Comp) : (s.setCur f).planeSize c = s.planeSize c := rfl
@[simp] theorem State.setCur_gridSize (f : Frame) (c : Comp) : (s.setCur f).gridSize c = s.gridSize c := rfl
@[simp] theorem State.setCur_rng (f : Frame) (c : Comp) : (s.setCur f).rng c = s.rng c := by
  cases c <;> rfl
@[simp] theorem State.setCur_table (f : Frame) (c : Comp) : (s.setCur f).table c = s.table c := rfl
@[simp] theorem State.setBlkOut_pw (m : Space Half) (c : Comp) : (s.setBlkOut m).pw c = s.pw c := rfl
@[simp] theorem State.setBlkOut_ph (m : Space Half) (c : Comp) : (s.setBlkOut m).ph c = s.ph c := rfl
@[simp] theorem State.setBlkOut_cols (m : Space Half) (c : Comp) : (s.setBlkOut m).cols c = s.cols c := rfl
@[simp] theorem State.setBlkOut_rows (m : Space Half) (c : Comp) : (s.setBlkOut m).rows c = s.rows c := rfl
@[simp] theorem State.setBlkOut_planeSize (m : Space Half) (c : Comp) : (s.setBlkOut m).planeSize c = s.planeSize c := rfl
@[simp] theorem State.setBlkOut_gridSize (m : Space Half) (c : Comp) : (s.setBlkOut m).gridSize c = s.gridSize c := rfl
@[simp] theorem State.setBlkOut_rng (m : Space Half) (c : Comp) : (s.setBlkOut m).rng c = s.rng c := by
  cases c <;> rfl
@[simp] theorem State.setBlkOut_table (m : Space Half) (c : Comp) : (s.setBlkOut m).table c = s.table c := rfl
@[simp] theorem State.recordFault_pw (k : Cause) (i : Word) (c : Comp) : (s.recordFault k i).pw c = s.pw c := rfl
@[simp] theorem State.recordFault_ph (k : Cause) (i : Word) (c : Comp) : (s.recordFault k i).ph c = s.ph c := rfl
@[simp] theorem State.recordFault_cols (k : Cause) (i : Word) (c : Comp) : (s.recordFault k i).cols c = s.cols c := rfl
@[simp] theorem State.recordFault_rows (k : Cause) (i : Word) (c : Comp) : (s.recordFault k i).rows c = s.rows c := rfl
@[simp] theorem State.recordFault_planeSize (k : Cause) (i : Word) (c : Comp) : (s.recordFault k i).planeSize c = s.planeSize c := rfl
@[simp] theorem State.recordFault_gridSize (k : Cause) (i : Word) (c : Comp) : (s.recordFault k i).gridSize c = s.gridSize c := rfl
@[simp] theorem State.recordFault_rng (k : Cause) (i : Word) (c : Comp) : (s.recordFault k i).rng c = s.rng c := by
  cases c <;> rfl
@[simp] theorem State.recordFault_table (k : Cause) (i : Word) (c : Comp) : (s.recordFault k i).table c = s.table c := rfl
@[simp] theorem State.acceptPicture_pw (c : Comp) : (s.acceptPicture).pw c = s.pw c := rfl
@[simp] theorem State.acceptPicture_ph (c : Comp) : (s.acceptPicture).ph c = s.ph c := rfl
@[simp] theorem State.acceptPicture_cols (c : Comp) : (s.acceptPicture).cols c = s.cols c := rfl
@[simp] theorem State.acceptPicture_rows (c : Comp) : (s.acceptPicture).rows c = s.rows c := rfl
@[simp] theorem State.acceptPicture_planeSize (c : Comp) : (s.acceptPicture).planeSize c = s.planeSize c := rfl
@[simp] theorem State.acceptPicture_gridSize (c : Comp) : (s.acceptPicture).gridSize c = s.gridSize c := rfl
@[simp] theorem State.acceptPicture_rng (c : Comp) : (s.acceptPicture).rng c = s.rng c := by
  cases c <;> rfl
@[simp] theorem State.acceptPicture_table (c : Comp) : (s.acceptPicture).table c = s.table c := rfl
@[simp] theorem State.countPicture_pw (c : Comp) : (s.countPicture).pw c = s.pw c := rfl
@[simp] theorem State.countPicture_ph (c : Comp) : (s.countPicture).ph c = s.ph c := rfl
@[simp] theorem State.countPicture_cols (c : Comp) : (s.countPicture).cols c = s.cols c := rfl
@[simp] theorem State.countPicture_rows (c : Comp) : (s.countPicture).rows c = s.rows c := rfl
@[simp] theorem State.countPicture_planeSize (c : Comp) : (s.countPicture).planeSize c = s.planeSize c := rfl
@[simp] theorem State.countPicture_gridSize (c : Comp) : (s.countPicture).gridSize c = s.gridSize c := rfl
@[simp] theorem State.countPicture_rng (c : Comp) : (s.countPicture).rng c = s.rng c := by
  cases c <;> rfl
@[simp] theorem State.countPicture_table (c : Comp) : (s.countPicture).table c = s.table c := rfl
@[simp] theorem State.setEnded_pw (c : Comp) : (s.setEnded).pw c = s.pw c := rfl
@[simp] theorem State.setEnded_ph (c : Comp) : (s.setEnded).ph c = s.ph c := rfl
@[simp] theorem State.setEnded_cols (c : Comp) : (s.setEnded).cols c = s.cols c := rfl
@[simp] theorem State.setEnded_rows (c : Comp) : (s.setEnded).rows c = s.rows c := rfl
@[simp] theorem State.setEnded_planeSize (c : Comp) : (s.setEnded).planeSize c = s.planeSize c := rfl
@[simp] theorem State.setEnded_gridSize (c : Comp) : (s.setEnded).gridSize c = s.gridSize c := rfl
@[simp] theorem State.setEnded_rng (c : Comp) : (s.setEnded).rng c = s.rng c := by
  cases c <;> rfl
@[simp] theorem State.setEnded_table (c : Comp) : (s.setEnded).table c = s.table c := rfl
@[simp] theorem State.returnRead_pw (w : Word) (c : Comp) : (s.returnRead w).pw c = s.pw c := rfl
@[simp] theorem State.returnRead_ph (w : Word) (c : Comp) : (s.returnRead w).ph c = s.ph c := rfl
@[simp] theorem State.returnRead_cols (w : Word) (c : Comp) : (s.returnRead w).cols c = s.cols c := rfl
@[simp] theorem State.returnRead_rows (w : Word) (c : Comp) : (s.returnRead w).rows c = s.rows c := rfl
@[simp] theorem State.returnRead_planeSize (w : Word) (c : Comp) : (s.returnRead w).planeSize c = s.planeSize c := rfl
@[simp] theorem State.returnRead_gridSize (w : Word) (c : Comp) : (s.returnRead w).gridSize c = s.gridSize c := rfl
@[simp] theorem State.returnRead_rng (w : Word) (c : Comp) : (s.returnRead w).rng c = s.rng c := by
  cases c <;> rfl
@[simp] theorem State.returnRead_table (w : Word) (c : Comp) : (s.returnRead w).table c = s.table c := rfl
@[simp] theorem State.returnUnspecified_pw (c : Comp) : (s.returnUnspecified).pw c = s.pw c := rfl
@[simp] theorem State.returnUnspecified_ph (c : Comp) : (s.returnUnspecified).ph c = s.ph c := rfl
@[simp] theorem State.returnUnspecified_cols (c : Comp) : (s.returnUnspecified).cols c = s.cols c := rfl
@[simp] theorem State.returnUnspecified_rows (c : Comp) : (s.returnUnspecified).rows c = s.rows c := rfl
@[simp] theorem State.returnUnspecified_planeSize (c : Comp) : (s.returnUnspecified).planeSize c = s.planeSize c := rfl
@[simp] theorem State.returnUnspecified_gridSize (c : Comp) : (s.returnUnspecified).gridSize c = s.gridSize c := rfl
@[simp] theorem State.returnUnspecified_rng (c : Comp) : (s.returnUnspecified).rng c = s.rng c := by
  cases c <;> rfl
@[simp] theorem State.returnUnspecified_table (c : Comp) : (s.returnUnspecified).table c = s.table c := rfl

end Sys2Proof.Machine
end

