-- ==== Sys2Proof/Laws/Run.lean ====
section
/-! SUPPORT. Running a command: what a sweep does, how a fault is recorded, and the one form every
meaning has. -/

namespace Sys2Proof.Machine

/-! ### Parts and sweeps -/

@[simp] theorem Run.andThen_done (s : State) (k : State → Run) : (Run.done s).andThen k = k s := rfl

@[simp] theorem Run.andThen_raised (c : Cause) (s : State) (k : State → Run) :
    (Run.raised c s).andThen k = .raised c s := rfl

@[simp] theorem Run.state_done (s : State) : (Run.done s).state = s := rfl

@[simp] theorem Run.state_raised (c : Cause) (s : State) : (Run.raised c s).state = s := rfl

@[simp] theorem sweep_nil {α : Type} (f : α → State → Run) (s : State) : sweep f [] s = .done s := rfl

@[simp] theorem sweep_cons {α : Type} (f : α → State → Run) (u : α) (us : List α) (s : State) :
    sweep f (u :: us) s = (f u s).andThen (sweep f us) := rfl

theorem sweep_append {α : Type} (f : α → State → Run) (us vs : List α) (s : State) :
    sweep f (us ++ vs) s = (sweep f us s).andThen (sweep f vs) := by
  induction us generalizing s with
  | nil => rfl
  | cons u us ih =>
    simp only [List.cons_append, sweep_cons]
    cases f u s with
    | done t => exact ih t
    | raised c t => rfl

/-- What the first part and the rest keep, their sequence keeps. -/
theorem Run.andThen_keeps {P : State → Prop} {r : Run} {k : State → Run} (h : P r.state)
    (hk : ∀ s, P s → P (k s).state) : P (r.andThen k).state := by
  cases r with
  | done s => exact hk s h
  | raised c s => exact h

/-- What every unit keeps, done or faulted, the sweep keeps. -/
theorem sweep_keeps {α : Type} {P : State → Prop} {f : α → State → Run} {us : List α}
    (h : ∀ u ∈ us, ∀ s, P s → P (f u s).state) (s : State) (hs : P s) : P (sweep f us s).state := by
  induction us generalizing s with
  | nil => exact hs
  | cons u us ih =>
    rw [sweep_cons]
    refine Run.andThen_keeps (h u (by simp) s hs) (fun t ht => ?_)
    exact ih (fun v hv => h v (by simp [hv])) t ht

/-- A sweep completes when each unit does, and carries a property indexed by the units done. -/
theorem sweep_completes {α : Type} {f : α → State → Run} (I : Nat → State → Prop) {us : List α}
    (h : ∀ k (hk : k < us.length) s, I k s → ∃ t, f us[k] s = .done t ∧ I (k + 1) t)
    (s : State) (hs : I 0 s) : ∃ t, sweep f us s = .done t ∧ I us.length t := by
  induction us generalizing I s with
  | nil => exact ⟨s, rfl, hs⟩
  | cons u us ih =>
    obtain ⟨t, ht, hi⟩ := h 0 (by simp) s hs
    obtain ⟨t', ht', hi'⟩ := ih (fun k => I (k + 1))
      (fun k hk s hs => by
        have := h (k + 1) (by simpa using hk) s hs
        simpa using this) t hi
    simp only [List.getElem_cons_zero] at ht
    exact ⟨t', by simp [ht, ht'], by simpa using hi'⟩

/-! ### Faults -/

theorem State.raise_of_not_faulted {s : State} (h : s.faulted = false) (c : Cause) (i : Word) :
    s.raise c i = s.recordFault c i := by simp [State.raise, h]

theorem State.raise_of_faulted {s : State} (h : s.faulted = true) (c : Cause) (i : Word) :
    s.raise c i = s := by simp [State.raise, h]

/-- Taking a fault is the three writes of R244, or nothing. -/
theorem State.raise_cases (s : State) (c : Cause) (i : Word) :
    s.raise c i = s ∨ s.raise c i = s.recordFault c i := by
  unfold State.raise; split <;> simp

@[simp] theorem Run.commit_done (w : Word) (s : State) : (Run.done s).commit w = s := rfl

@[simp] theorem Run.commit_raised (w : Word) (c : Cause) (s : State) :
    (Run.raised c s).commit w = s.raise c w := rfl

/-- What the command keeps and the fault record does not touch, the committed command keeps. -/
theorem Run.commit_keeps {P : State → Prop} {r : Run} (w : Word) (h : P r.state)
    (hr : ∀ s c i, P s → P (s.recordFault c i)) : P (r.commit w) := by
  cases r with
  | done s => exact h
  | raised c s =>
    rcases State.raise_cases s c w with e | e
    · rw [Run.commit_raised, e]; exact h
    · rw [Run.commit_raised, e]; exact hr s c w h

/-! ### Meanings -/

/-- The rule a command runs after the lifecycle check. -/
def bodyOf : Instr → State → Run
  | .ctxNew => ctxNewBody
  | .encodeImage => encodeImageBody
  | .streamEnd => fun s => .done s.setEnded
  | .abort => fun s => .raised .input s
  | .sad spA spB => sadBody spA spB
  | .meBlock c mbY mbX => meBlockBody c mbY mbX
  | .meComp c => meSweep c
  | .mcBlock c mbY mbX => mcBlockBody c mbY mbX
  | .mcComp c => mcCompBody c
  | .dctqBlock c => fun s => bufferCommand (fun b => (s.table c).map (xform.fwd b)) s
  | .deqidctBlock c => fun s => bufferCommand (fun b => (s.table c).map (xform.inv b)) s
  | .dctqRow c band => bandBody dctqUnit c band
  | .deqidctRow c band => bandBody deqidctUnit c band
  | .dctqPlane c => planeBody dctqUnit c
  | .deqidctPlane c => planeBody deqidctUnit c
  | .zzFwd => bufferCommand (fun b => some (toZigzag 0#16 b))
  | .zzInv => bufferCommand (fun b => some (fromZigzag 0#16 b))

/-- Every meaning is the lifecycle check and then its rule, and ends in a next state. -/
theorem exec_eq (i : Instr) (s : State) :
    exec i s = .next (if accepts i s then (bodyOf i s).commit (encode i)
      else s.raise .state (encode i)) := by
  cases i <;> rfl

/-- An accepted command whose rule completes. -/
theorem exec_of_done {i : Instr} {s t : State} (ha : accepts i s = true)
    (hb : bodyOf i s = .done t) : exec i s = .next t := by
  rw [exec_eq, if_pos ha, hb, Run.commit_done]

/-- An accepted command whose rule raises a fault, in a state without one. -/
theorem exec_of_raised {i : Instr} {s t : State} {c : Cause} (ha : accepts i s = true)
    (hb : bodyOf i s = .raised c t) (hf : t.faulted = false) :
    exec i s = .next (t.recordFault c (encode i)) := by
  rw [exec_eq, if_pos ha, hb, Run.commit_raised, State.raise_of_not_faulted hf]

/-- A command that is not accepted, in a state without a fault. -/
theorem exec_of_not_accepted {i : Instr} {s : State} (ha : accepts i s = false)
    (hf : s.faulted = false) : exec i s = .next (s.recordFault .state (encode i)) := by
  rw [exec_eq, if_neg (by simp [ha]), State.raise_of_not_faulted hf]

/-- A command accepted anywhere but as ABORT is accepted in a constructed or unconstructed state; none
is accepted while faulted (R241, R245). -/
theorem not_accepts_of_faulted {s : State} (h : s.faulted = true) (i : Instr) :
    accepts i s = false := by
  have hl : s.lifecycle = .faulted := by simp [State.lifecycle, h]
  cases i <;> simp [accepts, hl, Lifecycle.constructed]

/-- What every rule keeps and the fault record does not touch, every command keeps. -/
theorem exec_keeps {P : State → Prop} {i : Instr} {s t : State} (h : exec i s = .next t) (hs : P s)
    (hb : accepts i s = true → P (bodyOf i s).state)
    (hr : ∀ s c w, P s → P (s.recordFault c w)) : P t := by
  rw [exec_eq] at h
  injection h with h
  subst h
  split
  · next ha => exact Run.commit_keeps _ (hb ha) hr
  · rcases State.raise_cases s .state (encode i) with e | e
    · rw [e]; exact hs
    · rw [e]; exact hr _ _ _ hs

end Sys2Proof.Machine
end

