-- ==== Sys2Proof/Laws/Copy.lean ====
section
/-! SUPPORT. The laws of the two store loops, the block copy and the reconstruction: which elements they
write, with what, and what they keep; and everything one macroblock or block of the compensator and of
the transform sweeps can do. -/

namespace Sys2Proof.Machine

/-! ### The block copy -/

/-- The copy touches no element but its destinations, whether it comes to its end or not. -/
theorem copySamples_frame {src : Space Byte} {moves : List (Nat × Nat)} {dst : Space Byte}
    {r : Space Byte × Bool} (h : copySamples src moves dst = r) {j : Nat}
    (hj : ∀ m ∈ moves, m.2 ≠ j) : Space.read r.1 j = Space.read dst j := by
  subst h
  induction moves generalizing dst with
  | nil => rfl
  | cons m rest ih =>
    obtain ⟨i, k⟩ := m
    unfold copySamples
    split
    · rfl
    · next v _ =>
      rw [ih (fun m hm => hj m (by simp [hm]))]
      exact Space.read_write_of_ne dst v (Ne.symm (hj (i, k) (by simp)))

/-- The copy keeps the canonical form of its destination. -/
theorem copySamples_wf {n : Nat} {src : Space Byte} {moves : List (Nat × Nat)} {dst : Space Byte}
    {r : Space Byte × Bool} (h : copySamples src moves dst = r) (hj : ∀ m ∈ moves, m.2 < n)
    (hd : Space.wf n dst = true) : Space.wf n r.1 = true := by
  subst h
  induction moves generalizing dst with
  | nil => exact hd
  | cons m rest ih =>
    obtain ⟨i, k⟩ := m
    unfold copySamples
    split
    · exact hd
    · next v _ =>
      exact ih (fun m hm => hj m (by simp [hm])) (Space.wf_write (hj (i, k) (by simp)) v hd)

/-- The copy leaves nothing `undef` that was defined. -/
theorem copySamples_defined {n : Nat} {src : Space Byte} {moves : List (Nat × Nat)}
    {dst : Space Byte} {r : Space Byte × Bool} (h : copySamples src moves dst = r)
    (hd : Space.allDefined dst n = true) : Space.allDefined r.1 n = true := by
  subst h
  induction moves generalizing dst with
  | nil => exact hd
  | cons m rest ih =>
    obtain ⟨i, k⟩ := m
    unfold copySamples
    split
    · exact hd
    · exact ih (Space.allDefined_write k _ hd)

/-- A copy from defined sources completes; with distinct destinations each receives its source. -/
theorem copySamples_completes {src : Space Byte} {f : Nat → Byte} {moves : List (Nat × Nat)}
    (h : ∀ m ∈ moves, Space.read src m.1 = some (f m.1)) (hn : (moves.map Prod.snd).Nodup)
    (dst : Space Byte) :
    ∃ p, copySamples src moves dst = (p, true) ∧
      ∀ m ∈ moves, Space.read p m.2 = some (f m.1) := by
  induction moves generalizing dst with
  | nil => exact ⟨dst, rfl, by simp⟩
  | cons m rest ih =>
    obtain ⟨i, k⟩ := m
    rw [List.map_cons, List.nodup_cons] at hn
    have hi := h (i, k) (by simp)
    obtain ⟨p, hp, hr⟩ := ih (fun m hm => h m (by simp [hm])) hn.2 (Space.write dst k (f i))
    refine ⟨p, by simp only [copySamples, hi, hp], ?_⟩
    intro m hm
    rcases List.mem_cons.mp hm with rfl | hm
    · have := copySamples_frame hp (j := k) (fun m hm e => hn.1 (by
        exact List.mem_map.mpr ⟨m, hm, e⟩))
      rw [this]
      simp
    · exact hr m hm

/-- A copy that meets its first `undef` source after the moves `pre` has made those and no other. -/
theorem copySamples_stops {src : Space Byte} {f : Nat → Byte} {pre post : List (Nat × Nat)}
    {m : Nat × Nat} (h : ∀ m ∈ pre, Space.read src m.1 = some (f m.1))
    (hm : Space.read src m.1 = none) (dst : Space Byte) :
    copySamples src (pre ++ m :: post) dst = ((copySamples src pre dst).1, false) := by
  induction pre generalizing dst with
  | nil => simp [copySamples, hm]
  | cons q rest ih =>
    have hq := h q (by simp)
    simp only [List.cons_append, copySamples, hq]
    exact ih (fun m hm => h m (by simp [hm])) _

/-! ### The reconstruction loop -/

theorem reconLoop_frame {pred : Space Byte} {items : List (Nat × Half)} {dst : Space Byte}
    {r : Space Byte × Bool} (h : reconLoop pred items dst = r) {j : Nat}
    (hj : ∀ m ∈ items, m.1 ≠ j) : Space.read r.1 j = Space.read dst j := by
  subst h
  induction items generalizing dst with
  | nil => rfl
  | cons m rest ih =>
    obtain ⟨i, k⟩ := m
    unfold reconLoop
    split
    · rfl
    · rw [ih (fun m hm => hj m (by simp [hm]))]
      exact Space.read_write_of_ne dst _ (Ne.symm (hj (i, k) (by simp)))

theorem reconLoop_wf {n : Nat} {pred : Space Byte} {items : List (Nat × Half)} {dst : Space Byte}
    {r : Space Byte × Bool} (h : reconLoop pred items dst = r) (hj : ∀ m ∈ items, m.1 < n)
    (hd : Space.wf n dst = true) : Space.wf n r.1 = true := by
  subst h
  induction items generalizing dst with
  | nil => exact hd
  | cons m rest ih =>
    obtain ⟨i, k⟩ := m
    unfold reconLoop
    split
    · exact hd
    · exact ih (fun m hm => hj m (by simp [hm])) (Space.wf_write (hj (i, k) (by simp)) _ hd)

/-- The loop over a defined prediction completes; with distinct indices each element is the clamped
sum. -/
theorem reconLoop_completes {pred : Space Byte} {f : Nat → Byte} {items : List (Nat × Half)}
    (h : ∀ m ∈ items, Space.read pred m.1 = some (f m.1)) (hn : (items.map Prod.fst).Nodup)
    (dst : Space Byte) :
    ∃ p, reconLoop pred items dst = (p, true) ∧
      ∀ m ∈ items, Space.read p m.1 = some (reconSample m.2 (f m.1)) := by
  induction items generalizing dst with
  | nil => exact ⟨dst, rfl, by simp⟩
  | cons m rest ih =>
    obtain ⟨i, k⟩ := m
    rw [List.map_cons, List.nodup_cons] at hn
    have hi := h (i, k) (by simp)
    obtain ⟨p, hp, hr⟩ := ih (fun m hm => h m (by simp [hm])) hn.2
      (Space.write dst i (reconSample k (f i)))
    refine ⟨p, by simp only [reconLoop, hi, hp], ?_⟩
    intro m hm
    rcases List.mem_cons.mp hm with rfl | hm
    · have := reconLoop_frame hp (j := i) (fun m hm e => hn.1 (by
        exact List.mem_map.mpr ⟨m, hm, e⟩))
      rw [this]
      simp
    · exact hr m hm

/-! ### Windows as lists -/

/-- The 64 samples of a window are distinct when the stride is at least 8. -/
theorem blockOffsets_nodup {t : Nat} (h : 8 ≤ t) : (blockOffsets t).Nodup := by
  unfold blockOffsets
  rw [List.nodup_flatMap]
  constructor
  · intro r _
    exact List.nodup_range.map (fun a b e => by simpa using e)
  · refine List.nodup_range.imp_of_mem ?_
    intro r1 r2 h1 h2 hne
    simp only [Function.onFun, List.disjoint_left, List.mem_map, List.mem_range]
    rintro x ⟨k1, hk1, rfl⟩ ⟨k2, hk2, e⟩
    rcases Nat.lt_or_gt_of_ne hne with hlt | hlt
    · have : (r1 + 1) * t ≤ r2 * t := Nat.mul_le_mul_right t hlt
      rw [Nat.add_mul] at this
      omega
    · have : (r2 + 1) * t ≤ r1 * t := Nat.mul_le_mul_right t hlt
      rw [Nat.add_mul] at this
      omega

theorem windowIndices_nodup {t : Nat} (h : 8 ≤ t) (o : Nat) : (windowIndices o t).Nodup :=
  (blockOffsets_nodup h).map (fun a b e => by simpa using e)

theorem blockMoves_snd (pw s d : Nat) : (blockMoves pw s d).map Prod.snd = windowIndices d pw := by
  simp [blockMoves, windowIndices, Function.comp_def]

theorem mem_blockMoves {pw s d : Nat} {m : Nat × Nat} :
    m ∈ blockMoves pw s d ↔ ∃ r k, r < 8 ∧ k < 8 ∧ m = (s + r * pw + k, d + r * pw + k) := by
  simp only [blockMoves, List.mem_map, mem_blockOffsets]
  constructor
  · rintro ⟨_, ⟨r, k, hr, hk, rfl⟩, rfl⟩
    exact ⟨r, k, hr, hk, by simp [Nat.add_assoc]⟩
  · rintro ⟨r, k, hr, hk, rfl⟩
    exact ⟨_, ⟨r, k, hr, hk, rfl⟩, by simp [Nat.add_assoc]⟩

/-- Sample `i` of a window, in the order it is read. -/
theorem windowIndices_getElem? (o t : Nat) {i : Nat} (h : i < 64) :
    (windowIndices o t)[i]? = some (o + i / 8 * t + i % 8) := by
  have key : ∀ j, j < 64 → (blockOffsets t)[j]? = some (j / 8 * t + j % 8) := by
    intro j hj
    have : ∀ j : Fin 64, (blockOffsets t)[j.val]? = some (j.val / 8 * t + j.val % 8) := by
      intro j
      fin_cases j <;> rfl
    exact this ⟨j, hj⟩
  simp [windowIndices, key i h, Nat.add_assoc]

/-! ### One macroblock of the compensator -/

/-- Everything `mc_block` can do once POS is written (R171): it stops, or does nothing, or copies a
window whose source lies inside the plane, to the end or to the first `undef`. -/
theorem mcAt_cases (c : Comp) (mb : Nat × Nat) (s : State) :
    (∃ e, mcAt c mb s = .raised e s) ∨ mcAt c mb s = .done s ∨
    ∃ cur ref, ∃ sx sy : Nat, ∃ p ok, s.cur = some cur ∧ s.ref = some ref ∧
      copySamples (ref.recons.get c) (blockMoves (s.pw c) (sampleIndex (s.pw c) sx sy)
        (sampleIndex (s.pw c) (mb.1 * 8) (mb.2 * 8))) (cur.pred.get c) = (p, ok) ∧
      (mcAt c mb s = .done (s.setCur (cur.setPred c p)) ∨
        mcAt c mb s = .raised .undef (s.setCur (cur.setPred c p))) := by
  unfold mcAt
  split
  · next cur ref hcur href =>
    split
    · exact .inl ⟨_, rfl⟩
    · next m _ =>
      split
      · simp only
        split
        · split
          · next p hp => exact .inr (.inr ⟨cur, ref, _, _, p, _, hcur, href, hp, .inl rfl⟩)
          · next p hp => exact .inr (.inr ⟨cur, ref, _, _, p, _, hcur, href, hp, .inr rfl⟩)
        · exact .inl ⟨_, rfl⟩
      · exact .inr (.inl rfl)
  · exact .inl ⟨_, rfl⟩

/-- A macroblock with a vector whose source window lies inside the plane and is defined is copied
(R171). -/
theorem mcAt_copies {c : Comp} {mb : Nat × Nat} {s : State} {cur ref : Frame} {m : MbRecord}
    {sx sy : Nat} {B : Nat → Byte} (hcur : s.cur = some cur) (href : s.ref = some ref)
    (hm : Space.read (cur.mb.get c) (mb.2 * s.cols c + mb.1) = some m) (hu : m.useMv = true)
    (hx : (sx : Int) = (mb.1 * 8 : Nat) + m.mvX.toInt)
    (hy : (sy : Int) = (mb.2 * 8 : Nat) + m.mvY.toInt)
    (hw : sx + 8 ≤ s.pw c) (hh : sy + 8 ≤ s.ph c)
    (hB : ∀ r k, r < 8 → k < 8 → Space.read (ref.recons.get c) ((sy + r) * s.pw c + sx + k) =
      some (B ((sy + r) * s.pw c + sx + k))) :
    ∃ p, mcAt c mb s = .done (s.setCur (cur.setPred c p)) ∧
      (∀ r k, r < 8 → k < 8 →
        Space.read p ((mb.2 * 8 + r) * s.pw c + mb.1 * 8 + k) =
          some (B ((sy + r) * s.pw c + sx + k))) ∧
      ∀ j, (∀ r k, r < 8 → k < 8 → j ≠ (mb.2 * 8 + r) * s.pw c + mb.1 * 8 + k) →
        Space.read p j = Space.read (cur.pred.get c) j := by
  have e1 : ∀ x y r k, sampleIndex (s.pw c) x y + r * s.pw c + k = (y + r) * s.pw c + x + k := by
    intro x y r k
    unfold sampleIndex
    rw [Nat.add_mul]
    omega
  obtain ⟨p, hp, hr⟩ := copySamples_completes (src := ref.recons.get c) (f := B)
    (moves := blockMoves (s.pw c) (sampleIndex (s.pw c) sx sy)
      (sampleIndex (s.pw c) (mb.1 * 8) (mb.2 * 8)))
    (by
      intro m hm
      obtain ⟨r, k, hr, hk, rfl⟩ := mem_blockMoves.mp hm
      simp only [e1]
      exact hB r k hr hk)
    (by rw [blockMoves_snd]; exact windowIndices_nodup (by omega) _) (cur.pred.get c)
  refine ⟨p, ?_, ?_, ?_⟩
  · have hsx : sourceInside ((mb.1 * 8 : Nat) + m.mvX.toInt) (s.pw c) = true := by
      rw [← hx]; simp [sourceInside]; omega
    have hsy : sourceInside ((mb.2 * 8 : Nat) + m.mvY.toInt) (s.ph c) = true := by
      rw [← hy]; simp [sourceInside]; omega
    unfold mcAt
    simp only [hcur, href, hm, hu, hsx, hsy, Bool.and_self, if_true]
    rw [← hx, ← hy, Int.toNat_natCast, Int.toNat_natCast, hp]
  · intro r k hr' hk
    have := hr _ (mem_blockMoves.mpr ⟨r, k, hr', hk, rfl⟩)
    simp only [e1] at this
    exact this
  · intro j hj
    refine copySamples_frame hp (fun m hm e => ?_)
    obtain ⟨r, k, hr', hk, rfl⟩ := mem_blockMoves.mp hm
    exact hj r k hr' hk (by rw [← e]; exact e1 _ _ _ _)

/-- A macroblock without a vector is left alone (R171). -/
theorem mcAt_of_intra {c : Comp} {mb : Nat × Nat} {s : State} {cur ref : Frame} {m : MbRecord}
    (hcur : s.cur = some cur) (href : s.ref = some ref)
    (hm : Space.read (cur.mb.get c) (mb.2 * s.cols c + mb.1) = some m) (hu : m.useMv = false) :
    mcAt c mb s = .done s := by
  unfold mcAt
  simp [hcur, href, hm, hu]

end Sys2Proof.Machine
end

