-- ==== Sys2Proof/Laws/Decode.lean ====
section
/-! SUPPORT. The laws of the command word: each format and each field as arithmetic on the word's number,
and what a successful decoding says. -/

namespace Sys2Proof

/-! ### Components and opcodes -/

@[simp] theorem Comp.ofNumber_number (c : Comp) : Comp.ofNumber c.number = some c := by
  cases c <;> rfl

theorem Comp.number_lt (c : Comp) : c.number < 3 := by cases c <;> decide

theorem Comp.number_of_ofNumber {n : Nat} {c : Comp} (h : Comp.ofNumber n = some c) :
    c.number = n := by
  unfold Comp.ofNumber at h
  split at h <;> first | (injection h with h; subst h; rfl) | cases h

@[simp] theorem Opcode.ofCode_code (op : Opcode) : Opcode.ofCode op.code = some op := by
  cases op <;> rfl

theorem Opcode.code_of_ofCode {b : Byte} {op : Opcode} (h : Opcode.ofCode b = some op) :
    op.code = b := by
  have := List.find?_some h
  simpa using this

/-! ### Words as numbers (R92) -/

theorem wordN_toNat (op : Opcode) : (wordN op).toNat = 2 ^ 24 * op.code.toNat := by
  cases op <;> decide

theorem wordC_toNat (op : Opcode) (c : Comp) :
    (wordC op c).toNat = 2 ^ 24 * op.code.toNat + 2 ^ 22 * c.number := by
  cases op <;> cases c <;> decide

theorem wordM_toNat (op : Opcode) (c : Comp) {fy fx : Nat} (hy : fitsField fy)
    (hx : fitsField fx) :
    (wordM op c fy fx).toNat = 2 ^ 24 * op.code.toNat + 2 ^ 22 * c.number + 2 ^ 11 * fy + fx := by
  have := c.number_lt
  unfold fitsField at *
  unfold wordM
  simp only [BitVec.toNat_append, BitVec.toNat_ofNat]
  rw [← Nat.shiftLeft_add_eq_or_of_lt (by omega), ← Nat.shiftLeft_add_eq_or_of_lt (by omega),
    ← Nat.shiftLeft_add_eq_or_of_lt (by omega)]
  simp only [Nat.shiftLeft_eq]
  omega

theorem wordR_eq_wordM (op : Opcode) (c : Comp) (fy : Nat) : wordR op c fy = wordM op c fy 0 := rfl

theorem wordS_toNat (op : Opcode) (a b : Byte) :
    (wordS op a b).toNat = 2 ^ 24 * op.code.toNat + 2 ^ 16 * a.toNat + 2 ^ 8 * b.toNat := by
  have := a.isLt
  have := b.isLt
  unfold wordS
  simp only [BitVec.toNat_append, BitVec.toNat_ofNat]
  rw [← Nat.shiftLeft_add_eq_or_of_lt (by omega), ← Nat.shiftLeft_add_eq_or_of_lt (by omega),
    ← Nat.shiftLeft_add_eq_or_of_lt (by omega)]
  simp only [Nat.shiftLeft_eq]
  omega

/-! ### Fields as numbers (R93) -/

theorem opcField_toNat (w : Word) : (opcField w).toNat = w.toNat / 2 ^ 24 := by
  have := w.isLt
  unfold opcField
  rw [BitVec.extractLsb'_toNat, Nat.shiftRight_eq_div_pow]
  omega

theorem compField_toNat (w : Word) : (compField w).toNat = w.toNat / 2 ^ 22 % 4 := by
  unfold compField
  rw [BitVec.extractLsb'_toNat, Nat.shiftRight_eq_div_pow]

theorem fyField_eq (w : Word) : fyField w = w.toNat / 2 ^ 11 % 2048 := by
  unfold fyField
  rw [BitVec.extractLsb'_toNat, Nat.shiftRight_eq_div_pow]

theorem fxField_eq (w : Word) : fxField w = w.toNat % 2048 := by
  unfold fxField
  rw [BitVec.extractLsb'_toNat, Nat.shiftRight_eq_div_pow, Nat.pow_zero, Nat.div_one]

theorem spAField_toNat (w : Word) : (spAField w).toNat = w.toNat / 2 ^ 16 % 256 := by
  unfold spAField
  rw [BitVec.extractLsb'_toNat, Nat.shiftRight_eq_div_pow]

theorem spBField_toNat (w : Word) : (spBField w).toNat = w.toNat / 2 ^ 8 % 256 := by
  unfold spBField
  rw [BitVec.extractLsb'_toNat, Nat.shiftRight_eq_div_pow]

theorem fitsField_fyField (w : Word) : fitsField (fyField w) := by
  rw [fyField_eq]
  exact Nat.mod_lt _ (by decide)

theorem fitsField_fxField (w : Word) : fitsField (fxField w) := by
  rw [fxField_eq]
  exact Nat.mod_lt _ (by decide)

/-! ### Decoding -/

/-- A word whose opcode number is a known one and whose must-be-zero bits are zero is decoded by its
fields (R95, R98). -/
theorem decode_of_opcode {w : Word} {op : Opcode} (ho : w.toNat / 2 ^ 24 = op.code.toNat)
    (hz : w.toNat % 2 ^ op.format.zeroBits = 0) : decode w = decodeFields op w := by
  have : opcField w = op.code := BitVec.eq_of_toNat_eq (by rw [opcField_toNat, ho])
  unfold decode
  rw [this, Opcode.ofCode_code]
  simp only [hz, if_true]

theorem decodeComp_of_number {w : Word} {c : Comp} (h : w.toNat / 2 ^ 22 % 4 = c.number)
    (make : Comp → Instr) : decodeComp w make = .ok (make c) := by
  unfold decodeComp
  rw [compField_toNat, h, Comp.ofNumber_number]

/-- What a successful decoding says: the opcode, the must-be-zero bits and the fields (R95). -/
theorem decode_eq_ok {w : Word} {i : Instr} (h : decode w = .ok i) :
    ∃ op, w.toNat / 2 ^ 24 = op.code.toNat ∧ w.toNat % 2 ^ op.format.zeroBits = 0 ∧
      decodeFields op w = .ok i := by
  unfold decode at h
  split at h
  · cases h
  · next op ho =>
    split at h
    · next hz => exact ⟨op, by rw [← opcField_toNat, ← Opcode.code_of_ofCode ho], hz, h⟩
    · cases h

theorem decodeComp_eq_ok {w : Word} {i : Instr} {make : Comp → Instr}
    (h : decodeComp w make = .ok i) : ∃ c, i = make c ∧ w.toNat / 2 ^ 22 % 4 = c.number := by
  unfold decodeComp at h
  split at h
  · cases h
  · next c hc =>
    injection h with h
    exact ⟨c, h.symm, by rw [← compField_toNat, Comp.number_of_ofNumber hc]⟩

end Sys2Proof
end

