-- ==== Sys2Proof/Laws/Exact32.lean ====
section
/-! SUPPORT. The laws that tie the machine's binary32 arithmetic to rational numbers: what a value stands
for, and that every operation is the exact operation rounded once. -/

namespace Sys2Proof.Exact32

open Sys2Proof.Machine

/-! ### Rounding to an integer -/

@[simp] theorem roundEven_intCast (n : Int) : roundEven (n : ℚ) = n := by
  simp [roundEven]

/-- A fraction of naturals rounded: quotient, remainder and parity decide. -/
theorem roundEven_natDiv (n : Nat) {d : Nat} (hd : 0 < d) :
    roundEven ((n : ℚ) / d) =
      ((if d < 2 * (n % d) ∨ (d = 2 * (n % d) ∧ n / d % 2 = 1) then n / d + 1 else n / d : Nat) : Int) := by
  have hd' : (0 : ℚ) < d := by exact_mod_cast hd
  have hn : (n : ℚ) = d * (n / d : Nat) + (n % d : Nat) := by exact_mod_cast (Nat.div_add_mod n d).symm
  have hr : (n : ℚ) / d = (n / d : Nat) + (n % d : Nat) / d := by rw [hn]; field_simp
  have hlt : (n % d : Nat) < d := Nat.mod_lt n hd
  have hf : ⌊(n : ℚ) / d⌋ = ((n / d : Nat) : Int) := by
    rw [Int.floor_eq_iff, hr, Int.cast_natCast]
    have h1 : (0 : ℚ) ≤ (n % d : Nat) / d := by positivity
    have h2 : ((n % d : Nat) : ℚ) / d < 1 := by rw [div_lt_one hd']; exact_mod_cast hlt
    constructor <;> linarith
  have c1 : (n : ℚ) / d - ((n / d : Nat) : Int) < 1 / 2 ↔ 2 * (n % d) < d := by
    rw [hr, Int.cast_natCast, add_sub_cancel_left, div_lt_div_iff₀ hd' (by norm_num), one_mul, mul_comm]
    exact_mod_cast Iff.rfl
  have c2 : 1 / 2 < (n : ℚ) / d - ((n / d : Nat) : Int) ↔ d < 2 * (n % d) := by
    rw [hr, Int.cast_natCast, add_sub_cancel_left, div_lt_div_iff₀ (by norm_num) hd', one_mul,
      mul_comm ((n % d : Nat) : ℚ)]
    exact_mod_cast Iff.rfl
  unfold roundEven
  simp only [hf, c1, c2]
  split_ifs <;> push_cast <;> omega

theorem roundEven_neg (x : ℚ) : roundEven (-x) = -roundEven x := by
  have h0 := Int.floor_le x
  have h1 := Int.lt_floor_add_one x
  by_cases h : x = ⌊x⌋
  · rw [h, ← Int.cast_neg, roundEven_intCast, roundEven_intCast]
  · have hf : ⌊-x⌋ = -⌊x⌋ - 1 := by
      rw [Int.floor_eq_iff]
      push_cast
      have : (⌊x⌋ : ℚ) < x := lt_of_le_of_ne h0 (Ne.symm h)
      constructor <;> linarith
    unfold roundEven
    rw [hf]
    push_cast
    split_ifs <;> first | omega | (exfalso; linarith)

/-! ### Rounding to 24 significant bits -/

@[simp] theorem f32_zero : f32 0 = 0 := by simp [f32]

@[simp] theorem ulp_neg (x : ℚ) : ulp (-x) = ulp x := by simp [ulp]

theorem ulp_pos (x : ℚ) : 0 < ulp x := zpow_pos (by norm_num) _

theorem f32_neg (x : ℚ) : f32 (-x) = -f32 x := by
  unfold f32
  by_cases h : x = 0
  · simp [h]
  · rw [if_neg h, if_neg (by simpa using h), ulp_neg, neg_div, roundEven_neg]
    push_cast
    ring

/-- The logarithm of a number between two powers of two. -/
theorem log_eq {x : ℚ} {l : Int} (h1 : (2 : ℚ) ^ l ≤ x) (h2 : x < 2 ^ (l + 1)) : Int.log 2 x = l := by
  have hx : 0 < x := lt_of_lt_of_le (zpow_pos (by norm_num) _) h1
  apply le_antisymm
  · have := (Int.lt_zpow_iff_log_lt (b := 2) (by norm_num) (x := l + 1) hx).mp (by exact_mod_cast h2)
    omega
  · exact (Int.zpow_le_iff_le_log (b := 2) (by norm_num) hx).mp (by exact_mod_cast h1)

theorem two_zpow_ne (e : Int) : (2 : ℚ) ^ e ≠ 0 := zpow_ne_zero _ (by norm_num)

/-- The logarithm of a significand times a power of two. -/
theorem log_mul_zpow {n : Nat} (h : n ≠ 0) (e : Int) :
    Int.log 2 ((n : ℚ) * 2 ^ e) = Nat.log2 n + e := by
  apply log_eq
  · rw [zpow_add₀ (by norm_num), zpow_natCast]
    refine mul_le_mul_of_nonneg_right ?_ (zpow_nonneg (by norm_num) _)
    exact_mod_cast Nat.log2_self_le h
  · rw [show (Nat.log2 n : Int) + e + 1 = ((Nat.log2 n + 1 : Nat) : Int) + e by push_cast; ring,
      zpow_add₀ (by norm_num), zpow_natCast]
    refine mul_lt_mul_of_pos_right ?_ (zpow_pos (by norm_num) _)
    exact_mod_cast Nat.lt_log2_self

/-- A number of at most 24 significant bits is not changed. -/
theorem f32_of_small {n : Nat} (h : n ≤ 2 ^ 24) (e : Int) : f32 ((n : ℚ) * 2 ^ e) = n * 2 ^ e := by
  by_cases h0 : n = 0
  · simp [h0]
  have hx : (n : ℚ) * 2 ^ e ≠ 0 := mul_ne_zero (by exact_mod_cast h0) (two_zpow_ne e)
  have hx' : (0 : ℚ) ≤ n * 2 ^ e := by positivity
  have hu : ulp ((n : ℚ) * 2 ^ e) = 2 ^ ((Nat.log2 n : Int) + e - 23) := by
    rw [ulp, abs_of_nonneg hx', log_mul_zpow h0]
  obtain ⟨k, hk⟩ : ∃ k : Int, (n : ℚ) * 2 ^ e / ulp ((n : ℚ) * 2 ^ e) = k := by
    rw [hu]
    by_cases h24 : n = 2 ^ 24
    · refine ⟨2 ^ 23, ?_⟩
      have : Nat.log2 (2 ^ 24) = 24 := by decide
      rw [h24, this, mul_div_assoc, ← zpow_sub₀ (by norm_num)]
      norm_num [show e - (24 + e - 23) = -1 by ring]
    · have hl : Nat.log2 n ≤ 23 := by
        have := (Nat.log2_lt h0 (k := 24)).mpr (by omega)
        omega
      refine ⟨n * 2 ^ (23 - Nat.log2 n), ?_⟩
      rw [mul_div_assoc, ← zpow_sub₀ (by norm_num),
        show e - ((Nat.log2 n : Int) + e - 23) = ((23 - Nat.log2 n : Nat) : Int) by omega, zpow_natCast]
      push_cast
      ring
  rw [f32, if_neg hx, hk, roundEven_intCast, ← hk, div_mul_cancel₀ _ (ulp_pos _).ne']

/-- A number of more than 24 significant bits is rounded at bit 24. -/
theorem f32_of_large {n : Nat} (h : 2 ^ 24 ≤ n) (e : Int) : f32 ((n : ℚ) * 2 ^ e) =
    roundEven ((n : ℚ) / (2 ^ (Nat.log2 n - 23) : Nat)) * 2 ^ (e + (Nat.log2 n - 23 : Nat)) := by
  have h0 : n ≠ 0 := by rintro rfl; simp at h
  have hl : 24 ≤ Nat.log2 n := (Nat.le_log2 h0).mpr h
  have hx : (n : ℚ) * 2 ^ e ≠ 0 := mul_ne_zero (by exact_mod_cast h0) (two_zpow_ne e)
  have hx' : (0 : ℚ) ≤ n * 2 ^ e := by positivity
  have hu : ulp ((n : ℚ) * 2 ^ e) = 2 ^ (e + (Nat.log2 n - 23 : Nat)) := by
    rw [ulp, abs_of_nonneg hx', log_mul_zpow h0]
    congr 1
    omega
  rw [f32, if_neg hx, hu]
  congr 3
  rw [zpow_add₀ (by norm_num), zpow_natCast]
  have := two_zpow_ne e
  push_cast
  field_simp

/-- Rounding a rounded value changes nothing. -/
theorem f32_idem (x : ℚ) : f32 (f32 x) = f32 x := by
  by_cases h : x = 0
  · simp [h]
  wlog hp : 0 < x generalizing x with H
  · have := H (-x) (by simpa using h) (by
      rcases lt_or_gt_of_ne h with h | h
      · linarith
      · exact absurd h hp)
    rw [f32_neg, f32_neg] at this
    simpa using this
  have hu := ulp_pos x
  have hl := Int.lt_zpow_succ_log_self (b := 2) (by norm_num) x
  have h1 : x / ulp x < 2 ^ 24 := by
    rw [div_lt_iff₀ hu, ulp, abs_of_pos hp]
    rw [show (2 : ℚ) ^ 24 = 2 ^ (24 : Int) by norm_cast, ← zpow_add₀ (by norm_num),
      show (24 : Int) + (Int.log 2 x - 23) = Int.log 2 x + 1 by ring]
    exact_mod_cast hl
  have h0 : 0 ≤ x / ulp x := by positivity
  have hf : 0 ≤ ⌊x / ulp x⌋ := Int.floor_nonneg.mpr h0
  have hf2 : ⌊x / ulp x⌋ < 2 ^ 24 := by rw [Int.floor_lt]; push_cast; exact h1
  have hr : 0 ≤ roundEven (x / ulp x) ∧ roundEven (x / ulp x) ≤ 2 ^ 24 := by
    unfold roundEven; split_ifs <;> omega
  obtain ⟨n, hn⟩ := Int.eq_ofNat_of_zero_le hr.1
  have : f32 x = (n : ℚ) * 2 ^ (Int.log 2 |x| - 23) := by
    unfold f32; rw [if_neg h, hn]; rfl
  rw [this]
  exact f32_of_small (by omega) _

/-- Rounding to an integer moves a value by at most one half. -/
theorem roundEven_error (x : ℚ) : |(roundEven x : ℚ) - x| ≤ 1 / 2 := by
  have h0 := Int.floor_le x
  have h1 := Int.lt_floor_add_one x
  unfold roundEven
  rw [abs_le]
  split_ifs <;> push_cast <;> constructor <;> linarith

/-- One rounding moves a value by at most one part in 2^24. -/
theorem abs_f32_le (x : ℚ) : |f32 x| ≤ |x| * (1 + 1 / 2 ^ 24) := by
  by_cases h : x = 0
  · simp [h]
  have hu := ulp_pos x
  have he : |f32 x - x| ≤ ulp x / 2 := by
    unfold f32
    rw [if_neg h]
    have := roundEven_error (x / ulp x)
    have e : (roundEven (x / ulp x) : ℚ) * ulp x - x =
        ((roundEven (x / ulp x) : ℚ) - x / ulp x) * ulp x := by
      field_simp
    rw [e, abs_mul, abs_of_pos hu]
    nlinarith
  have hl : ulp x * 2 ^ 23 ≤ |x| := by
    have := Int.zpow_log_le_self (b := 2) (by norm_num) (abs_pos.mpr h)
    unfold ulp
    rw [show (2 : ℚ) ^ 23 = 2 ^ (23 : Int) by norm_cast, ← zpow_add₀ (by norm_num), sub_add_cancel]
    exact_mod_cast this
  have := abs_sub_abs_le_abs_sub (f32 x) x
  norm_num at *
  linarith

/-! ### The machine's values -/

/-- The number a binary32 value stands for. -/
def val (a : F32) : ℚ := a.sig * 2 ^ a.exp

@[simp] theorem val_zero : val .zero = 0 := by simp [val, F32.zero]

/-- Rounding a magnitude is `f32`. -/
theorem roundMag_val (n : Nat) (e : Int) :
    ((roundMag n e).1 : ℚ) * 2 ^ (roundMag n e).2 = f32 ((n : ℚ) * 2 ^ e) := by
  unfold roundMag
  by_cases h : n < 2 ^ 24
  · rw [if_pos h, f32_of_small (by omega)]
  · rw [if_neg h, f32_of_large (by omega), roundEven_natDiv _ (Nat.two_pow_pos _)]
    simp only [Int.cast_natCast]

/-- `F32.round m e` is `m * 2 ^ e` rounded (R182 (a)). -/
theorem val_round (m e : Int) : val (F32.round m e) = f32 (m * 2 ^ e) := by
  unfold F32.round
  by_cases h0 : m = 0
  · simp [h0]
  rw [if_neg h0]
  have hr := roundMag_val m.natAbs e
  have hc : ((m.natAbs : Nat) : ℚ) = |(m : ℚ)| := by rw [Nat.cast_natAbs]; push_cast; rfl
  by_cases hm : m < 0
  · have : (m : ℚ) < 0 := by exact_mod_cast hm
    simp only [hm, if_true, val]
    push_cast
    rw [neg_mul, hr, ← f32_neg, hc, abs_of_neg this, neg_mul, neg_neg]
  · have : (0 : ℚ) ≤ m := by exact_mod_cast (not_lt.mp hm)
    simp only [hm, if_false, val]
    push_cast
    rw [hr, hc, abs_of_nonneg this]

theorem val_mul (a b : F32) : val (F32.mul a b) = f32 (val a * val b) := by
  unfold F32.mul
  rw [val_round]
  congr 1
  unfold val
  rw [zpow_add₀ (by norm_num)]
  push_cast
  ring

theorem val_add (a b : F32) : val (F32.add a b) = f32 (val a + val b) := by
  unfold F32.add
  simp only
  rw [val_round]
  congr 1
  have h : ∀ c : F32, min a.exp b.exp ≤ c.exp →
      ((c.sig * 2 ^ (c.exp - min a.exp b.exp).toNat : Int) : ℚ) * 2 ^ min a.exp b.exp = val c := by
    intro c hc
    unfold val
    push_cast
    rw [mul_assoc, ← zpow_natCast (2 : ℚ), ← zpow_add₀ (by norm_num), Int.toNat_of_nonneg (by omega)]
    congr 2
    omega
  rw [← h a (min_le_left _ _), ← h b (min_le_right _ _)]
  push_cast
  ring

theorem val_ofInt (n : Int) : val (F32.ofInt n) = f32 n := by
  unfold F32.ofInt
  rw [val_round, zpow_zero, mul_one]

theorem val_neg (a : F32) : val ⟨-a.sig, a.exp⟩ = -val a := by simp [val]

theorem rha_neg (x : ℚ) : rha (-x) = -rha x := by
  unfold rha
  rcases lt_trichotomy x 0 with h | h | h
  · rw [if_pos (by linarith), if_neg (by linarith), neg_neg]
  · subst h; norm_num
  · rw [if_neg (by linarith), if_pos (by linarith), neg_neg]

/-- The machine's rounding to an integer is `rha` of the value (R182 (h)). -/
theorem rha_val (a : F32) : a.rha = rha (val a) := by
  have key : ∀ n : Nat, ∀ e : Int,
      (((if 0 ≤ e then n * 2 ^ e.toNat else halfUp n (2 ^ (-e).toNat) : Nat)) : Int) =
        rha ((n : ℚ) * 2 ^ e) := by
    intro n e
    have hr : rha ((n : ℚ) * 2 ^ e) = ⌊(n : ℚ) * 2 ^ e + 1 / 2⌋ := if_pos (by positivity)
    rw [hr]
    symm
    by_cases he : 0 ≤ e
    · rw [if_pos he, Int.floor_eq_iff]
      obtain ⟨k, rfl⟩ := Int.eq_ofNat_of_zero_le he
      rw [zpow_natCast]
      push_cast
      simp only [Int.toNat_natCast]
      constructor <;> linarith
    · rw [if_neg he]
      obtain ⟨k, hk⟩ := Int.eq_ofNat_of_zero_le (show 0 ≤ -e by omega)
      rw [show e = -(k : Int) by omega]
      simp only [neg_neg, Int.toNat_natCast, halfUp, zpow_neg, zpow_natCast]
      have hd : (0 : ℚ) < 2 ^ k := by positivity
      rw [show (n : ℚ) * (2 ^ k)⁻¹ + 1 / 2 = ((2 * n + 2 ^ k : Nat) : ℚ) / ((2 * 2 ^ k : Nat) : ℚ) by
        push_cast; field_simp]
      rw [Rat.floor_natCast_div_natCast]
      exact (Int.natCast_div _ _).symm
  unfold F32.rha
  by_cases h : a.sig < 0
  · have : val a = -((a.sig.natAbs : ℚ) * 2 ^ a.exp) := by
      have h' : (a.sig : ℚ) < 0 := by exact_mod_cast h
      rw [Nat.cast_natAbs]; push_cast; rw [abs_of_neg h', val]; ring
    simp only [h, if_true]
    rw [this, rha_neg, ← key]
  · have : val a = (a.sig.natAbs : ℚ) * 2 ^ a.exp := by
      have h' : (0 : ℚ) ≤ a.sig := by exact_mod_cast (not_lt.mp h)
      rw [Nat.cast_natAbs]; push_cast; rw [abs_of_nonneg h', val]
    simp only [h, if_false]
    rw [this, ← key]

/-! ### Quotients -/

/-- Two numbers strictly between the same neighbouring even integers round alike to a multiple of 4 or more:
no boundary of such a rounding lies between them. -/
theorem roundEven_between {t j : Nat} {x y : ℚ} (hj : 2 ≤ j) (hx1 : (2 * t : Nat) < x)
    (hx2 : x < (2 * t + 2 : Nat)) (hy1 : (2 * t : Nat) < y) (hy2 : y < (2 * t + 2 : Nat)) :
    roundEven (x / 2 ^ j) = roundEven (y / 2 ^ j) := by
  have key : ∀ z : ℚ, (2 * t : Nat) < z → z < (2 * t + 2 : Nat) → roundEven (z / 2 ^ j) =
      if 2 * (2 * t % 2 ^ j) < 2 ^ j then ((2 * t / 2 ^ j : Nat) : Int) else (2 * t / 2 ^ j : Nat) + 1 := by
    intro z h1 h2
    obtain ⟨i, rfl⟩ : ∃ i, j = i + 2 := ⟨j - 2, by omega⟩
    have hu : (2 : Nat) ^ (i + 2) = 4 * 2 ^ i := by rw [pow_add]; ring
    have hd : (0 : ℚ) < 2 ^ (i + 2) := by positivity
    set q := 2 * t / 2 ^ (i + 2) with hq
    set r := 2 * t % 2 ^ (i + 2) with hr
    have hn : 2 ^ (i + 2) * q + r = 2 * t := Nat.div_add_mod _ _
    have hlt : r < 2 ^ (i + 2) := Nat.mod_lt _ (Nat.two_pow_pos _)
    have hre : r % 2 = 0 := by
      have h4 : 2 ^ (i + 2) * q = 4 * (2 ^ i * q) := by rw [hu, Nat.mul_assoc]
      omega
    have hnq : ((2 * t : Nat) : ℚ) = 2 ^ (i + 2) * q + r := by rw [← hn]; push_cast; ring
    have hr1 : ((r : Nat) : ℚ) + 2 ≤ 2 ^ (i + 2) := by
      have : r + 2 ≤ 2 ^ (i + 2) := by omega
      exact_mod_cast this
    have hz : z / 2 ^ (i + 2) = q + (z - 2 ^ (i + 2) * q) / 2 ^ (i + 2) := by field_simp; ring
    have b1 : (r : ℚ) < z - 2 ^ (i + 2) * q := by linarith
    have b2 : z - 2 ^ (i + 2) * q < r + 2 := by push_cast at h2 hnq; linarith
    set w := z - 2 ^ (i + 2) * q with hw
    have w0 : 0 < w / 2 ^ (i + 2) := div_pos (by have : (0 : ℚ) ≤ r := by positivity
                                                 linarith) hd
    have w1 : w / 2 ^ (i + 2) < 1 := by rw [div_lt_one hd]; linarith
    have hf : ⌊z / 2 ^ (i + 2)⌋ = (q : Int) := by
      rw [Int.floor_eq_iff, hz, Int.cast_natCast]
      constructor <;> linarith
    unfold roundEven
    rw [hf, hz, Int.cast_natCast, add_sub_cancel_left]
    by_cases c : 2 * r < 2 ^ (i + 2)
    · have c' : (2 * (r + 2) : ℚ) ≤ 2 ^ (i + 2) := by
        have : 2 * (r + 2) ≤ 2 ^ (i + 2) := by omega
        exact_mod_cast this
      have : w / 2 ^ (i + 2) < 1 / 2 := by rw [div_lt_div_iff₀ hd (by norm_num)]; linarith
      rw [if_pos this, if_pos c]
    · have c' : (2 ^ (i + 2) : ℚ) ≤ 2 * r := by
        have : 2 ^ (i + 2) ≤ 2 * r := by omega
        exact_mod_cast this
      have : 1 / 2 < w / 2 ^ (i + 2) := by rw [div_lt_div_iff₀ (by norm_num) hd]; linarith
      rw [if_neg (by linarith), if_pos this, if_neg c]
  rw [key x hx1 hx2, key y hy1 hy2]

/-- The same for 24 significant bits: numbers of at least 25 bits between neighbouring even integers. -/
theorem f32_between {t : Nat} {x y : ℚ} (e : Int) (ht : 2 ^ 24 ≤ t) (hx1 : (2 * t : Nat) < x)
    (hx2 : x < (2 * t + 2 : Nat)) (hy1 : (2 * t : Nat) < y) (hy2 : y < (2 * t + 2 : Nat)) :
    f32 (x * 2 ^ e) = f32 (y * 2 ^ e) := by
  obtain ⟨i, hi⟩ : ∃ i, Nat.log2 (2 * t) = i + 25 := by
    have : 25 ≤ Nat.log2 (2 * t) := (Nat.le_log2 (by omega)).mpr (by omega)
    exact ⟨Nat.log2 (2 * t) - 25, by omega⟩
  have l1 : 2 ^ (i + 25) ≤ 2 * t := hi ▸ Nat.log2_self_le (by omega)
  have l2 : 2 * t + 2 ≤ 2 ^ (i + 26) := by
    have : 2 * t < 2 ^ (i + 25 + 1) := hi ▸ Nat.lt_log2_self
    have h2 : 2 ^ (i + 26) = 2 * 2 ^ (i + 25) := by rw [show i + 26 = i + 25 + 1 by omega, pow_succ]; ring
    omega
  have key : ∀ z : ℚ, (2 * t : Nat) < z → z < (2 * t + 2 : Nat) →
      f32 (z * 2 ^ e) = roundEven (z / 2 ^ (i + 2)) * 2 ^ (e + (i + 2 : Nat)) := by
    intro z h1 h2
    have hz : 0 < z := lt_of_le_of_lt (Nat.cast_nonneg _) h1
    have hne : z * 2 ^ e ≠ 0 := mul_ne_zero hz.ne' (two_zpow_ne e)
    have hlog : Int.log 2 (z * 2 ^ e) = (i + 25 : Nat) + e := by
      apply log_eq
      · rw [zpow_add₀ (by norm_num), zpow_natCast]
        refine mul_le_mul_of_nonneg_right (le_trans ?_ h1.le) (zpow_nonneg (by norm_num) _)
        exact_mod_cast l1
      · rw [show ((i + 25 : Nat) : Int) + e + 1 = (i + 26 : Nat) + e by push_cast; ring,
          zpow_add₀ (by norm_num), zpow_natCast]
        refine mul_lt_mul_of_pos_right (lt_of_lt_of_le h2 ?_) (zpow_pos (by norm_num) _)
        exact_mod_cast l2
    have hu : ulp (z * 2 ^ e) = 2 ^ (e + (i + 2 : Nat)) := by
      rw [ulp, abs_of_pos (mul_pos hz (zpow_pos (by norm_num) _)), hlog]
      congr 1
      push_cast
      ring
    rw [f32, if_neg hne, hu]
    congr 3
    rw [zpow_add₀ (by norm_num), zpow_natCast]
    have := two_zpow_ne e
    field_simp
  rw [key x hx1 hx2, key y hy1 hy2, roundEven_between (by omega) hx1 hx2 hy1 hy2]

/-- The machine's quotient is the exact quotient rounded once, for a divisor that is not 0. -/
theorem val_div (a b : F32) (h0 : b.sig ≠ 0) (hb : b.sig.natAbs ≤ 2 ^ 24) :
    val (F32.div a b) = f32 (val a / val b) := by
  have hq : val a / val b = (a.sig : ℚ) / b.sig * 2 ^ (a.exp - b.exp) := by
    unfold val
    rw [zpow_sub₀ (by norm_num)]
    have := two_zpow_ne b.exp
    field_simp
  by_cases ha : a.sig = 0
  · have : val a = 0 := by simp [val, ha]
    rw [this, zero_div, f32_zero]
    have hz : F32.div a b = F32.round 0 (a.exp - b.exp - 61) := by
      unfold F32.div
      simp [ha]
    rw [hz, val_round]
    simp
  set n := a.sig.natAbs * 2 ^ 60 with hn
  set d := b.sig.natAbs with hd
  have hd0 : 0 < d := by omega
  set q := 2 * (n / d) + (if n % d = 0 then 0 else 1) with hqd
  have hdq : (0 : ℚ) < d := by exact_mod_cast hd0
  have ht : 2 ^ 24 ≤ n / d := by
    rw [Nat.le_div_iff_mul_le hd0]
    calc 2 ^ 24 * d ≤ 2 ^ 24 * 2 ^ 24 := Nat.mul_le_mul_left _ hb
      _ ≤ 1 * 2 ^ 60 := by norm_num
      _ ≤ n := Nat.mul_le_mul_right _ (by omega)
  -- the magnitude
  have hmag : f32 ((q : ℚ) * 2 ^ (a.exp - b.exp - 61)) =
      f32 ((a.sig.natAbs : ℚ) / d * 2 ^ (a.exp - b.exp)) := by
    have e1 : (a.sig.natAbs : ℚ) / d * 2 ^ (a.exp - b.exp) =
        (2 * (n : ℚ) / d) * 2 ^ (a.exp - b.exp - 61) := by
      rw [hn, zpow_sub₀ (by norm_num) (a.exp - b.exp) 61]
      push_cast
      have := two_zpow_ne (a.exp - b.exp)
      field_simp
      norm_num
    have hdm : (n : ℚ) = d * (n / d : Nat) + (n % d : Nat) := by exact_mod_cast (Nat.div_add_mod n d).symm
    have hnd : 2 * (n : ℚ) / d = 2 * (n / d : Nat) + 2 * ((n % d : Nat) / d) := by
      rw [hdm]; field_simp
    rw [e1]
    by_cases hm : n % d = 0
    · rw [hnd, hqd, hm]
      simp
    · have m0 : (0 : ℚ) < (n % d : Nat) / d := div_pos (by exact_mod_cast Nat.pos_of_ne_zero hm) hdq
      have m1 : ((n % d : Nat) : ℚ) / d < 1 := by
        rw [div_lt_one hdq]; exact_mod_cast Nat.mod_lt n hd0
      apply f32_between (t := n / d) _ ht
      · rw [hqd, if_neg hm]; push_cast; linarith
      · rw [hqd, if_neg hm]; push_cast; linarith
      · rw [hnd]; push_cast; linarith
      · rw [hnd]; push_cast; linarith
  have ca : ((a.sig.natAbs : Nat) : ℚ) = |(a.sig : ℚ)| := by rw [Nat.cast_natAbs]; push_cast; rfl
  have cb : ((d : Nat) : ℚ) = |(b.sig : ℚ)| := by rw [hd, Nat.cast_natAbs]; push_cast; rfl
  rw [ca, cb] at hmag
  have hdiv : F32.div a b = F32.round (if (a.sig < 0) = (b.sig < 0) then (q : Int) else -(q : Int))
      (a.exp - b.exp - 61) := rfl
  rw [hdiv, val_round, hq]
  by_cases hs : (a.sig < 0) = (b.sig < 0)
  · rw [if_pos hs]
    rw [Int.cast_natCast, hmag]
    congr 2
    by_cases sa : a.sig < 0
    · have sb : b.sig < 0 := hs ▸ sa
      rw [abs_of_neg (by exact_mod_cast sa), abs_of_neg (by exact_mod_cast sb), neg_div_neg_eq]
    · have sb : ¬ b.sig < 0 := hs ▸ sa
      rw [abs_of_nonneg (by exact_mod_cast (not_lt.mp sa)), abs_of_nonneg (by exact_mod_cast (not_lt.mp sb))]
  · rw [if_neg hs]
    rw [Int.cast_neg, Int.cast_natCast, neg_mul, f32_neg, hmag, ← f32_neg]
    congr 1
    rw [← neg_mul]
    congr 1
    by_cases sa : a.sig < 0
    · have sb : ¬ b.sig < 0 := fun sb => hs (by simp [sa, sb])
      rw [abs_of_neg (by exact_mod_cast sa), abs_of_nonneg (by exact_mod_cast (not_lt.mp sb)), neg_div, neg_neg]
    · have sb : b.sig < 0 := by by_contra sb; exact hs (by simp [sa, sb])
      rw [abs_of_nonneg (by exact_mod_cast (not_lt.mp sa)), abs_of_neg (by exact_mod_cast sb), div_neg, neg_neg]

end Sys2Proof.Exact32
end

