-- ==== Sys2Proof/Laws/Numerics.lean ====
section
/-! SUPPORT. The laws of REF32: the shape of its results, zero, negation, and the zig-zag permutation. -/

namespace Sys2Proof.Machine

/-! ### Zig-zag -/

@[simp] theorem zigzag_length : zigzag.length = 64 := rfl

@[simp] theorem zigzagInv_length : zigzagInv.length = 64 := rfl

/-- Every position of the zig-zag table is a row-major index, and `ZIGZAG_INV` finds it again (R187). -/
theorem zigzagInv_zigzag : ∀ k : Fin 64, zigzag.getD k 0 < 64 ∧
    zigzagInv.getD (zigzag.getD k 0) 0 = k := by decide +kernel

theorem zigzag_zigzagInv : ∀ i : Fin 64, zigzagInv.getD i 0 < 64 ∧
    zigzag.getD (zigzagInv.getD i 0) 0 = i := by decide +kernel

section
variable {α : Type}

@[simp] theorem permute_length (t : List Nat) (d : α) (b : List α) : (permute t d b).length = t.length := by
  simp [permute]

theorem permute_getD {t : List Nat} {k : Nat} (h : k < t.length) (d : α) (b : List α) :
    (permute t d b).getD k d = b.getD (t.getD k 0) d := by
  simp [permute, List.getD_eq_getElem?_getD, h]

theorem toZigzag_getD {k : Nat} (h : k < 64) (d : α) (b : List α) :
    (toZigzag d b).getD k d = b.getD (zigzag.getD k 0) d := permute_getD h d b

theorem fromZigzag_getD {i : Nat} (h : i < 64) (d : α) (b : List α) :
    (fromZigzag d b).getD i d = b.getD (zigzagInv.getD i 0) d := permute_getD h d b

/-- Element `ZIGZAG[k]` of the inverse reorder is element `k` (R187). -/
theorem fromZigzag_getD_zigzag {k : Nat} (h : k < 64) (d : α) (b : List α) :
    (fromZigzag d b).getD (zigzag.getD k 0) d = b.getD k d := by
  obtain ⟨h1, h2⟩ := zigzagInv_zigzag ⟨k, h⟩
  simp only at h1 h2
  rw [fromZigzag_getD h1, h2]

@[simp] theorem toZigzag_length (d : α) (b : List α) : (toZigzag d b).length = 64 :=
  permute_length zigzag d b

@[simp] theorem fromZigzag_length (d : α) (b : List α) : (fromZigzag d b).length = 64 :=
  permute_length zigzagInv d b

end

/-! ### Shape -/

@[simp] theorem transpose8_length (rows : List (List F32)) : (transpose8 rows).length = 8 := by
  simp [transpose8]

theorem length_of_mem_transpose8 {rows : List (List F32)} {row : List F32}
    (h : row ∈ transpose8 rows) : row.length = rows.length := by
  simp only [transpose8, List.mem_map] at h
  obtain ⟨j, _, rfl⟩ := h
  simp [column]

@[simp] theorem twoPass_length (pass : List F32 → List F32) (rows : List (List F32)) :
    (twoPass pass rows).length = 8 := by simp [twoPass]

theorem length_of_mem_twoPass {pass : List F32 → List F32} {rows : List (List F32)} {row : List F32}
    (h : row ∈ twoPass pass rows) : row.length = 8 := by
  have := length_of_mem_transpose8 h
  simpa using this

theorem flatten_twoPass_length (pass : List F32 → List F32) (rows : List (List F32)) :
    (twoPass pass rows).flatten.length = 64 := by
  rw [List.length_flatten, List.map_congr_left (g := fun _ => 8)
    (fun row h => length_of_mem_twoPass h)]
  simp

/-- The forward path gives 64 coefficients (R180). -/
theorem fwdBlock_length (r : List Half) {q : List Byte} (h : q.length = 64) :
    (fwdBlock r q).length = 64 := by
  simp [fwdBlock, h]

/-- No forward path gives more than 64 coefficients. -/
theorem fwdBlock_length_le (r : List Half) (q : List Byte) : (fwdBlock r q).length ≤ 64 := by
  simp [fwdBlock]

/-- The inverse path gives 64 residuals (R180). -/
theorem invBlock_length (k : List Half) (q : List Byte) : (invBlock k q).length = 64 := by
  unfold invBlock
  simp only [List.length_map]
  exact flatten_twoPass_length _ _

/-- Coefficient `k` depends on entry `k` of the table alone (R188). -/
theorem fwdBlock_getElem? (r : List Half) (q : List Byte) (k : Nat) :
    (fwdBlock r q)[k]? = match (toZigzag F32.zero (fwdScaled r))[k]?, q[k]? with
      | some a, some e => some (quantize a e)
      | _, _ => none := by
  unfold fwdBlock
  rw [List.getElem?_zipWith]
  cases (toZigzag F32.zero (fwdScaled r))[k]? <;> cases q[k]? <;> rfl

/-! ### Negation -/

/-- The negated value. -/
def F32.neg (a : F32) : F32 := ⟨-a.sig, a.exp⟩

@[simp] theorem F32.neg_zero : F32.neg .zero = .zero := rfl

theorem F32.round_neg (m e : Int) : F32.round (-m) e = (F32.round m e).neg := by
  unfold F32.round
  by_cases h0 : m = 0
  · simp [h0]
  · rw [if_neg h0, if_neg (by omega), Int.natAbs_neg]
    by_cases h : m < 0
    · simp only [h, if_true, F32.neg]
      rw [if_neg (by omega)]
      simp
    · simp only [h, if_false, F32.neg]
      rw [if_pos (by omega)]

theorem F32.mul_neg_left (a b : F32) : F32.mul a.neg b = (F32.mul a b).neg := by
  simp only [F32.mul, F32.neg, Int.neg_mul]
  exact F32.round_neg _ _

theorem F32.add_neg_neg (a b : F32) : F32.add a.neg b.neg = (F32.add a b).neg := by
  simp only [F32.add, F32.neg, Int.neg_mul]
  rw [← Int.neg_add]
  exact F32.round_neg _ _

theorem F32.div_neg_left (a b : F32) : F32.div a.neg b = (F32.div a b).neg := by
  have hr : ∀ x y : Int, ∀ e, y = -x → F32.round y e = (F32.round x e).neg := by
    rintro x y e rfl
    exact F32.round_neg _ _
  unfold F32.div
  simp only [F32.neg, Int.natAbs_neg]
  apply hr
  by_cases h0 : a.sig = 0
  · simp [h0]
  · by_cases ha : a.sig < 0 <;> by_cases hb : b.sig < 0 <;>
      simp only [ha, hb, eq_iff_iff, Left.neg_neg_iff] <;> simp <;> omega

theorem F32.ofInt_neg (n : Int) : F32.ofInt (-n) = (F32.ofInt n).neg := F32.round_neg n 0

theorem halfUp_zero {d : Nat} (h : 0 < d) : halfUp 0 d = 0 := by
  unfold halfUp
  rw [Nat.mul_zero, Nat.zero_add]
  exact Nat.div_eq_of_lt (by omega)

@[simp] theorem F32.rha_of_zero {a : F32} (h : a.sig = 0) : a.rha = 0 := by
  unfold F32.rha
  rw [h, if_neg (by decide)]
  split
  · simp
  · simp [halfUp_zero (Nat.two_pow_pos _)]

theorem F32.rha_neg (a : F32) : a.neg.rha = -a.rha := by
  by_cases h0 : a.sig = 0
  · rw [F32.rha_of_zero h0, F32.rha_of_zero (by simp [F32.neg, h0])]
    rfl
  · unfold F32.rha
    simp only [F32.neg, Int.natAbs_neg]
    by_cases ha : a.sig < 0
    · rw [if_pos ha, if_neg (by omega)]; simp
    · rw [if_neg ha, if_pos (by omega)]

/-- A result that does not saturate is negated with its argument (R192). -/
theorem sat16_neg {n : Int} (h1 : sat16 n ≠ 0x8000#16) (h2 : sat16 n ≠ 0x7FFF#16) :
    sat16 (-n) = -sat16 n := by
  have a : -32768 < n := by
    by_contra h
    apply h1
    unfold sat16 clamp
    by_cases h' : n < -32768
    · rw [if_pos h']; rfl
    · rw [if_neg h', if_neg (by omega), show n = -32768 by omega]; rfl
  have b : n < 32767 := by
    by_contra h
    apply h2
    unfold sat16 clamp
    by_cases h' : 32767 < n
    · rw [if_neg (by omega), if_pos h']; rfl
    · rw [if_neg (by omega), if_neg h', show n = 32767 by omega]; rfl
  unfold sat16 clamp
  rw [if_neg (by omega), if_neg (by omega), if_neg (by omega), if_neg (by omega)]
  exact BitVec.ofInt_neg

theorem getD_map_neg (l : List F32) (j : Nat) :
    (l.map F32.neg).getD j .zero = (l.getD j .zero).neg := by
  rw [List.getD_eq_getElem?_getD, List.getD_eq_getElem?_getD, List.getElem?_map]
  cases l[j]? <;> rfl

theorem dotFrom_neg : ∀ (acc : F32) (xs bs : List F32),
    dotFrom acc.neg (xs.map F32.neg) bs = (dotFrom acc xs bs).neg
  | _, [], _ => rfl
  | _, _ :: _, [] => rfl
  | acc, x :: xs, b :: bs => by
    simp only [List.map_cons, dotFrom]
    rw [F32.mul_neg_left, F32.add_neg_neg]
    exact dotFrom_neg _ xs bs

theorem fdct1d_neg (row : List F32) : fdct1d (row.map F32.neg) = (fdct1d row).map F32.neg := by
  unfold fdct1d
  rw [List.map_map]
  exact List.map_congr_left (fun b _ => dotFrom_neg .zero row b)

theorem transpose8_neg (rows : List (List F32)) :
    transpose8 (rows.map (List.map F32.neg)) = (transpose8 rows).map (List.map F32.neg) := by
  unfold transpose8 column
  simp only [List.map_map]
  refine List.map_congr_left (fun j _ => ?_)
  simp only [Function.comp_def, List.map_map]
  exact List.map_congr_left (fun row _ => getD_map_neg row j)

theorem twoPass_neg {pass : List F32 → List F32}
    (h : ∀ row, pass (row.map F32.neg) = (pass row).map F32.neg) (rows : List (List F32)) :
    twoPass pass (rows.map (List.map F32.neg)) = (twoPass pass rows).map (List.map F32.neg) := by
  have hp : ∀ rows : List (List F32),
      (rows.map (List.map F32.neg)).map pass = (rows.map pass).map (List.map F32.neg) := by
    intro rows
    rw [List.map_map, List.map_map]
    exact List.map_congr_left (fun row _ => h row)
  unfold twoPass
  rw [hp, transpose8_neg, hp, transpose8_neg]

theorem scaleAxis_neg (k : F32) (n : Nat) (a : F32) :
    scaleAxis k n a.neg = (scaleAxis k n a).neg := by
  unfold scaleAxis
  split
  · exact F32.mul_neg_left a k
  · rfl

theorem mapIdx_map_comm {α : Type} (f : Nat → α → α) (g : α → α) (h : ∀ i a, f i (g a) = g (f i a))
    (l : List α) : (l.map g).mapIdx f = (l.mapIdx f).map g := by
  apply List.ext_getElem
  · simp
  · intro i h1 h2
    simp [h]

theorem scale_neg (k : F32) (rows : List (List F32)) :
    scale k (rows.map (List.map F32.neg)) = (scale k rows).map (List.map F32.neg) := by
  unfold scale
  refine mapIdx_map_comm _ _ (fun v row => ?_) rows
  exact mapIdx_map_comm _ _ (fun u a => by rw [scaleAxis_neg, scaleAxis_neg]) row

theorem toRows_neg (b : List F32) :
    toRows .zero (b.map F32.neg) = (toRows .zero b).map (List.map F32.neg) := by
  unfold toRows
  rw [List.map_map]
  refine List.map_congr_left (fun r _ => ?_)
  simp only [Function.comp_def, List.map_map]
  exact List.map_congr_left (fun k _ => getD_map_neg b _)

/-- The scaled coefficients are odd in the residual block, wherever negating a residual is exact. -/
theorem fwdScaled_neg {r : List Half} (h : ∀ x ∈ r, x ≠ 0x8000#16) :
    fwdScaled (r.map (fun x => -x)) = (fwdScaled r).map F32.neg := by
  have e : (r.map (fun x => -x)).map (fun h => F32.ofInt h.toInt) =
      (r.map (fun h => F32.ofInt h.toInt)).map F32.neg := by
    rw [List.map_map, List.map_map]
    refine List.map_congr_left (fun x hx => ?_)
    simp only [Function.comp_def]
    rw [← F32.ofInt_neg, BitVec.toInt_neg_of_ne_intMin (h x hx)]
  unfold fwdScaled
  rw [e, toRows_neg, twoPass_neg fdct1d_neg, scale_neg, List.map_flatten]

theorem permute_neg (t : List Nat) (b : List F32) :
    permute t .zero (b.map F32.neg) = (permute t .zero b).map F32.neg := by
  unfold permute
  rw [List.map_map]
  exact List.map_congr_left (fun i _ => getD_map_neg b i)

theorem quantize_neg {a : F32} {q : Byte} (h1 : quantize a q ≠ 0x8000#16)
    (h2 : quantize a q ≠ 0x7FFF#16) : quantize a.neg q = -quantize a q := by
  unfold quantize at *
  rw [F32.div_neg_left, F32.div_neg_left, F32.rha_neg]
  exact sat16_neg h1 h2

/-! ### Zero -/

@[simp] theorem F32.round_zero (e : Int) : F32.round 0 e = .zero := rfl

@[simp] theorem F32.mul_zero_left (b : F32) : F32.mul .zero b = .zero := by simp [F32.mul, F32.zero]

@[simp] theorem F32.add_zero_zero : F32.add .zero .zero = .zero := rfl

@[simp] theorem F32.div_zero_left (b : F32) : F32.div .zero b = .zero := by
  simp [F32.div, F32.zero]

@[simp] theorem F32.ofInt_zero : F32.ofInt 0 = .zero := rfl

theorem dotFrom_zero : ∀ (n : Nat) (bs : List F32),
    dotFrom .zero (List.replicate n .zero) bs = .zero
  | 0, _ => rfl
  | _ + 1, [] => rfl
  | n + 1, b :: bs => by
    rw [List.replicate_succ, dotFrom, F32.mul_zero_left, F32.add_zero_zero]
    exact dotFrom_zero n bs

/-- The 8x8 array of zeros. -/
def zeroRows : List (List F32) := List.replicate 8 (List.replicate 8 .zero)

theorem twoPass_zero {pass : List F32 → List F32}
    (h : pass (List.replicate 8 .zero) = List.replicate 8 .zero) :
    twoPass pass zeroRows = zeroRows := by
  have ht : transpose8 zeroRows = zeroRows := by decide
  have hm : zeroRows.map pass = zeroRows := by
    rw [zeroRows, List.map_replicate, h]
  unfold twoPass
  rw [hm, ht, hm, ht]

theorem fdct1d_zero : fdct1d (List.replicate 8 .zero) = List.replicate 8 .zero := by
  unfold fdct1d
  rw [List.map_congr_left (g := fun _ => F32.zero) (fun b _ => dotFrom_zero 8 b)]
  simp [basis, basisBits]

theorem idct1d_zero : idct1d (List.replicate 8 .zero) = List.replicate 8 .zero := by
  unfold idct1d
  rw [List.map_congr_left (g := fun _ => F32.zero) (fun b _ => dotFrom_zero 8 b)]
  simp

theorem scaleAxis_zero (k : F32) (n : Nat) : scaleAxis k n .zero = .zero := by
  unfold scaleAxis; split <;> simp

theorem scale_zero (k : F32) : scale k zeroRows = zeroRows := by
  have inner : ∀ v, (List.replicate 8 F32.zero).mapIdx
      (fun u a => scaleAxis k v (scaleAxis k u a)) = List.replicate 8 F32.zero := by
    intro v
    apply List.ext_getElem
    · simp
    · intro i _ _
      rw [List.getElem_mapIdx, List.getElem_replicate, scaleAxis_zero, scaleAxis_zero]
  unfold scale zeroRows
  apply List.ext_getElem
  · simp
  · intro v _ _
    rw [List.getElem_mapIdx, List.getElem_replicate, inner]

@[simp] theorem quantize_zero (q : Byte) : quantize .zero q = 0#16 := by
  unfold quantize
  rw [F32.div_zero_left, F32.div_zero_left, F32.rha_of_zero rfl]
  rfl

@[simp] theorem dequantize_zero (q : Byte) : dequantize 0#16 q = 0 := by
  unfold dequantize
  rw [show (0#16).toInt = 0 from rfl, F32.ofInt_zero, F32.mul_zero_left, F32.div_zero_left]
  exact F32.rha_of_zero rfl

end Sys2Proof.Machine
end

