-- ==== Sys2Proof/Laws/Transform.lean ====
section
/-! SUPPORT. Everything a block-buffer command and one block of the row drivers can do. -/

namespace Sys2Proof.Machine

/-! ### Block buffers -/

theorem read64_of_defined {α : Type} {m : Space α} {f : Nat → α}
    (h : ∀ i, i < 64 → Space.read m i = some (f i)) : read64 m = some ((List.range 64).map f) :=
  Space.readAll_of_forall (fun i hi => h i (List.mem_range.mp hi))

theorem read64_eq_none_iff {α : Type} {m : Space α} :
    read64 m = none ↔ ∃ i, i < 64 ∧ Space.read m i = none := by
  unfold read64
  rw [Space.readAll_eq_none_iff]
  simp

theorem read64_length {α : Type} {m : Space α} {as : List α} (h : read64 m = some as) :
    as.length = 64 := by
  have := Space.readAll_length h
  simpa using this

/-- Everything a block-buffer command can do (R197 to R200): fault before any write, or write `BLK_OUT`
with the function of the block. -/
theorem bufferCommand_cases (f : List Half → Option (List Half)) (s : State) :
    bufferCommand f s = .raised .undef s ∨
      ∃ block out, read64 s.blkIn = some block ∧ f block = some out ∧
        bufferCommand f s = .done (s.setBlkOut (Space.writeFrom s.blkOut 0 out)) := by
  unfold bufferCommand
  split
  · exact .inl rfl
  · next block hb =>
    split
    · exact .inl rfl
    · next out ho => exact .inr ⟨block, out, hb, ho, rfl⟩

/-! ### One block of the forward driver -/

/-- Everything a block of DCTQ_ROW can do once POS is written (R201). -/
theorem dctqAt_cases (c : Comp) (band bx : Nat) (s : State) :
    (∃ e, dctqAt c band bx s = .raised e s) ∨
      ∃ cur o p q, s.cur = some cur ∧
        Space.readAll (cur.orig.get c) (blockIndices (s.pw c) bx band) = some o ∧
        Space.readAll (cur.pred.get c) (blockIndices (s.pw c) bx band) = some p ∧
        s.table c = some q ∧
        dctqAt c band bx s = .done (s.setCur (cur.setResid c
          (Space.writeFrom (cur.resid.get c) (coeffIndex (s.pw c) bx band)
            (fwdBlock (residual o p) q)))) := by
  unfold dctqAt
  split
  · exact .inl ⟨_, rfl⟩
  · next cur hcur =>
    split
    · next o p q ho hp hq => exact .inr ⟨cur, o, p, q, hcur, ho, hp, hq, rfl⟩
    · exact .inl ⟨_, rfl⟩

/-! ### One block of the inverse driver -/

/-- Everything a block of DEQIDCT_ROW can do once POS is written (R202). -/
theorem deqidctAt_cases (c : Comp) (band bx : Nat) (s : State) :
    (∃ e, deqidctAt c band bx s = .raised e s) ∨
      ∃ cur k q m ok, s.cur = some cur ∧
        Space.readAll (cur.resid.get c) (List.range' (coeffIndex (s.pw c) bx band) 64) = some k ∧
        s.table c = some q ∧
        reconLoop (cur.pred.get c) ((blockIndices (s.pw c) bx band).zip (invBlock k q))
          (cur.recons.get c) = (m, ok) ∧
        (deqidctAt c band bx s = .done (s.setCur (cur.setRecons c m)) ∨
          deqidctAt c band bx s = .raised .undef (s.setCur (cur.setRecons c m))) := by
  unfold deqidctAt
  split
  · exact .inl ⟨_, rfl⟩
  · next cur hcur =>
    split
    · next k q hk hq =>
      split
      · next m hm => exact .inr ⟨cur, k, q, m, _, hcur, hk, hq, hm, .inl rfl⟩
      · next m hm => exact .inr ⟨cur, k, q, m, _, hcur, hk, hq, hm, .inr rfl⟩
    · exact .inl ⟨_, rfl⟩

/-! ### Indices of the drivers -/

theorem mem_blockIndices {pw bx band i : Nat} :
    i ∈ blockIndices pw bx band ↔
      ∃ y x, y < 8 ∧ x < 8 ∧ i = (band * 8 + y) * pw + bx * 8 + x := by
  unfold blockIndices
  rw [mem_windowIndices]
  have e : ∀ y x, sampleIndex pw (bx * 8) (band * 8) + y * pw + x =
      (band * 8 + y) * pw + bx * 8 + x := by
    intro y x
    unfold sampleIndex
    rw [Nat.add_mul]
    omega
  simp only [e]

theorem blockIndices_getElem? (pw bx band : Nat) {i : Nat} (h : i < 64) :
    (blockIndices pw bx band)[i]? = some ((band * 8 + i / 8) * pw + bx * 8 + i % 8) := by
  unfold blockIndices
  rw [windowIndices_getElem? _ _ h]
  unfold sampleIndex
  rw [Nat.add_mul]
  congr 1
  omega

@[simp] theorem blockIndices_length (pw bx band : Nat) : (blockIndices pw bx band).length = 64 :=
  windowIndices_length _ _

theorem blockIndices_nodup {pw : Nat} (h : 8 ≤ pw) (bx band : Nat) :
    (blockIndices pw bx band).Nodup := windowIndices_nodup h _

/-- The samples of a block of the plane are elements of the plane (R233). -/
theorem blockIndices_lt {pw ph bx band i : Nat} (hx : bx < pw / 8) (hy : band < ph / 8)
    (h : i ∈ blockIndices pw bx band) : i < pw * ph := by
  obtain ⟨y, x, hy', hx', rfl⟩ := mem_blockIndices.mp h
  have := block_sample_lt (w := pw) (h := ph) (x := bx * 8) (y := band * 8) (r := y) (k := x)
    (by omega) (by omega) hy' hx'
  unfold sampleIndex at this
  rw [Nat.add_mul]
  omega

/-- A block as its elements, in the order the driver reads them. -/
theorem map_blockIndices {α : Type} (f : Nat → α) (pw bx band : Nat) :
    (blockIndices pw bx band).map f =
      (List.range 64).map (fun i => f ((band * 8 + i / 8) * pw + bx * 8 + i % 8)) := by
  apply List.ext_getElem?
  intro i
  rw [List.getElem?_map, List.getElem?_map]
  by_cases h : i < 64
  · rw [blockIndices_getElem? _ _ _ h, List.getElem?_range h]
    rfl
  · rw [List.getElem?_eq_none (by simp; omega), List.getElem?_eq_none (by simp; omega)]
    rfl

/-- A block of the forward driver over defined planes and a defined table completes (R201). -/
theorem dctqAt_completes {c : Comp} {band bx : Nat} {s : State} {cur : Frame} {A P Q : Nat → Byte}
    (hcur : s.cur = some cur) (hx : bx < s.pw c / 8) (hy : band < s.ph c / 8)
    (hA : ∀ i, i < s.planeSize c → Space.read (cur.orig.get c) i = some (A i))
    (hP : ∀ i, i < s.planeSize c → Space.read (cur.pred.get c) i = some (P i))
    (hQ : ∀ i, i < 64 → Space.read (s.qt.get c) i = some (Q i)) :
    dctqAt c band bx s = .done (s.setCur (cur.setResid c
      (Space.writeFrom (cur.resid.get c) (coeffIndex (s.pw c) bx band)
        (fwdBlock ((List.range 64).map (fun i =>
          BitVec.ofInt 16 (((A ((band * 8 + i / 8) * s.pw c + bx * 8 + i % 8)).toNat : Int) -
            ((P ((band * 8 + i / 8) * s.pw c + bx * 8 + i % 8)).toNat : Int))))
          ((List.range 64).map Q))))) := by
  have ho := Space.readAll_of_forall (fun i hi => hA i (blockIndices_lt hx hy hi))
  have hp := Space.readAll_of_forall (fun i hi => hP i (blockIndices_lt hx hy hi))
  have hq : s.table c = _ := read64_of_defined hQ
  unfold dctqAt
  simp only [hcur, ho, hp, hq]
  rw [map_blockIndices, map_blockIndices, residual, List.zipWith_map_left, List.zipWith_map_right,
    List.zipWith_self]
  rfl

/-- A block of the inverse driver over defined coefficients, a defined prediction and a defined table
completes (R202). -/
theorem deqidctAt_completes {c : Comp} {band bx : Nat} {s : State} {cur : Frame} {K : Nat → Half}
    {P Q : Nat → Byte} (hcur : s.cur = some cur) (hx : bx < s.pw c / 8) (hy : band < s.ph c / 8)
    (hK : ∀ k, k < 64 → Space.read (cur.resid.get c) (coeffIndex (s.pw c) bx band + k) =
      some (K (coeffIndex (s.pw c) bx band + k)))
    (hP : ∀ i, i < s.planeSize c → Space.read (cur.pred.get c) i = some (P i))
    (hQ : ∀ i, i < 64 → Space.read (s.qt.get c) i = some (Q i)) :
    ∃ m, deqidctAt c band bx s = .done (s.setCur (cur.setRecons c m)) ∧
      (∀ y x, y < 8 → x < 8 →
        Space.read m ((band * 8 + y) * s.pw c + bx * 8 + x) =
          some (reconSample ((invBlock ((List.range 64).map
            (fun k => K (coeffIndex (s.pw c) bx band + k))) ((List.range 64).map Q)).getD
              (y * 8 + x) 0#16) (P ((band * 8 + y) * s.pw c + bx * 8 + x)))) ∧
      ∀ j, (∀ y x, y < 8 → x < 8 → j ≠ (band * 8 + y) * s.pw c + bx * 8 + x) →
        Space.read m j = Space.read (cur.recons.get c) j := by
  have hk : Space.readAll (cur.resid.get c) (List.range' (coeffIndex (s.pw c) bx band) 64) =
      some ((List.range 64).map (fun k => K (coeffIndex (s.pw c) bx band + k))) := by
    rw [Space.readAll_of_forall (f := K) (fun i hi => by
      obtain ⟨k, hk, rfl⟩ := List.mem_range'.mp hi
      simpa using hK k hk)]
    congr 1
  have hq : s.table c = _ := read64_of_defined hQ
  let R := invBlock ((List.range 64).map (fun k => K (coeffIndex (s.pw c) bx band + k)))
    ((List.range 64).map Q)
  have hR : R.length = 64 := invBlock_length _ _
  obtain ⟨m, hm, hr⟩ := reconLoop_completes (pred := cur.pred.get c) (f := P)
    (items := (blockIndices (s.pw c) bx band).zip R)
    (fun p hp => hP _ (blockIndices_lt hx hy (List.of_mem_zip hp).1))
    (by
      rw [List.map_fst_zip (by rw [hR, blockIndices_length])]
      exact blockIndices_nodup (by omega) _ _)
    (cur.recons.get c)
  refine ⟨m, ?_, ?_, ?_⟩
  · unfold deqidctAt
    simp only [hcur, hk, hq]
    show (match reconLoop (cur.pred.get c) ((blockIndices (s.pw c) bx band).zip R) _ with
      | (m, true) => _
      | (m, false) => _) = _
    rw [hm]
  · intro y x hy' hx'
    have hi : y * 8 + x < 64 := by omega
    have h1 := blockIndices_getElem? (s.pw c) bx band hi
    rw [show (y * 8 + x) / 8 = y by omega, show (y * 8 + x) % 8 = x by omega] at h1
    have h2 : R[y * 8 + x]? = some (R.getD (y * 8 + x) 0#16) := by
      rw [List.getD_eq_getElem?_getD, List.getElem?_eq_getElem (by omega)]
      rfl
    have hmem : ((band * 8 + y) * s.pw c + bx * 8 + x, R.getD (y * 8 + x) 0#16) ∈
        (blockIndices (s.pw c) bx band).zip R :=
      List.mem_of_getElem? (i := y * 8 + x) (List.getElem?_zip_eq_some.mpr ⟨h1, h2⟩)
    exact hr _ hmem
  · intro j hj
    refine reconLoop_frame hm (fun p hp e => ?_)
    obtain ⟨y, x, hy', hx', hi⟩ := mem_blockIndices.mp (List.of_mem_zip hp).1
    exact hj y x hy' hx' (by rw [← e, hi])

end Sys2Proof.Machine
end

