-- ==== Sys2Proof/Laws/ExactPath.lean ====
section
/-! SUPPORT. The transform path over the machine's values and over rational numbers: an 8x8 array of
values holds an 8x8 array of numbers, every pass keeps that, and so do the quantizer and the
dequantizer. -/

namespace Sys2Proof.Exact32

open Sys2Proof.Machine

/-! ### Passes over one row -/

theorem accumulate_congr {p q : Nat → ℚ} (n : Nat) (h : ∀ i, i < n → p i = q i) :
    accumulate p n = accumulate q n := by
  induction n with
  | zero => rfl
  | succ n ih => rw [accumulate, accumulate, ih (fun i hi => h i (by omega)), h n (by omega)]

/-- An accumulation of eight products is a binary32 value. -/
theorem f32_accumulate (p : Nat → ℚ) : f32 (accumulate p 8) = accumulate p 8 := f32_idem _

/-- The machine's dot product of eight values. -/
theorem dotFrom_val {xs bs : List F32} (hx : xs.length = 8) (hb : bs.length = 8) :
    val (dotFrom .zero xs bs) =
      accumulate (fun i => val (xs.getD i .zero) * val (bs.getD i .zero)) 8 := by
  match xs, hx with
  | [x0, x1, x2, x3, x4, x5, x6, x7], _ =>
    match bs, hb with
    | [b0, b1, b2, b3, b4, b5, b6, b7], _ => simp [dotFrom, val_add, val_mul, accumulate]

theorem basis_val : ∀ u x : Fin 8,
    (basis.getD u []).length = 8 ∧ val ((basis.getD u []).getD x .zero) = B u x := by decide +kernel

theorem transpose8_basis_val : ∀ x u : Fin 8, ((transpose8 basis).getD x []).length = 8 ∧
    val (((transpose8 basis).getD x []).getD u .zero) = B u x := by decide +kernel

theorem map_dotFrom_getD {b : List (List F32)} (hb : b.length = 8) (row : List F32) {u : Nat}
    (hu : u < 8) : (b.map (dotFrom .zero row)).getD u .zero = dotFrom .zero row (b.getD u []) := by
  simp [List.getD_eq_getElem?_getD, hb, hu]

/-- A pass over a row of eight values computes what the exact pass computes of their numbers. -/
def PassOf (p : List F32 → List F32) (q : (Nat → ℚ) → Nat → ℚ) : Prop :=
  (∀ row : List F32, row.length = 8 → (p row).length = 8 ∧
    ∀ u, u < 8 → val ((p row).getD u .zero) = q (fun x => val (row.getD x .zero)) u) ∧
  ∀ f g : Nat → ℚ, (∀ i, i < 8 → f i = g i) → q f = q g

theorem passOf_fdct : PassOf fdct1d fdct := by
  refine ⟨fun row hr => ⟨by simp [fdct1d, basis, basisBits], fun u hu => ?_⟩, fun f g h => ?_⟩
  · unfold fdct1d
    rw [map_dotFrom_getD (by decide) row hu, dotFrom_val hr (basis_val ⟨u, hu⟩ 0).1]
    exact accumulate_congr _ (fun i hi => by rw [(basis_val ⟨u, hu⟩ ⟨i, hi⟩).2])
  · funext u
    exact accumulate_congr _ (fun i hi => by rw [h i hi])

theorem passOf_idct : PassOf idct1d idct := by
  refine ⟨fun row hr => ⟨by simp [idct1d], fun x hx => ?_⟩, fun f g h => ?_⟩
  · unfold idct1d
    rw [map_dotFrom_getD (by simp) row hx, dotFrom_val hr (transpose8_basis_val ⟨x, hx⟩ 0).1]
    exact accumulate_congr _ (fun i hi => by rw [(transpose8_basis_val ⟨x, hx⟩ ⟨i, hi⟩).2])
  · funext x
    exact accumulate_congr _ (fun i hi => by rw [h i hi])

/-! ### Arrays -/

/-- The eight rows `l` hold the numbers `m`. -/
def Rep (l : List (List F32)) (m : Nat → Nat → ℚ) : Prop :=
  l.length = 8 ∧ (∀ r ∈ l, r.length = 8) ∧
    ∀ i j, i < 8 → j < 8 → val ((l.getD i []).getD j .zero) = m i j

theorem Rep.row_length {l : List (List F32)} {m : Nat → Nat → ℚ} (h : Rep l m) {i : Nat} (hi : i < 8) :
    (l.getD i []).length = 8 := by
  rw [List.getD_eq_getElem _ _ (by rw [h.1]; exact hi)]
  exact h.2.1 _ (List.getElem_mem _)

theorem column_getD {l : List (List F32)} (hl : l.length = 8) {i : Nat} (hi : i < 8) (j : Nat) :
    (column l j).getD i .zero = (l.getD i []).getD j .zero := by
  simp [column, List.getD_eq_getElem?_getD, hl, hi]

theorem Rep.transpose {l : List (List F32)} {m : Nat → Nat → ℚ} (h : Rep l m) :
    Rep (transpose8 l) (transpose m) := by
  refine ⟨by simp, fun r hr => by rw [length_of_mem_transpose8 hr, h.1], fun i j hi hj => ?_⟩
  have : (transpose8 l).getD i [] = column l i := by
    simp [transpose8, List.getD_eq_getElem?_getD, hi]
  rw [this, column_getD h.1 hj]
  exact h.2.2 j i hj hi

theorem Rep.rows {p : List F32 → List F32} {q : (Nat → ℚ) → Nat → ℚ} {l : List (List F32)}
    {m : Nat → Nat → ℚ} (hp : PassOf p q) (h : Rep l m) : Rep (l.map p) (rows q m) := by
  refine ⟨by simp [h.1], fun r hr => ?_, fun i j hi hj => ?_⟩
  · obtain ⟨r', hr', rfl⟩ := List.mem_map.mp hr
    exact (hp.1 r' (h.2.1 _ hr')).1
  · have : (l.map p).getD i [] = p (l.getD i []) := by
      simp [List.getD_eq_getElem?_getD, h.1, hi]
    rw [this, (hp.1 _ (h.row_length hi)).2 j hj]
    unfold Exact32.rows
    rw [hp.2 _ (m i) (fun k hk => h.2.2 i k hi hk)]

theorem Rep.twoPass {p : List F32 → List F32} {q : (Nat → ℚ) → Nat → ℚ} {l : List (List F32)}
    {m : Nat → Nat → ℚ} (hp : PassOf p q) (h : Rep l m) :
    Rep (Machine.twoPass p l) (twoPass q m) :=
  ((h.rows hp).transpose.rows hp).transpose

theorem scaleAxis_val (k : F32) (n : Nat) {a : F32} (h : f32 (val a) = val a) :
    val (scaleAxis k n a) = f32 (val a * if n = 0 then val k else 1) := by
  unfold scaleAxis
  split
  · exact val_mul _ _
  · rw [mul_one, h]

/-- Scaling of an array of binary32 values: a factor of 1.0 changes none. -/
theorem Rep.scale {k : F32} {l : List (List F32)} {m : Nat → Nat → ℚ}
    (hm : ∀ i j, i < 8 → j < 8 → f32 (m i j) = m i j) (h : Rep l m) :
    Rep (Machine.scale k l) (scale (val k) m) := by
  unfold Machine.scale
  refine ⟨by simp [h.1], fun r hr => ?_, fun i j hi hj => ?_⟩
  · obtain ⟨i, hi, rfl⟩ := List.mem_mapIdx.mp hr
    simp [h.2.1 _ (List.getElem_mem _)]
  · have e : ((l.mapIdx (fun v row => row.mapIdx (fun u a =>
        scaleAxis k v (scaleAxis k u a)))).getD i []).getD j .zero =
        scaleAxis k i (scaleAxis k j ((l.getD i []).getD j .zero)) := by
      obtain ⟨row, hrow⟩ : ∃ row, l[i]? = some row := ⟨l[i]'(by rw [h.1]; exact hi), by simp⟩
      have hlen : row.length = 8 := h.2.1 _ (List.mem_of_getElem? hrow)
      simp only [List.getD_eq_getElem?_getD, List.getElem?_mapIdx, hrow, Option.map_some,
        Option.getD_some]
      rw [List.getElem?_eq_getElem (by omega)]
      rfl
    have hv := h.2.2 i j hi hj
    have f1 : val (scaleAxis k j ((l.getD i []).getD j .zero)) =
        f32 (m i j * if j = 0 then val k else 1) := by
      rw [scaleAxis_val _ _ (by rw [hv, hm i j hi hj]), hv]
    rw [e, scaleAxis_val _ _ (by rw [f1, f32_idem]), f1]
    rfl

theorem rep_toRows {b : List F32} {f : Nat → ℚ} (h : ∀ i, i < 64 → val (b.getD i .zero) = f i) :
    Rep (toRows .zero b) (fun v u => f (v * 8 + u)) := by
  refine ⟨by simp [toRows], fun r hr => ?_, fun i j hi hj => ?_⟩
  · simp only [toRows, List.mem_map] at hr
    obtain ⟨i, _, rfl⟩ := hr
    simp
  · have : ((toRows .zero b).getD i []).getD j .zero = b.getD (8 * i + j) .zero := by
      simp [toRows, List.getD_eq_getElem?_getD, hi, hj]
    rw [this, h _ (by omega), Nat.mul_comm]

theorem flatten_getD : ∀ (l : List (List F32)) (i j : Nat), (∀ r ∈ l, r.length = 8) → j < 8 →
    l.flatten.getD (i * 8 + j) .zero = (l.getD i []).getD j .zero
  | [], i, j, _, _ => by simp
  | r :: l, 0, j, h, hj => by
    have := h r (by simp)
    simp only [List.getD_eq_getElem?_getD, List.flatten_cons, Nat.zero_mul, Nat.zero_add,
      List.getElem?_cons_zero, Option.getD_some]
    rw [List.getElem?_append_left (by omega)]
  | r :: l, i + 1, j, h, hj => by
    have := h r (by simp)
    have ih := flatten_getD l i j (fun r hr => h r (by simp [hr])) hj
    simp only [List.getD_eq_getElem?_getD, List.flatten_cons, List.getElem?_cons_succ] at ih ⊢
    rw [List.getElem?_append_right (by omega), ← ih]
    congr 2
    omega

/-- Element `i` of an array in row-major order. -/
theorem Rep.flatten {l : List (List F32)} {m : Nat → Nat → ℚ} (h : Rep l m) {i : Nat} (hi : i < 64) :
    val (l.flatten.getD i .zero) = m (i / 8) (i % 8) := by
  rw [← h.2.2 (i / 8) (i % 8) (by omega) (by omega),
    ← flatten_getD l (i / 8) (i % 8) h.2.1 (by omega)]
  congr 2
  omega

/-! ### The forward path's coefficients, the quantizer and the dequantizer -/

/-- The machine's scaled coefficients are the exact ones. -/
theorem fwdScaled_val (R : Nat → Half) {i : Nat} (hi : i < 64) :
    val ((fwdScaled ((List.range 64).map R)).getD i .zero) = scaled R (i / 8) (i % 8) := by
  have hr : ∀ i, i < 64 → val ((((List.range 64).map R).map
      (fun h => F32.ofInt h.toInt)).getD i .zero) = f32 (R i).toInt := by
    intro i hi
    rw [← val_ofInt]
    simp [List.getD_eq_getElem?_getD, hi]
  have h := ((rep_toRows hr).twoPass passOf_fdct).scale (k := Machine.isqrt2)
    (fun i j _ _ => f32_accumulate _)
  unfold fwdScaled
  rw [h.flatten hi, show val Machine.isqrt2 = isqrt2 by decide +kernel]
  rfl

theorem sat16_eq (n : Int) : Machine.sat16 n = sat16 n := by
  unfold Machine.sat16 sat16 clamp
  congr 1
  split_ifs <;> omega

theorem val_four : val four = 4 := by decide +kernel

/-- A table entry of at least 1 may stand as a divisor of `val_div`. -/
theorem entryF32_divisor (e : Byte) (h : 1 ≤ e.toNat) :
    (entryF32 e).sig ≠ 0 ∧ (entryF32 e).sig.natAbs ≤ 2 ^ 24 :=
  (by decide +kernel : ∀ n : Fin 256, 1 ≤ n.val → (F32.ofInt (n.val : Nat)).sig ≠ 0 ∧
    (F32.ofInt (n.val : Nat)).sig.natAbs ≤ 2 ^ 24) ⟨e.toNat, e.isLt⟩ h

theorem quantize_val (a : F32) (e : Byte) (h : 1 ≤ e.toNat) :
    quantize a e = sat16 (rha (f32 (f32 (val a / 4) / f32 e.toNat))) := by
  unfold quantize
  rw [sat16_eq, rha_val, val_div _ _ (entryF32_divisor e h).1 (entryF32_divisor e h).2,
    val_div _ _ (by decide) (by decide), val_four]
  unfold entryF32
  rw [val_ofInt]
  rfl

theorem dequantize_val (a : Half) (e : Byte) : dequantize a e = dequantized a e := by
  unfold dequantize dequantized
  rw [rha_val, val_div _ _ (by decide) (by decide), val_four, val_mul]
  unfold entryF32
  rw [val_ofInt, val_ofInt]
  rfl

end Sys2Proof.Exact32
end

