-- ==== Sys2Proof/Laws/Search.lean ====
section
/-! SUPPORT. The laws of the distortion metric and of the exhaustive search: what a sum can be, which
candidate a search keeps, what one search writes. -/

namespace Sys2Proof.Machine

/-! ### Distortion -/

theorem absDiff_le (a b : Byte) : absDiff a b ≤ 255 := by
  have := a.isLt
  have := b.isLt
  unfold absDiff
  omega

theorem absDiff_comm (a b : Byte) : absDiff a b = absDiff b a := by unfold absDiff; omega

theorem absDiff_eq_zero {a b : Byte} : absDiff a b = 0 ↔ a = b := by
  constructor
  · intro h
    unfold absDiff at h
    exact BitVec.eq_of_toNat_eq (by omega)
  · rintro rfl
    simp [absDiff]

theorem sumAbsDiff_le : ∀ as bs : List Byte, sumAbsDiff as bs ≤ 255 * as.length
  | [], _ => by simp [sumAbsDiff]
  | _ :: _, [] => by simp [sumAbsDiff]
  | a :: as, b :: bs => by
    have h1 := absDiff_le a b
    have h2 := sumAbsDiff_le as bs
    simp only [sumAbsDiff, List.length_cons]
    omega

theorem sumAbsDiff_comm : ∀ as bs : List Byte, sumAbsDiff as bs = sumAbsDiff bs as
  | [], [] => rfl
  | [], _ :: _ => rfl
  | _ :: _, [] => rfl
  | a :: as, b :: bs => by simp only [sumAbsDiff, absDiff_comm a b, sumAbsDiff_comm as bs]

/-- A sum over windows of one length is 0 exactly when the windows are equal (R145). -/
theorem sumAbsDiff_eq_zero : ∀ {as bs : List Byte}, as.length = bs.length →
    (sumAbsDiff as bs = 0 ↔ as = bs)
  | [], [], _ => by simp [sumAbsDiff]
  | a :: as, b :: bs, h => by
    have ih := sumAbsDiff_eq_zero (as := as) (bs := bs) (by simpa using h)
    simp only [sumAbsDiff, List.cons.injEq]
    rw [← ih, ← absDiff_eq_zero (a := a)]
    omega

theorem sumAbsDiff_map (f g : Nat → Byte) (is : List Nat) (js : List Nat)
    (h : is.length = js.length) :
    sumAbsDiff (is.map f) (js.map g) = ((is.zip js).map (fun p => absDiff (f p.1) (g p.2))).sum := by
  induction is generalizing js with
  | nil => simp [sumAbsDiff]
  | cons i is ih =>
    cases js with
    | nil => simp at h
    | cons j js => simp [sumAbsDiff, ih js (by simpa using h)]

/-- A distortion that exists is at most 16320 (R144). -/
theorem sadValue_le {a b : Space Byte} {oa ob t d : Nat} (h : sadValue a oa b ob t = some d) :
    d ≤ 16320 := by
  unfold sadValue at h
  split at h
  · next as bs ha hb =>
    injection h with h
    have h1 := Space.readAll_length ha
    rw [windowIndices_length] at h1
    have h2 := sumAbsDiff_le as bs
    omega
  · cases h

/-- Where both windows are defined, the distortion is the sum over their samples (R141). -/
theorem sadValue_of_defined {a b : Space Byte} {oa ob t : Nat} {A B : Nat → Byte}
    (ha : ∀ i ∈ windowIndices oa t, Space.read a i = some (A i))
    (hb : ∀ i ∈ windowIndices ob t, Space.read b i = some (B i)) :
    sadValue a oa b ob t =
      some (sumAbsDiff ((windowIndices oa t).map A) ((windowIndices ob t).map B)) := by
  unfold sadValue
  rw [Space.readAll_of_forall ha, Space.readAll_of_forall hb]

/-- A distortion cannot be formed exactly when one of the samples is `undef` (R141). -/
theorem sadValue_eq_none_iff {a b : Space Byte} {oa ob t : Nat} :
    sadValue a oa b ob t = none ↔
      (∃ i ∈ windowIndices oa t, Space.read a i = none) ∨
        ∃ i ∈ windowIndices ob t, Space.read b i = none := by
  rw [← Space.readAll_eq_none_iff, ← Space.readAll_eq_none_iff]
  unfold sadValue
  cases Space.readAll a (windowIndices oa t) <;> cases Space.readAll b (windowIndices ob t) <;> simp

/-! ### The candidates -/

theorem mem_candidates {w : SearchWindow} {p : Nat × Nat} :
    p ∈ w.candidates ↔ (w.left ≤ p.1 ∧ p.1 < w.right) ∧ w.top ≤ p.2 ∧ p.2 < w.bottom := by
  obtain ⟨x, y⟩ := p
  simp only [SearchWindow.candidates, List.mem_flatMap, List.mem_map, List.mem_range'_1,
    Prod.mk.injEq]
  constructor
  · rintro ⟨y', hy, x', hx, rfl, rfl⟩
    omega
  · rintro ⟨hx, hy⟩
    exact ⟨y, by omega, x, by omega, rfl, rfl⟩

/-- The candidates stand in raster order (R153). -/
theorem candidates_pairwise (w : SearchWindow) :
    w.candidates.Pairwise (fun p q => p.2 < q.2 ∨ (p.2 = q.2 ∧ p.1 < q.1)) := by
  unfold SearchWindow.candidates
  rw [List.pairwise_flatMap]
  constructor
  · intro y _
    rw [List.pairwise_map]
    exact (List.pairwise_lt_range' (s := w.left)).imp (fun h => .inr ⟨rfl, h⟩)
  · refine (List.pairwise_lt_range' (s := w.top)).imp ?_
    intro y1 y2 h p hp q hq
    simp only [List.mem_map] at hp hq
    obtain ⟨_, _, rfl⟩ := hp
    obtain ⟨_, _, rfl⟩ := hq
    exact .inl h

/-! ### The search -/

@[simp] theorem searchLoop_nil (score : Nat × Nat → Option Nat) (ax ay : Nat) (st : Search) :
    searchLoop score ax ay [] st = (st, true) := rfl

theorem Search.consider_of_lt {st : Search} {d : Nat} (h : d < st.best) (ax ay : Nat)
    (p : Nat × Nat) : st.consider ax ay p d =
      ⟨d, BitVec.ofInt 8 ((p.1 : Int) - ax), BitVec.ofInt 8 ((p.2 : Int) - ay), BitVec.ofNat 32 d⟩ := by
  simp [Search.consider, h]

theorem Search.consider_of_not_lt {st : Search} {d : Nat} (h : ¬ d < st.best) (ax ay : Nat)
    (p : Nat × Nat) :
    st.consider ax ay p d = ⟨st.best, st.mvX, st.mvY, BitVec.ofNat 32 d⟩ := by
  simp [Search.consider, h]

@[simp] theorem Search.consider_sadAcc (st : Search) (ax ay : Nat) (p : Nat × Nat) (d : Nat) :
    (st.consider ax ay p d).sadAcc = BitVec.ofNat 32 d := by
  unfold Search.consider; split <;> rfl

/-- A search over candidates that all have a distortion evaluates every one (R154). -/
theorem searchLoop_total {score : Nat × Nat → Option Nat} {f : Nat × Nat → Nat} {ax ay : Nat}
    {cands : List (Nat × Nat)} (h : ∀ p ∈ cands, score p = some (f p)) (st : Search) :
    searchLoop score ax ay cands st =
      (cands.foldl (fun st p => st.consider ax ay p (f p)) st, true) := by
  induction cands generalizing st with
  | nil => rfl
  | cons p rest ih =>
    simp only [searchLoop, h p (by simp), List.foldl_cons]
    exact ih (fun q hq => h q (by simp [hq])) _

/-- What a search has kept, whether it came to its end or not: what it started with, or one of the
candidates with its distortion; and the sum it formed last. -/
theorem searchLoop_kept {score : Nat × Nat → Option Nat} {ax ay : Nat} {cands : List (Nat × Nat)}
    {st : Search} {r : Search × Bool} (h : searchLoop score ax ay cands st = r) :
    ((r.1.best = st.best ∧ r.1.mvX = st.mvX ∧ r.1.mvY = st.mvY) ∨
      ∃ p ∈ cands, ∃ d, score p = some d ∧ r.1.best = d ∧
        r.1.mvX = BitVec.ofInt 8 ((p.1 : Int) - ax) ∧ r.1.mvY = BitVec.ofInt 8 ((p.2 : Int) - ay)) ∧
      (r.1.sadAcc = st.sadAcc ∨ ∃ p ∈ cands, ∃ d, score p = some d ∧ r.1.sadAcc = BitVec.ofNat 32 d) := by
  subst h
  induction cands generalizing st with
  | nil => exact ⟨.inl ⟨rfl, rfl, rfl⟩, .inl rfl⟩
  | cons p rest ih =>
    unfold searchLoop
    split
    · exact ⟨.inl ⟨rfl, rfl, rfl⟩, .inl rfl⟩
    · next d hd =>
      obtain ⟨h1, h2⟩ := ih (st := st.consider ax ay p d)
      constructor
      · rcases h1 with ⟨e1, e2, e3⟩ | ⟨q, hq, d', h⟩
        · by_cases hlt : d < st.best
          · rw [Search.consider_of_lt hlt] at e1 e2 e3 ⊢
            exact .inr ⟨p, by simp, d, hd, e1, e2, e3⟩
          · rw [Search.consider_of_not_lt hlt] at e1 e2 e3 ⊢
            exact .inl ⟨e1, e2, e3⟩
        · exact .inr ⟨q, by simp [hq], d', h⟩
      · rcases h2 with e | ⟨q, hq, d', h⟩
        · refine .inr ⟨p, by simp, d, hd, ?_⟩
          rw [e, Search.consider_sadAcc]
        · exact .inr ⟨q, by simp [hq], d', h⟩

/-- A search whose first candidate cannot be scored stops with nothing changed. -/
theorem searchLoop_of_first_undef {score : Nat × Nat → Option Nat} {ax ay : Nat} {p : Nat × Nat}
    {rest : List (Nat × Nat)} (h : score p = none) (st : Search) :
    searchLoop score ax ay (p :: rest) st = (st, false) := by simp [searchLoop, h]

/-- A search that meets its first `undef` sample after the candidates `pre` has evaluated those and no
other. -/
theorem searchLoop_stops {score : Nat × Nat → Option Nat} {f : Nat × Nat → Nat} {ax ay : Nat}
    {pre post : List (Nat × Nat)} {p : Nat × Nat} (h : ∀ q ∈ pre, score q = some (f q))
    (hp : score p = none) (st : Search) :
    searchLoop score ax ay (pre ++ p :: post) st =
      (pre.foldl (fun st p => st.consider ax ay p (f p)) st, false) := by
  induction pre generalizing st with
  | nil => exact searchLoop_of_first_undef hp st
  | cons q rest ih =>
    simp only [List.cons_append, searchLoop, h q (by simp), List.foldl_cons]
    exact ih (fun r hr => h r (by simp [hr])) _

/-- "The first candidate achieving the minimum distortion" (R154): what the fold over all candidates
keeps. -/
theorem consider_foldl (f : Nat × Nat → Nat) (ax ay : Nat) (cands : List (Nat × Nat)) (st : Search) :
    let r := cands.foldl (fun st p => st.consider ax ay p (f p)) st
    (((∀ p ∈ cands, st.best ≤ f p) ∧ r.best = st.best ∧ r.mvX = st.mvX ∧ r.mvY = st.mvY) ∨
      ∃ pre p post, cands = pre ++ p :: post ∧ f p < st.best ∧ (∀ q ∈ pre, f p < f q) ∧
        (∀ q ∈ post, f p ≤ f q) ∧ r.best = f p ∧
        r.mvX = BitVec.ofInt 8 ((p.1 : Int) - ax) ∧ r.mvY = BitVec.ofInt 8 ((p.2 : Int) - ay)) ∧
      r.sadAcc = match cands.getLast? with
        | none => st.sadAcc
        | some p => BitVec.ofNat 32 (f p) := by
  induction cands generalizing st with
  | nil => simp
  | cons p rest ih =>
    obtain ⟨h1, h2⟩ := ih (st.consider ax ay p (f p))
    simp only [List.foldl_cons]
    constructor
    · by_cases hlt : f p < st.best
      · have hc : (st.consider ax ay p (f p)).best = f p := by simp [Search.consider, hlt]
        right
        rcases h1 with ⟨hall, e1, e2, e3⟩ | ⟨pre, q, post, rfl, hq, hpre, hpost, h⟩
        · refine ⟨[], p, rest, rfl, hlt, by simp, ?_, ?_, ?_, ?_⟩
          · intro q hq; rw [hc] at hall; exact hall q hq
          · rw [e1, hc]
          · rw [e2]; simp [Search.consider, hlt]
          · rw [e3]; simp [Search.consider, hlt]
        · rw [hc] at hq
          refine ⟨p :: pre, q, post, rfl, by omega, ?_, hpost, h⟩
          intro x hx
          rcases List.mem_cons.mp hx with rfl | hx
          · exact hq
          · exact hpre x hx
      · have hc : (st.consider ax ay p (f p)).best = st.best := by simp [Search.consider, hlt]
        rcases h1 with ⟨hall, e1, e2, e3⟩ | ⟨pre, q, post, rfl, hq, hpre, hpost, h⟩
        · left
          refine ⟨?_, by rw [e1, hc], by rw [e2]; simp [Search.consider, hlt],
            by rw [e3]; simp [Search.consider, hlt]⟩
          intro q hq
          rcases List.mem_cons.mp hq with rfl | hq
          · omega
          · rw [hc] at hall; exact hall q hq
        · right
          rw [hc] at hq
          refine ⟨p :: pre, q, post, rfl, hq, ?_, hpost, h⟩
          intro x hx
          rcases List.mem_cons.mp hx with rfl | hx
          · omega
          · exact hpre x hx
    · rw [h2]
      cases rest with
      | nil => simp
      | cons q rest =>
        rw [List.getLast?_cons_cons, List.getLast?_eq_some_getLast (by simp)]

/-! ### One macroblock -/

/-- What the search of one macroblock can have kept (R154 to R157): the old vector, or a candidate's with
its distortion; and the sum it formed last. -/
theorem meSearch_kept {s : State} {cur ref : Frame} {c : Comp} {mb : Nat × Nat} {old : MbRecord}
    {r : Search × Bool} (h : meSearch s cur ref c mb old = r) :
    ((r.1.best = 0x7FFFFFFF ∧ r.1.mvX = old.mvX ∧ r.1.mvY = old.mvY) ∨
      ∃ p ∈ (s.meWindow c mb.1 mb.2).candidates, r.1.best ≤ 16320 ∧
        r.1.mvX = BitVec.ofInt 8 ((p.1 : Int) - (mb.1 * 8 : Nat)) ∧
        r.1.mvY = BitVec.ofInt 8 ((p.2 : Int) - (mb.2 * 8 : Nat))) ∧
      (r.1.sadAcc = s.sadAcc ∨ r.1.sadAcc.toNat ≤ 16320) := by
  unfold meSearch at h
  obtain ⟨h1, h2⟩ := searchLoop_kept h
  constructor
  · rcases h1 with e | ⟨p, hp, d, hd, e1, e⟩
    · exact .inl e
    · exact .inr ⟨p, hp, by rw [e1]; exact sadValue_le hd, e⟩
  · rcases h2 with e | ⟨p, _, d, hd, e⟩
    · exact .inl e
    · have := sadValue_le hd
      refine .inr ?_
      rw [e, BitVec.toNat_ofNat]
      exact (Nat.mod_le _ _).trans this

/-- Everything `me_block` can do once POS is written (R157): it stops at once, or after some sums; or it
writes the record and the result registers. -/
theorem meAt_cases (c : Comp) (mb : Nat × Nat) (s : State) :
    (∃ e, meAt c mb s = .raised e s) ∨
    (∃ w, meAt c mb s = .raised .undef (s.setSadAcc w) ∧ (w = s.sadAcc ∨ w.toNat ≤ 16320)) ∨
    ∃ cur old, ∃ st : Search, s.cur = some cur ∧
      Space.read (cur.mb.get c) (mb.2 * s.cols c + mb.1) = some old ∧
      meAt c mb s = .done (((s.setSadAcc st.sadAcc).setCur
        (cur.writeMb c (mb.2 * s.cols c + mb.1) st.record)).setMeResult (BitVec.ofNat 32 st.best)
          st.record.word) ∧
      (st.sadAcc = s.sadAcc ∨ st.sadAcc.toNat ≤ 16320) ∧
      ((st.best = 0x7FFFFFFF ∧ st.mvX = old.mvX ∧ st.mvY = old.mvY) ∨
        ∃ p ∈ (s.meWindow c mb.1 mb.2).candidates, st.best ≤ 16320 ∧
          st.mvX = BitVec.ofInt 8 ((p.1 : Int) - (mb.1 * 8 : Nat)) ∧
          st.mvY = BitVec.ofInt 8 ((p.2 : Int) - (mb.2 * 8 : Nat))) := by
  unfold meAt
  split
  · next cur ref hcur href =>
    simp only
    split
    · exact .inl ⟨_, rfl⟩
    · next old hold =>
      split
      · next st hst =>
        have hk := meSearch_kept hst
        exact .inr (.inr ⟨cur, old, st, hcur, hold, rfl, hk.2, hk.1⟩)
      · next st hst => exact .inr (.inl ⟨_, rfl, (meSearch_kept hst).2⟩)
  · exact .inl ⟨_, rfl⟩

/-- A search over a defined anchor and a defined reference plane completes, and does what the fold of
`consider_foldl` says (R154, R157). -/
theorem meAt_done {c : Comp} {mb : Nat × Nat} {s : State} {cur ref : Frame} {old : MbRecord}
    {f : Nat × Nat → Nat} (hcur : s.cur = some cur) (href : s.ref = some ref)
    (hold : Space.read (cur.mb.get c) (mb.2 * s.cols c + mb.1) = some old)
    (hf : ∀ p ∈ (s.meWindow c mb.1 mb.2).candidates,
      meScore (cur.orig.get c) (ref.recons.get c) (s.pw c) (mb.1 * 8) (mb.2 * 8) p = some (f p)) :
    let st := (s.meWindow c mb.1 mb.2).candidates.foldl
      (fun st p => st.consider (mb.1 * 8) (mb.2 * 8) p (f p)) (searchStart old s.sadAcc)
    meAt c mb s = .done (((s.setSadAcc st.sadAcc).setCur
        (cur.writeMb c (mb.2 * s.cols c + mb.1) st.record)).setMeResult (BitVec.ofNat 32 st.best)
          st.record.word) := by
  simp only [meAt, hcur, href, hold, meSearch, searchLoop_total hf]

end Sys2Proof.Machine
end

