-- ==== Sys2Proof/Laws/Parts.lean ====
section
/-! SUPPORT. Everything a command can do, said once: every component command is a chain of parts, each one
update of one register, one record, one block or one plane. What each part keeps, every command
keeps. -/

namespace Sys2Proof.Machine

/-- One part of what a component command does. -/
inductive Part : State → State → Prop
  /-- POS names a unit of the grid, or the last one (R24, R174). -/
  | pos (s : State) (w : Word) (c : Comp) (x y : Nat) (hw : w = posWord c x y)
      (h : (x < s.cols c ∧ y < s.rows c) ∨ (x < s.pw c / 8 ∧ y < s.ph c / 8) ∨
        (x = s.cols c - 1 ∧ y = s.rows c - 1)) : Part s (s.setPos w)
  /-- SAD_ACC receives a finished sum (R43). -/
  | sad (s : State) (w : Word) (h : w.toNat ≤ 16320) : Part s (s.setSadAcc w)
  /-- A search writes its record and the result registers (R155 to R157). -/
  | record (s : State) (cur : Frame) (c : Comp) (x y : Nat) (old : MbRecord) (st : Search)
      (hcur : s.cur = some cur) (hkey : cur.keyframe = false) (hx : x < s.cols c)
      (hy : y < s.rows c) (hold : Space.read (cur.mb.get c) (y * s.cols c + x) = some old)
      (hst : (st.best = 0x7FFFFFFF ∧ st.mvX = old.mvX ∧ st.mvY = old.mvY) ∨
        ∃ p ∈ (s.meWindow c x y).candidates, st.best ≤ 16320 ∧
          st.mvX = BitVec.ofInt 8 ((p.1 : Int) - (x * 8 : Nat)) ∧
          st.mvY = BitVec.ofInt 8 ((p.2 : Int) - (y * 8 : Nat))) :
      Part s ((s.setCur (cur.writeMb c (y * s.cols c + x) st.record)).setMeResult
        (BitVec.ofNat 32 st.best) st.record.word)
  /-- A block of the prediction is copied, wholly or up to an `undef` source (R171). -/
  | pred (s : State) (cur : Frame) (c : Comp) (x y o : Nat) (src p : Space Byte) (ok : Bool)
      (hcur : s.cur = some cur) (hx : x < s.cols c) (hy : y < s.rows c)
      (hp : copySamples src (blockMoves (s.pw c) o (sampleIndex (s.pw c) (x * 8) (y * 8)))
        (cur.pred.get c) = (p, ok)) : Part s (s.setCur (cur.setPred c p))
  /-- A block of coefficients is written (R201). -/
  | resid (s : State) (cur : Frame) (c : Comp) (bx band : Nat) (out : List Half)
      (hcur : s.cur = some cur) (hx : bx < s.pw c / 8) (hy : band < s.ph c / 8)
      (hout : out.length ≤ 64) :
      Part s (s.setCur (cur.setResid c
        (Space.writeFrom (cur.resid.get c) (coeffIndex (s.pw c) bx band) out)))
  /-- A block of samples is reconstructed, wholly or up to an `undef` prediction (R202). -/
  | recons (s : State) (cur : Frame) (c : Comp) (bx band : Nat) (out : List Half) (m : Space Byte)
      (ok : Bool) (hcur : s.cur = some cur) (hx : bx < s.pw c / 8) (hy : band < s.ph c / 8)
      (hm : reconLoop (cur.pred.get c) ((blockIndices (s.pw c) bx band).zip out)
        (cur.recons.get c) = (m, ok)) : Part s (s.setCur (cur.setRecons c m))
  /-- `BLK_OUT` receives a block (R197 to R200). -/
  | blkOut (s : State) (out : List Half) (hout : out.length ≤ 64) :
      Part s (s.setBlkOut (Space.writeFrom s.blkOut 0 out))

/-- A chain of parts. -/
abbrev Parts : State → State → Prop := Relation.ReflTransGen Part

/-- What no part touches. -/
theorem Part.frame {s t : State} (h : Part s t) :
    t = { s with
      pos := t.pos, sadAcc := t.sadAcc, meBest := t.meBest, meMv := t.meMv, cur := t.cur,
      blkOut := t.blkOut } ∧
    t.cur.map Frame.orig = s.cur.map Frame.orig ∧
    t.cur.map Frame.keyframe = s.cur.map Frame.keyframe := by
  cases h with
  | pos w c x y hw h => exact ⟨rfl, rfl, rfl⟩
  | sad w h => exact ⟨rfl, rfl, rfl⟩
  | record cur c x y old st hcur hkey hx hy hold hst => exact ⟨rfl, by rw [hcur]; rfl, by rw [hcur]; rfl⟩
  | pred cur c x y o src p ok hcur hx hy hp => exact ⟨rfl, by rw [hcur]; rfl, by rw [hcur]; rfl⟩
  | resid cur c bx band out hcur hx hy hout => exact ⟨rfl, by rw [hcur]; rfl, by rw [hcur]; rfl⟩
  | recons cur c bx band out m ok hcur hx hy hm => exact ⟨rfl, by rw [hcur]; rfl, by rw [hcur]; rfl⟩
  | blkOut out hout => exact ⟨rfl, rfl, rfl⟩

theorem Parts.frame {s t : State} (h : Parts s t) :
    t = { s with
      pos := t.pos, sadAcc := t.sadAcc, meBest := t.meBest, meMv := t.meMv, cur := t.cur,
      blkOut := t.blkOut } ∧
    t.cur.map Frame.orig = s.cur.map Frame.orig ∧
    t.cur.map Frame.keyframe = s.cur.map Frame.keyframe := by
  induction h with
  | refl => exact ⟨rfl, rfl, rfl⟩
  | tail _ hp ih =>
    obtain ⟨e1, e2, e3⟩ := ih
    obtain ⟨f1, f2, f3⟩ := hp.frame
    exact ⟨by rw [f1, e1], f2.trans e2, f3.trans e3⟩

/-- What every part keeps, a chain keeps. -/
theorem Parts.keeps {P : State → Prop} {s t : State} (h : Parts s t) (hs : P s)
    (hp : ∀ s t, Part s t → P s → P t) : P t := by
  induction h with
  | refl => exact hs
  | tail _ hpart ih => exact hp _ _ hpart ih

theorem Parts.geom {s t : State} (h : Parts s t) : t.geom = s.geom := by rw [h.frame.1]

theorem Parts.pw {s t : State} (h : Parts s t) (c : Comp) : t.pw c = s.pw c := by
  unfold State.pw; rw [h.geom]

theorem Parts.ph {s t : State} (h : Parts s t) (c : Comp) : t.ph c = s.ph c := by
  unfold State.ph; rw [h.geom]

theorem Parts.cols {s t : State} (h : Parts s t) (c : Comp) : t.cols c = s.cols c := by
  unfold State.cols; rw [h.geom]

theorem Parts.rows {s t : State} (h : Parts s t) (c : Comp) : t.rows c = s.rows c := by
  unfold State.rows; rw [h.geom]

/-- The current frame keeps its keyframe flag along a chain. -/
theorem Parts.keyframe {s t : State} (h : Parts s t) {k : Bool}
    (hk : ∀ f, s.cur = some f → f.keyframe = k) : ∀ f, t.cur = some f → f.keyframe = k := by
  intro f hf
  have := h.frame.2.2
  rw [hf] at this
  cases hs : s.cur with
  | none => rw [hs] at this; cases this
  | some g =>
    rw [hs] at this
    simp only [Option.map_some, Option.some.injEq] at this
    rw [this]
    exact hk g hs

/-! ### Units -/

theorem meAt_parts {c : Comp} {x y : Nat} {s : State} (hx : x < s.cols c) (hy : y < s.rows c)
    (hk : ∀ f, s.cur = some f → f.keyframe = false) : Parts s (meAt c (x, y) s).state := by
  rcases meAt_cases c (x, y) s with
    ⟨e, h⟩ | ⟨w, h, hw⟩ | ⟨cur, old, st, hcur, hold, h, hacc, hst⟩
  · rw [h]
    exact .refl
  · rw [h]
    rcases hw with rfl | hw
    · exact .refl
    · exact .single (.sad _ w hw)
  · rw [h]
    have hrec := Part.record (s.setSadAcc st.sadAcc) cur c x y old st hcur (hk cur hcur) hx hy hold hst
    refine Relation.ReflTransGen.tail ?_ hrec
    rcases hacc with e | hw
    · rw [e]
      exact .refl
    · exact .single (.sad _ _ hw)

theorem mcAt_parts {c : Comp} {x y : Nat} {s : State} (hx : x < s.cols c) (hy : y < s.rows c) :
    Parts s (mcAt c (x, y) s).state := by
  rcases mcAt_cases c (x, y) s with ⟨e, h⟩ | h | ⟨cur, ref, sx, sy, p, ok, hcur, href, hp, h⟩
  · rw [h]; exact .refl
  · rw [h]; exact .refl
  · have := Part.pred s cur c x y _ _ p ok hcur hx hy hp
    rcases h with h | h <;> rw [h] <;> exact .single this

theorem dctqAt_parts {c : Comp} {bx band : Nat} {s : State} (hx : bx < s.pw c / 8)
    (hy : band < s.ph c / 8) : Parts s (dctqAt c band bx s).state := by
  rcases dctqAt_cases c band bx s with ⟨e, h⟩ | ⟨cur, o, p, q, hcur, _, _, _, h⟩
  · rw [h]; exact .refl
  · rw [h]
    exact .single (.resid s cur c bx band _ hcur hx hy (fwdBlock_length_le _ _))

theorem deqidctAt_parts {c : Comp} {bx band : Nat} {s : State} (hx : bx < s.pw c / 8)
    (hy : band < s.ph c / 8) : Parts s (deqidctAt c band bx s).state := by
  rcases deqidctAt_cases c band bx s with ⟨e, h⟩ | ⟨cur, k, q, m, ok, hcur, _, _, hm, h⟩
  · rw [h]; exact .refl
  · have := Part.recons s cur c bx band _ m ok hcur hx hy hm
    rcases h with h | h <;> rw [h] <;> exact .single this

/-- POS first, then a chain. -/
theorem parts_of_pos {s t : State} {w : Word} {c : Comp} {x y : Nat} (hw : w = posWord c x y)
    (h : (x < s.cols c ∧ y < s.rows c) ∨ (x < s.pw c / 8 ∧ y < s.ph c / 8) ∨
      (x = s.cols c - 1 ∧ y = s.rows c - 1)) (ht : Parts (s.setPos w) t) : Parts s t :=
  Relation.ReflTransGen.head (.pos s w c x y hw h) ht

theorem meUnit_parts {c : Comp} {x y : Nat} {s : State} (hx : x < s.cols c) (hy : y < s.rows c)
    (hk : ∀ f, s.cur = some f → f.keyframe = false) : Parts s (meUnit c (x, y) s).state := by
  unfold meUnit
  refine parts_of_pos rfl (.inl ⟨hx, hy⟩) ?_
  exact meAt_parts hx hy hk

theorem mcUnit_parts {c : Comp} {x y : Nat} {s : State} (hx : x < s.cols c) (hy : y < s.rows c) :
    Parts s (mcUnit c (x, y) s).state := by
  unfold mcUnit
  refine parts_of_pos rfl (.inl ⟨hx, hy⟩) ?_
  exact mcAt_parts hx hy

theorem dctqUnit_parts {c : Comp} {bx band : Nat} {s : State} (hx : bx < s.pw c / 8)
    (hy : band < s.ph c / 8) : Parts s (dctqUnit c band bx s).state := by
  unfold dctqUnit
  refine parts_of_pos rfl (.inr (.inl ⟨hx, hy⟩)) ?_
  exact dctqAt_parts hx hy

theorem deqidctUnit_parts {c : Comp} {bx band : Nat} {s : State} (hx : bx < s.pw c / 8)
    (hy : band < s.ph c / 8) : Parts s (deqidctUnit c band bx s).state := by
  unfold deqidctUnit
  refine parts_of_pos rfl (.inr (.inl ⟨hx, hy⟩)) ?_
  exact deqidctAt_parts hx hy

/-! ### Sweeps -/

/-- A sweep of units that are chains is a chain. -/
theorem sweep_parts {α : Type} {f : α → State → Run} {us : List α} {s : State}
    (h : ∀ u ∈ us, ∀ t, Parts s t → Parts t (f u t).state) : Parts s (sweep f us s).state :=
  sweep_keeps (P := Parts s) (fun u hu t ht => ht.trans (h u hu t ht)) s .refl

theorem meSweep_parts {c : Comp} {s : State} (hk : ∀ f, s.cur = some f → f.keyframe = false) :
    Parts s (meSweep c s).state := by
  refine sweep_parts (fun u hu t ht => ?_)
  obtain ⟨x, y⟩ := u
  obtain ⟨hx, hy⟩ := mem_raster.mp hu
  exact meUnit_parts (by rw [ht.cols]; exact hx) (by rw [ht.rows]; exact hy) (ht.keyframe hk)

theorem meFrame_parts {s : State} (hk : ∀ f, s.cur = some f → f.keyframe = false) :
    Parts s (meFrame s).state :=
  sweep_parts (fun _ _ _ ht => meSweep_parts (ht.keyframe hk))

theorem mcSweep_parts (c : Comp) (s : State) : Parts s (mcSweep c s).state := by
  refine sweep_parts (fun u hu t ht => ?_)
  obtain ⟨x, y⟩ := u
  obtain ⟨hx, hy⟩ := mem_raster.mp hu
  exact mcUnit_parts (by rw [ht.cols]; exact hx) (by rw [ht.rows]; exact hy)

theorem bandBody_parts {unit : Comp → Nat → Nat → State → Run}
    (h : ∀ {c bx band s}, bx < s.pw c / 8 → band < s.ph c / 8 → Parts s (unit c band bx s).state)
    (c : Comp) (band : Nat) (s : State) : Parts s (bandBody unit c band s).state := by
  unfold bandBody
  split
  · next hb =>
    refine sweep_parts (fun bx hbx t ht => h ?_ ?_)
    · rw [ht.pw]; exact List.mem_range.mp hbx
    · rw [ht.ph]; exact hb
  · exact .refl

theorem planeBody_parts {unit : Comp → Nat → Nat → State → Run}
    (h : ∀ {c bx band s}, bx < s.pw c / 8 → band < s.ph c / 8 → Parts s (unit c band bx s).state)
    (c : Comp) (s : State) : Parts s (planeBody unit c s).state :=
  sweep_parts (fun band _ t _ => bandBody_parts h c band t)

theorem bufferCommand_parts {f : List Half → Option (List Half)}
    (h : ∀ b out, f b = some out → out.length ≤ 64) (s : State) :
    Parts s (bufferCommand f s).state := by
  rcases bufferCommand_cases f s with e | ⟨b, out, _, ho, e⟩
  · rw [e]; exact .refl
  · rw [e]; exact .single (.blkOut s out (h b out ho))

/-! ### Commands -/

/-- The commands whose rule is a chain of parts: all but the four of the context (R120 to R129). -/
def isComponent : Instr → Bool
  | .ctxNew | .encodeImage | .streamEnd | .abort => false
  | .sad _ _ | .meBlock _ _ _ | .meComp _ | .mcBlock _ _ _ | .mcComp _ => true
  | .dctqBlock _ | .deqidctBlock _ | .dctqRow _ _ | .deqidctRow _ _ => true
  | .dctqPlane _ | .deqidctPlane _ | .zzFwd | .zzInv => true

theorem inter_of_searchable {s : State} (h : s.searchable = true) :
    ∀ f, s.cur = some f → f.keyframe = false := by
  intro f hf
  simp only [State.searchable, State.curKey, keyFlag, hf, Bool.and_eq_true, Bool.not_eq_true'] at h
  exact h.2

/-- Everything a component command does, until it ends or raises, is a chain of parts. -/
theorem bodyOf_parts {i : Instr} (hi : isComponent i = true) {s : State} (ha : accepts i s = true) :
    Parts s (bodyOf i s).state := by
  cases i with
  | ctxNew => cases hi
  | encodeImage => cases hi
  | streamEnd => cases hi
  | abort => cases hi
  | sad spA spB =>
    simp only [bodyOf, sadBody]
    split
    · split
      · split
        · next d hd =>
          have := sadValue_le hd
          refine .single (.sad s _ ?_)
          rw [BitVec.toNat_ofNat]
          exact (Nat.mod_le _ _).trans this
        · exact .refl
      · exact .refl
    · exact .refl
  | meBlock c mbY mbX =>
    simp only [accepts, Bool.and_eq_true] at ha
    simp only [bodyOf, meBlockBody]
    split
    · next h => exact meUnit_parts h.1 h.2 (inter_of_searchable ha.2)
    · exact .refl
  | meComp c =>
    simp only [accepts, Bool.and_eq_true] at ha
    exact meSweep_parts (inter_of_searchable ha.2)
  | mcBlock c mbY mbX =>
    simp only [bodyOf, mcBlockBody]
    split
    · next h =>
      split
      · exact .single (.pos s _ c mbX mbY rfl (.inl h))
      · split
        · exact mcUnit_parts h.1 h.2
        · exact .refl
    · exact .refl
  | mcComp c =>
    simp only [bodyOf, mcCompBody]
    split
    · exact .single (.pos s _ c _ _ rfl (.inr (.inr ⟨rfl, rfl⟩)))
    · split
      · exact mcSweep_parts c s
      · exact .refl
  | dctqBlock c =>
    refine bufferCommand_parts (fun b out h => ?_) s
    obtain ⟨q, _, rfl⟩ := Option.map_eq_some_iff.mp h
    exact fwdBlock_length_le b q
  | deqidctBlock c =>
    refine bufferCommand_parts (fun b out h => ?_) s
    obtain ⟨q, _, rfl⟩ := Option.map_eq_some_iff.mp h
    exact (invBlock_length b q).le
  | dctqRow c band => exact bandBody_parts dctqUnit_parts c band s
  | deqidctRow c band => exact bandBody_parts deqidctUnit_parts c band s
  | dctqPlane c => exact planeBody_parts dctqUnit_parts c s
  | deqidctPlane c => exact planeBody_parts deqidctUnit_parts c s
  | zzFwd =>
    refine bufferCommand_parts (f := fun b => some (toZigzag 0#16 b)) (fun b out h => ?_) s
    rw [← Option.some.inj h, toZigzag_length]
  | zzInv =>
    refine bufferCommand_parts (f := fun b => some (fromZigzag 0#16 b)) (fun b out h => ?_) s
    rw [← Option.some.inj h, fromZigzag_length]

/-- Everything ENCODE_IMAGE can do (R124): nothing; or steps (a) to (c) and (e) on a keyframe; or steps (a)
to (c), a chain of search parts, and step (e) if no fault was raised. -/
theorem encodeImageBody_cases (s : State) :
    encodeImageBody s = .raised .undef s ∨
    (s.pictureComplete = true ∧ s.nextIsKey = true ∧
      encodeImageBody s = .done s.acceptPicture.countPicture) ∨
    (s.pictureComplete = true ∧ s.nextIsKey = false ∧ ∃ t, Parts s.acceptPicture t ∧
      (encodeImageBody s = .done t.countPicture ∨ ∃ e, encodeImageBody s = .raised e t)) := by
  unfold encodeImageBody
  split
  · next hp =>
    by_cases hk : s.nextIsKey = true
    · rw [if_pos hk]
      exact .inr (.inl ⟨hp, hk, rfl⟩)
    · rw [if_neg hk]
      rw [Bool.not_eq_true] at hk
      have hparts := meFrame_parts (s := s.acceptPicture) (by
        intro f hf
        have : f = s.newFrame s.nextIsKey := by
          rw [State.acceptPicture_cur] at hf
          exact (Option.some.inj hf).symm
        rw [this, hk]
        rfl)
      refine .inr (.inr ⟨hp, hk, _, hparts, ?_⟩)
      cases meFrame s.acceptPicture with
      | done t => exact .inl rfl
      | raised e t => exact .inr ⟨e, rfl⟩
  · exact .inl rfl

end Sys2Proof.Machine
end

