-- ==== Sys2Proof/Laws/Host.lean ====
section
/-! SUPPORT. The host interface: which element the window reaches, what a read and a write can do, and
everything a step can do. -/

namespace Sys2Proof.Machine

/-! ### Space ids and register numbers -/

/-- Every space of R61. -/
def SpaceRef.all : List SpaceRef :=
  [Slot.cur, Slot.ref].flatMap (fun f => Comp.all.flatMap (fun c =>
    [.orig f c, .recons f c, .pred f c, .resid f c, .mb f c])) ++
  Comp.all.flatMap (fun c => [.picIn c, .qt c]) ++ [.blkIn, .blkOut]

theorem SpaceRef.mem_all (sp : SpaceRef) : sp ∈ SpaceRef.all := by
  cases sp with
  | orig f c => cases f <;> cases c <;> decide
  | recons f c => cases f <;> cases c <;> decide
  | pred f c => cases f <;> cases c <;> decide
  | resid f c => cases f <;> cases c <;> decide
  | mb f c => cases f <;> cases c <;> decide
  | picIn c => cases c <;> decide
  | qt c => cases c <;> decide
  | blkIn => decide
  | blkOut => decide

theorem SpaceRef.id_lt (sp : SpaceRef) : sp.id < 256 := by
  have : ∀ sp ∈ SpaceRef.all, sp.id < 256 := by decide
  exact this sp sp.mem_all

@[simp] theorem HostReg.ofNumber_cmd : HostReg.ofNumber 0x00#8 = some .cmd := by decide

@[simp] theorem HostReg.ofNumber_mdata : HostReg.ofNumber 0x32#8 = some .mdata := by decide

/-! ### The window -/

/-- A window access is allowed exactly when MSEL is the id of an existing space and MADDR lies in it
(R64). -/
theorem windowTarget_spec {s : State} {sp : SpaceRef} (h : s.windowTarget = some sp) :
    SpaceRef.ofId (s.msel.extractLsb' 0 8) = some sp ∧ s.msel.extractLsb' 8 24 = 0#24 ∧
      s.hasSpace sp = true ∧ s.maddr.toNat < s.spaceSize sp := by
  unfold State.windowTarget at h
  split at h
  · next h0 =>
    split at h
    · cases h
    · next sp' hid =>
      split at h
      · next hb =>
        simp only [Bool.and_eq_true, decide_eq_true_eq] at hb
        rw [← Option.some.inj h]
        exact ⟨hid, h0, hb.1, hb.2⟩
      · cases h
  · cases h

/-- A store through the window touches one space of `PIC_IN`, of the current prediction or `BLK_IN`, and
nothing else (R61, R63). -/
theorem storeElement_frame (s : State) (sp : SpaceRef) (i : Nat) (v : Word) :
    s.storeElement sp i v = { s with
      picIn := (s.storeElement sp i v).picIn, cur := (s.storeElement sp i v).cur,
      blkIn := (s.storeElement sp i v).blkIn } ∧
    (s.storeElement sp i v).cur.map Frame.keyframe = s.cur.map Frame.keyframe ∧
    (s.storeElement sp i v).cur.map Frame.mb = s.cur.map Frame.mb ∧
    (s.storeElement sp i v).cur.map Frame.orig = s.cur.map Frame.orig := by
  cases sp with
  | pred f c =>
    cases f with
    | cur =>
      cases hc : s.cur with
      | none =>
        have : s.storeElement (.pred .cur c) i v = s := by simp [State.storeElement, hc]
        rw [this, hc]
        exact ⟨by rw [← hc], rfl, rfl, rfl⟩
      | some fr =>
        simp only [State.storeElement, hc]
        exact ⟨rfl, rfl, rfl, rfl⟩
    | ref => exact ⟨rfl, rfl, rfl, rfl⟩
  | picIn c => exact ⟨rfl, rfl, rfl, rfl⟩
  | blkIn => exact ⟨rfl, rfl, rfl, rfl⟩
  | orig f c => exact ⟨rfl, rfl, rfl, rfl⟩
  | recons f c => exact ⟨rfl, rfl, rfl, rfl⟩
  | resid f c => exact ⟨rfl, rfl, rfl, rfl⟩
  | mb f c => exact ⟨rfl, rfl, rfl, rfl⟩
  | qt c => exact ⟨rfl, rfl, rfl, rfl⟩
  | blkOut => exact ⟨rfl, rfl, rfl, rfl⟩

/-! ### Writes -/

/-- Everything a write of a register other than CMD can do: it is refused, or stores one register, or one
element through the window (R22, R27, R29, R63). -/
theorem writeReg_cases {s t : State} {v : Word} {r : HostReg} (h : s.writeReg v r = .ok t) :
    (∃ a b c m n, t = { s with arg0 := a, arg1 := b, arg2 := c, msel := m, maddr := n }) ∨
      ∃ sp, s.windowTarget = some sp ∧ sp.hostMayWrite = true ∧
        t = s.storeElement sp s.maddr.toNat v := by
  cases r with
  | mdata =>
    simp only [State.writeReg, State.windowWrite] at h
    split at h
    · cases h
    · next sp hsp =>
      split at h
      · next hw =>
        injection h with h
        exact .inr ⟨sp, hsp, hw, h.symm⟩
      · cases h
  | cmd => injection h with h; exact .inl ⟨_, _, _, _, _, h.symm⟩
  | arg0 => injection h with h; exact .inl ⟨_, _, _, _, _, h.symm⟩
  | arg1 => injection h with h; exact .inl ⟨_, _, _, _, _, h.symm⟩
  | arg2 => injection h with h; exact .inl ⟨_, _, _, _, _, h.symm⟩
  | msel => injection h with h; exact .inl ⟨_, _, _, _, _, h.symm⟩
  | maddr => injection h with h; exact .inl ⟨_, _, _, _, _, h.symm⟩
  | status => cases h
  | fault => cases h
  | faultInfo => cases h
  | sadAcc => cases h
  | meBest => cases h
  | meMv => cases h
  | pos => cases h
  | width => cases h
  | height => cases h
  | padW c => cases h
  | padH c => cases h
  | mbCols c => cases h
  | mbRows c => cases h
  | qp => cases h
  | meRange => cases h
  | kfInterval => cases h
  | frameNum => cases h
  | framesSinceKf => cases h

/-- Everything a host write can do: nothing while faulted; a fault; a register; an element; a command
(R29, R90, R245). -/
theorem hostWrite_cases {reg : Byte} {v : Word} {s t : State} (h : hostWrite reg v s = .next t) :
    (s.faulted = true ∧ t = s) ∨ s.faulted = false ∧
      ((∃ c w, t = s.recordFault c w) ∨
        (∃ a b c m n, t = { s with arg0 := a, arg1 := b, arg2 := c, msel := m, maddr := n }) ∨
        (∃ sp, s.windowTarget = some sp ∧ sp.hostMayWrite = true ∧
          t = s.storeElement sp s.maddr.toNat v) ∨
        ∃ i, exec i s = .next t) := by
  unfold hostWrite at h
  split at h
  · next hf => injection h with h; exact .inl ⟨hf, h.symm⟩
  · next hf =>
    rw [Bool.not_eq_true] at hf
    refine .inr ⟨hf, ?_⟩
    split at h
    · injection h with h
      rw [State.raise_of_not_faulted hf] at h
      exact .inl ⟨_, _, h.symm⟩
    · unfold issue at h
      split at h
      · exact .inr (.inr (.inr ⟨_, h⟩))
      · injection h with h
        rw [State.raise_of_not_faulted hf] at h
        exact .inl ⟨_, _, h.symm⟩
    · split at h
      · next t' ht =>
        injection h with h
        subst h
        rcases writeReg_cases ht with e | e
        · exact .inr (.inl e)
        · exact .inr (.inr (.inl e))
      · injection h with h
        rw [State.raise_of_not_faulted hf] at h
        exact .inl ⟨_, _, h.symm⟩

/-! ### Reads -/

/-- Everything a host read can do: return a value; return an unspecified one while faulted; or fault
(R29, R66, R245). -/
theorem hostRead_cases (reg : Byte) (s : State) :
    (∃ w, s.readNumber reg = .ok w ∧ hostRead reg s = s.returnRead w) ∨
      ∃ c, s.readNumber reg = .error c ∧
        ((s.faulted = true ∧ hostRead reg s = s.returnUnspecified) ∨
          (s.faulted = false ∧
            hostRead reg s = { s.recordFault c (s.accessWord reg) with hostRead := none })) := by
  unfold hostRead
  cases hr : s.readNumber reg with
  | ok w => exact .inl ⟨w, rfl, rfl⟩
  | error c =>
    refine .inr ⟨c, rfl, ?_⟩
    cases hf : s.faulted with
    | true => exact .inl ⟨rfl, rfl⟩
    | false =>
      refine .inr ⟨rfl, ?_⟩
      simp only [State.faultRead, State.raise_of_not_faulted hf]
      rfl

/-! ### Steps -/

/-- A legal raw dimension (R121). -/
theorem legalDim_iff {n : Int} : legalDim n = true ↔ 1 ≤ n ∧ n ≤ 16384 := by
  have : ((Config.maxDim : Nat) : Int) = 16384 := rfl
  rw [legalDim, this, Bool.and_eq_true, decide_eq_true_eq, decide_eq_true_eq]
  omega

/-- Every step ends in a next state. -/
theorem step_answers (s : State) : ∃ t, step s = .next t := by
  have hexec : ∀ i s, ∃ t, exec i s = .next t := fun i s => ⟨_, exec_eq i s⟩
  unfold step
  split
  · exact ⟨_, rfl⟩
  · next a rest _ =>
    cases a with
    | reset => exact ⟨_, rfl⟩
    | read reg => exact ⟨_, rfl⟩
    | write reg v =>
      simp only [hostAccess, hostWrite]
      split
      · exact ⟨_, rfl⟩
      · split
        · exact ⟨_, rfl⟩
        · unfold issue
          split
          · exact hexec _ _
          · exact ⟨_, rfl⟩
        · split <;> exact ⟨_, rfl⟩

/-- The one induction-free principle for invariants: what each kind of access keeps, every step keeps. -/
theorem step_keeps {P : State → Prop} {s t : State} (h : step s = .next t) (hs : P s)
    (host : ∀ s q r n, P s → P { s with pending := q, hostRead := r, freeReads := n })
    (reset : ∀ s, P s → P s.applyReset)
    (fault : ∀ s c w, s.faulted = false → P s → P (s.recordFault c w))
    (args : ∀ s a b c m n, P s →
      P { s with arg0 := a, arg1 := b, arg2 := c, msel := m, maddr := n })
    (store : ∀ s sp v, P s → s.windowTarget = some sp → sp.hostMayWrite = true →
      P (s.storeElement sp s.maddr.toNat v))
    (cmd : ∀ i s t, s.faulted = false → P s → exec i s = .next t → P t) : P t := by
  unfold step at h
  split at h
  · injection h with h
    rw [← h]
    exact hs
  · next a rest _ =>
    have hq : P { s with pending := rest } := host s rest s.hostRead s.freeReads hs
    generalize { s with pending := rest } = u at h hq
    cases a with
    | reset =>
      injection h with h
      rw [← h]
      exact reset u hq
    | read reg =>
      injection h with h
      rw [← h]
      rcases hostRead_cases reg u with ⟨w, _, e⟩ | ⟨c, _, ⟨_, e⟩ | ⟨hf, e⟩⟩
      · rw [e]
        exact host u u.pending (some w) u.freeReads hq
      · rw [e]
        exact host u u.pending _ _ hq
      · rw [e]
        exact host (u.recordFault c (u.accessWord reg)) u.pending none u.freeReads
          (fault u c _ hf hq)
    | write reg v =>
      rcases hostWrite_cases h with ⟨_, e⟩ | ⟨hf, ⟨c, w, e⟩ | ⟨a, b, c, m, n, e⟩ | ⟨sp, h1, h2, e⟩ | ⟨i, e⟩⟩
      · rw [e]; exact hq
      · rw [e]; exact fault u c w hf hq
      · rw [e]; exact args u a b c m n hq
      · rw [e]; exact store u sp v hq h1 h2
      · exact cmd i u t hf hq e

/-- The same for commands: what the context commands and each part keep, every command keeps. -/
theorem command_keeps {P : State → Prop} {i : Instr} {s t : State} (h : exec i s = .next t)
    (hf : s.faulted = false) (hs : P s) (fault : ∀ s c w, s.faulted = false → P s → P (s.recordFault c w))
    (construct : ∀ w hh, s.ctxValid = false → 1 ≤ w → w ≤ 16384 → 1 ≤ hh → hh ≤ 16384 →
      P (s.construct w hh))
    (image : s.ctxValid = true → s.ended = false → s.frameNum ≠ 0xFFFFFFFF#32 →
      s.pictureComplete = true →
      (s.nextIsKey = true → P s.acceptPicture.countPicture) ∧
      (s.nextIsKey = false → ∀ u, Parts s.acceptPicture u → P u ∧ P u.countPicture))
    (ended : s.ctxValid = true → P s.setEnded)
    (part : s.ctxValid = true → ∀ u v, Parts s u → Part u v → P u → P v) : P t := by
  rw [exec_eq] at h
  injection h with h
  rw [← h]
  split
  · next ha =>
    by_cases hc : isComponent i = true
    · have hp := bodyOf_parts hc ha
      have hctx : s.ctxValid = true := by
        by_contra hv
        rw [Bool.not_eq_true] at hv
        have hl : s.lifecycle = .unconstructed := by simp [State.lifecycle, hf, hv]
        cases i <;> simp [accepts, hl, Lifecycle.constructed, isComponent] at ha hc
      have hP : P (bodyOf i s).state := by
        have : ∀ u, Parts s u → P u := by
          intro u hu
          induction hu with
          | refl => exact hs
          | tail h1 h2 ih => exact part hctx _ _ h1 h2 ih
        exact this _ hp
      have hff : (bodyOf i s).state.faulted = false := by rw [hp.frame.1]; exact hf
      cases hb : bodyOf i s with
      | done u => rw [hb] at hP; exact hP
      | raised e u =>
        rw [hb, Run.state_raised] at hP hff
        rw [Run.commit_raised, State.raise_of_not_faulted hff]
        exact fault u e _ hff hP
    · cases i with
      | ctxNew =>
        have hv : s.ctxValid = false := by
          by_contra hv
          rw [Bool.not_eq_false] at hv
          simp only [accepts, State.lifecycle, hf, hv] at ha
          revert ha
          cases s.ended <;> decide
        simp only [bodyOf, ctxNewBody]
        split
        · next hd =>
          rw [Bool.and_eq_true, legalDim_iff, legalDim_iff] at hd
          exact construct _ _ hv (by omega) (by omega) (by omega) (by omega)
        · rw [Run.commit_raised, State.raise_of_not_faulted hf]
          exact fault s _ _ hf hs
      | encodeImage =>
        have hl : s.ctxValid = true ∧ s.ended = false ∧ s.frameNum ≠ 0xFFFFFFFF#32 := by
          simp only [accepts, State.lifecycle, hf, Bool.and_eq_true, bne_iff_ne, ne_eq] at ha
          refine ⟨?_, ?_, ha.2⟩
          · by_contra hv
            rw [Bool.not_eq_true] at hv
            rw [hv] at ha
            simp at ha
          · by_contra hv
            rw [Bool.not_eq_false] at hv
            rw [hv] at ha
            revert ha
            cases s.ctxValid <;> simp
        rcases encodeImageBody_cases s with e | ⟨hp, hk, e⟩ | ⟨hp, hk, u, hu, e | ⟨c, e⟩⟩
        · simp only [bodyOf, e]
          rw [Run.commit_raised, State.raise_of_not_faulted hf]
          exact fault s _ _ hf hs
        · simp only [bodyOf, e]
          exact (image hl.1 hl.2.1 hl.2.2 hp).1 hk
        · simp only [bodyOf, e]
          exact ((image hl.1 hl.2.1 hl.2.2 hp).2 hk u hu).2
        · simp only [bodyOf, e]
          have hff : u.faulted = false := by rw [hu.frame.1]; exact hf
          rw [Run.commit_raised, State.raise_of_not_faulted hff]
          exact fault u _ _ hff ((image hl.1 hl.2.1 hl.2.2 hp).2 hk u hu).1
      | streamEnd =>
        refine ended ?_
        by_contra hv
        rw [Bool.not_eq_true] at hv
        simp [accepts, State.lifecycle, hf, hv] at ha
      | abort =>
        simp only [bodyOf]
        rw [Run.commit_raised, State.raise_of_not_faulted hf]
        exact fault s _ _ hf hs
      | sad spA spB => exact absurd rfl hc
      | meBlock c mbY mbX => exact absurd rfl hc
      | meComp c => exact absurd rfl hc
      | mcBlock c mbY mbX => exact absurd rfl hc
      | mcComp c => exact absurd rfl hc
      | dctqBlock c => exact absurd rfl hc
      | deqidctBlock c => exact absurd rfl hc
      | dctqRow c band => exact absurd rfl hc
      | deqidctRow c band => exact absurd rfl hc
      | dctqPlane c => exact absurd rfl hc
      | deqidctPlane c => exact absurd rfl hc
      | zzFwd => exact absurd rfl hc
      | zzInv => exact absurd rfl hc
  · rw [State.raise_of_not_faulted hf]
    exact fault s _ _ hf hs

end Sys2Proof.Machine
end

