-- ==== Sys2Proof/Laws/Memory.lean ====
section
/-! SUPPORT. The canonical form of memory: what it says, that reset has it, and that every memory operation
keeps it. -/

namespace Sys2Proof.Machine

/-! ### What the canonical form says -/

theorem Frame.wf_iff {n g : Comp → Nat} {f : Frame} :
    f.wf n g = true ↔ ∀ c, Space.wf (n c) (f.orig.get c) = true ∧
      Space.wf (n c) (f.recons.get c) = true ∧ Space.wf (n c) (f.pred.get c) = true ∧
      Space.wf (n c) (f.resid.get c) = true ∧ Space.wf (g c) (f.mb.get c) = true := by
  unfold Frame.wf
  rw [Comp.all_eq_true]
  simp only [Bool.and_eq_true, and_assoc]

theorem Frame.defined_iff {n g : Comp → Nat} {f : Frame} :
    f.defined n g = true ↔ ∀ c, Space.allDefined (f.orig.get c) (n c) = true ∧
      Space.allDefined (f.pred.get c) (n c) = true ∧
      Space.allDefined (f.mb.get c) (g c) = true := by
  unfold Frame.defined
  rw [Comp.all_eq_true]
  simp only [Bool.and_eq_true, and_assoc]

theorem Memory.wf_iff {s : State} :
    Memory.wf s = true ↔
      (∀ c, Space.wf (s.planeSize c) (s.picIn.get c) = true ∧ Space.wf 64 (s.qt.get c) = true) ∧
        Space.wf 64 s.blkIn = true ∧ Space.wf 64 s.blkOut = true ∧
        (∀ f, s.cur = some f → f.wf s.planeSize s.gridSize = true) ∧
        ∀ f, s.ref = some f → f.wf s.planeSize s.gridSize = true := by
  unfold Memory.wf
  have : ∀ o : Option Frame, o.all (Frame.wf s.planeSize s.gridSize) = true ↔
      ∀ f, o = some f → f.wf s.planeSize s.gridSize = true := by
    intro o
    cases o <;> simp
  simp only [Bool.and_eq_true, Comp.all_eq_true, this, and_assoc]

/-- Reset's memory is in canonical form. -/
theorem Memory.wf_reset (p : Params) : Memory.wf (State.resetWith p) = true := by
  rw [Memory.wf_iff]
  refine ⟨fun c => ?_, rfl, rfl, fun f h => (by cases h), fun f h => (by cases h)⟩
  cases c <;> exact ⟨rfl, rfl⟩

/-! ### Frames -/

section
variable {n g : Comp → Nat} {f : Frame}

theorem Frame.wf_writeMb (hf : f.wf n g = true) {c : Comp} {j : Nat} (hj : j < g c)
    (m : MbRecord) : (f.writeMb c j m).wf n g = true := by
  rw [Frame.wf_iff] at hf ⊢
  intro d
  refine ⟨(hf d).1, (hf d).2.1, (hf d).2.2.1, (hf d).2.2.2.1, ?_⟩
  simp only [Frame.writeMb, Triple.get_set]
  split
  · next e => subst e; exact Space.wf_write hj m (hf d).2.2.2.2
  · exact (hf d).2.2.2.2

theorem Frame.wf_setPred (hf : f.wf n g = true) {c : Comp} {m : Space Byte}
    (hm : Space.wf (n c) m = true) : (f.setPred c m).wf n g = true := by
  rw [Frame.wf_iff] at hf ⊢
  intro d
  refine ⟨(hf d).1, (hf d).2.1, ?_, (hf d).2.2.2.1, (hf d).2.2.2.2⟩
  simp only [Frame.setPred, Triple.get_set]
  split
  · next e => subst e; exact hm
  · exact (hf d).2.2.1

theorem Frame.wf_setRecons (hf : f.wf n g = true) {c : Comp} {m : Space Byte}
    (hm : Space.wf (n c) m = true) : (f.setRecons c m).wf n g = true := by
  rw [Frame.wf_iff] at hf ⊢
  intro d
  refine ⟨(hf d).1, ?_, (hf d).2.2.1, (hf d).2.2.2.1, (hf d).2.2.2.2⟩
  simp only [Frame.setRecons, Triple.get_set]
  split
  · next e => subst e; exact hm
  · exact (hf d).2.1

theorem Frame.wf_setResid (hf : f.wf n g = true) {c : Comp} {m : Space Half}
    (hm : Space.wf (n c) m = true) : (f.setResid c m).wf n g = true := by
  rw [Frame.wf_iff] at hf ⊢
  intro d
  refine ⟨(hf d).1, (hf d).2.1, (hf d).2.2.1, ?_, (hf d).2.2.2.2⟩
  simp only [Frame.setResid, Triple.get_set]
  split
  · next e => subst e; exact hm
  · exact (hf d).2.2.2.1

theorem Frame.defined_writeMb (hf : f.defined n g = true) (c : Comp) (j : Nat) (m : MbRecord) :
    (f.writeMb c j m).defined n g = true := by
  rw [Frame.defined_iff] at hf ⊢
  intro d
  refine ⟨(hf d).1, (hf d).2.1, ?_⟩
  simp only [Frame.writeMb, Triple.get_set]
  split
  · next e => subst e; exact Space.allDefined_write j m (hf d).2.2
  · exact (hf d).2.2

theorem Frame.defined_setPred (hf : f.defined n g = true) {c : Comp} {m : Space Byte}
    (hm : Space.allDefined m (n c) = true) : (f.setPred c m).defined n g = true := by
  rw [Frame.defined_iff] at hf ⊢
  intro d
  refine ⟨(hf d).1, ?_, (hf d).2.2⟩
  simp only [Frame.setPred, Triple.get_set]
  split
  · next e => subst e; exact hm
  · exact (hf d).2.1

end

/-! ### State updates -/

/-- A new current frame in canonical form keeps memory canonical. -/
theorem Memory.wf_setCur {s : State} (h : Memory.wf s = true) {f : Frame}
    (hf : f.wf s.planeSize s.gridSize = true) : Memory.wf (s.setCur f) = true := by
  rw [Memory.wf_iff] at h ⊢
  exact ⟨h.1, h.2.1, h.2.2.1, fun f' e => by cases e; exact hf, h.2.2.2.2⟩

theorem Memory.wf_setBlkOut {s : State} (h : Memory.wf s = true) {m : Space Half}
    (hm : Space.wf 64 m = true) : Memory.wf (s.setBlkOut m) = true := by
  rw [Memory.wf_iff] at h ⊢
  exact ⟨h.1, h.2.1, hm, h.2.2.2⟩

/-- Every store through the host window keeps memory canonical (R63, R64). -/
theorem Memory.wf_storeElement {s : State} (h : Memory.wf s = true) {sp : SpaceRef}
    (hsp : s.windowTarget = some sp) (v : Word) :
    Memory.wf (s.storeElement sp s.maddr.toNat v) = true := by
  have hlt := (windowTarget_spec hsp).2.2.2
  have h' := Memory.wf_iff.mp h
  cases sp with
  | pred f c =>
    cases f with
    | cur =>
      cases hc : s.cur with
      | none => simpa [State.storeElement, hc] using h
      | some fr =>
        simp only [State.storeElement, hc]
        have hf := h'.2.2.2.1 fr hc
        exact Memory.wf_setCur h (Frame.wf_setPred hf
          (Space.wf_write hlt _ ((Frame.wf_iff.mp hf) c).2.2.1))
    | ref => exact h
  | picIn c =>
    rw [Memory.wf_iff]
    refine ⟨fun d => ⟨?_, (h'.1 d).2⟩, h'.2⟩
    simp only [State.storeElement, Triple.get_set]
    split
    · next e => subst e; exact Space.wf_write hlt _ (h'.1 d).1
    · exact (h'.1 d).1
  | blkIn =>
    rw [Memory.wf_iff]
    exact ⟨h'.1, Space.wf_write hlt _ h'.2.1, h'.2.2⟩
  | orig f c => exact h
  | recons f c => exact h
  | resid f c => exact h
  | mb f c => exact h
  | qt c => exact h
  | blkOut => exact h

/-- The grid of a component lies inside its plane: eight samples to a macroblock (R234). -/
def State.gridInside (s : State) : Prop := ∀ c, s.cols c * 8 ≤ s.pw c ∧ s.rows c * 8 ≤ s.ph c

/-- Every part of every component command keeps memory canonical. -/
theorem Part.keeps_wf {s t : State} (h : Part s t) (hg : s.gridInside) (hm : Memory.wf s = true) :
    Memory.wf t = true := by
  have h' := Memory.wf_iff.mp hm
  cases h with
  | pos w c x y hw h => exact hm
  | sad w h => exact hm
  | record cur c x y old st hcur hkey hx hy hold hst =>
    exact Memory.wf_setCur hm (Frame.wf_writeMb (h'.2.2.2.1 cur hcur) (record_lt hx hy) _)
  | pred cur c x y o src p ok hcur hx hy hp =>
    have hf := h'.2.2.2.1 cur hcur
    refine Memory.wf_setCur hm (Frame.wf_setPred hf ?_)
    refine copySamples_wf hp (fun m hm' => ?_) ((Frame.wf_iff.mp hf) c).2.2.1
    obtain ⟨r, k, hr, hk, rfl⟩ := mem_blockMoves.mp hm'
    have := hg c
    exact block_sample_lt (by omega) (by omega) hr hk
  | resid cur c bx band out hcur hx hy hout =>
    have hf := h'.2.2.2.1 cur hcur
    refine Memory.wf_setCur hm (Frame.wf_setResid hf ?_)
    refine Space.wf_writeFrom ((Frame.wf_iff.mp hf) c).2.2.2.1 _ _ ?_
    have := coeff_lt (k := 63) hx hy (by omega)
    unfold State.planeSize
    omega
  | recons cur c bx band out m ok hcur hx hy hr =>
    have hf := h'.2.2.2.1 cur hcur
    refine Memory.wf_setCur hm (Frame.wf_setRecons hf ?_)
    exact reconLoop_wf hr (fun p hp => blockIndices_lt hx hy (List.of_mem_zip hp).1)
      ((Frame.wf_iff.mp hf) c).2.1
  | blkOut out hout => exact Memory.wf_setBlkOut hm (Space.wf_writeFrom h'.2.2.1 0 out (by omega))

/-- Construction leaves memory canonical: new tables, no picture, no frame (R121). -/
theorem Memory.wf_construct {s : State} (h : Memory.wf s = true) (w hh : Nat) :
    Memory.wf (s.construct w hh) = true := by
  have h' := Memory.wf_iff.mp h
  have ht : ∀ d : Vector Byte 64, Space.wf 64 (buildTable d) = true := by
    intro d
    have e : buildTable d = (List.range 64).map (fun k => (k, qtEntry (d.toList.getD k 0#8))) := by
      unfold buildTable
      apply List.ext_getElem
      · simp
      · intro i h1 h2
        simp only [List.length_mapIdx, Vector.length_toList] at h1
        simp [List.getD_eq_getElem?_getD, h1]
    rw [e]
    exact Space.wf_map_range _ 64
  rw [Memory.wf_iff]
  refine ⟨fun c => ?_, h'.2.1, h'.2.2.1, fun f e => (by cases e), fun f e => (by cases e)⟩
  cases c <;> exact ⟨rfl, ht _⟩

/-- Accepting a picture leaves memory canonical (R124). -/
theorem Memory.wf_acceptPicture {s : State} (h : Memory.wf s = true) :
    Memory.wf s.acceptPicture = true := by
  have h' := Memory.wf_iff.mp h
  rw [Memory.wf_iff]
  refine ⟨h'.1, h'.2.1, h'.2.2.1, fun f e => ?_, fun f e => h'.2.2.2.1 f e⟩
  cases e
  rw [Frame.wf_iff]
  intro c
  refine ⟨(h'.1 c).1, ?_, ?_, ?_, ?_⟩
  · cases c <;> rfl
  · simp only [State.newFrame, Triple.get_of]
    exact Space.wf_fill _ _
  · cases c <;> rfl
  · simp only [State.newFrame, Triple.get_of]
    exact Space.wf_fill _ _

end Sys2Proof.Machine
end

