-- ==== Sys2Proof/Laws/PerInstr.lean ====
section
/-! SUPPORT. Statements made of every instruction as syntax, one lemma per constructor. -/

namespace Sys2Proof.Laws

/-- The word of a format, opcode number first and must-be-zero bits zero (R92, R95). -/
theorem fields_of_toNat {w : Word} {op : Opcode} {n : Nat}
    (h : w.toNat = 2 ^ 24 * op.code.toNat + n) (hn : n < 2 ^ 24)
    (hz : n % 2 ^ op.format.zeroBits = 0) :
    opcField w = op.code ∧ w.toNat % 2 ^ op.format.zeroBits = 0 := by
  constructor
  · apply BitVec.eq_of_toNat_eq
    rw [opcField_toNat, h]
    omega
  · rw [h]
    cases op <;> simp only [Opcode.format, Format.zeroBits] at * <;> omega

theorem fieldsN (op : Opcode) :
    opcField (wordN op) = op.code ∧ (wordN op).toNat % 2 ^ op.format.zeroBits = 0 :=
  fields_of_toNat (n := 0) (wordN_toNat op) (by omega) (Nat.zero_mod _)

theorem fieldsC (op : Opcode) (c : Comp) (hf : op.format.zeroBits = 22) :
    opcField (wordC op c) = op.code ∧ (wordC op c).toNat % 2 ^ op.format.zeroBits = 0 := by
  have := c.number_lt
  exact fields_of_toNat (wordC_toNat op c) (by omega) (by rw [hf]; omega)

theorem fieldsM (op : Opcode) (c : Comp) {fy fx : Nat} (hy : fitsField fy) (hx : fitsField fx)
    (hf : op.format.zeroBits = 0) :
    opcField (wordM op c fy fx) = op.code ∧ (wordM op c fy fx).toNat % 2 ^ op.format.zeroBits = 0 := by
  have := c.number_lt
  unfold fitsField at *
  have e := wordM_toNat op c hy hx
  rw [Nat.add_assoc, Nat.add_assoc] at e
  exact fields_of_toNat e (by omega) (by rw [hf]; omega)

theorem fieldsR (op : Opcode) (c : Comp) {fy : Nat} (hy : fitsField fy)
    (hf : op.format.zeroBits = 11) :
    opcField (wordR op c fy) = op.code ∧ (wordR op c fy).toNat % 2 ^ op.format.zeroBits = 0 := by
  have := c.number_lt
  unfold fitsField at *
  have e := wordM_toNat op c hy (fx := 0) (by unfold fitsField; omega)
  rw [Nat.add_zero, Nat.add_assoc] at e
  rw [wordR_eq_wordM]
  exact fields_of_toNat e (by omega) (by rw [hf]; omega)

theorem fieldsS (op : Opcode) (a b : Byte) (hf : op.format.zeroBits = 8) :
    opcField (wordS op a b) = op.code ∧ (wordS op a b).toNat % 2 ^ op.format.zeroBits = 0 := by
  have := a.isLt
  have := b.isLt
  have e := wordS_toNat op a b
  rw [Nat.add_assoc] at e
  exact fields_of_toNat e (by omega) (by rw [hf]; omega)

/-- The word of a well-formed instruction carries its opcode number in [31:24] and zero in every bit its
format marks "0" (R92, R93, R95). -/
def EncodeOpcode.Statement (i : Instr) : Prop :=
  i.wellFormed = true →
    opcField (encode i) = i.opcode.code ∧ (encode i).toNat % 2 ^ i.opcode.format.zeroBits = 0

theorem EncodeOpcode.ctxNew : EncodeOpcode.Statement .ctxNew := fun _ => fieldsN _

theorem EncodeOpcode.encodeImage : EncodeOpcode.Statement .encodeImage := fun _ => fieldsN _

theorem EncodeOpcode.streamEnd : EncodeOpcode.Statement .streamEnd := fun _ => fieldsN _

theorem EncodeOpcode.abort : EncodeOpcode.Statement .abort := fun _ => fieldsN _

theorem EncodeOpcode.sad (spA spB : Byte) : EncodeOpcode.Statement (.sad spA spB) :=
  fun _ => fieldsS _ spA spB rfl

theorem EncodeOpcode.meBlock (c : Comp) (mbY mbX : Nat) :
    EncodeOpcode.Statement (.meBlock c mbY mbX) := by
  intro h
  simp only [Instr.wellFormed, Bool.and_eq_true, decide_eq_true_eq] at h
  exact fieldsM _ c h.1 h.2 rfl

theorem EncodeOpcode.meComp (c : Comp) : EncodeOpcode.Statement (.meComp c) := fun _ => fieldsC _ c rfl

theorem EncodeOpcode.mcBlock (c : Comp) (mbY mbX : Nat) :
    EncodeOpcode.Statement (.mcBlock c mbY mbX) := by
  intro h
  simp only [Instr.wellFormed, Bool.and_eq_true, decide_eq_true_eq] at h
  exact fieldsM _ c h.1 h.2 rfl

theorem EncodeOpcode.mcComp (c : Comp) : EncodeOpcode.Statement (.mcComp c) := fun _ => fieldsC _ c rfl

theorem EncodeOpcode.dctqBlock (c : Comp) : EncodeOpcode.Statement (.dctqBlock c) :=
  fun _ => fieldsC _ c rfl

theorem EncodeOpcode.deqidctBlock (c : Comp) : EncodeOpcode.Statement (.deqidctBlock c) :=
  fun _ => fieldsC _ c rfl

theorem EncodeOpcode.dctqRow (c : Comp) (band : Nat) : EncodeOpcode.Statement (.dctqRow c band) :=
  fun h => fieldsR _ c (of_decide_eq_true h) rfl

theorem EncodeOpcode.deqidctRow (c : Comp) (band : Nat) :
    EncodeOpcode.Statement (.deqidctRow c band) := fun h => fieldsR _ c (of_decide_eq_true h) rfl

theorem EncodeOpcode.dctqPlane (c : Comp) : EncodeOpcode.Statement (.dctqPlane c) :=
  fun _ => fieldsC _ c rfl

theorem EncodeOpcode.deqidctPlane (c : Comp) : EncodeOpcode.Statement (.deqidctPlane c) :=
  fun _ => fieldsC _ c rfl

theorem EncodeOpcode.zzFwd : EncodeOpcode.Statement .zzFwd := fun _ => fieldsN _

theorem EncodeOpcode.zzInv : EncodeOpcode.Statement .zzInv := fun _ => fieldsN _

end Sys2Proof.Laws
end

