-- ==== Sys2Proof/Tests/Slice0.lean ====
section
/-! SUPPORT. Tests: WellFormed smoke, decoding of words written out from the spec, single steps against the
vectors of spec/95_test_vectors.md, and a witness for the hypotheses of every statement. -/

namespace Sys2Proof.Tests

-- One kernel evaluation at a time: each thread keeps its own stack.
set_option Elab.async false

open Sys2Proof.Machine Sys2Proof.Claim

/-! ### WellFormed: one ill-formed term for each check -/

theorem test_wf_me_y : Instr.wellFormed (.meBlock .y 2048 0) = false := by decide
theorem test_wf_me_x : Instr.wellFormed (.meBlock .u 0 2048) = false := by decide
theorem test_wf_mc_y : Instr.wellFormed (.mcBlock .v 2048 0) = false := by decide
theorem test_wf_mc_x : Instr.wellFormed (.mcBlock .y 0 2048) = false := by decide
theorem test_wf_dctq_row : Instr.wellFormed (.dctqRow .y 2048) = false := by decide
theorem test_wf_deqidct_row : Instr.wellFormed (.deqidctRow .u 2048) = false := by decide
theorem test_wf_largest : Instr.wellFormed (.meBlock .v 2047 2047) = true := by decide

/-! ### Decoding: words from R95, R100 and section 2.10 of the vectors, bit by bit where they have fields -/

def decodesTo (w : Word) (i : Instr) : Bool :=
  match decode w with
  | .ok j => decide (j = i)
  | .error _ => false

def rejects (w : Word) : Option DecodeError :=
  match decode w with
  | .ok _ => none
  | .error e => some e

theorem test_decode_context : decodesTo 0x01000000#32 .ctxNew ∧ decodesTo 0x02000000#32 .encodeImage ∧
    decodesTo 0x03000000#32 .streamEnd ∧ decodesTo 0x04000000#32 .abort := by decide

/-- `SAD CUR.ORIG.Y, REF.RECONS.Y` and `SAD PIC_IN.Y, PIC_IN.Y`. -/
theorem test_decode_sad : decodesTo 0b00010000_00000000_00100100_00000000#32 (.sad 0x00#8 0x24#8) ∧
    decodesTo 0x10404000#32 (.sad 0x40#8 0x40#8) := by decide

/-- `ME_BLOCK U, 3, 2` (mbX = 3, mbY = 2) and `ME_BLOCK Y, 2047, 2047`. -/
theorem test_decode_me_block :
    decodesTo 0b00100000_01_00000000010_00000000011#32 (.meBlock .u 2 3) ∧
    decodesTo 0x203FFFFF#32 (.meBlock .y 2047 2047) := by decide

theorem test_decode_me_comp : decodesTo 0b00100001_10_0000000000000000000000#32 (.meComp .v) := by decide

/-- `MC_BLOCK V, 1, 0`. -/
theorem test_decode_mc_block :
    decodesTo 0b00110000_10_00000000000_00000000001#32 (.mcBlock .v 0 1) := by decide

theorem test_decode_mc_comp : decodesTo 0x31400000#32 (.mcComp .u) := by decide

/-- `DCTQ_ROW V, 5` and `DEQIDCT_ROW U, 17`. -/
theorem test_decode_rows :
    decodesTo 0b01000010_10_00000000101_00000000000#32 (.dctqRow .v 5) ∧
    decodesTo 0b01000011_01_00000010001_00000000000#32 (.deqidctRow .u 17) := by decide

theorem test_decode_transform : decodesTo 0x40400000#32 (.dctqBlock .u) ∧
    decodesTo 0x41800000#32 (.deqidctBlock .v) ∧ decodesTo 0x44000000#32 (.dctqPlane .y) ∧
    decodesTo 0x45400000#32 (.deqidctPlane .u) ∧ decodesTo 0x46000000#32 .zzFwd ∧
    decodesTo 0x47000000#32 .zzInv := by decide

/-- The illegal words of section 2.10. -/
theorem test_decode_illegal : rejects 0x00000000#32 = some .unknownOpcode ∧
    rejects 0xFFFFFFFF#32 = some .unknownOpcode ∧ rejects 0x05000000#32 = some .unknownOpcode ∧
    rejects 0x22000000#32 = some .unknownOpcode ∧ rejects 0x48000000#32 = some .unknownOpcode ∧
    rejects 0x20C00000#32 = some .noComponent ∧ rejects 0x01000001#32 = some .reservedBitSet ∧
    rejects 0x21000001#32 = some .reservedBitSet ∧ rejects 0x42000001#32 = some .reservedBitSet ∧
    rejects 0x10000001#32 = some .reservedBitSet := by decide

/-! ### Small states: a 16 x 16 picture (R225: luma grid 2 x 2, chroma grid 1 x 1) -/

/-- Planes of 256, 64 and 64 equal samples. -/
def flat (y u v : Byte) : Triple (Space Byte) := ⟨Space.fill 256 y, Space.fill 64 u, Space.fill 64 v⟩

/-- Grids of 4, 1 and 1 equal records. -/
def grids (m : MbRecord) : Triple (Space MbRecord) := ⟨Space.fill 4 m, Space.fill 1 m, Space.fill 1 m⟩

/-- `P` of section 2.4: `P[y*16 + x] = 3x + 5y`. -/
def ramp : Space Byte := (List.range 256).map (fun i => (i, BitVec.ofNat 8 (3 * (i % 16) + 5 * (i / 16))))

/-- A frame whose original is 168, 128, 100, its prediction 128, its reconstruction 7, nothing transformed. -/
def frame (key : Bool) : Frame where
  orig := flat 168#8 128#8 100#8
  recons := flat 7#8 7#8 7#8
  pred := flat 128#8 128#8 128#8
  resid := ⟨[], [], []⟩
  mb := grids MbRecord.default
  keyframe := key

/-- READY, 16 x 16, TC1, a whole picture in `PIC_IN`, no frame. -/
def ready : State :=
  { State.reset with
    arg0 := 16#32
    arg1 := 16#32
    width := 16#32
    height := 16#32
    geom := Triple.of (geometryOf 16 16)
    qt := buildTables Config.tc1
    picIn := flat 168#8 128#8 100#8
    blkIn := Space.fill 64 40#16
    ctxValid := true }

/-- After one picture: a keyframe in CUR. -/
def keyed : State :=
  { ready with cur := some (frame true), frameNum := 1#32, framesSinceKf := 1#32 }

/-- After two pictures: an inter frame in CUR, a reference in REF. -/
def inter : State :=
  { ready with
    cur := some (frame false), ref := some (frame true), frameNum := 2#32, framesSinceKf := 2#32 }

/-- `inter` with `ME_RANGE` = 1 and both luma planes `P` (V-ME-3). -/
def ramps : State :=
  { inter with
    params := { Config.tc1 with meRange := 1 }
    cur := some { frame false with orig := { (frame false).orig with y := ramp } }
    ref := some { frame true with recons := { (frame true).recons with y := ramp } } }

/-- `inter` with the residuals' coefficients of V-TQ-11 stored. -/
def coded : State :=
  { inter with
    cur := some { frame false with
      resid := ⟨Space.write (Space.write (Space.fill 256 0#16) 0 16#16) 64 16#16, Space.fill 64 0#16,
        Space.write (Space.fill 64 0#16) 0 (BitVec.ofInt 16 (-6))⟩ } }

/-- `inter` with record 0x0003FB01 at `CUR.MB.Y[1]` and `REF.RECONS.Y` = `P` (V-MC-2). -/
def moved : State :=
  { ramps with
    cur := some { frame false with
      mb := { grids MbRecord.default with
        y := Space.write (Space.fill 4 MbRecord.default) 1 ⟨true, 0xFB#8, 0x03#8⟩ } } }

/-- The records of a luma grid whose last macroblock has the vector `(vx, vy)`, the first the vector
`(0, 0)`, and the two between none. -/
def lastVector (vx vy : Byte) (j : Nat) : MbRecord :=
  if j = 3 then ⟨true, vx, vy⟩ else if j = 0 then ⟨true, 0#8, 0#8⟩ else MbRecord.default

/-- `inter` with those records, and the first 131 samples of `REF.RECONS.Y` alone: rows 0 to 7, and three
samples of row 8. -/
def partReference (vx vy : Byte) : State :=
  { inter with
    cur := some { frame false with
      mb := { grids MbRecord.default with
        y := (List.range 4).map (fun j => (j, lastVector vx vy j)) } }
    ref := some { frame true with
      recons := { (frame true).recons with y := Space.fill 131 7#8 } } }

/-- Luma of `n` and chroma of `m` equal elements. -/
def planes {α : Type} (n m : Nat) (y u v : α) : Triple (Space α) :=
  ⟨Space.fill n y, Space.fill m u, Space.fill m v⟩

/-- A frame of a 32 x 32 picture (luma grid 4 x 4, chroma grid 2 x 2) with the first `ny`, `nu` and 256
samples of its reconstructed planes. -/
def wideFrame (key : Bool) (ny nu : Nat) : Frame where
  orig := planes 1024 256 168#8 128#8 100#8
  recons := ⟨Space.fill ny 7#8, Space.fill nu 7#8, Space.fill 256 7#8⟩
  pred := planes 1024 256 128#8 128#8 128#8
  resid := ⟨[], [], []⟩
  mb := planes 16 4 MbRecord.default MbRecord.default MbRecord.default
  keyframe := key

/-- READY, 32 x 32, a whole picture in `PIC_IN`, an inter frame in CUR, and a reference of which `ny` luma
and `nu` samples of U are reconstructed. -/
def wide (ny nu : Nat) : State :=
  { inter with
    width := 32#32
    height := 32#32
    geom := Triple.of (geometryOf 32 32)
    picIn := (wideFrame true 0 0).orig
    cur := some (wideFrame false 0 0)
    ref := some (wideFrame true ny nu) }

/-- The same before its picture is encoded: the frame to become the reference still in CUR. -/
def wideKeyed (ny nu : Nat) : State :=
  { wide ny nu with
    cur := some (wideFrame true ny nu), ref := none, frameNum := 1#32, framesSinceKf := 1#32 }

def result (o : Host.Outcome State Fault Refusal) : Option State :=
  match o with
  | .next t => some t
  | .fault _ => none
  | .refused _ => none

/-- A value of the next state. -/
def after {α : Type} (i : Instr) (s : State) (f : State → α) : Option α := (result (exec i s)).map f

/-! ### One step per command -/

/-- V-GEO-1, row 33 x 31 of R225. -/
theorem test_ctx_new_geometry :
    after .ctxNew { State.reset with arg0 := 33#32, arg1 := 31#32 }
      (fun t => ([t.pw .y, t.ph .y, t.pw .u, t.ph .v, t.cols .y, t.rows .v], t.status)) =
    some ([48, 32, 24, 16, 6, 2], 0x00000001#32) := by decide +kernel

/-- V-QT-2; the refusal of V-GEO-2 leaves WIDTH. -/
theorem test_ctx_new_tables :
    after .ctxNew { State.reset with arg0 := 16#32, arg1 := 16#32 }
      (fun t => [t.element (.qt .y) 63, t.element (.qt .u) 7, t.element (.qt .v) 7]) =
      some [some 10#32, some 20#32, some 20#32] ∧
    after .ctxNew { State.reset with arg0 := 16385#32, arg1 := 16#32 }
      (fun t => [t.fault, t.faultInfo, t.status, t.width]) =
      some [0x01#32, 0x01000000#32, 0x40#32, 0#32] := by decide +kernel

/-- V-KF-1. -/
theorem test_encode_image_first :
    after .encodeImage ready (fun t => ([t.frameNum, t.framesSinceKf, t.status, t.meBest, t.pos],
      [t.element (.mb .cur .y) 3, t.element (.orig .cur .v) 63, t.element (.pred .cur .y) 0,
        t.element (.recons .cur .y) 0])) =
    some ([1#32, 1#32, 0x0B#32, 0x7FFFFFFF#32, 0#32], [some 0#32, some 100#32, some 128#32, none]) := by
  decide +kernel

/-- V-FLT-16: an inter picture whose reference has not been reconstructed. -/
theorem test_encode_image_needs_reconstruction :
    after .encodeImage { keyed with cur := some { frame true with recons := ⟨[], [], []⟩ } }
      (fun t => [t.fault, t.faultInfo, t.status, t.frameNum]) =
    some [0x06#32, 0x02000000#32, 0x57#32, 1#32] := by decide +kernel

/-- STATUS 0x21 of V-FLT-6. -/
theorem test_stream_end : after .streamEnd ready State.status = some 0x21#32 := by decide +kernel

/-- V-FLT-2. -/
theorem test_abort : after .abort State.reset (fun t => [t.fault, t.faultInfo, t.status]) =
    some [0x02#32, 0x04000000#32, 0x40#32] := by decide +kernel

/-- V-SAD-6, `P`@0 against `P`@1, through the command. -/
theorem test_sad : after (.sad 0x00#8 0x24#8) { ramps with arg0 := 0#32, arg1 := 1#32, arg2 := 16#32 }
    State.sadAcc = some 192#32 := by decide +kernel

/-- A window one element too long, and a table: `E_GEOMETRY`. -/
theorem test_sad_faults :
    after (.sad 0x00#8 0x40#8) { ramps with arg0 := 0#32, arg1 := 0#32, arg2 := 36#32 } State.fault =
      some 0x03#32 ∧
    after (.sad 0x00#8 0x44#8) { ramps with arg0 := 0#32, arg1 := 0#32, arg2 := 1#32 } State.fault =
      some 0x03#32 := by decide +kernel

/-- V-ME-3, range 1, macroblock (1,1): vector (-1,-1), 512. -/
theorem test_me_block : after (.meBlock .y 1 1) ramps
    (fun t => ([t.meBest, t.meMv, t.pos, t.sadAcc], t.element (.mb .cur .y) 3)) =
    some ([512#32, 0x00FFFF01#32, 0x00000801#32, 512#32], some 0x00FFFF01#32) := by decide +kernel

/-- V-ME-4: an empty window. -/
theorem test_me_block_empty : after (.meBlock .u 0 0) { inter with sadAcc := 77#32 }
    (fun t => ([t.meBest, t.meMv, t.pos, t.sadAcc], t.element (.mb .cur .u) 0)) =
    some ([0x7FFFFFFF#32, 0x00000001#32, 0x00400000#32, 77#32], some 0x00000001#32) := by
  decide +kernel

/-- V-ME-3, range 1: vectors (0,0), (-1,0), (0,-1), (-1,-1). -/
theorem test_me_comp : after (.meComp .y) ramps
    (fun t => ((List.range 4).map (t.element (.mb .cur .y)), [t.meBest, t.pos])) =
    some ([some 0x00000001#32, some 0x0000FF01#32, some 0x00FF0001#32, some 0x00FFFF01#32],
      [512#32, 0x00000801#32]) := by decide +kernel

/-- V-ME-7: no search on a keyframe. -/
theorem test_me_comp_keyframe : after (.meComp .y) keyed (fun t => [t.fault, t.faultInfo]) =
    some [0x04#32, 0x21000000#32] := by decide +kernel

/-- V-MC-2: 24 + 3k + 5r. -/
theorem test_mc_block : after (.mcBlock .y 0 1) moved
    (fun t => ([t.element (.pred .cur .y) 8, t.element (.pred .cur .y) (7 * 16 + 15),
      t.element (.pred .cur .y) 7], t.pos)) =
    some ([some 24#32, some 80#32, some 128#32], 0x00000001#32) := by decide +kernel

/-- V-MC-4: outside the grid even on a keyframe. -/
theorem test_mc_block_grid : after (.mcBlock .y 0 2) keyed (fun t => [t.fault, t.faultInfo, t.pos]) =
    some [0x03#32, 0x30000002#32, 0#32] := by decide +kernel

/-- V-MC-5. -/
theorem test_mc_comp : after (.mcComp .u)
    { inter with cur := some { frame false with mb := grids ⟨true, 0#8, 0#8⟩ } }
    (fun t => ([t.element (.pred .cur .u) 0, t.element (.pred .cur .u) 63, t.element (.pred .cur .v) 0],
      t.pos)) = some ([some 7#32, some 7#32, some 128#32], 0x00400000#32) := by decide +kernel

/-- V-MC-4: a keyframe without a reference. -/
theorem test_mc_comp_keyframe : after (.mcComp .y) keyed
    (fun t => (t.status, t.pos, t.element (.pred .cur .y) 0)) =
    some (0x0B#32, 0x00000801#32, some 128#32) := by decide +kernel

/-- V-TQ-7. -/
theorem test_dctq_block : after (.dctqBlock .y) ready
    (fun t => [t.element .blkOut 0, t.element .blkOut 1]) = some [some 16#32, some 0#32] ∧
    after (.dctqBlock .u) ready (fun t => t.element .blkOut 0) = some (some 8#32) := by decide +kernel

/-- V-TQ-5: one horizontal coefficient. -/
theorem test_deqidct_block : after (.deqidctBlock .y)
    { ready with blkIn := Space.write (Space.fill 64 0#16) 1 4#16 }
    (fun t => (List.range 8).map (fun x => t.element .blkOut (56 + x))) =
    some ([10, 8, 6, 2, -2, -6, -8, -10].map (fun n => some (BitVec.ofInt 32 n))) := by decide +kernel

/-- V-TQ-11. -/
theorem test_dctq_row : after (.dctqRow .y 0) inter
    (fun t => ([0, 1, 64, 127, 128].map (t.element (.resid .cur .y)), t.pos)) =
    some ([some 16#32, some 0#32, some 16#32, some 0#32, none], 0x00000001#32) := by decide +kernel

/-- V-TQ-15. -/
theorem test_dctq_row_band : after (.dctqRow .y 2) inter (fun t => [t.fault, t.faultInfo]) =
    some [0x03#32, 0x42001000#32] := by decide +kernel

/-- V-TQ-11. -/
theorem test_deqidct_row : after (.deqidctRow .y 0)
    { coded with cur := coded.cur.map (fun f => { f with recons := ⟨[], [], []⟩ }) }
    (fun t => ([0, 127, 128].map (t.element (.recons .cur .y)), t.pos)) =
    some ([some 168#32, some 168#32, none], 0x00000001#32) := by decide +kernel

/-- V-TQ-11: -6 at `CUR.RESID.V[0]`. -/
theorem test_dctq_plane : after (.dctqPlane .v) inter
    (fun t => ([0, 1].map (t.element (.resid .cur .v)), t.pos)) =
    some ([some 0xFFFFFFFA#32, some 0#32], 0x00800000#32) := by decide +kernel

/-- V-TQ-15. -/
theorem test_dctq_plane_state : after (.dctqPlane .y) ready State.fault = some 0x04#32 := by
  decide +kernel

/-- V-TQ-11: 98. -/
theorem test_deqidct_plane : after (.deqidctPlane .v) coded
    (fun t => ([0, 63].map (t.element (.recons .cur .v)), t.pos)) =
    some ([some 98#32, some 98#32], 0x00800000#32) := by decide +kernel

/-- V-TQ-15: before any DCTQ on the frame. -/
theorem test_deqidct_plane_undef : after (.deqidctPlane .y) inter
    (fun t => [t.fault, t.faultInfo, t.pos]) = some [0x06#32, 0x45000000#32, 0#32] := by decide +kernel

/-- V-ZZ-1 and V-ZZ-2: the block `0, 1, .., 63`. -/
def counting : State := { ready with blkIn := (List.range 64).map (fun i => (i, BitVec.ofNat 16 i)) }

theorem test_zz_fwd : after .zzFwd counting (fun t => [2, 3, 11, 63].map (t.element .blkOut)) =
    some [some 8#32, some 16#32, some 25#32, some 63#32] := by decide +kernel

theorem test_zz_inv : after .zzInv counting (fun t => [2, 3, 8, 9].map (t.element .blkOut)) =
    some [some 5#32, some 6#32, some 2#32, some 4#32] := by decide +kernel

/-! ### The host port -/

def stepped {α : Type} (s : State) (f : State → α) : Option α := (result (step s)).map f

/-- The first instruction after reset: ABORT (V-FLT-2). -/
theorem test_step_runs_word :
    stepped (State.reset.withFetchWord 32 0x04000000) (fun t => [t.fault, t.faultInfo]) =
      some [0x02#32, 0x04000000#32] ∧ decodeTableWord 32 0x04000000 = some .abort := by decide +kernel

/-- V-FLT-8, V-FLT-10, V-FLT-12. -/
theorem test_read_faults :
    stepped { ready with pending := [.read 0x00#8] } (fun t => [t.fault, t.faultInfo]) =
      some [0x07#32, 0x00000000#32] ∧
    stepped { ready with pending := [.read 0x07#8] } (fun t => [t.fault, t.faultInfo]) =
      some [0x07#32, 0x07000000#32] ∧
    stepped { ready with pending := [.read 0x32#8], msel := 0x48#32, maddr := 64#32 }
      (fun t => [t.fault, t.faultInfo]) = some [0x07#32, 0x32480040#32] := by decide +kernel

/-- V-FLT-9, V-FLT-13. -/
theorem test_write_faults :
    stepped { ready with pending := [.write 0x01#8 0#32] } (fun t => [t.fault, t.faultInfo]) =
      some [0x07#32, 0x01000000#32] ∧
    stepped { ready with pending := [.write 0x32#8 9#32], msel := 0x44#32, maddr := 3#32 }
      (fun t => [t.fault, t.faultInfo, t.status]) = some [0x07#32, 0x32440003#32, 0x41#32] := by
  decide +kernel

/-- V-FLT-11, V-FLT-15, and V-QT-2's load. -/
theorem test_window_reads :
    stepped { State.reset with pending := [.read 0x32#8], msel := 0x49#32 }
      (fun t => [t.fault, t.faultInfo]) = some [0x06#32, 0x32490000#32] ∧
    stepped { ready with pending := [.read 0x32#8], msel := 0x148#32 }
      (fun t => [t.fault, t.faultInfo]) = some [0x07#32, 0x32480000#32] ∧
    stepped { ready with pending := [.read 0x32#8], msel := 0x45#32, maddr := 7#32 } State.hostRead =
      some (some 20#32) := by decide +kernel

/-- A coefficient stored and read back: 0x12348000 keeps 0x8000, which reads as 0xFFFF8000 (R63). -/
theorem test_window_write :
    stepped { ready with pending := [.write 0x32#8 0x12348000#32], msel := 0x48#32, maddr := 5#32 }
      (fun t => t.element .blkIn 5) = some (some 0xFFFF8000#32) := by decide +kernel

/-- While FAULTED a write changes nothing and reset brings the block back. -/
theorem test_faulted :
    stepped { ready with pending := [.write 0x04#8 5#32], faulted := true, fault := 4#32 }
      (fun t => [t.arg0, t.fault]) = some [16#32, 4#32] ∧
    stepped { ready with pending := [.reset], faulted := true, fault := 4#32 }
      (fun t => [t.arg0, t.fault, t.status]) = some [0#32, 0#32, 0#32] := by decide +kernel

/-! ### Witnesses: states and operands that meet every statement's hypotheses together -/

theorem holds_fill {α : Type} {n m : Nat} (h : n ≤ m) (a : α) :
    Holds (Space.fill m a) n (fun _ => a) := by
  intro i hi
  rw [Space.read_fill, if_pos (by omega)]

theorem grid_inter : GridOk inter := by intro c; cases c <;> decide

theorem planes_inter (c : Comp) : inter.planeSize c = match c with | .y => 256 | .u => 64 | .v => 64 := by
  cases c <;> decide

theorem flat_holds (b : Byte) (c : Comp) :
    Holds ((flat b b b).get c) (inter.planeSize c) (fun _ => b) := by
  rw [planes_inter]
  cases c <;> exact holds_fill (Nat.le_refl _) b

theorem flat_holds3 (b1 b2 b3 : Byte) (c : Comp) :
    Holds ((flat b1 b2 b3).get c) (inter.planeSize c)
      (fun _ => match c with | .y => b1 | .u => b2 | .v => b3) := by
  rw [planes_inter]
  cases c <;> exact holds_fill (Nat.le_refl _) _

theorem grids_hold (m : MbRecord) (c : Comp) :
    Holds ((grids m).get c) (inter.gridSize c) (fun _ => m) := by
  have e : inter.gridSize c = match c with | .y => 4 | .u => 1 | .v => 1 := by cases c <;> decide
  rw [e]
  cases c <;> exact holds_fill (Nat.le_refl _) _

theorem tables_hold (c : Comp) : ∃ Q, Holds (inter.qt.get c) 64 Q ∧ EntriesPositive Q := by
  have h : ∀ k : Fin 64, ∃ v, Space.read (inter.qt.get c) k = some v ∧ 1 ≤ v.toNat := by
    have : ∀ k : Fin 64, 1 ≤ ((Space.read (inter.qt.get c) k).getD 0#8).toNat := by
      cases c <;> decide +kernel
    intro k
    have hk := this k
    cases hv : Space.read (inter.qt.get c) k with
    | none => simp [hv] at hk
    | some v => exact ⟨v, rfl, by simpa [hv] using hk⟩
  refine ⟨fun k => (Space.read (inter.qt.get c) k).getD 0#8, fun k hk => ?_, fun k hk => ?_⟩
  · obtain ⟨v, hv, _⟩ := h ⟨k, hk⟩
    simp only at hv ⊢
    rw [hv, Option.getD_some]
  · obtain ⟨v, hv, hp⟩ := h ⟨k, hk⟩
    simp only at hv ⊢
    rw [hv, Option.getD_some]
    exact hp

/-- What a luma macroblock of a 16 x 16 picture searches: every window but the last column and row, whichever
macroblock it is; a chroma one searches nothing. -/
theorem candidate_inter {X Y x y : Nat} (hX : X < 2) (hY : Y < 2) :
    (Candidate inter .y X Y x y ↔ x < 8 ∧ y < 8) ∧ ∀ c, c ≠ .y → ¬ Candidate inter c X Y x y := by
  have e1 : effectiveRange inter .y = 16 := by decide
  have e2 : inter.pw .y = 16 ∧ inter.ph .y = 16 := by decide
  constructor
  · unfold Candidate
    rw [e1, e2.1, e2.2]
    omega
  · intro c hc
    have e3 : effectiveRange inter c = 8 ∧ inter.pw c = 8 := by cases c <;> first | exact absurd rfl hc | decide
    unfold Candidate
    rw [e3.1, e3.2]
    omega

theorem last_candidate_inter : InGrid inter .y 1 1 ∧ LastCandidate inter .y 1 1 7 7 := by
  refine ⟨⟨by decide, by decide⟩, (candidate_inter (by decide) (by decide)).1.mpr (by decide), ?_⟩
  intro x y h
  have := (candidate_inter (by decide) (by decide)).1.mp h
  omega

/-- Macroblock (1,1) of Y is the last that searches. -/
theorem none_after_last (c : Comp) (x y : Nat) (h : InGrid inter c x y)
    (hb : unitBefore inter (.y, 1, 1) (c, x, y)) (x₂ y₂ : Nat) : ¬ Candidate inter c x y x₂ y₂ := by
  have e : ∀ c, inter.cols c ≤ 2 ∧ inter.rows c ≤ 2 := by intro c; cases c <;> decide
  have hx := h.1
  have hy := h.2
  have := e c
  refine (candidate_inter (by omega) (by omega)).2 c ?_
  rintro rfl
  have e2 : inter.cols .y = 2 := by decide
  unfold unitBefore at hb
  simp only [e2] at hb
  omega

theorem grid_wide (ny nu : Nat) : GridOk (wide ny nu) := by
  have h : GridOk (wide 0 0) := by intro c; cases c <;> decide
  exact h

theorem geometry_wide (ny nu : Nat) (c : Comp) :
    ((wide ny nu).planeSize c = if c = .y then 1024 else 256) ∧
      ((wide ny nu).gridSize c = if c = .y then 16 else 4) ∧
      ((wide ny nu).pw c = if c = .y then 32 else 16) ∧ ((wide ny nu).ph c = if c = .y then 32 else 16) ∧
      ((wide ny nu).cols c = if c = .y then 4 else 2) := by
  have h : ∀ c, ((wide 0 0).planeSize c = if c = .y then 1024 else 256) ∧
      ((wide 0 0).gridSize c = if c = .y then 16 else 4) ∧
      ((wide 0 0).pw c = if c = .y then 32 else 16) ∧ ((wide 0 0).ph c = if c = .y then 32 else 16) ∧
      ((wide 0 0).cols c = if c = .y then 4 else 2) := by intro c; cases c <;> decide
  exact h c

theorem wideFrame_recons_y (key : Bool) (ny nu : Nat) :
    (wideFrame key ny nu).recons.get .y = Space.fill ny 7#8 := rfl

theorem planes_hold {α : Type} (n m : Nat) (y u v : α) (c : Comp) :
    Holds ((planes n m y u v).get c) (if c = .y then n else m)
      (fun _ => match c with | .y => y | .u => u | .v => v) := by
  cases c
  · exact holds_fill (Nat.le_refl n) y
  · exact holds_fill (Nat.le_refl m) u
  · exact holds_fill (Nat.le_refl m) v

/-- With 23 rows of the reference reconstructed the macroblocks of row 0 reach no further, and the search of
macroblock (0,1) stops at its first window that reaches row 23. -/
theorem stops_wide (nu : Nat) :
    (∀ x y, y = 0 → WindowsHold (wide 736 nu) .y (wideFrame true 736 nu) (fun _ => 7#8) x y) ∧
      SearchStopsAt (wide 736 nu) .y (wideFrame true 736 nu) (fun _ => 7#8) 0 1 0 16 := by
  obtain ⟨_, _, e1, e2, _⟩ := geometry_wide 736 nu .y
  have e3 : effectiveRange (wide 736 nu) .y = 16 := rfl
  rw [if_pos rfl] at e1 e2
  have hw : ∀ x y r k, windowSample (wide 736 nu) .y x y r k = (y + r) * 32 + x + k := by
    intro x y r k
    unfold windowSample
    rw [e1]
  have hr : ∀ i, Space.read ((wideFrame true 736 nu).recons.get .y) i =
      if i < 736 then some 7#8 else none := by
    intro i
    rw [wideFrame_recons_y, Space.read_fill]
  refine ⟨?_, ?_, ⟨7, 0, by decide, by decide, by rw [hw, hr, if_neg (by omega)]⟩, ?_⟩
  · rintro X _ rfl x y r k hc hr' hk
    unfold Candidate at hc
    rw [e1, e2, e3] at hc
    rw [hw, hr, if_pos (by omega)]
  · unfold Candidate
    rw [e1, e2, e3]
    omega
  · intro x y r k hc hb hr' hk
    unfold Candidate at hc
    rw [e1, e2, e3] at hc
    unfold rasterBefore at hb
    rw [hw, hr, if_pos (by simp only at hb; omega)]

theorem witness_DecodeOfEncode : Instr.wellFormed (.mcBlock .v 2047 0) = true := by decide

theorem witness_EncodeOfDecode : decode 0x20401003#32 = .ok (.meBlock .u 2 3) := by rfl

theorem witness_DecodeFollowsOpcodeMap : (Opcode.sad, 0x10000000#32, 0xFF0000FF#32, false) ∈ opcodeMap ∧
    (Opcode.meComp, 0x21000000#32, 0xFF3FFFFF#32, true) ∈ opcodeMap := by decide

theorem witness_StepRunsDecodedCommand :
    Next { ready with pending := [.write 0x00#8 0x03000000#32] } (.write 0x00#8 0x03000000#32) [] ∧
      ready.faulted = false ∧ decode 0x03000000#32 = .ok .streamEnd := ⟨rfl, rfl, rfl⟩

theorem witness_StepRefusesIllegalWord :
    Next { ready with pending := [.write 0x00#8 0x20C00000#32] } (.write 0x00#8 0x20C00000#32) [] ∧
      ready.faulted = false ∧ decode 0x20C00000#32 = .error .noComponent := ⟨rfl, rfl, rfl⟩

theorem witness_StepAlwaysAnswers : State.reset.pending = [] := rfl

theorem witness_ResetLeavesResetValues :
    Next { inter with pending := [.reset, .read 0x01#8], faulted := true } .reset [.read 0x01#8] := rfl

/-- The first and the last register of the list. -/
theorem witness_HostReadReturnsRegister :
    Next { inter with pending := [.read 0x01#8] } (.read (BitVec.ofNat 8 0x01)) [] ∧
      Next { inter with pending := [.read 0x31#8] } (.read (BitVec.ofNat 8 0x31)) [] := ⟨rfl, rfl⟩

/-- Both ends of every range of absent and of read-only registers. -/
theorem witness_IllegalRegisterAccessFaults :
    (∀ n ∈ [0x00#8, 0x07#8, 0x0C#8, 0x0F#8, 0x23#8, 0x2F#8, 0x33#8, 0xFF#8],
      Next { inter with pending := [.read n] } (.read n) [] ∧
        (n = 0x00#8 ∨ n = 0x07#8 ∨ (0x0C ≤ n.toNat ∧ n.toNat ≤ 0x0F) ∨
          (0x23 ≤ n.toNat ∧ n.toNat ≤ 0x2F) ∨ 0x33 ≤ n.toNat)) ∧
    (∀ n ∈ [0x01#8, 0x03#8, 0x07#8, 0x2F#8, 0x33#8, 0xFF#8],
      Next { inter with pending := [.write n 0#32] } (.write n 0#32) [] ∧
        ((0x01 ≤ n.toNat ∧ n.toNat ≤ 0x03) ∨ (0x07 ≤ n.toNat ∧ n.toNat ≤ 0x2F) ∨ 0x33 ≤ n.toNat)) ∧
    inter.faulted = false := by
  refine ⟨fun n hn => ⟨rfl, ?_⟩, fun n hn => ⟨rfl, ?_⟩, rfl⟩
  · revert n; decide
  · revert n; decide

theorem witness_HostWriteStoresRegister :
    inter.faulted = false ∧ (∀ n ∈ [0x04#8, 0x05#8, 0x06#8, 0x30#8, 0x31#8],
      Next { inter with pending := [.write n 0xFFFFFFFF#32] } (.write n 0xFFFFFFFF#32) []) :=
  ⟨rfl, fun _ _ => rfl⟩

/-- The first and the last id of a slot, and the last space. -/
theorem witness_SpaceIdsNameSpaces : SpaceRef.ofId 0x00#8 = some (.orig .cur .y) ∧
    SpaceRef.ofId 0x32#8 = some (.mb .ref .v) ∧ SpaceRef.ofId 0x49#8 = some .blkOut := by decide

/-- The number of a space is below 0x4A, and 0x48 is `BLK_IN` alone (R61). -/
theorem space_number (sp : SpaceRef) : sp.id < 0x4A ∧ (sp.id = 0x48 → sp = .blkIn) := by
  have h : ∀ f : Slot, f.base ≤ 0x20 := by intro f; cases f <;> decide
  cases sp with
  | orig f c => have := h f; have := c.number_lt; simp only [SpaceRef.id]; omega
  | recons f c => have := h f; have := c.number_lt; simp only [SpaceRef.id]; omega
  | pred f c => have := h f; have := c.number_lt; simp only [SpaceRef.id]; omega
  | resid f c => have := h f; have := c.number_lt; simp only [SpaceRef.id]; omega
  | mb f c => have := h f; have := c.number_lt; simp only [SpaceRef.id]; omega
  | picIn c => have := c.number_lt; simp only [SpaceRef.id]; omega
  | qt c => have := c.number_lt; simp only [SpaceRef.id]; omega
  | blkIn => exact ⟨by decide, fun _ => rfl⟩
  | blkOut => exact ⟨by decide, fun h => absurd h (by decide)⟩

theorem id_of_word {n : Nat} {sp : SpaceRef} (hn : n < 2 ^ 32)
    (h : BitVec.ofNat 32 n = BitVec.ofNat 32 sp.id) : sp.id = n := by
  have := (space_number sp).1
  have e := congrArg BitVec.toNat h
  simp only [BitVec.toNat_ofNat] at e
  omega

/-- The last element of a plane, an `undef` element, the first index beyond a space, a reserved id. -/
theorem witness_WindowReadFollowsRules :
    (inter.hasSpace (.orig .ref .u) = true ∧ 63 < inter.spaceSize (.orig .ref .u) ∧
      inter.element (.orig .ref .u) 63 = some 128#32) ∧
    (inter.hasSpace (.resid .cur .y) = true ∧ 0 < inter.spaceSize (.resid .cur .y) ∧
      inter.element (.resid .cur .y) 0 = none) ∧
    (∀ sp, 0x48#32 = BitVec.ofNat 32 sp.id → inter.hasSpace sp = true → inter.spaceSize sp ≤ 64) ∧
    (∀ sp : SpaceRef, 0x4A#32 ≠ BitVec.ofNat 32 sp.id) ∧ inter.faulted = false := by
  refine ⟨by decide +kernel, by decide +kernel, ?_, ?_, rfl⟩
  · intro sp e _
    rw [(space_number sp).2 (id_of_word (by decide) e)]
    decide
  · intro sp e
    have := id_of_word (by decide) e
    have := (space_number sp).1
    omega

/-- A space of each of the three kinds the clauses speak of, at its last element; and MSEL with a bit above
the id, a reserved id, the first index beyond a space, and a space that does not exist. -/
theorem witness_WindowWriteFollowsRules :
    let s (msel maddr : Word) : State :=
      { inter with pending := [.write 0x32#8 9#32], msel := msel, maddr := maddr }
    (∀ msel maddr, (s msel maddr).faulted = false ∧ Next (s msel maddr) (.write 0x32#8 9#32) []) ∧
    (inter.hasSpace (.pred .cur .y) = true ∧ 255 < inter.spaceSize (.pred .cur .y)) ∧
    (inter.hasSpace (.picIn .v) = true ∧ 63 < inter.spaceSize (.picIn .v)) ∧
    (inter.hasSpace .blkIn = true ∧ 63 < inter.spaceSize .blkIn) ∧
    (inter.hasSpace (.pred .ref .y) = true ∧ 255 < inter.spaceSize (.pred .ref .y)) ∧
    (inter.hasSpace (.qt .y) = true ∧ 63 < inter.spaceSize (.qt .y)) ∧
    (∀ w ∈ [(0x148#32, 0#32), (0x4A#32, 0#32), (0x48#32, 64#32)], ∀ sp,
      w.1 = BitVec.ofNat 32 sp.id → inter.hasSpace sp = true → inter.spaceSize sp ≤ w.2.toNat) ∧
    ∀ sp, 0x40#32 = BitVec.ofNat 32 sp.id → State.reset.hasSpace sp = true →
      State.reset.spaceSize sp ≤ 0 := by
  refine ⟨fun _ _ => ⟨rfl, rfl⟩, by decide, by decide, by decide, by decide, by decide, ?_, ?_⟩
  · intro w hw sp e _
    have hlt := (space_number sp).1
    simp only [List.mem_cons, List.not_mem_nil, or_false] at hw
    rcases hw with rfl | rfl | rfl
    · have := id_of_word (n := 0x148) (by decide) e
      omega
    · have := id_of_word (n := 0x4A) (by decide) e
      omega
    · rw [(space_number sp).2 (id_of_word (n := 0x48) (by decide) e)]
      decide
  · intro sp e h
    have hid := id_of_word (n := 0x40) (by decide) e
    have hf : ∀ f : Slot, f.base ≤ 0x20 := by intro f; cases f <;> decide
    cases sp with
    | blkIn => exact absurd hid (by decide)
    | blkOut => exact absurd hid (by decide)
    | picIn c => cases h
    | qt c => cases h
    | orig f c => have := hf f; have := c.number_lt; simp only [SpaceRef.id] at hid; omega
    | recons f c => have := hf f; have := c.number_lt; simp only [SpaceRef.id] at hid; omega
    | pred f c => have := hf f; have := c.number_lt; simp only [SpaceRef.id] at hid; omega
    | resid f c => have := hf f; have := c.number_lt; simp only [SpaceRef.id] at hid; omega
    | mb f c => have := hf f; have := c.number_lt; simp only [SpaceRef.id] at hid; omega

/-- One command of each row of R241 in a state that does not accept it. -/
theorem witness_UnacceptedCommandFaults :
    ¬ Accepted .ctxNew ready ∧ ¬ Accepted .encodeImage { ready with ended := true } ∧
    ¬ Accepted .encodeImage { ready with frameNum := 0xFFFFFFFF#32 } ∧
    ¬ Accepted .streamEnd State.reset ∧ ¬ Accepted .zzFwd State.reset ∧
    ¬ Accepted (.meComp .y) keyed ∧ ¬ Accepted (.mcComp .u) ready ∧
    ¬ Accepted (.deqidctPlane .v) ready ∧ ready.faulted = false := by
  refine ⟨by simp [Accepted, ready], by simp [Accepted, ready], by simp [Accepted, ready],
    by simp [Accepted, State.reset, State.resetWith], by simp [Accepted, State.reset, State.resetWith],
    ?_, by simp [Accepted, ready, State.reset, State.resetWith],
    by simp [Accepted, ready, State.reset, State.resetWith], rfl⟩
  rintro ⟨_, cur, ref, hc, hk, hr⟩
  cases hr

theorem witness_FaultedStateIsAbsorbing :
    Next { inter with pending := [.write 0x00#8 0x01000000#32], faulted := true }
      (.write 0x00#8 0x01000000#32) [] ∧
    ∃ t, step { inter with pending := [.write 0x00#8 0x01000000#32], faulted := true } = .next t :=
  ⟨rfl, _, rfl⟩

/-- Each clause at the edge of its range: 0 and 16385, the first index beyond a grid. -/
theorem witness_OperandCheckFaultsChangeNothingElse :
    (Accepted .ctxNew State.reset ∧ State.reset.arg0.toInt ≤ 0) ∧
    (16384 : Int) < (16385#32 : Word).toInt ∧
    (inter.cols .y ≤ 2 ∧ inter.rows .u ≤ 1 ∧ Accepted (.meBlock .y 0 2) inter ∧
      Accepted (.mcBlock .u 1 0) inter) ∧
    (inter.ph .y / 8 ≤ 2 ∧ Accepted (.dctqRow .y 2) inter ∧ Accepted (.deqidctRow .y 2) inter) ∧
    inter.faulted = false := by
  refine ⟨⟨rfl, by decide⟩, by decide, ⟨by decide, by decide, ⟨rfl, _, _, rfl, rfl, rfl⟩, rfl, ?_⟩,
    ⟨by decide, ⟨rfl, ?_⟩, rfl, ?_⟩, rfl⟩ <;> exact Option.some_ne_none _

theorem witness_AbortRecordsInputError : State.reset.faulted = false ∧ inter.faulted = false := ⟨rfl, rfl⟩

theorem witness_GeometryAndTablesAreImmutable :
    (inter.ctxValid = true ∧ inter.faulted = false) ∧
      ({ inter with pending := [.write 0x00#8 0x01000000#32] } : State).ctxValid = true ∧
      ({ inter with pending := [.write 0x00#8 0x01000000#32] } : State).pending.head? ≠ some .reset ∧
      ∃ t, step { inter with pending := [.write 0x00#8 0x01000000#32] } = .next t :=
  ⟨⟨rfl, rfl⟩, rfl, by decide, _, rfl⟩

theorem witness_OnlyEncodeImageMovesFrames :
    (Instr.sad 0x00#8 0x00#8) ≠ .encodeImage ∧ (Instr.sad 0x00#8 0x00#8) ≠ .ctxNew ∧
      ∃ t, exec (.sad 0x00#8 0x00#8) inter = .next t := ⟨by decide, by decide, _, rfl⟩

/-- A constructed state with two frames meets the invariants, and steps. -/
theorem witness_StepKeepsContext : inter.ContextInv ∧ ∃ t, step inter = .next t := by
  refine ⟨⟨fun h => (by cases h), fun _ => ⟨by decide, by decide, rfl, rfl⟩⟩, _, rfl⟩

theorem witness_StepKeepsFaultRecord : inter.FaultInv ∧ ∃ t, step inter = .next t :=
  ⟨⟨fun _ => ⟨rfl, rfl⟩, fun h => (by cases h)⟩, _, rfl⟩

theorem witness_StepKeepsFrameHistory : inter.HistoryInv ∧ ∃ t, step inter = .next t := by
  refine ⟨⟨by decide, ?_, by decide, fun h => (by cases h), fun f _ _ => Option.some_ne_none _⟩, _, rfl⟩
  exact ⟨fun h => absurd h (by decide), fun h => (by cases h)⟩

/-- `KF_INTERVAL` = 100, and 0. -/
theorem witness_KeyframesComeEveryInterval : inter.ScheduleInv ∧ inter.params.kfInterval ≠ 0#32 ∧
    State.ScheduleInv { inter with params := { Config.tc1 with kfInterval := 0#32 } } ∧
    ∃ t, step inter = .next t := by
  refine ⟨fun _ => ⟨by decide, by decide, fun _ => ⟨by decide, by decide⟩⟩, by decide,
    fun _ => ⟨by decide, by decide, fun h => absurd rfl h⟩, _, rfl⟩

theorem witness_StepKeepsMemory : inter.ContextInv ∧ inter.MemoryInv ∧ ∃ t, step inter = .next t := by
  refine ⟨witness_StepKeepsContext.1, ⟨by decide +kernel, ?_, ?_⟩, _, rfl⟩
  · intro f hf
    have e : frame false = f := Option.some.inj hf
    rw [← e]
    decide +kernel
  · intro f hf
    have e : frame true = f := Option.some.inj hf
    rw [← e]
    decide +kernel

theorem witness_StepKeepsVectorsInside :
    inter.ContextInv ∧ inter.VectorInv ∧ ∃ t, step inter = .next t := by
  have hm : ∀ key c j m, Space.read ((frame key).mb.get c) j = some m → m = MbRecord.default := by
    intro key c j m h
    cases c <;> simp only [frame, grids, Triple.get, Space.read_fill] at h <;> split at h <;>
      first | exact (Option.some.inj h).symm | cases h
  have hz : ∀ c x y m, x < inter.cols c → y < inter.rows c → m = MbRecord.default →
      vectorInside m.mvX (inter.rng c) (x * 8) (inter.pw c) ∧
        vectorInside m.mvY (inter.rng c) (y * 8) (inter.ph c) := by
    rintro c x y _ hx hy rfl
    obtain ⟨_, _, h3, h4⟩ := grid_inter c
    have z : (MbRecord.default.mvX).toInt = 0 ∧ (MbRecord.default.mvY).toInt = 0 := by decide
    unfold vectorInside
    rw [z.1, z.2]
    omega
  have hv : ∀ key, (frame key).VectorsInside inter := fun key =>
    ⟨fun c j m _ h => hm key c j m h, fun c x y m hx hy h => hz c x y m hx hy (hm key c _ m h)⟩
  refine ⟨witness_StepKeepsContext.1, ⟨?_, ?_⟩, _, rfl⟩
  · intro f hf
    rw [← Option.some.inj hf]
    exact hv false
  · intro f hf
    rw [← Option.some.inj hf]
    exact hv true

theorem witness_StepKeepsResultRegisters :
    inter.ContextInv ∧ inter.ResultInv ∧ ∃ t, step inter = .next t := by
  refine ⟨witness_StepKeepsContext.1, ⟨by decide, .inr rfl, ⟨MbRecord.default, by decide⟩,
    fun h => (by cases h), fun _ => ⟨.y, 0, 0, by decide, by decide, by decide⟩⟩, _, rfl⟩

/-- The smallest and the largest legal dimension. -/
theorem witness_CtxNewConstructs :
    let s := { State.reset with arg0 := 1#32, arg1 := 16384#32 }
    s.faulted = false ∧ Accepted .ctxNew s ∧ s.arg0.toInt = (1 : Nat) ∧ s.arg1.toInt = (16384 : Nat) :=
  ⟨rfl, rfl, by decide, by decide⟩

theorem witness_CtxNewBuildsTables :
    let s := { State.reset with arg0 := 1#32, arg1 := 16384#32 }
    s.faulted = false ∧ Accepted .ctxNew s ∧ 1 ≤ s.arg0.toInt ∧ s.arg0.toInt ≤ 16384 ∧
      1 ≤ s.arg1.toInt ∧ s.arg1.toInt ≤ 16384 := ⟨rfl, rfl, by decide, by decide, by decide, by decide⟩

theorem witness_CtxNewGeometryIsConsistent : ∃ t,
    exec .ctxNew { State.reset with arg0 := 33#32, arg1 := 31#32 } = .next t ∧ t.ctxValid = true :=
  ⟨_, rfl, rfl⟩

/-- The first picture, and a picture at the interval. -/
theorem witness_EncodeImageOfKeyframe :
    (ready.faulted = false ∧ Accepted .encodeImage ready ∧ ready.frameNum = 0#32 ∧
      ∃ X : Comp → Nat → Byte, ∀ c, Holds (ready.picIn.get c) (ready.planeSize c) (X c)) ∧
    let s := { keyed with frameNum := 100#32, framesSinceKf := 100#32 }
    Accepted .encodeImage s ∧ s.framesSinceKf = s.params.kfInterval :=
  ⟨⟨rfl, ⟨rfl, rfl, by decide⟩, rfl, _, fun c => flat_holds3 168#8 128#8 100#8 c⟩, ⟨rfl, rfl, by decide⟩,
    rfl⟩

/-- A whole reference; the last candidate of all is that of luma macroblock (1,1); with `ME_RANGE` = 0 there
is none. -/
theorem witness_EncodeImageOfInterFrame :
    keyed.faulted = false ∧ Accepted .encodeImage keyed ∧ GridOk keyed ∧
      (∃ X : Comp → Nat → Byte, ∀ c, Holds (keyed.picIn.get c) (keyed.planeSize c) (X c)) ∧
      keyed.cur = some (frame true) ∧
      (∃ B : Comp → Nat → Byte, ∀ c, Holds ((frame true).recons.get c) (keyed.planeSize c) (B c)) ∧
      keyed.frameNum ≠ 0#32 ∧ keyed.framesSinceKf ≠ keyed.params.kfInterval ∧
      (InGrid keyed .y 1 1 ∧ LastCandidate keyed .y 1 1 7 7 ∧
        ∀ c x y, InGrid keyed c x y → unitBefore keyed (.y, 1, 1) (c, x, y) →
          ∀ x₂ y₂, ¬ Candidate keyed c x y x₂ y₂) ∧
      ∀ c x y x' y', ¬ Candidate { keyed with params := { Config.tc1 with meRange := 0 } } c x y x' y' := by
  refine ⟨rfl, ⟨rfl, rfl, by decide⟩, grid_inter, ⟨_, fun c => flat_holds3 168#8 128#8 100#8 c⟩, rfl,
    ⟨_, fun c => flat_holds 7#8 c⟩, by decide, by decide,
    ⟨last_candidate_inter.1, last_candidate_inter.2, none_after_last⟩, ?_⟩
  intro c x y x' y' h
  have e : effectiveRange { keyed with params := { Config.tc1 with meRange := 0 } } c = 0 := by
    cases c <;> decide
  unfold Candidate at h
  rw [e] at h
  omega

/-- Only the last element of V is missing. -/
theorem witness_EncodeImageNeedsWholePicture :
    let s := { ready with picIn := { flat 168#8 128#8 100#8 with v := Space.fill 63 100#8 } }
    s.faulted = false ∧ Accepted .encodeImage s ∧ 63 < s.planeSize .v ∧
      Space.read (s.picIn.get .v) 63 = none := ⟨rfl, ⟨rfl, rfl, by decide⟩, by decide, by decide +kernel⟩

/-- A reference of 23 luma rows, where luma macroblock (0,1) stops; and a whole luma reference without U,
where macroblock (0,0) of U stops at its first candidate. -/
theorem witness_EncodeImageNeedsReconstructedReference :
    (∀ ny nu, (wideKeyed ny nu).faulted = false ∧ Accepted .encodeImage (wideKeyed ny nu) ∧
      GridOk (wideKeyed ny nu) ∧ (wideKeyed ny nu).cur = some (wideFrame true ny nu) ∧
      (∃ X : Comp → Nat → Byte, ∀ c,
        Holds ((wideKeyed ny nu).picIn.get c) ((wideKeyed ny nu).planeSize c) (X c)) ∧
      (wideKeyed ny nu).frameNum ≠ 0#32 ∧
      (wideKeyed ny nu).framesSinceKf ≠ (wideKeyed ny nu).params.kfInterval) ∧
    (InGrid (wideKeyed 736 0) .y 0 1 ∧
      (∀ c x y, InGrid (wideKeyed 736 0) c x y → unitBefore (wideKeyed 736 0) (c, x, y) (.y, 0, 1) →
        WindowsHold (wideKeyed 736 0) c (wideFrame true 736 0) (fun _ => 7#8) x y) ∧
      SearchStopsAt (wideKeyed 736 0) .y (wideFrame true 736 0) (fun _ => 7#8) 0 1 0 16) ∧
    InGrid (wideKeyed 1024 0) .u 0 0 ∧
      (∀ c x y, InGrid (wideKeyed 1024 0) c x y → unitBefore (wideKeyed 1024 0) (c, x, y) (.u, 0, 0) →
        WindowsHold (wideKeyed 1024 0) c (wideFrame true 1024 0) (fun _ => 7#8) x y) ∧
      SearchStopsAt (wideKeyed 1024 0) .u (wideFrame true 1024 0) (fun _ => 7#8) 0 0 0 0 := by
  have n1 : (1#32 : Word) ≠ 0xFFFFFFFF#32 ∧ (1#32 : Word) ≠ 0#32 ∧ (1#32 : Word) ≠ 100#32 := by decide
  refine ⟨fun ny nu => ⟨rfl, ⟨rfl, rfl, n1.1⟩, grid_wide ny nu, rfl, ⟨fun c _ =>
    match c with | .y => 168#8 | .u => 128#8 | .v => 100#8, fun c => ?_⟩, n1.2.1, n1.2.2⟩,
    ⟨⟨by decide, by decide⟩, fun c x y h hb => ?_, (stops_wide 0).2⟩,
    ⟨by decide, by decide⟩, fun c x y h hb => ?_, ?_⟩
  · have e : (wideKeyed ny nu).planeSize c = if c = .y then 1024 else 256 := (geometry_wide ny nu c).1
    rw [e]
    exact planes_hold 1024 256 168#8 128#8 100#8 c
  · have hx : x < (wide 736 0).cols c := h.1
    have e : (wide 736 0).cols c = if c = .y then 4 else 2 := (geometry_wide 736 0 c).2.2.2.2
    have hb : c.number < 0 ∨ (c = .y ∧ y * (wide 736 0).cols c + x < 1 * (wide 736 0).cols c + 0) := hb
    rw [e] at hb hx
    rcases hb with hb | ⟨rfl, hb⟩
    · omega
    · rw [if_pos rfl] at hb hx
      exact (stops_wide 0).1 x y (by omega)
  · have hx : x < (wide 1024 0).cols c := h.1
    have hb : c.number < 1 ∨ (c = .u ∧ y * (wide 1024 0).cols c + x < 0 * (wide 1024 0).cols c + 0) := hb
    have hc : c = .y := by
      cases c
      · rfl
      · simp [Comp.number] at hb
      · simp [Comp.number] at hb
    subst hc
    intro x' y' r k hcand hr hk
    obtain ⟨_, _, e1, e2, _⟩ := geometry_wide 1024 0 .y
    rw [if_pos rfl] at e1 e2
    have hw : windowSample (wideKeyed 1024 0) .y x' y' r k = (y' + r) * 32 + x' + k := by
      show (y' + r) * (wide 1024 0).pw .y + x' + k = _
      rw [e1]
    have hcand : Candidate (wide 1024 0) .y x y x' y' := hcand
    unfold Candidate at hcand
    rw [e1, e2] at hcand
    rw [hw, wideFrame_recons_y, Space.read_fill, if_pos (by omega)]
  · have e3 : effectiveRange (wide 1024 0) .u = 8 := rfl
    obtain ⟨_, _, e1, e2, _⟩ := geometry_wide 1024 0 .u
    rw [if_neg (by decide)] at e1 e2
    refine ⟨?_, ⟨0, 0, by decide, by decide, rfl⟩, ?_⟩
    · show Candidate (wide 1024 0) .u 0 0 0 0
      unfold Candidate
      rw [e1, e2, e3]
      omega
    · intro x y r k _ hb
      unfold rasterBefore at hb
      simp at hb

theorem witness_StreamEndSetsEnded : ready.faulted = false ∧ Accepted .streamEnd ready := ⟨rfl, rfl, rfl⟩

theorem live_inter : Live inter := ⟨rfl, rfl⟩

/-- The last valid window: 0 + 7 * 35 + 7 = 252, and one that ends at element 255. -/
theorem witness_SadSumsAbsoluteDifferences :
    let s := { inter with arg0 := 0#32, arg1 := 3#32, arg2 := 35#32 }
    Live s ∧ isSampleSpace (.orig .cur .y) = true ∧ isSampleSpace (.pred .ref .y) = true ∧
      s.hasSpace (.orig .cur .y) = true ∧ s.hasSpace (.pred .ref .y) = true ∧
      s.arg0.toNat + 7 * s.arg2.toNat + 7 < s.spaceSize (.orig .cur .y) ∧
      s.arg1.toNat + 7 * s.arg2.toNat + 7 < s.spaceSize (.pred .ref .y) ∧
      (∀ r k : Fin 8, s.element (.orig .cur .y) (s.arg0.toNat + r * s.arg2.toNat + k) =
        some ((168#8).setWidth 32)) ∧
      ∀ r k : Fin 8, s.element (.pred .ref .y) (s.arg1.toNat + r * s.arg2.toNat + k) =
        some ((128#8).setWidth 32) :=
  ⟨live_inter, rfl, rfl, rfl, rfl, by decide, by decide, by decide +kernel, by decide +kernel⟩

/-- A reserved id; a window one element too long; an `undef` element in two valid windows. -/
theorem witness_SadFaultsLeaveAccumulator :
    Live inter ∧ SpaceRef.ofId 0x03#8 = none ∧
    (let s := { inter with arg0 := 4#32, arg2 := 35#32 }
     s.spaceSize (.orig .cur .y) ≤ s.arg0.toNat + 7 * s.arg2.toNat + 7) ∧
    let s := { inter with
      arg0 := 3#32, arg1 := 3#32, arg2 := 35#32, cur := some { frame false with recons := ⟨[], [], []⟩ } }
    isSampleSpace (.recons .cur .y) = true ∧ s.hasSpace (.recons .cur .y) = true ∧
      s.arg0.toNat + 7 * s.arg2.toNat + 7 < s.spaceSize (.recons .cur .y) ∧
      s.element (.recons .cur .y) 3 = none :=
  ⟨live_inter, by decide, by decide, rfl, rfl, by decide, rfl⟩

theorem witness_DistortionLaws : sadValue ramp 0 ramp 1 16 = some 192 ∧
    sadValue ramp 35 ramp 35 16 = some 0 := by decide +kernel

theorem searchable_inter (c : Comp) : Searchable inter c (frame false) (frame true)
    (fun _ => match c with | .y => 168#8 | .u => 128#8 | .v => 100#8) (fun _ => 7#8)
    (fun _ => MbRecord.default) where
  live := live_inter
  cur_eq := rfl
  inter := rfl
  ref_eq := rfl
  grid := grid_inter
  orig := flat_holds3 168#8 128#8 100#8 c
  recons := flat_holds 7#8 c
  records := grids_hold MbRecord.default c

/-- A macroblock with candidates and one without (V-ME-1, V-ME-4), and a last candidate. -/
theorem witness_MeBlockFindsFirstMinimum :
    (∃ A B M, Searchable inter .y (frame false) (frame true) A B M) ∧
    (1 < inter.cols .y ∧ 1 < inter.rows .y) ∧ LastCandidate inter .y 1 1 7 7 ∧
    (∃ A B M, Searchable inter .u (frame false) (frame true) A B M) ∧ ∀ x y, ¬ Candidate inter .u 0 0 x y :=
  ⟨⟨_, _, _, searchable_inter .y⟩, by decide, last_candidate_inter.2, ⟨_, _, _, searchable_inter .u⟩,
    fun _ _ => (candidate_inter (by decide) (by decide)).2 .u (by decide)⟩

/-- Every component; the last candidate of luma, and a component without one. -/
theorem witness_MeCompSearchesEveryMacroblock :
    (∀ c, ∃ A B M, Searchable inter c (frame false) (frame true) A B M) ∧
    (InGrid inter .y 1 1 ∧ LastCandidate inter .y 1 1 7 7 ∧
      ∀ x y, InGrid inter .y x y → unitBefore inter (.y, 1, 1) (.y, x, y) →
        ∀ x₂ y₂, ¬ Candidate inter .y x y x₂ y₂) ∧
    ∀ x y, InGrid inter .u x y → ∀ x' y', ¬ Candidate inter .u x y x' y' := by
  refine ⟨fun c => ⟨_, _, _, searchable_inter c⟩,
    ⟨last_candidate_inter.1, last_candidate_inter.2, none_after_last .y⟩, fun x y h x' y' => ?_⟩
  have e : inter.cols .u = 1 ∧ inter.rows .u = 1 := by decide
  have hx := h.1
  have hy := h.2
  exact (candidate_inter (by omega) (by omega)).2 .u (by decide)

/-- Macroblock (1,1), the last column and row, has the candidate (7,7) (V-ME-2). -/
theorem witness_LastColumnHasNoZeroVector : GridOk inter ∧ 1 < inter.cols .y ∧ 1 < inter.rows .y ∧
    (7, 7) ∈ (inter.meWindow .y 1 1).candidates ∧ 1 = inter.cols .y - 1 ∧ 1 = inter.rows .y - 1 :=
  ⟨grid_inter, by decide, by decide, by decide +kernel, by decide, by decide⟩

/-- The source window at the plane's last position: macroblock (0,0) with vector (8, 8). -/
theorem witness_McBlockCopiesDisplacedBlock :
    let cur := { frame false with mb := grids ⟨true, 8#8, 8#8⟩ }
    let s := { inter with cur := some cur }
    Live s ∧ s.cur = some cur ∧ cur.keyframe = false ∧ s.ref = some (frame true) ∧ GridOk s ∧
      Holds ((frame true).recons.get .y) (s.planeSize .y) (fun _ => 7#8) ∧ 0 < s.cols .y ∧ 0 < s.rows .y ∧
      Space.read (cur.mb.get .y) (0 * s.cols .y + 0) = some ⟨true, 8#8, 8#8⟩ ∧
      ((8 : Nat) : Int) = (0 * 8 : Nat) + (8#8 : Byte).toInt ∧ 8 + 8 ≤ s.pw .y ∧ 8 + 8 ≤ s.ph .y :=
  ⟨live_inter, rfl, rfl, rfl, grid_inter, flat_holds 7#8 .y, by decide, by decide, by decide +kernel,
    by decide, by decide, by decide⟩

theorem witness_McWithoutVectorOnlyWritesPos :
    (Live inter ∧ inter.cur = some (frame false) ∧ (frame false).keyframe = false ∧ inter.ref ≠ none ∧
      1 < inter.cols .y ∧ 1 < inter.rows .y ∧
      Space.read ((frame false).mb.get .y) (1 * inter.cols .y + 1) = some MbRecord.default ∧
      MbRecord.default.useMv = false) ∧
    Live keyed ∧ keyed.cur = some (frame true) ∧ (frame true).keyframe = true :=
  ⟨⟨live_inter, rfl, rfl, Option.some_ne_none _, by decide, by decide, by decide +kernel, rfl⟩, ⟨rfl, rfl⟩,
    rfl, rfl⟩

/-- The first macroblock's vector reaches the plane's last position, the others' the first. -/
theorem witness_McCompCompensatesEveryMacroblock :
    let M : Nat → MbRecord := fun j =>
      if j = 0 then ⟨true, 8#8, 8#8⟩ else if j = 1 then ⟨true, 0xF8#8, 0#8⟩
      else if j = 2 then ⟨true, 0#8, 0xF8#8⟩ else ⟨true, 0xF8#8, 0xF8#8⟩
    let cur := { frame false with
      mb := { grids MbRecord.default with y := (List.range 4).map (fun j => (j, M j)) } }
    let s := { inter with cur := some cur }
    Live s ∧ s.cur = some cur ∧ cur.keyframe = false ∧ s.ref = some (frame true) ∧ GridOk s ∧
      Holds ((frame true).recons.get .y) (s.planeSize .y) (fun _ => 7#8) ∧
      Holds (cur.mb.get .y) (s.gridSize .y) M ∧
      ∀ x y, x < s.cols .y → y < s.rows .y → (M (y * s.cols .y + x)).useMv = true →
        0 ≤ ((x * 8 : Nat) : Int) + (M (y * s.cols .y + x)).mvX.toInt ∧
        ((x * 8 : Nat) : Int) + (M (y * s.cols .y + x)).mvX.toInt ≤ (s.pw .y : Int) - 8 ∧
        0 ≤ ((y * 8 : Nat) : Int) + (M (y * s.cols .y + x)).mvY.toInt ∧
        ((y * 8 : Nat) : Int) + (M (y * s.cols .y + x)).mvY.toInt ≤ (s.ph .y : Int) - 8 := by
  intro M cur s
  refine ⟨live_inter, rfl, rfl, rfl, grid_inter, flat_holds 7#8 .y, ?_, ?_⟩
  · intro j hj
    have e : inter.gridSize .y = 4 := by decide
    have hj : j < inter.gridSize .y := hj
    exact (Space.read_map_range _ _ _).trans (if_pos (by omega))
  · have e : inter.cols .y = 2 ∧ inter.rows .y = 2 ∧ inter.pw .y = 16 ∧ inter.ph .y = 16 := by decide
    intro x y hx hy _
    change x < inter.cols .y at hx
    change y < inter.rows .y at hy
    obtain ⟨e1, e2, e3, e4⟩ := e
    rw [e1] at hx
    rw [e2] at hy
    change 0 ≤ _ + (M (y * inter.cols .y + x)).mvX.toInt ∧
      _ + (M (y * inter.cols .y + x)).mvX.toInt ≤ (inter.pw .y : Int) - 8 ∧
      0 ≤ _ + (M (y * inter.cols .y + x)).mvY.toInt ∧
      _ + (M (y * inter.cols .y + x)).mvY.toInt ≤ (inter.ph .y : Int) - 8
    rw [e1, e3, e4]
    have hc : (x = 0 ∨ x = 1) ∧ (y = 0 ∨ y = 1) := by omega
    obtain ⟨rfl | rfl, rfl | rfl⟩ := hc <;> decide

/-- ME: luma macroblock (0,1) of a reference with 23 rows. MC: macroblock (1,1), the last of its plane, with a
vector that leaves the plane by one sample, and with one whose sample 59 is the first `undef` one, the
first macroblock compensated before it. -/
theorem witness_MotionCommandsNeedReference :
    (Startable (wide 736 256) .y (wideFrame false 0 0) (wideFrame true 736 256) (fun _ => 168#8)
        (fun _ => MbRecord.default) ∧ InGrid (wide 736 256) .y 0 1 ∧
      SearchStopsAt (wide 736 256) .y (wideFrame true 736 256) (fun _ => 7#8) 0 1 0 16 ∧
      ∀ x y, InGrid (wide 736 256) .y x y → unitBefore (wide 736 256) (.y, x, y) (.y, 0, 1) →
        WindowsHold (wide 736 256) .y (wideFrame true 736 256) (fun _ => 7#8) x y) ∧
    ∀ vx vy code n, (vx, vy, code, n) ∈ [(0xF7#8, 0#8, 0x03#32, 0), (0xF8#8, 0xF9#8, 0x06#32, 59)] →
      ∃ cur ref, Startable (partReference vx vy) .y cur ref (fun _ => 168#8) (lastVector vx vy) ∧
        InGrid (partReference vx vy) .y 1 1 ∧
        CopyStops (partReference vx vy) .y ref (fun _ => 7#8) 1 1
          (lastVector vx vy (1 * (partReference vx vy).cols .y + 1)) code n ∧
        ∀ x y, InGrid (partReference vx vy) .y x y →
          unitBefore (partReference vx vy) (.y, x, y) (.y, 1, 1) →
          Compensable (partReference vx vy) .y ref (fun _ => 7#8) x y
            (lastVector vx vy (y * (partReference vx vy).cols .y + x)) := by
  constructor
  · obtain ⟨e0, e1, _, _, e4⟩ := geometry_wide 736 256 .y
    rw [if_pos rfl] at e0 e1 e4
    refine ⟨⟨⟨rfl, rfl⟩, rfl, rfl, rfl, grid_wide _ _, ?_, ?_⟩, ⟨by decide, by decide⟩,
      (stops_wide 256).2, fun x y h hb => (stops_wide 256).1 x y ?_⟩
    · rw [e0]
      exact planes_hold 1024 256 168#8 128#8 100#8 .y
    · rw [e1]
      exact planes_hold 16 4 MbRecord.default MbRecord.default MbRecord.default .y
    · have hx := h.1
      unfold unitBefore at hb
      simp only [e4] at hb hx
      omega
  · intro vx vy code n hm
    have hr : ∀ i, Space.read (Space.fill 131 (7#8 : Byte)) i = if i < 131 then some 7#8 else none :=
      Space.read_fill 131 7#8
    have ew : ∀ x y r k, windowSample (partReference vx vy) .y x y r k = (y + r) * 16 + x + k :=
      fun _ _ _ _ => rfl
    have ec : (partReference vx vy).cols .y = 2 ∧ (partReference vx vy).rows .y = 2 ∧
      (partReference vx vy).pw .y = 16 ∧ (partReference vx vy).ph .y = 16 :=
      (by decide : inter.cols .y = 2 ∧ inter.rows .y = 2 ∧ inter.pw .y = 16 ∧ inter.ph .y = 16)
    obtain ⟨c1, c2, c3, c4⟩ := ec
    refine ⟨_, _, ⟨⟨rfl, rfl⟩, rfl, rfl, rfl, grid_inter, flat_holds3 168#8 128#8 100#8 .y, ?_⟩,
      ⟨by rw [c1]; decide, by rw [c2]; decide⟩, ?_, ?_⟩
    · intro j hj
      have e : inter.gridSize .y = 4 := by decide
      have hj : j < inter.gridSize .y := hj
      exact (Space.read_map_range _ _ _).trans (if_pos (by omega))
    · rw [c1]
      simp only [List.mem_cons, Prod.mk.injEq, List.not_mem_nil, or_false] at hm
      rcases hm with ⟨rfl, rfl, rfl, rfl⟩ | ⟨rfl, rfl, rfl, rfl⟩
      · refine ⟨rfl, .inl ⟨rfl, rfl, fun h => absurd h.1 (by decide)⟩⟩
      · refine ⟨rfl, .inr ⟨rfl, by decide, ?_, ?_, ?_⟩⟩
        · unfold SourceInside
          rw [c3, c4]
          decide
        · intro i hi
          have e : (sourceX 1 (lastVector 0xF8#8 0xF9#8 (1 * 2 + 1))).toNat = 0 ∧
            (sourceY 1 (lastVector 0xF8#8 0xF9#8 (1 * 2 + 1))).toNat = 1 := by decide
          unfold sourceSample
          rw [ew, e.1, e.2]
          exact (hr _).trans (if_pos (by omega))
        · exact hr 131
    · intro x y h hb hu
      have hx := h.1
      have hy := h.2
      unfold unitBefore at hb
      simp only [c1, c2] at hb hx hy hu ⊢
      have h3 : y * 2 + x ≠ 3 := by omega
      have h0 : y * 2 + x = 0 := by
        by_contra h0
        rw [lastVector, if_neg h3, if_neg h0] at hu
        cases hu
      obtain rfl : x = 0 := by omega
      obtain rfl : y = 0 := by omega
      have ev : lastVector vx vy (0 * 2 + 0) = ⟨true, 0#8, 0#8⟩ := rfl
      rw [ev]
      refine ⟨?_, fun r k hr' hk => ?_⟩
      · unfold SourceInside
        rw [c3, c4]
        decide
      · have e : (sourceX 0 ⟨true, 0#8, 0#8⟩).toNat = 0 ∧ (sourceY 0 ⟨true, 0#8, 0#8⟩).toNat = 0 :=
          ⟨rfl, rfl⟩
        unfold sourceSample
        rw [ew, e.1, e.2]
        exact (hr _).trans (if_pos (by omega))

theorem witness_ZigzagIsBijection : ((List.range 64).map (BitVec.ofNat 16)).length = 64 := by decide

theorem witness_ZeroBlockRoundTrip : (List.replicate 64 255#8).length = 64 := by decide

/-- A table of ones is positive; two tables that differ at position 1 alone agree at position 63. -/
theorem witness_TableEntryMatchesPosition : EntriesPositive (fun _ => 1#8) ∧
    (List.replicate 64 (40#16 : Half)).length = 64 ∧
    (List.replicate 64 (10#8 : Byte)).length = 64 ∧ ((List.replicate 64 (10#8 : Byte)).set 1 3#8).length = 64 ∧
    (List.replicate 64 (10#8 : Byte))[63]? = ((List.replicate 64 (10#8 : Byte)).set 1 3#8)[63]? :=
  ⟨fun _ _ => (by decide : 1 ≤ (1#8 : Byte).toNat), by decide, by decide, by decide, by decide⟩

theorem witness_ForwardPathIsOdd : (List.replicate 64 (40#16 : Half)).length = 64 ∧
    (List.replicate 64 (10#8 : Byte)).length = 64 ∧
    (∀ h ∈ List.replicate 64 (40#16 : Half), h ≠ 0x8000#16) ∧
    ∀ h ∈ xform.fwd (List.replicate 64 40#16) (List.replicate 64 10#8),
      h ≠ 0x8000#16 ∧ h ≠ 0x7FFF#16 := by
  have hk : (xform.fwd (List.replicate 64 40#16) (List.replicate 64 10#8)).all
      (fun h => decide (h ≠ 0x8000#16) && decide (h ≠ 0x7FFF#16)) = true := by decide +kernel
  refine ⟨rfl, rfl, ?_, ?_⟩
  · intro h hm
    rw [List.eq_of_mem_replicate hm]
    decide
  · intro h hm
    have := List.all_eq_true.mp hk h hm
    simpa using this

/-- Residuals at both ends of the range of the row drivers, with a table of ones (R192). -/
theorem witness_ForwardPathIsOdd_bound :
    let r : List Half := List.replicate 32 255#16 ++ List.replicate 32 (BitVec.ofInt 16 (-255))
    let q : List Byte := List.replicate 64 1#8
    r.length = 64 ∧ q.length = 64 ∧ (∀ e ∈ q, 1 ≤ e.toNat) ∧
      ∀ h ∈ r, -255 ≤ h.toInt ∧ h.toInt ≤ 255 := by
  refine ⟨by simp, by simp, fun e he => ?_, fun h hh => ?_⟩
  · rw [List.eq_of_mem_replicate he]
    decide
  · rcases List.mem_append.mp hh with hh | hh <;> rw [List.eq_of_mem_replicate hh] <;> decide

theorem witness_ForwardPathIsOddEverywhere : (List.replicate 64 (32767#16 : Half)).length = 64 ∧
    (List.replicate 64 (1#8 : Byte)).length = 64 ∧ (∀ e ∈ List.replicate 64 (1#8 : Byte), 1 ≤ e.toNat) ∧
    ∀ h ∈ List.replicate 64 (32767#16 : Half), h ≠ 0x8000#16 := by
  refine ⟨rfl, rfl, ?_, ?_⟩
  · intro e he
    rw [List.eq_of_mem_replicate he]
    decide
  · intro h hm
    rw [List.eq_of_mem_replicate hm]
    decide

theorem witness_BlockBufferCommandsWriteBlkOut : Live inter ∧ Holds inter.blkIn 64 (fun _ => 40#16) ∧
    ∀ c, ∃ Q, Holds (inter.qt.get c) 64 Q ∧ EntriesPositive Q :=
  ⟨live_inter, holds_fill (Nat.le_refl _) _, tables_hold⟩

/-- Only element 63 is missing. -/
theorem witness_BlockBufferCommandsNeedWholeBlock :
    let s := { ready with blkIn := Space.fill 63 40#16 }
    Live s ∧ 63 < 64 ∧ Space.read s.blkIn 63 = none := ⟨⟨rfl, rfl⟩, by decide, by decide +kernel⟩

theorem transformable_inter (c : Comp) : ∃ A P Q, Transformable inter c (frame false) A P Q := by
  obtain ⟨Q, hQ, hp⟩ := tables_hold c
  exact ⟨_, _, Q, live_inter, rfl, grid_inter, flat_holds3 168#8 128#8 100#8 c, flat_holds 128#8 c, hQ, hp⟩

/-- The last row-band. -/
theorem witness_DctqRowTransformsBand :
    (∃ A P Q, Transformable inter .y (frame false) A P Q) ∧ 1 < inter.rows .y :=
  ⟨transformable_inter .y, by decide⟩

theorem witness_DctqPlaneTransformsPlane : ∀ c, ∃ A P Q, Transformable inter c (frame false) A P Q :=
  transformable_inter

/-- A frame with every coefficient 0. -/
theorem reconstructible_zero (c : Comp) :
    let cur := { frame false with resid := ⟨Space.fill 256 0#16, Space.fill 64 0#16, Space.fill 64 0#16⟩ }
    let s := { inter with cur := some cur }
    ∃ (K : Nat → Half) (P Q : Nat → Byte), Reconstructible s c cur P Q ∧
      Holds (cur.resid.get c) (s.planeSize c) K := by
  obtain ⟨Q, hQ, _⟩ := tables_hold c
  refine ⟨fun _ => 0#16, _, Q, ⟨live_inter, rfl, grid_inter, flat_holds 128#8 c, hQ⟩, ?_⟩
  show Holds _ (inter.planeSize c) _
  rw [planes_inter]
  cases c <;> exact holds_fill (Nat.le_refl _) _

/-- The last row-band of a plane whose 256 coefficients are defined. -/
theorem witness_DeqidctRowReconstructsBand :
    let cur := { frame false with resid := ⟨Space.fill 256 0#16, Space.fill 64 0#16, Space.fill 64 0#16⟩ }
    let s := { inter with cur := some cur }
    (∃ (K : Nat → Half) (P Q : Nat → Byte), Reconstructible s .y cur P Q ∧
      Holds (cur.resid.get .y) (s.planeSize .y) K) ∧
      1 < s.rows .y ∧ s.planeSize .y = 256 ∧
      ∀ bx k, bx < s.cols .y → k < 64 → (1 * s.cols .y + bx) * 64 + k < 256 := by
  refine ⟨reconstructible_zero .y, by decide, by decide, ?_⟩
  intro bx k hb hk
  have e : inter.cols .y = 2 := by decide
  have h : bx < inter.cols .y := hb
  show (1 * inter.cols .y + bx) * 64 + k < 256
  omega

theorem witness_DeqidctPlaneReconstructsPlane : ∀ c,
    let cur := { frame false with resid := ⟨Space.fill 256 0#16, Space.fill 64 0#16, Space.fill 64 0#16⟩ }
    let s := { inter with cur := some cur }
    ∃ (K : Nat → Half) (P Q : Nat → Byte), Reconstructible s c cur P Q ∧ Holds (cur.resid.get c) (s.planeSize c) K :=
  reconstructible_zero

/-- No coefficient at all, at the last of the first block; and 200 of the 256 coefficients, so that block (1,1)
is the first, of its band and of the plane, that is not wholly defined. -/
theorem witness_DeqidctRowNeedsCoefficients :
    (Live inter ∧ inter.cur = some (frame false) ∧ GridOk inter ∧ 1 < inter.rows .y ∧ 63 < 64 ∧
      Space.read ((frame false).resid.get .y) (1 * inter.cols .y * 64 + 63) = none) ∧
    let cur := { frame false with resid := ⟨Space.fill 200 3#16, [], []⟩ }
    let s := { inter with cur := some cur }
    (∃ P Q, Reconstructible s .y cur P Q) ∧ InGrid s .y 1 1 ∧
      Space.read (cur.resid.get .y) ((1 * s.cols .y + 1) * 64 + 8) = none ∧
      (∀ bx k, bx < 1 → k < 64 →
        Space.read (cur.resid.get .y) ((1 * s.cols .y + bx) * 64 + k) = some 3#16) ∧
      ∀ bx band k, InGrid s .y bx band → unitBefore s (.y, bx, band) (.y, 1, 1) → k < 64 →
        Space.read (cur.resid.get .y) ((band * s.cols .y + bx) * 64 + k) = some 3#16 := by
  have e : inter.cols .y = 2 := by decide
  have hr : ∀ i, i < 200 → Space.read (Space.fill 200 (3#16 : Half)) i = some 3#16 := by
    intro i hi
    rw [Space.read_fill, if_pos hi]
  refine ⟨⟨live_inter, rfl, grid_inter, by decide, by decide, rfl⟩, ?_,
    ⟨by decide, by decide⟩, ?_, ?_, ?_⟩
  · obtain ⟨Q, hQ, _⟩ := tables_hold .y
    exact ⟨_, Q, live_inter, rfl, grid_inter, flat_holds 128#8 .y, hQ⟩
  · show Space.read (Space.fill 200 (3#16 : Half)) ((1 * inter.cols .y + 1) * 64 + 8) = none
    rw [Space.read_fill, if_neg (by omega)]
  · intro bx k hbx hk
    refine hr _ ?_
    show (1 * inter.cols .y + bx) * 64 + k < 200
    omega
  · intro bx band k h hb hk
    have hb : Comp.y.number < Comp.y.number ∨
      (Comp.y = Comp.y ∧ band * inter.cols .y + bx < 1 * inter.cols .y + 1) := hb
    refine hr _ ?_
    show (band * inter.cols .y + bx) * 64 + k < 200
    rw [e] at hb ⊢
    omega

end Sys2Proof.Tests
end

section
/-! ### The context invariant -/

namespace Sys2Proof.Machine

open Sys2Proof.Claim

/-- A constructed grid is consistent (R234): its padded dimensions are multiples of 8 that a register
holds. -/
theorem State.constructed.gridOk {s : State} (h : s.constructed) : GridOk s := by
  obtain ⟨⟨hw1, hw2⟩, ⟨hh1, hh2⟩, hgeom, _⟩ := h
  intro c
  have hw := padDim_spec c hw1 hw2
  have hh := padDim_spec c hh1 hh2
  simp only [State.cols, State.rows, State.pw, State.ph, hgeom, Triple.get_of, geometryOf,
    BitVec.toNat_ofNat]
  omega

/-- CTX_NEW with legal dimensions leaves a constructed state (R121). -/
theorem State.constructed_construct (s : State) {w h : Nat} (hw1 : 1 ≤ w) (hw2 : w ≤ 16384)
    (hh1 : 1 ≤ h) (hh2 : h ≤ 16384) : (s.construct w h).constructed := by
  have ew : (BitVec.ofNat 32 w).toNat = w := by rw [BitVec.toNat_ofNat]; omega
  have eh : (BitVec.ofNat 32 h).toNat = h := by rw [BitVec.toNat_ofNat]; omega
  simp only [State.constructed, State.construct_width, State.construct_height, ew, eh]
  exact ⟨⟨hw1, hw2⟩, ⟨hh1, hh2⟩, rfl, rfl⟩

theorem Parts.ctxValid {s t : State} (h : Parts s t) : t.ctxValid = s.ctxValid := by rw [h.frame.1]

theorem Parts.constructed {s t : State} (h : Parts s t) (hs : s.constructed) : t.constructed := by
  rw [h.frame.1]
  exact hs

theorem State.ContextInv.of_constructed {s : State} (hv : s.ctxValid = true) (h : s.constructed) :
    s.ContextInv :=
  ⟨fun hf => absurd hv (by simp [hf]), fun _ => h⟩

/-- Reset leaves no context (R271). -/
theorem State.ContextInv.resetWith (p : Params) : (State.resetWith p).ContextInv :=
  ⟨fun _ => ⟨rfl, rfl, rfl, rfl, rfl, rfl, rfl, rfl, rfl, rfl⟩,
    fun h => absurd h Bool.false_ne_true⟩

/-- Before construction a store through the window can only reach `BLK_IN`: no picture and no frame is
there to be written (R61, R64). -/
theorem State.ContextInv.storeElement {s : State} (h : s.ContextInv) {sp : SpaceRef}
    (hsp : s.windowTarget = some sp) (i : Nat) (v : Word) : (s.storeElement sp i v).ContextInv := by
  obtain ⟨_, _, hex, _⟩ := windowTarget_spec hsp
  cases sp with
  | picIn c => exact .of_constructed hex (h.2 hex)
  | pred f c =>
    cases f with
    | cur =>
      cases hcur : s.cur with
      | none => simpa only [State.storeElement, hcur] using h
      | some fr =>
        have hv : s.ctxValid = true := by
          by_contra hv
          obtain ⟨_, _, _, _, _, hnone, _⟩ := h.1 (by simpa using hv)
          rw [hcur] at hnone
          cases hnone
        simp only [State.storeElement, hcur]
        exact .of_constructed hv (h.2 hv)
    | ref => exact h
  | blkIn => exact h
  | orig f c => exact h
  | recons f c => exact h
  | resid f c => exact h
  | mb f c => exact h
  | qt c => exact h
  | blkOut => exact h

/-- Every command keeps the context invariant: CTX_NEW constructs it, and the others run on it only
once it is constructed, or change nothing of it (R123, R241). -/
theorem State.ContextInv.exec {i : Instr} {s t : State} (h : exec i s = .next t)
    (hf : s.faulted = false) (hs : s.ContextInv) : t.ContextInv := by
  refine command_keeps h hf hs (fun _ _ _ _ hs => hs) ?construct ?image ?ended ?part
  case construct =>
    intro w hh _ hw1 hw2 hh1 hh2
    exact .of_constructed rfl (s.constructed_construct hw1 hw2 hh1 hh2)
  case image =>
    intro hv _ _ _
    have hc : s.acceptPicture.constructed := hs.2 hv
    refine ⟨fun _ => .of_constructed hv hc, fun _ u hu => ?_⟩
    have huv : u.ctxValid = true := hu.ctxValid.trans hv
    have huc : u.constructed := hu.constructed hc
    exact ⟨.of_constructed huv huc, .of_constructed huv huc⟩
  case ended =>
    intro hv
    exact .of_constructed hv (hs.2 hv)
  case part =>
    intro hv u v hu hp _
    have hsv : Parts s v := hu.tail hp
    exact .of_constructed (hsv.ctxValid.trans hv) (hsv.constructed (hs.2 hv))

/-- Every step keeps the context invariant (R35, R123). -/
theorem State.ContextInv.step {s t : State} (h : step s = .next t) (hs : s.ContextInv) :
    t.ContextInv :=
  step_keeps h hs
    (host := fun _ _ _ _ hs => hs)
    (reset := fun s _ => State.ContextInv.resetWith s.params)
    (fault := fun _ _ _ _ hs => hs)
    (args := fun _ _ _ _ _ _ hs => hs)
    (store := fun s _ v hs hsp _ => hs.storeElement hsp s.maddr.toNat v)
    (cmd := fun _ _ _ hf hs he => hs.exec he hf)

/-- `step_keeps` for a property that is kept under the context invariant. -/
theorem step_keeps_in_context {P : State → Prop} {s t : State} (h : step s = .next t)
    (hc : s.ContextInv) (hs : P s)
    (host : ∀ s q r n, P s → P { s with pending := q, hostRead := r, freeReads := n })
    (reset : ∀ s, P s → P s.applyReset)
    (fault : ∀ s c w, P s → P (s.recordFault c w))
    (args : ∀ s a b c m n, P s →
      P { s with arg0 := a, arg1 := b, arg2 := c, msel := m, maddr := n })
    (store : ∀ s sp i v, P s → P (s.storeElement sp i v))
    (cmd : ∀ i s t, s.faulted = false → s.ContextInv → P s → exec i s = .next t → P t) : P t := by
  refine (step_keeps (P := fun s => s.ContextInv ∧ P s) h ⟨hc, hs⟩ ?_ ?_ ?_ ?_ ?_ ?_).2
  · exact fun s q r n hs => ⟨hs.1, host s q r n hs.2⟩
  · exact fun s hs => ⟨State.ContextInv.resetWith s.params, reset s hs.2⟩
  · exact fun s c w _ hs => ⟨hs.1, fault s c w hs.2⟩
  · exact fun s a b c m n hs => ⟨hs.1, args s a b c m n hs.2⟩
  · exact fun s sp v hs hsp _ => ⟨hs.1.storeElement hsp _ v, store s sp _ v hs.2⟩
  · exact fun i s t hf hs he => ⟨hs.1.exec he hf, cmd i s t hf hs.1 hs.2 he⟩

end Sys2Proof.Machine
end

section
/-! ### Motion vectors -/

namespace Sys2Proof.Machine

open Sys2Proof.Claim

/-- The effective range fits a vector component: it is at most 128 (R152, R158). -/
theorem State.rng_le (s : State) (c : Comp) : s.rng c ≤ 128 := by
  have := s.params.meRange.isLt
  cases c <;> simp only [State.rng] <;> omega

/-- A unit's record index determines the unit (R33). -/
theorem unit_eq_of_index_eq {n x y x' y' : Nat} (hx : x < n) (hx' : x' < n)
    (h : y' * n + x' = y * n + x) : x' = x ∧ y' = y := by
  have hxx : x' = x := by
    have := congrArg (· % n) h
    simpa only [Nat.mul_add_mod_self_right, Nat.mod_eq_of_lt hx, Nat.mod_eq_of_lt hx'] using this
  refine ⟨hxx, ?_⟩
  subst hxx
  exact Nat.eq_of_mul_eq_mul_right (by omega) (Nat.add_right_cancel h)

/-- The zero vector names the macroblock's own window, which lies in the plane (R234). -/
theorem vectorInside_zero {r anchor dim : Nat} (h : anchor + 8 ≤ dim) :
    vectorInside 0#8 r anchor dim := by
  have e : (0#8).toInt = 0 := by decide
  unfold vectorInside
  omega

/-- One axis of the clipped search window: the displacement fits a byte, and the window it names lies in the
plane (R153, R158). -/
theorem vectorInside_of_clipped {r anchor dim p : Nat} (hr : r ≤ 128) (h1 : anchor - r ≤ p)
    (h2 : p < min (anchor + r) (dim - 8)) :
    vectorInside (BitVec.ofInt 8 ((p : Int) - (anchor : Nat))) r anchor dim := by
  have e : (BitVec.ofInt 8 ((p : Int) - (anchor : Nat))).toInt = (p : Int) - anchor := by
    rw [BitVec.toInt_ofInt, Int.bmod_eq_of_le] <;> omega
  unfold vectorInside
  omega

/-- The invariants I3 and I4 of a frame speak of its records, its keyframe flag, the geometry and the
parameters. -/
theorem Frame.VectorsInside.of_eq {s t : State} {f g : Frame} (h : f.VectorsInside s)
    (hmb : g.mb = f.mb) (hkey : g.keyframe = f.keyframe) (hgeom : t.geom = s.geom)
    (hparams : t.params = s.params) : g.VectorsInside t := by
  have hrng : ∀ c, t.rng c = s.rng c := by intro c; cases c <;> simp only [State.rng, hparams]
  unfold Frame.VectorsInside at *
  simp only [State.cols, State.rows, State.pw, State.ph, hrng, hmb, hkey, hgeom]
  exact h

/-- The invariant of both slots survives whatever leaves the records, the keyframe flags, the geometry and
the parameters. -/
theorem State.VectorInv.of_eq {s t : State} (h : s.VectorInv) (hgeom : t.geom = s.geom)
    (hparams : t.params = s.params) (href : t.ref = s.ref)
    (hmb : t.cur.map Frame.mb = s.cur.map Frame.mb)
    (hkey : t.cur.map Frame.keyframe = s.cur.map Frame.keyframe) : t.VectorInv := by
  constructor
  · intro g hg
    rw [hg, Option.map_some] at hmb hkey
    obtain ⟨f, hf, emb⟩ := Option.map_eq_some_iff.mp hmb.symm
    rw [hf, Option.map_some, Option.some.injEq] at hkey
    exact (h.1 f hf).of_eq emb.symm hkey hgeom hparams
  · intro g hg
    exact (h.2 g (href ▸ hg)).of_eq rfl rfl hgeom hparams

/-- A new frame has default records, and their vectors are zero (R46). -/
theorem State.newFrame_vectorsInside {s : State} (hg : GridOk s) (key : Bool) :
    (s.newFrame key).VectorsInside s := by
  have hdef : ∀ c j m, Space.read ((s.newFrame key).mb.get c) j = some m → m = .default := by
    intro c j m hm
    simp only [State.newFrame, Triple.get_of, Space.read_fill] at hm
    split at hm
    · exact (Option.some.inj hm).symm
    · cases hm
  refine ⟨fun c j m _ hm => hdef c j m hm, fun c x y m hx hy hm => ?_⟩
  obtain ⟨_, _, hpw, hph⟩ := hg c
  rw [hdef c _ m hm]
  exact ⟨vectorInside_zero (by omega), vectorInside_zero (by omega)⟩

/-- The record a search writes keeps I3 and I4: the frame is no keyframe, and the vector is the old one or a
candidate's (R153 to R156). -/
theorem Frame.VectorsInside.writeMb {s : State} {f : Frame} (h : f.VectorsInside s)
    (hkey : f.keyframe = false) {c : Comp} {x y : Nat} (hx : x < s.cols c) {m : MbRecord}
    (hmX : vectorInside m.mvX (s.rng c) (x * 8) (s.pw c))
    (hmY : vectorInside m.mvY (s.rng c) (y * 8) (s.ph c)) :
    (f.writeMb c (y * s.cols c + x) m).VectorsInside s := by
  constructor
  · intro c' j m' hk
    exact absurd (hkey.symm.trans hk) (by decide)
  · intro c' x' y' m' hx' hy' hm'
    simp only [Frame.writeMb, Triple.get_set] at hm'
    split at hm'
    · next e =>
      subst e
      rw [Space.read_write] at hm'
      split at hm'
      · next ej =>
        obtain ⟨rfl, rfl⟩ := unit_eq_of_index_eq hx hx' ej
        cases hm'
        exact ⟨hmX, hmY⟩
      · exact h.2 _ x' y' m' hx' hy' hm'
    · exact h.2 c' x' y' m' hx' hy' hm'

/-- Every part of every component command keeps I3 and I4; only a search touches a record. -/
theorem Part.keeps_vectors {s t : State} (h : Part s t) (hs : s.VectorInv) : t.VectorInv := by
  cases h with
  | pos w c x y hw h => exact hs
  | sad w h => exact hs
  | blkOut out hout => exact hs
  | pred cur c x y o src p ok hcur hx hy hp =>
    exact hs.of_eq rfl rfl rfl (by rw [hcur]; rfl) (by rw [hcur]; rfl)
  | resid cur c bx band out hcur hx hy hout =>
    exact hs.of_eq rfl rfl rfl (by rw [hcur]; rfl) (by rw [hcur]; rfl)
  | recons cur c bx band out m ok hcur hx hy hm =>
    exact hs.of_eq rfl rfl rfl (by rw [hcur]; rfl) (by rw [hcur]; rfl)
  | record cur c x y old st hcur hkey hx hy hold hst =>
    have hf := hs.1 cur hcur
    have hvec : vectorInside st.mvX (s.rng c) (x * 8) (s.pw c) ∧
        vectorInside st.mvY (s.rng c) (y * 8) (s.ph c) := by
      rcases hst with ⟨_, eX, eY⟩ | ⟨p, hp, _, eX, eY⟩
      · rw [eX, eY]
        exact hf.2 c x y old hx hy hold
      · obtain ⟨⟨hl, hr⟩, ht, hb⟩ := mem_candidates.mp hp
        rw [eX, eY]
        exact ⟨vectorInside_of_clipped (s.rng_le c) hl hr,
          vectorInside_of_clipped (s.rng_le c) ht hb⟩
    exact ⟨fun f e => Option.some.inj e ▸ hf.writeMb hkey hx hvec.1 hvec.2, hs.2⟩

/-- The move to REF and the new frame keep I3 and I4 (R124). -/
theorem State.VectorInv.acceptPicture {s : State} (hs : s.VectorInv) (hg : GridOk s) :
    s.acceptPicture.VectorInv :=
  ⟨fun _ e => Option.some.inj e ▸ State.newFrame_vectorsInside hg _, hs.1⟩

/-- A store through the window leaves the records (R61). -/
theorem State.VectorInv.storeElement {s : State} (hs : s.VectorInv) (sp : SpaceRef) (i : Nat)
    (v : Word) : (s.storeElement sp i v).VectorInv := by
  obtain ⟨e, hkey, hmb, _⟩ := storeElement_frame s sp i v
  exact hs.of_eq (by rw [e]) (by rw [e]) (by rw [e]) hmb hkey

/-- Every command keeps I3 and I4. -/
theorem State.VectorInv.exec {i : Instr} {s t : State} (h : exec i s = .next t)
    (hf : s.faulted = false) (hc : s.ContextInv) (hs : s.VectorInv) : t.VectorInv := by
  refine command_keeps h hf hs (fun _ _ _ _ hs => hs) ?construct ?image (fun _ => hs) ?part
  case construct =>
    intro w hh _ _ _ _ _
    exact ⟨fun _ e => (nomatch e), fun _ e => (nomatch e)⟩
  case image =>
    intro hv _ _ _
    have ha := hs.acceptPicture (hc.2 hv).gridOk
    refine ⟨fun _ => ha, fun _ u hu => ?_⟩
    have hu' : u.VectorInv := hu.keeps ha (fun _ _ => Part.keeps_vectors)
    exact ⟨hu', hu'⟩
  case part =>
    intro _ u v _ hp hu
    exact hp.keeps_vectors hu

end Sys2Proof.Machine
end

section
/-! ### Result registers -/

namespace Sys2Proof.Machine

open Sys2Proof.Claim

theorem Parts.gridOk {s t : State} (h : Parts s t) (hs : GridOk s) : GridOk t := by
  intro c
  rw [h.cols, h.rows, h.pw, h.ph]
  exact hs c

/-- What a search leaves in ME_BEST: a sum, or the largest `i32` (R156, R157). -/
theorem searchBest_range {best : Nat} (h : best = 0x7FFFFFFF ∨ best ≤ 16320) :
    (BitVec.ofNat 32 best).toNat ≤ 16320 ∨ BitVec.ofNat 32 best = 0x7FFFFFFF#32 := by
  rcases h with rfl | h
  · exact .inr rfl
  · exact .inl (by rw [BitVec.toNat_ofNat]; omega)

/-- Every part keeps the result registers in range (R23, R24, R43). -/
theorem Part.keeps_results {s t : State} (h : Part s t) (hg : GridOk s) (hv : s.ctxValid = true)
    (hs : s.ResultInv) : t.ResultInv := by
  obtain ⟨hsad, hbest, hmv, hpos0, hpos⟩ := hs
  cases h with
  | pos w c x y hw h =>
    obtain ⟨hcols, hrows, hpw, hph⟩ := hg c
    refine ⟨hsad, hbest, hmv, fun hf => absurd (hv.symm.trans hf) (by decide), fun _ => ?_⟩
    have hunit : x < s.cols c ∧ y < s.rows c := by omega
    exact ⟨c, x, y, hw, hunit⟩
  | sad w h => exact ⟨h, hbest, hmv, hpos0, hpos⟩
  | record cur c x y old st hcur hkey hx hy hold hst =>
    refine ⟨hsad, searchBest_range ?_, ⟨_, rfl⟩, hpos0, hpos⟩
    rcases hst with ⟨e, _⟩ | ⟨_, _, hle, _⟩
    · exact .inl e
    · exact .inr hle
  | pred cur c x y o src p ok hcur hx hy hp => exact ⟨hsad, hbest, hmv, hpos0, hpos⟩
  | resid cur c bx band out hcur hx hy hout => exact ⟨hsad, hbest, hmv, hpos0, hpos⟩
  | recons cur c bx band out m ok hcur hx hy hm => exact ⟨hsad, hbest, hmv, hpos0, hpos⟩
  | blkOut out hout => exact ⟨hsad, hbest, hmv, hpos0, hpos⟩

theorem Parts.keeps_results {s t : State} (h : Parts s t) (hg : GridOk s) (hv : s.ctxValid = true)
    (hs : s.ResultInv) : t.ResultInv := by
  induction h with
  | refl => exact hs
  | tail hu hp ih => exact hp.keeps_results (Parts.gridOk hu hg) ((Parts.ctxValid hu).trans hv) ih

/-- Construction leaves POS at 0, which names the first luma macroblock (R24, R121). -/
theorem State.ResultInv.construct {s : State} (hs : s.ResultInv) (hv : s.ctxValid = false)
    {w h : Nat} (hc : (s.construct w h).constructed) : (s.construct w h).ResultInv := by
  obtain ⟨hsad, hbest, hmv, hpos0, _⟩ := hs
  obtain ⟨hcols, hrows, _⟩ := hc.gridOk .y
  have hpos : s.pos = posWord .y 0 0 := (hpos0 hv).trans (by decide)
  exact ⟨hsad, hbest, hmv, fun e => (nomatch e), fun _ => ⟨.y, 0, 0, hpos, hcols, hrows⟩⟩

/-- Reset leaves the result registers in range (R47, R271). -/
theorem State.ResultInv.resetWith (p : Params) : (State.resetWith p).ResultInv :=
  ⟨Nat.zero_le _, .inr rfl, ⟨.default, rfl⟩, fun _ => rfl, fun e => (nomatch e)⟩

/-- Every command keeps the result registers in range. -/
theorem State.ResultInv.exec {i : Instr} {s t : State} (h : exec i s = .next t)
    (hf : s.faulted = false) (hc : s.ContextInv) (hs : s.ResultInv) : t.ResultInv := by
  refine command_keeps h hf hs (fun _ _ _ _ hs => hs) ?construct ?image (fun _ => hs) ?part
  case construct =>
    intro w hh hv hw1 hw2 hh1 hh2
    exact hs.construct hv (s.constructed_construct hw1 hw2 hh1 hh2)
  case image =>
    intro hv _ _ _
    refine ⟨fun _ => hs, fun _ u hu => ?_⟩
    have hg : GridOk s.acceptPicture := (hc.2 hv).gridOk
    have hu' : u.ResultInv := hu.keeps_results hg hv hs
    exact ⟨hu', hu'⟩
  case part =>
    intro hv u v hu hp hres
    exact hp.keeps_results (hu.gridOk (hc.2 hv).gridOk) (hu.ctxValid.trans hv) hres

/-- A store through the window leaves the result registers. -/
theorem State.ResultInv.storeElement {s : State} (hs : s.ResultInv) (sp : SpaceRef) (i : Nat)
    (v : Word) : (s.storeElement sp i v).ResultInv := by
  rw [(storeElement_frame s sp i v).1]
  exact hs

end Sys2Proof.Machine
end

section
/-! ### The fault record -/

namespace Sys2Proof.Machine

/-- The seven codes of R240. -/
theorem Cause.code_range (c : Cause) :
    1 ≤ (c.code.setWidth 32 : Word).toNat ∧ (c.code.setWidth 32 : Word).toNat ≤ 7 := by
  cases c <;> decide

/-- Taking a fault leaves a legal record (R244). -/
theorem State.FaultInv.recordFault (s : State) (c : Cause) (w : Word) :
    (s.recordFault c w).FaultInv :=
  ⟨fun e => (nomatch e), fun _ => c.code_range⟩

theorem Parts.keeps_faultInv {s t : State} (h : Parts s t) (hs : s.FaultInv) : t.FaultInv := by
  rw [h.frame.1]
  exact hs

/-- Every command keeps the fault record legal. -/
theorem State.FaultInv.exec {i : Instr} {s t : State} (h : exec i s = .next t)
    (hf : s.faulted = false) (hs : s.FaultInv) : t.FaultInv := by
  refine command_keeps h hf hs (fun s c w _ _ => .recordFault s c w) (fun _ _ _ _ _ _ _ => hs)
    ?image (fun _ => hs) ?part
  case image =>
    intro _ _ _ _
    exact ⟨fun _ => hs, fun _ u hu => ⟨hu.keeps_faultInv hs, hu.keeps_faultInv hs⟩⟩
  case part =>
    intro _ u v _ hp hu
    exact Parts.keeps_faultInv (.single hp) hu

end Sys2Proof.Machine
end

section
/-! ### What commands leave alone -/

namespace Sys2Proof.Machine

/-- What only the host changes: the operand registers, the memory window, `BLK_IN`, the parameters and the
model's record of the host's traffic (R22, R28, R38). -/
def SameHostSide (s t : State) : Prop :=
  t.arg0 = s.arg0 ∧ t.arg1 = s.arg1 ∧ t.arg2 = s.arg2 ∧ t.msel = s.msel ∧ t.maddr = s.maddr ∧
    t.blkIn = s.blkIn ∧ t.params = s.params ∧ t.pending = s.pending ∧ t.hostRead = s.hostRead ∧
    t.freeReads = s.freeReads

theorem SameHostSide.refl (s : State) : SameHostSide s s :=
  ⟨rfl, rfl, rfl, rfl, rfl, rfl, rfl, rfl, rfl, rfl⟩

/-- What only ENCODE_IMAGE and CTX_NEW change: the counters, the reference, and the original planes and the
keyframe flag of the current frame (R37, R74). -/
def SameHistory (s t : State) : Prop :=
  t.frameNum = s.frameNum ∧ t.framesSinceKf = s.framesSinceKf ∧ t.ref = s.ref ∧
    t.cur.map Frame.orig = s.cur.map Frame.orig ∧
    t.cur.map Frame.keyframe = s.cur.map Frame.keyframe

theorem SameHistory.refl (s : State) : SameHistory s s := ⟨rfl, rfl, rfl, rfl, rfl⟩

theorem Parts.sameHostSide {s t : State} (h : Parts s t) : SameHostSide s t := by
  rw [h.frame.1]
  exact .refl s

theorem Parts.picIn {s t : State} (h : Parts s t) : t.picIn = s.picIn := by rw [h.frame.1]

theorem Parts.sameHistory {s t : State} (h : Parts s t) : SameHistory s t := by
  obtain ⟨e, horig, hkey⟩ := h.frame
  exact ⟨by rw [e], by rw [e], by rw [e], horig, hkey⟩

/-- ENCODE_IMAGE reads the picture and leaves it and the host's side (R124). -/
theorem encodeImageBody_leaves (s : State) :
    SameHostSide s (encodeImageBody s).state ∧ (encodeImageBody s).state.picIn = s.picIn := by
  rcases encodeImageBody_cases s with e | ⟨_, _, e⟩ | ⟨_, _, u, hu, e | ⟨c, e⟩⟩
  · rw [e]; exact ⟨.refl s, rfl⟩
  · rw [e]; exact ⟨.refl s, rfl⟩
  · rw [e]; exact ⟨hu.sameHostSide, hu.picIn⟩
  · rw [e]; exact ⟨hu.sameHostSide, hu.picIn⟩

/-- CTX_NEW leaves the host's side (R121). -/
theorem ctxNewBody_sameHostSide (s : State) : SameHostSide s (ctxNewBody s).state := by
  unfold ctxNewBody
  split <;> exact .refl s

/-- No command's rule touches the host's side, and only CTX_NEW's the input picture (R39, R90). -/
theorem bodyOf_leaves_host {i : Instr} {s : State} (ha : accepts i s = true) :
    SameHostSide s (bodyOf i s).state ∧ (i ≠ .ctxNew → (bodyOf i s).state.picIn = s.picIn) := by
  by_cases hi : isComponent i = true
  · have hp := bodyOf_parts hi ha
    exact ⟨hp.sameHostSide, fun _ => hp.picIn⟩
  · cases i with
    | ctxNew => exact ⟨ctxNewBody_sameHostSide s, fun h => absurd rfl h⟩
    | encodeImage =>
      obtain ⟨hside, hpic⟩ := encodeImageBody_leaves s
      exact ⟨hside, fun _ => hpic⟩
    | streamEnd => exact ⟨.refl s, fun _ => rfl⟩
    | abort => exact ⟨.refl s, fun _ => rfl⟩
    | _ => exact absurd rfl hi

/-- No command's rule but those of ENCODE_IMAGE and CTX_NEW touches the frame history (R37, R74). -/
theorem bodyOf_sameHistory {i : Instr} {s : State} (ha : accepts i s = true)
    (himage : i ≠ .encodeImage) (hctx : i ≠ .ctxNew) : SameHistory s (bodyOf i s).state := by
  by_cases hi : isComponent i = true
  · exact (bodyOf_parts hi ha).sameHistory
  · cases i with
    | ctxNew => exact absurd rfl hctx
    | encodeImage => exact absurd rfl himage
    | streamEnd => exact .refl s
    | abort => exact .refl s
    | _ => exact absurd rfl hi

end Sys2Proof.Machine
end

section
/-! ### Register accesses -/

namespace Sys2Proof.Machine

open Sys2Proof.Claim

/-- A step performs the next access on the state without it. -/
theorem step_of_next {s : State} {a : HostAccess} {rest : List HostAccess} (h : Next s a rest) :
    step s = hostAccess a (taken s rest) := by
  unfold Next at h
  unfold step
  rw [h]
  rfl

/-- The number of every register names it (R21). -/
theorem HostReg.ofNumber_number (r : HostReg) :
    HostReg.ofNumber (BitVec.ofNat 8 r.number) = some r := by
  cases r with
  | padW c => cases c <;> decide
  | padH c => cases c <;> decide
  | mbCols c => cases c <;> decide
  | mbRows c => cases c <;> decide
  | _ => decide

/-- A number names a register only if it is that register's (R21). -/
theorem HostReg.number_of_ofNumber {n : Byte} {r : HostReg} (h : HostReg.ofNumber n = some r) :
    r.number = n.toNat := by
  simpa using List.find?_some h

/-- Where the readable registers stand in the register file: all but CMD (R21). -/
theorem HostReg.number_of_ne_cmd {r : HostReg} (h : r ≠ .cmd) :
    (0x01 ≤ r.number ∧ r.number ≤ 0x06) ∨ (0x08 ≤ r.number ∧ r.number ≤ 0x0B) ∨
      (0x10 ≤ r.number ∧ r.number ≤ 0x22) ∨ (0x30 ≤ r.number ∧ r.number ≤ 0x32) := by
  cases r with
  | cmd => exact absurd rfl h
  | padW c => cases c <;> decide
  | padH c => cases c <;> decide
  | mbCols c => cases c <;> decide
  | mbRows c => cases c <;> decide
  | _ => decide

/-- Where the writable registers stand (R21, column "Access"). -/
theorem HostReg.number_of_writable {r : HostReg} (h : r.writable = true) :
    r.number = 0x00 ∨ (0x04 ≤ r.number ∧ r.number ≤ 0x06) ∨
      (0x30 ≤ r.number ∧ r.number ≤ 0x32) := by
  cases r with
  | cmd => decide
  | arg0 => decide
  | arg1 => decide
  | arg2 => decide
  | msel => decide
  | maddr => decide
  | mdata => decide
  | _ => cases h

/-- The access word of the machine is the one R26 spells out. -/
theorem State.accessWord_eq (s : State) (reg : Byte) : s.accessWord reg = accessInfo s reg := by
  have hreg := reg.isLt
  apply BitVec.eq_of_toNat_eq
  simp only [State.accessWord, accessInfo, BitVec.toNat_append, BitVec.extractLsb'_toNat,
    Nat.shiftRight_zero, BitVec.toNat_ofNat]
  rw [← Nat.shiftLeft_add_eq_or_of_lt (Nat.mod_lt _ (by decide)),
    ← Nat.shiftLeft_add_eq_or_of_lt (Nat.mod_lt _ (by decide))]
  simp only [Nat.shiftLeft_eq]
  omega

/-! #### Reads -/

/-- The registers whose read returns what the block holds: all but CMD and MDATA. -/
def HostReg.plain : List HostReg := HostReg.all.filter (fun r => r ≠ .cmd ∧ r ≠ .mdata)

theorem hostRead_of_ok {s : State} {reg : Byte} {w : Word} (h : s.readNumber reg = .ok w) :
    hostRead reg s = s.returnRead w := by
  unfold hostRead
  rw [h]

theorem hostRead_of_error {s : State} {reg : Byte} {c : Cause} (hf : s.faulted = false)
    (h : s.readNumber reg = .error c) :
    hostRead reg s = { s.recordFault c (s.accessWord reg) with hostRead := none } := by
  unfold hostRead
  rw [h]
  simp only [hf, State.faultRead, State.raise_of_not_faulted hf]
  rfl

theorem State.readNumber_number (s : State) (r : HostReg) :
    s.readNumber (BitVec.ofNat 8 r.number) = s.readReg r := by
  unfold State.readNumber
  rw [HostReg.ofNumber_number]

/-- CMD reads as an illegal access, and so does a number no register has (R29). -/
theorem State.readNumber_illegal (s : State) {n : Byte}
    (h : n = 0x00#8 ∨ n = 0x07#8 ∨ (0x0C ≤ n.toNat ∧ n.toNat ≤ 0x0F) ∨
      (0x23 ≤ n.toNat ∧ n.toNat ≤ 0x2F) ∨ 0x33 ≤ n.toNat) : s.readNumber n = .error .access := by
  unfold State.readNumber
  cases hr : HostReg.ofNumber n with
  | none => rfl
  | some r =>
    have hcmd : r = .cmd := by
      by_contra hne
      have hnum := HostReg.number_of_ofNumber hr
      have hrange := HostReg.number_of_ne_cmd hne
      rw [hnum] at hrange
      rcases h with rfl | rfl | h
      · revert hrange; decide
      · revert hrange; decide
      · omega
    rw [hcmd]
    rfl

/-! #### Writes -/

/-- A write of a register that is not writable is refused (R29). -/
theorem State.writeReg_of_not_writable (s : State) (v : Word) {r : HostReg}
    (h : r.writable = false) : s.writeReg v r = .error .access := by
  cases r with
  | cmd => cases h
  | arg0 => cases h
  | arg1 => cases h
  | arg2 => cases h
  | msel => cases h
  | maddr => cases h
  | mdata => cases h
  | _ => rfl

theorem hostWrite_of_ok {s t : State} {reg : Byte} {v : Word} {r : HostReg}
    (hf : s.faulted = false) (hr : HostReg.ofNumber reg = some r) (hcmd : r ≠ .cmd)
    (h : s.writeReg v r = .ok t) : hostWrite reg v s = .next t := by
  unfold hostWrite
  rw [if_neg (by simp [hf]), hr]
  cases r with
  | cmd => exact absurd rfl hcmd
  | _ => simp only [h]

/-- A write of a number in the gaps of R21 or of a read-only register faults (R29, R244). -/
theorem hostWrite_illegal {s : State} (hf : s.faulted = false) {n : Byte} (v : Word)
    (h : (0x01 ≤ n.toNat ∧ n.toNat ≤ 0x03) ∨ (0x07 ≤ n.toNat ∧ n.toNat ≤ 0x2F) ∨
      0x33 ≤ n.toNat) : hostWrite n v s = .next (s.recordFault .access (s.accessWord n)) := by
  unfold hostWrite
  rw [if_neg (by simp [hf]), State.raise_of_not_faulted hf]
  split
  · rfl
  · next hr =>
    have := HostReg.number_of_ofNumber hr
    have : HostReg.cmd.number = 0 := rfl
    omega
  · next r hcmd hr =>
    have hw : r.writable = false := by
      by_contra hw
      have hnum := HostReg.number_of_ofNumber hr
      have := HostReg.number_of_writable (by simpa using hw)
      omega
    simp only [s.writeReg_of_not_writable v hw, State.raise_of_not_faulted hf]

/-! #### STATUS -/

/-- A flag below a word of flags (R25). -/
theorem toNat_append_ofBool {n : Nat} (x : BitVec n) (b : Bool) :
    (x ++ BitVec.ofBool b).toNat = 2 * x.toNat + b.toNat := by
  rw [BitVec.toNat_append, BitVec.toNat_ofBool,
    ← Nat.shiftLeft_add_eq_or_of_lt (Bool.toNat_lt b), Nat.shiftLeft_eq]
  omega

theorem keyFlag_eq_any (f : Option Frame) : keyFlag f = f.any Frame.keyframe := by
  cases f <;> rfl

end Sys2Proof.Machine
end

section
/-! ### The statements on the state -/

namespace Sys2Proof.Proofs

open Sys2Proof.Machine Sys2Proof.Claim

/-- Settles O23: `step_keeps` with one lemma per kind of access. -/
theorem stepKeepsContext : Obligations.StepKeepsContext := fun _ _ hs h => hs.step h

/-- Settles O28: only a search writes a record, and its vector is the old one or a candidate's. -/
theorem stepKeepsVectorsInside : Obligations.StepKeepsVectorsInside := by
  intro s t hc hs h
  exact step_keeps_in_context h hc hs
    (host := fun _ _ _ _ hs => hs)
    (reset := fun _ _ => ⟨fun _ e => (nomatch e), fun _ e => (nomatch e)⟩)
    (fault := fun _ _ _ hs => hs)
    (args := fun _ _ _ _ _ _ hs => hs)
    (store := fun _ sp i v hs => hs.storeElement sp i v)
    (cmd := fun _ _ _ hf hc hs he => hs.exec he hf hc)

/-- Settles O29: every part of a command that writes a result register writes one in range. -/
theorem stepKeepsResultRegisters : Obligations.StepKeepsResultRegisters := by
  intro s t hc hs h
  exact step_keeps_in_context h hc hs
    (host := fun _ _ _ _ hs => hs)
    (reset := fun s _ => State.ResultInv.resetWith s.params)
    (fault := fun _ _ _ hs => hs)
    (args := fun _ _ _ _ _ _ hs => hs)
    (store := fun _ sp i v hs => hs.storeElement sp i v)
    (cmd := fun _ _ _ hf hc hs he => hs.exec he hf hc)

/-- Settles O11: by the register numbers, no readable (or writable) register stands in the gaps. -/
theorem illegalRegisterAccessFaults : Obligations.IllegalRegisterAccessFaults := by
  intro s rest n hf
  refine ⟨fun hnext hn => ?_, fun v hnext hn => ?_⟩
  · have hread := (taken s rest).readNumber_illegal hn
    rw [step_of_next hnext, hostAccess, hostRead_of_error (s := taken s rest) hf hread,
      State.accessWord_eq]
    rfl
  · rw [step_of_next hnext, hostAccess, hostWrite_illegal (s := taken s rest) hf v hn,
      State.accessWord_eq]
    rfl

/-- Settles O20: no command's rule touches the host's side. -/
theorem commandsLeaveHostRegisters : Obligations.CommandsLeaveHostRegisters := by
  intro i s
  obtain ⟨t, h⟩ : ∃ t, exec i s = .next t := ⟨_, exec_eq i s⟩
  have hkeep : SameHostSide s t ∧ (i ≠ .ctxNew → t.picIn = s.picIn) :=
    exec_keeps (P := fun t => SameHostSide s t ∧ (i ≠ .ctxNew → t.picIn = s.picIn)) h
      ⟨.refl s, fun _ => rfl⟩ bodyOf_leaves_host (fun _ _ _ hs => hs)
  obtain ⟨⟨h0, h1, h2, hsel, haddr, hblk, hparams, hpend, hread, hfree⟩, hpic⟩ := hkeep
  exact ⟨t, h, h0, h1, h2, hsel, haddr, hblk, hparams, hpend, hread, hfree, hpic⟩

/-- Settles O22: component commands are chains of parts, and no part touches the history. -/
theorem onlyEncodeImageMovesFrames : Obligations.OnlyEncodeImageMovesFrames := by
  intro i s t himage hctx h
  exact exec_keeps (P := SameHistory s) h (.refl s)
    (fun ha => bodyOf_sameHistory ha himage hctx) (fun _ _ _ hs => hs)

/-- Settles O24: the record changes only when a fault is taken or by reset. -/
theorem stepKeepsFaultRecord : Obligations.StepKeepsFaultRecord := by
  intro s t hs h
  refine step_keeps h hs
    (host := fun _ _ _ _ hs => hs)
    (reset := fun _ _ => ⟨fun _ => ⟨rfl, rfl⟩, fun e => (nomatch e)⟩)
    (fault := fun s c w _ _ => .recordFault s c w)
    (args := fun _ _ _ _ _ _ hs => hs)
    (store := fun s sp v hs _ _ => ?_)
    (cmd := fun _ _ _ hf hs he => hs.exec he hf)
  rw [(storeElement_frame s sp s.maddr.toNat v).1]
  exact hs

/-- Settles O9: the statement lists the registers in the order of R21, each with what its read returns. -/
theorem hostReadReturnsRegister : Obligations.HostReadReturnsRegister := by
  intro s rest n v hnext hmem
  have hreg : (n, (Except.ok v : Except Cause Word)) ∈
      HostReg.plain.map (fun r => (r.number, (taken s rest).readReg r)) :=
    List.mem_map_of_mem (f := fun p : Nat × Word => (p.1, (Except.ok p.2 : Except Cause Word))) hmem
  obtain ⟨r, _, hr⟩ := List.mem_map.mp hreg
  obtain ⟨rfl, hv⟩ := Prod.mk.inj hr
  rw [step_of_next hnext, hostAccess, hostRead_of_ok ((State.readNumber_number _ r).trans hv)]
  rfl

/-- Settles O10: each flag is one bit below the flags above it. -/
theorem statusBits : Obligations.StatusBits := by
  intro s
  simp only [State.status, toNat_append_ofBool, State.refKey, State.curKey, State.refValid,
    State.curValid, keyFlag_eq_any, BitVec.toNat_zero]
  omega

/-- Settles O12: each number names its register, and the write of it stores the value. -/
theorem hostWriteStoresRegister : Obligations.HostWriteStoresRegister := by
  intro s rest v hf
  have store : ∀ {t : State} (r : HostReg), r ≠ .cmd → (taken s rest).writeReg v r = .ok t →
      Next s (.write (BitVec.ofNat 8 r.number) v) rest → step s = .next t := by
    intro t r hcmd hw hnext
    rw [step_of_next hnext]
    exact hostWrite_of_ok hf r.ofNumber_number hcmd hw
  exact ⟨store .arg0 (by decide) rfl, store .arg1 (by decide) rfl, store .arg2 (by decide) rfl,
    store .msel (by decide) rfl, store .maddr (by decide) rfl⟩

end Sys2Proof.Proofs
end

section
/-! ### The memory invariant -/

namespace Sys2Proof.Machine

open Sys2Proof.Claim

theorem State.MemoryInv.wf {s : State} (h : s.MemoryInv) : Memory.wf s = true := h.1

/-- The current frame is defined where allocation defines it (R44 to R46). -/
theorem State.MemoryInv.cur_defined {s : State} (h : s.MemoryInv) {f : Frame}
    (hf : s.cur = some f) : f.defined s.planeSize s.gridSize = true := h.2.1 f hf

/-- A new current frame that is canonical and defined keeps the memory invariant. -/
theorem State.MemoryInv.setCur {s : State} (h : s.MemoryInv) {f : Frame}
    (hwf : Memory.wf (s.setCur f) = true) (hdef : f.defined s.planeSize s.gridSize = true) :
    (s.setCur f).MemoryInv :=
  ⟨hwf, fun _ e => Option.some.inj e ▸ hdef, h.2.2⟩

/-- Reset leaves no frame, so nothing has to be defined (R271). -/
theorem State.MemoryInv.resetWith (p : Params) : (State.resetWith p).MemoryInv :=
  ⟨Memory.wf_reset p, fun _ e => (nomatch e), fun _ e => (nomatch e)⟩

/-- Construction leaves no frame (R121). -/
theorem State.MemoryInv.construct {s : State} (h : s.MemoryInv) (w hh : Nat) :
    (s.construct w hh).MemoryInv :=
  ⟨Memory.wf_construct h.wf w hh, fun _ e => (nomatch e), fun _ e => (nomatch e)⟩

/-- A grid consistent in the sense of R234 lies inside its planes. -/
theorem gridInside_of_gridOk {s : State} (h : GridOk s) : s.gridInside := by
  intro c
  obtain ⟨_, _, hpw, hph⟩ := h c
  omega

/-- A picture is complete when every plane of it is wholly defined (R126). -/
theorem State.pictureComplete_iff {s : State} :
    s.pictureComplete = true ↔
      ∀ c, Space.allDefined (s.picIn.get c) (s.planeSize c) = true := by
  simp only [State.pictureComplete, Bool.and_eq_true]
  constructor
  · rintro ⟨⟨hy, hu⟩, hv⟩ c
    cases c with
    | y => exact hy
    | u => exact hu
    | v => exact hv
  · intro h
    exact ⟨⟨h .y, h .u⟩, h .v⟩

/-- A new frame takes its original planes from a complete picture and fills the others (R44 to R46).
-/
theorem State.newFrame_defined {s : State} (h : s.pictureComplete = true) (key : Bool) :
    (s.newFrame key).defined s.planeSize s.gridSize = true := by
  rw [Frame.defined_iff]
  intro c
  simp only [State.newFrame, Triple.get_of]
  exact ⟨State.pictureComplete_iff.mp h c, Space.allDefined_fill _ _, Space.allDefined_fill _ _⟩

/-- Accepting a complete picture moves the current frame to REF and allocates a new one (R124). -/
theorem State.MemoryInv.acceptPicture {s : State} (h : s.MemoryInv)
    (hp : s.pictureComplete = true) : s.acceptPicture.MemoryInv :=
  ⟨Memory.wf_acceptPicture h.wf, fun _ e => Option.some.inj e ▸ State.newFrame_defined hp _, h.2.1⟩

/-- Every part keeps memory canonical, and none makes a defined element `undef`. -/
theorem Part.keeps_memory {s t : State} (h : Part s t) (hg : GridOk s) (hs : s.MemoryInv) :
    t.MemoryInv := by
  have hwf := h.keeps_wf (gridInside_of_gridOk hg) hs.wf
  cases h with
  | pos w c x y hw h => exact ⟨hwf, hs.2⟩
  | sad w h => exact ⟨hwf, hs.2⟩
  | blkOut out hout => exact ⟨hwf, hs.2⟩
  | record cur c x y old st hcur hkey hx hy hold hst =>
    exact hs.setCur hwf (Frame.defined_writeMb (hs.cur_defined hcur) c _ _)
  | pred cur c x y o src p ok hcur hx hy hp =>
    have hdef := hs.cur_defined hcur
    obtain ⟨_, hpred, _⟩ := Frame.defined_iff.mp hdef c
    exact hs.setCur hwf (Frame.defined_setPred hdef (copySamples_defined hp hpred))
  | resid cur c bx band out hcur hx hy hout =>
    have hdef := hs.cur_defined hcur
    exact hs.setCur hwf hdef
  | recons cur c bx band out m ok hcur hx hy hm =>
    have hdef := hs.cur_defined hcur
    exact hs.setCur hwf hdef

theorem Parts.keeps_memory {s t : State} (h : Parts s t) (hg : GridOk s) (hs : s.MemoryInv) :
    t.MemoryInv := by
  induction h with
  | refl => exact hs
  | tail hu hp ih => exact hp.keeps_memory (Parts.gridOk hu hg) ih

/-- A store through the window writes an element of one space, and makes none `undef` (R63, R64). -/
theorem State.MemoryInv.storeElement {s : State} (hs : s.MemoryInv) {sp : SpaceRef}
    (hsp : s.windowTarget = some sp) (v : Word) :
    (s.storeElement sp s.maddr.toNat v).MemoryInv := by
  have hwf := Memory.wf_storeElement hs.wf hsp v
  cases sp with
  | pred f c =>
    cases f with
    | cur =>
      cases hcur : s.cur with
      | none => simpa only [State.storeElement, hcur] using hs
      | some fr =>
        simp only [State.storeElement, hcur] at hwf ⊢
        have hdef := hs.cur_defined hcur
        obtain ⟨_, hpred, _⟩ := Frame.defined_iff.mp hdef c
        exact hs.setCur hwf (Frame.defined_setPred hdef (Space.allDefined_write _ _ hpred))
    | ref => exact hs
  | picIn c => exact ⟨hwf, hs.2⟩
  | blkIn => exact ⟨hwf, hs.2⟩
  | orig f c => exact hs
  | recons f c => exact hs
  | resid f c => exact hs
  | mb f c => exact hs
  | qt c => exact hs
  | blkOut => exact hs

/-- Every command keeps the memory invariant, on the grid the context invariant gives. -/
theorem State.MemoryInv.exec {i : Instr} {s t : State} (h : exec i s = .next t)
    (hf : s.faulted = false) (hc : s.ContextInv) (hs : s.MemoryInv) : t.MemoryInv := by
  refine command_keeps h hf hs (fun _ _ _ _ hs => hs) ?construct ?image (fun _ => hs) ?part
  case construct =>
    intro w hh _ _ _ _ _
    exact hs.construct w hh
  case image =>
    intro hv _ _ hp
    have ha := hs.acceptPicture hp
    have hg : GridOk s.acceptPicture := (hc.2 hv).gridOk
    exact ⟨fun _ => ha, fun _ u hu => ⟨hu.keeps_memory hg ha, hu.keeps_memory hg ha⟩⟩
  case part =>
    intro hv u v hu hp hmem
    exact hp.keeps_memory (hu.gridOk (hc.2 hv).gridOk) hmem

end Sys2Proof.Machine
end

section
namespace Sys2Proof.Proofs

open Sys2Proof.Machine Sys2Proof.Claim

/-- Settles O27: the memory invariant is kept together with the context invariant, which gives the
grid. -/
theorem stepKeepsMemory : Obligations.StepKeepsMemory := by
  intro s t hc hs h
  refine (step_keeps (P := fun s => s.ContextInv ∧ s.MemoryInv) h ⟨hc, hs⟩
    (host := fun _ _ _ _ hs => hs)
    (reset := fun s _ => ⟨.resetWith s.params, .resetWith s.params⟩)
    (fault := fun _ _ _ _ hs => hs)
    (args := fun _ _ _ _ _ _ hs => hs)
    (store := fun s sp v hs hsp _ => ?_)
    (cmd := fun i s t hf hs he => ?_)).2
  · exact ⟨hs.1.storeElement hsp _ v, hs.2.storeElement hsp v⟩
  · exact ⟨hs.1.exec he hf, hs.2.exec he hf hs.1⟩

end Sys2Proof.Proofs
end

section
/-! ### Memory space ids and elements -/

namespace Sys2Proof.Machine

open Sys2Proof.Claim

/-- The id of every space names it (R61). -/
theorem SpaceRef.ofId_id (sp : SpaceRef) : SpaceRef.ofId (BitVec.ofNat 8 sp.id) = some sp := by
  have : ∀ sp ∈ SpaceRef.all, SpaceRef.ofId (BitVec.ofNat 8 sp.id) = some sp := by decide
  exact this sp sp.mem_all

/-- The space of a slot with kind number `kind` stands at `slot * 0x20 + kind * 4 + c` (R61). -/
theorem id_of_frameSpace {f : Slot} {kind : Nat} {c : Comp} {sp : SpaceRef}
    (h : frameSpace f kind c = some sp) : sp.id = f.base + kind * 4 + c.number := by
  unfold frameSpace at h
  split at h
  · rw [← Option.some.inj h]; rfl
  · rw [← Option.some.inj h]; rfl
  · rw [← Option.some.inj h]; rfl
  · rw [← Option.some.inj h]; rfl
  · rw [← Option.some.inj h]; rfl
  · cases h

/-- An id names a space only if it is that space's (R61). -/
theorem SpaceRef.id_of_ofId {b : Byte} {sp : SpaceRef} (h : SpaceRef.ofId b = some sp) :
    sp.id = b.toNat := by
  unfold SpaceRef.ofId at h
  simp only at h
  split at h
  · next hb => rw [← Option.some.inj h, hb]; rfl
  split at h
  · next hb => rw [← Option.some.inj h, hb]; rfl
  split at h
  · cases h
  next c hc =>
  have hnum := Comp.number_of_ofNumber hc
  split at h
  · have hid := id_of_frameSpace h
    simp only [Slot.base] at hid
    omega
  split at h
  · have hid := id_of_frameSpace h
    simp only [Slot.base] at hid
    omega
  split at h
  · rw [← Option.some.inj h]
    simp only [SpaceRef.id]
    omega
  split at h
  · rw [← Option.some.inj h]
    simp only [SpaceRef.id]
    omega
  · cases h

/-- MSEL is the id of a space exactly when its upper bits are zero and its low byte names the space
(R64). -/
theorem msel_eq_id_iff {w : Word} {sp : SpaceRef} :
    w = BitVec.ofNat 32 sp.id ↔
      w.extractLsb' 8 24 = 0#24 ∧ SpaceRef.ofId (w.extractLsb' 0 8) = some sp := by
  have hid := sp.id_lt
  have hlow : (w.extractLsb' 0 8).toNat = w.toNat % 2 ^ 8 := by simp
  have hhigh : (w.extractLsb' 8 24).toNat = w.toNat / 2 ^ 8 % 2 ^ 24 := by
    rw [BitVec.extractLsb'_toNat, Nat.shiftRight_eq_div_pow]
  constructor
  · rintro rfl
    rw [BitVec.toNat_ofNat] at hlow hhigh
    refine ⟨BitVec.eq_of_toNat_eq ?_, ?_⟩
    · rw [hhigh, BitVec.toNat_ofNat]
      omega
    · have : (BitVec.ofNat 32 sp.id).extractLsb' 0 8 = BitVec.ofNat 8 sp.id :=
        BitVec.eq_of_toNat_eq (by rw [hlow, BitVec.toNat_ofNat]; omega)
      rw [this, sp.ofId_id]
  · rintro ⟨hz, hsp⟩
    have hw := w.isLt
    have hn := SpaceRef.id_of_ofId hsp
    rw [hz, BitVec.toNat_ofNat] at hhigh
    exact BitVec.eq_of_toNat_eq (by rw [BitVec.toNat_ofNat]; omega)

/-- The window reaches a space exactly when MSEL is its id, it exists, and MADDR is below its size
(R64). -/
theorem windowTarget_eq_some_iff {s : State} {sp : SpaceRef} :
    s.windowTarget = some sp ↔ s.msel = BitVec.ofNat 32 sp.id ∧ s.hasSpace sp = true ∧
      s.maddr.toNat < s.spaceSize sp := by
  rw [msel_eq_id_iff]
  constructor
  · intro h
    obtain ⟨hid, hz, hex, hlt⟩ := windowTarget_spec h
    exact ⟨⟨hz, hid⟩, hex, hlt⟩
  · rintro ⟨⟨hz, hid⟩, hex, hlt⟩
    unfold State.windowTarget
    simp only [hz, hid, hex, hlt, if_true, decide_true, Bool.and_self]

/-- The window reaches nothing exactly when no space that MSEL names exists with MADDR in it (R64).
-/
theorem windowTarget_eq_none_iff {s : State} :
    s.windowTarget = none ↔ ∀ sp, s.msel = BitVec.ofNat 32 sp.id → s.hasSpace sp = true →
      s.spaceSize sp ≤ s.maddr.toNat := by
  simp only [Option.eq_none_iff_forall_ne_some, ne_eq, windowTarget_eq_some_iff, not_and, not_lt]

/-! #### Elements after an update -/

/-- The elements are those of the two slots, the picture, the tables and the block buffers. -/
theorem State.element_congr {s t : State} (hcur : t.cur = s.cur) (href : t.ref = s.ref)
    (hpic : t.picIn = s.picIn) (hqt : t.qt = s.qt) (hin : t.blkIn = s.blkIn)
    (hout : t.blkOut = s.blkOut) (sp : SpaceRef) (i : Nat) : t.element sp i = s.element sp i := by
  have hframe : ∀ f, t.frame f = s.frame f := by
    intro f
    cases f with
    | cur => exact hcur
    | ref => exact href
  cases sp <;> simp only [State.element, State.plane, hframe, hpic, hqt, hin, hout]

/-- Only the elements of `PRED[c]` of the current frame see that plane replaced. -/
theorem State.element_setPred (s : State) (g : Frame) (c : Comp) (p : Space Byte) (sp : SpaceRef)
    (i : Nat) : (s.setCur (g.setPred c p)).element sp i =
      if sp = .pred .cur c then (Space.read p i).map wordOfByte else (s.setCur g).element sp i := by
  split
  · next h => subst h; simp [State.element, State.plane, State.frame, Frame.setPred]
  next hne =>
  cases sp with
  | pred f d =>
    cases f with
    | cur =>
      have hd : d ≠ c := fun e => hne (by rw [e])
      simp only [State.element, State.plane, State.frame, State.setCur_cur, Frame.setPred,
        Triple.get_set_of_ne _ _ hd]
    | ref => rfl
  | orig f d => cases f <;> rfl
  | recons f d => cases f <;> rfl
  | resid f d => cases f <;> rfl
  | mb f d => cases f <;> rfl
  | picIn d => rfl
  | qt d => rfl
  | blkIn => rfl
  | blkOut => rfl

/-- Only the elements of `PIC_IN[c]` see that plane replaced. -/
theorem State.element_setPicIn (s : State) (c : Comp) (p : Space Byte) (sp : SpaceRef) (i : Nat) :
    ({ s with picIn := s.picIn.set c p } : State).element sp i =
      if sp = .picIn c then (Space.read p i).map wordOfByte else s.element sp i := by
  split
  · next h => subst h; simp [State.element]
  next hne =>
  cases sp with
  | picIn d =>
    have hd : d ≠ c := fun e => hne (by rw [e])
    simp only [State.element, Triple.get_set_of_ne _ _ hd]
  | _ => rfl

/-- Only the elements of `BLK_IN` see that buffer replaced. -/
theorem State.element_setBlkIn (s : State) (m : Space Half) (sp : SpaceRef) (i : Nat) :
    ({ s with blkIn := m } : State).element sp i =
      if sp = .blkIn then (Space.read m i).map wordOfHalf else s.element sp i := by
  cases sp <;> rfl

theorem State.setCur_self {s : State} {cur : Frame} (hcur : s.cur = some cur) :
    s.setCur cur = s := by
  unfold State.setCur
  rw [← hcur]

/-- A state with the same current frame, up to its planes, and the same reference has the same
slots. -/
theorem slotsFrame_of_eq {s t : State}
    (hkey : t.cur.map Frame.keyframe = s.cur.map Frame.keyframe) (href : t.ref = s.ref) :
    SlotsFrame s t := by
  have hflag : ∀ o : Option Frame, keyFlag o = (o.map Frame.keyframe).getD false := by
    intro o; cases o <;> rfl
  refine ⟨?_, ?_, href⟩
  · rw [State.curValid, State.curValid, ← Option.isSome_map (f := Frame.keyframe), hkey,
      Option.isSome_map]
  · rw [State.curKey, State.curKey, hflag, hkey, hflag]

/-! #### The window -/

/-- What a read of an element returns once `v` is stored in it: the low bits of `v`, as the space
holds them (R63). -/
def SpaceRef.storedWord (sp : SpaceRef) (v : Word) : Word :=
  match sp with
  | .blkIn => wordOfHalf (v.setWidth 16)
  | _ => wordOfByte (v.setWidth 8)

/-- A value stored through the window is read back from its element, and every other element is as
before (R63). -/
theorem State.element_storeElement {s : State} {sp : SpaceRef} (hex : s.hasSpace sp = true)
    (hw : sp.hostMayWrite = true) (i : Nat) (v : Word) (sp' : SpaceRef) (j : Nat) :
    (s.storeElement sp i v).element sp' j =
      if sp' = sp ∧ j = i then some (sp.storedWord v) else s.element sp' j := by
  have written : ∀ {α : Type} (m : Space α) (a : α) (word : α → Word) (old : Option Word),
      (sp' = sp → old = (Space.read m j).map word) →
      (if sp' = sp then (Space.read (Space.write m i a) j).map word else old) =
        if sp' = sp ∧ j = i then some (word a) else old := by
    intro α m a word old hold
    by_cases hsp : sp' = sp
    · rw [if_pos hsp, Space.read_write, hold hsp]
      by_cases hj : j = i <;> simp [hsp, hj]
    · rw [if_neg hsp, if_neg (fun h => hsp h.1)]
  cases sp with
  | pred f c =>
    cases f with
    | cur =>
      obtain ⟨fr, hcur⟩ := Option.isSome_iff_exists.mp hex
      simp only [State.frame] at hcur
      simp only [State.storeElement, hcur, State.element_setPred, State.setCur_self hcur]
      refine written _ _ wordOfByte _ (fun e => ?_)
      rw [e]
      simp only [State.element, State.plane, State.frame, hcur]
    | ref => cases hw
  | picIn c =>
    simp only [State.storeElement, State.element_setPicIn]
    exact written _ _ wordOfByte _ (fun e => by rw [e]; rfl)
  | blkIn =>
    simp only [State.storeElement, State.element_setBlkIn]
    exact written _ _ wordOfHalf _ (fun e => by rw [e]; rfl)
  | _ => cases hw

theorem readNumber_mdata (s : State) : s.readNumber 0x32#8 = s.windowRead := by
  rw [State.readNumber, HostReg.ofNumber_mdata]
  rfl

theorem windowRead_of_none {s : State} (h : s.windowTarget = none) :
    s.windowRead = .error .access := by
  simp only [State.windowRead, h]

theorem windowRead_of_element {s : State} {sp : SpaceRef} {w : Word} (h : s.windowTarget = some sp)
    (hw : s.element sp s.maddr.toNat = some w) : s.windowRead = .ok w := by
  simp only [State.windowRead, h, hw]

theorem windowRead_of_undef {s : State} {sp : SpaceRef} (h : s.windowTarget = some sp)
    (hw : s.element sp s.maddr.toNat = none) : s.windowRead = .error .undef := by
  simp only [State.windowRead, h, hw]

theorem windowWrite_of_none {s : State} (h : s.windowTarget = none) (v : Word) :
    s.windowWrite v = .error .access := by
  simp only [State.windowWrite, h]

theorem windowWrite_of_not_writable {s : State} {sp : SpaceRef} (h : s.windowTarget = some sp)
    (hw : sp.hostMayWrite = false) (v : Word) : s.windowWrite v = .error .access := by
  simp only [State.windowWrite, h, hw, Bool.false_eq_true, if_false]

theorem windowWrite_of_writable {s : State} {sp : SpaceRef} (h : s.windowTarget = some sp)
    (hw : sp.hostMayWrite = true) (v : Word) :
    s.windowWrite v = .ok (s.storeElement sp s.maddr.toNat v) := by
  simp only [State.windowWrite, h, hw, if_true]

/-- The host may write `PIC_IN`, the current prediction and `BLK_IN` (R61). -/
theorem SpaceRef.hostMayWrite_iff {sp : SpaceRef} :
    sp.hostMayWrite = true ↔ (∃ c, sp = .picIn c ∨ sp = .pred .cur c) ∨ sp = .blkIn := by
  cases sp with
  | pred f c => cases f <;> simp [SpaceRef.hostMayWrite]
  | _ => simp [SpaceRef.hostMayWrite]

@[simp] theorem taken_element (s : State) (rest : List HostAccess) (sp : SpaceRef) (i : Nat) :
    (taken s rest).element sp i = s.element sp i :=
  State.element_congr rfl rfl rfl rfl rfl rfl sp i

theorem hostWrite_of_error {s : State} {reg : Byte} {v : Word} {r : HostReg} {c : Cause}
    (hf : s.faulted = false) (hr : HostReg.ofNumber reg = some r) (hcmd : r ≠ .cmd)
    (h : s.writeReg v r = .error c) :
    hostWrite reg v s = .next (s.recordFault c (s.accessWord reg)) := by
  unfold hostWrite
  rw [if_neg (by simp [hf]), hr]
  cases r with
  | cmd => exact absurd rfl hcmd
  | _ => simp only [h, State.raise_of_not_faulted hf]

/-- A write of MDATA that the window refuses faults and does nothing else (R64, R244). -/
theorem step_write_mdata_refused {s : State} {rest : List HostAccess} {v : Word}
    (hf : s.faulted = false) (hnext : Next s (.write 0x32#8 v) rest)
    (h : (taken s rest).windowWrite v = .error .access) :
    step s = .next (recorded (taken s rest) 0x07#32 (accessInfo s 0x32#8)) := by
  rw [step_of_next hnext, hostAccess,
    hostWrite_of_error (s := taken s rest) hf HostReg.ofNumber_mdata (by decide) h,
    State.accessWord_eq]
  rfl

/-- A write of MDATA that the window allows stores the value (R63). -/
theorem step_write_mdata_stores {s t : State} {rest : List HostAccess} {v : Word}
    (hf : s.faulted = false) (hnext : Next s (.write 0x32#8 v) rest)
    (h : (taken s rest).windowWrite v = .ok t) : step s = .next t := by
  rw [step_of_next hnext, hostAccess]
  exact hostWrite_of_ok (s := taken s rest) hf HostReg.ofNumber_mdata (by decide) h

/-- A read of MDATA that faults returns no value and does nothing else (R64, R66, R244). -/
theorem step_read_mdata_fault {s : State} {rest : List HostAccess} {c : Cause}
    (hf : s.faulted = false) (hnext : Next s (.read 0x32#8) rest)
    (h : (taken s rest).windowRead = .error c) :
    step s = .next { recorded (taken s rest) (c.code.setWidth 32) (accessInfo s 0x32#8) with
      hostRead := none } := by
  rw [step_of_next hnext, hostAccess, hostRead_of_error (s := taken s rest) hf
    ((readNumber_mdata _).trans h), State.accessWord_eq]
  rfl

/-- A read of MDATA that reaches a defined element returns it (R63). -/
theorem step_read_mdata_returns {s : State} {rest : List HostAccess} {w : Word}
    (hnext : Next s (.read 0x32#8) rest) (h : (taken s rest).windowRead = .ok w) :
    step s = .next { taken s rest with hostRead := some w } := by
  rw [step_of_next hnext, hostAccess, hostRead_of_ok ((readNumber_mdata _).trans h)]
  rfl

end Sys2Proof.Machine
end

section
namespace Sys2Proof.Proofs

open Sys2Proof.Machine Sys2Proof.Claim

/-- Settles O13: over the list of all spaces, and by the ranges of the ids. -/
theorem spaceIdsNameSpaces : Obligations.SpaceIdsNameSpaces := by
  refine ⟨SpaceRef.ofId_id, fun _ _ h => SpaceRef.id_of_ofId h, fun c => ?_, rfl, rfl⟩
  cases c <;> decide

/-- Settles O14: the three clauses are the three outcomes of the window's target and element. -/
theorem windowReadFollowsRules : Obligations.WindowReadFollowsRules := by
  intro s rest hnext
  have target : ∀ sp, s.msel = BitVec.ofNat 32 sp.id → s.hasSpace sp = true →
      s.maddr.toNat < s.spaceSize sp → (taken s rest).windowTarget = some sp :=
    fun sp hid hex hlt => windowTarget_eq_some_iff.mpr ⟨hid, hex, hlt⟩
  refine ⟨fun sp v hid hex hlt hv => ?_, fun sp hid hex hlt hv hf => ?_, fun hno hf => ?_⟩
  · exact step_read_mdata_returns hnext (windowRead_of_element (target sp hid hex hlt)
      ((taken_element s rest sp _).trans hv))
  · exact step_read_mdata_fault (c := .undef) hf hnext
      (windowRead_of_undef (target sp hid hex hlt) ((taken_element s rest sp _).trans hv))
  · exact step_read_mdata_fault (c := .access) hf hnext
      (windowRead_of_none (s := taken s rest) (windowTarget_eq_none_iff.mpr hno))

/-- Settles O15: the store reaches one element, and a target that is not writable or absent is
refused. -/
theorem windowWriteFollowsRules : Obligations.WindowWriteFollowsRules := by
  intro s rest v hf hnext
  refine ⟨fun sp hid hex hlt => ?_, fun hno => ?_⟩
  · have htarget : (taken s rest).windowTarget = some sp :=
      windowTarget_eq_some_iff.mpr ⟨hid, hex, hlt⟩
    have stored : sp.hostMayWrite = true → ∃ t, step s = .next t ∧
        t = (taken s rest).storeElement sp s.maddr.toNat v ∧
        t.element sp s.maddr.toNat = some (sp.storedWord v) ∧
        MemoryFrame s t (fun sp' i => sp' = sp ∧ i = s.maddr.toNat) := by
      intro hw
      have helem := State.element_storeElement (s := taken s rest) hex hw s.maddr.toNat v
      refine ⟨_, step_write_mdata_stores hf hnext (windowWrite_of_writable htarget hw v), rfl, ?_,
        fun sp' i hne => ?_⟩
      · exact (helem sp _).trans (if_pos ⟨rfl, rfl⟩)
      · exact (helem sp' i).trans ((if_neg hne).trans (taken_element s rest sp' i))
    refine ⟨?picture, ?block, ?refused⟩
    case picture =>
      rintro ⟨c, hsp⟩
      obtain ⟨t, hstep, ht, hval, hframe⟩ := stored (SpaceRef.hostMayWrite_iff.mpr (.inl ⟨c, hsp⟩))
      have hword : sp.storedWord v = BitVec.ofNat 32 (v.toNat % 2 ^ 8) := by
        have : wordOfByte (v.setWidth 8) = BitVec.ofNat 32 (v.toNat % 2 ^ 8) :=
          BitVec.eq_of_toNat_eq (by simp [wordOfByte])
        rcases hsp with rfl | rfl <;> exact this
      obtain ⟨heq, hkey, -, -⟩ := storeElement_frame (taken s rest) sp s.maddr.toNat v
      rw [← ht] at heq hkey
      have hblk : t.blkIn = s.blkIn := by
        rw [ht]
        rcases hsp with rfl | rfl
        · rfl
        · simp only [State.storeElement]
          cases hc : (taken s rest).cur <;> rfl
      refine ⟨t, hstep, ?_, slotsFrame_of_eq hkey (by rw [heq]; rfl), by rw [hval, hword], hframe⟩
      rw [hblk] at heq
      exact heq
    case block =>
      rintro rfl
      obtain ⟨t, hstep, ht, hval, hframe⟩ := stored rfl
      exact ⟨t, hstep, by rw [ht]; rfl, hval, hframe⟩
    case refused =>
      intro hpic hblk
      refine step_write_mdata_refused hf hnext (windowWrite_of_not_writable htarget ?_ v)
      rw [← Bool.not_eq_true, SpaceRef.hostMayWrite_iff]
      rintro (⟨c, e | e⟩ | e)
      · exact (hpic c).1 e
      · exact (hpic c).2 e
      · exact hblk e
  · exact step_write_mdata_refused hf hnext
      (windowWrite_of_none (s := taken s rest) (windowTarget_eq_none_iff.mpr hno) v)

end Sys2Proof.Proofs
end

section
/-! ### Distortions and candidates, in the words of the statements -/

namespace Sys2Proof.Machine

open Sys2Proof.Claim

/-! #### Distortion -/

/-- A sum over the samples of a block, row by row (R65). -/
theorem sum_map_blockOffsets (f : Nat → Nat) (t : Nat) :
    ((blockOffsets t).map f).sum = ∑ r ∈ Finset.range 8, ∑ k ∈ Finset.range 8, f (r * t + k) := by
  have hrange : ∀ g : Nat → Nat, ((List.range 8).map g).sum = ∑ i ∈ Finset.range 8, g i :=
    fun _ => rfl
  simp only [← hrange, blockOffsets, List.flatMap_def, List.map_flatten, List.sum_flatten,
    List.map_map, Function.comp_def]

/-- The machine's sum over two windows is the distortion of R141. -/
theorem sumAbsDiff_windows (A B : Nat → Byte) (oa ob t : Nat) :
    sumAbsDiff ((windowIndices oa t).map A) ((windowIndices ob t).map B) =
      distortion A B oa ob t := by
  rw [windowIndices, windowIndices, List.map_map, List.map_map, sumAbsDiff_map _ _ _ _ rfl,
    List.zip_eq_zipWith, List.zipWith_self, List.map_map]
  refine (sum_map_blockOffsets _ t).trans ?_
  simp only [Function.comp_def, distortion, absDiff, Nat.add_assoc]

/-- A distortion is at most 64 times 255 (R144). -/
theorem distortion_le (A B : Nat → Byte) (oa ob t : Nat) : distortion A B oa ob t ≤ 16320 := by
  have := sumAbsDiff_le ((windowIndices oa t).map A) ((windowIndices ob t).map B)
  rw [sumAbsDiff_windows, List.length_map, windowIndices_length] at this
  exact this

/-- A score fits SAD_ACC and ME_BEST (R144). -/
theorem toNat_candidateScore (s : State) (c : Comp) (A B : Nat → Byte) (mbX mbY x y : Nat) :
    (BitVec.ofNat 32 (candidateScore s c A B mbX mbY x y)).toNat =
      candidateScore s c A B mbX mbY x y := by
  have : candidateScore s c A B mbX mbY x y ≤ 16320 := distortion_le A B _ _ _
  rw [BitVec.toNat_ofNat]
  omega

/-! #### Candidates -/

theorem effectiveRange_eq (s : State) (c : Comp) : effectiveRange s c = (s.rng c : Int) := by
  cases c <;> rfl

/-- The candidates the machine visits are those of R153. -/
theorem mem_meWindow_candidates {s : State} {c : Comp} {mbX mbY : Nat} {p : Nat × Nat} :
    p ∈ (s.meWindow c mbX mbY).candidates ↔ Candidate s c mbX mbY p.1 p.2 := by
  rw [mem_candidates]
  simp only [State.meWindow, searchWindow, Candidate, effectiveRange_eq]
  omega

theorem candidates_rasterBefore (w : SearchWindow) : w.candidates.Pairwise rasterBefore :=
  candidates_pairwise w

theorem rasterBefore_asymm {p q : Nat × Nat} (h : rasterBefore p q) : ¬ rasterBefore q p := by
  unfold rasterBefore at *
  omega

/-- In a list in raster order, what stands before an element is what comes before it in the order.
-/
theorem mem_before_iff {pre post : List (Nat × Nat)} {p q : Nat × Nat}
    (h : (pre ++ p :: post).Pairwise rasterBefore) :
    q ∈ pre ↔ q ∈ pre ++ p :: post ∧ rasterBefore q p := by
  obtain ⟨-, hpost, hpre⟩ := List.pairwise_append.mp h
  constructor
  · intro hq
    exact ⟨List.mem_append_left _ hq, hpre q hq p (by simp)⟩
  · rintro ⟨hq, hb⟩
    rcases List.mem_append.mp hq with hq | hq
    · exact hq
    · rcases List.mem_cons.mp hq with rfl | hq
      · exact absurd hb (rasterBefore_asymm hb)
      · exact absurd hb (rasterBefore_asymm ((List.pairwise_cons.mp hpost).1 q hq))

/-- The displacement a candidate's vector holds (R152, R153). -/
theorem candidate_vector {s : State} {c : Comp} {mbX mbY x y : Nat}
    (h : Candidate s c mbX mbY x y) :
    (BitVec.ofInt 8 ((x : Int) - (mbX * 8 : Nat))).toInt = (x : Int) - (mbX * 8 : Nat) ∧
      (BitVec.ofInt 8 ((y : Int) - (mbY * 8 : Nat))).toInt = (y : Int) - (mbY * 8 : Nat) := by
  have hr := s.rng_le c
  unfold Candidate at h
  rw [effectiveRange_eq] at h
  constructor <;> rw [BitVec.toInt_ofInt, Int.bmod_eq_of_le] <;> omega

/-- A sample of a window, as the machine counts from the window's origin (R65). -/
theorem windowSample_eq (s : State) (c : Comp) (x y r k : Nat) :
    sampleIndex (s.pw c) x y + r * s.pw c + k = windowSample s c x y r k := by
  unfold sampleIndex windowSample
  rw [Nat.add_mul]
  omega

theorem mem_windowIndices_iff_windowSample {s : State} {c : Comp} {x y i : Nat} :
    i ∈ windowIndices (sampleIndex (s.pw c) x y) (s.pw c) ↔
      ∃ r k, r < 8 ∧ k < 8 ∧ i = windowSample s c x y r k := by
  simp only [mem_windowIndices, windowSample_eq]

/-- A sample of a macroblock of the grid is an element of the plane (R33, R234). -/
theorem windowSample_lt {s : State} {c : Comp} (hg : GridOk s) {x y r k : Nat}
    (h : InGrid s c x y) (hr : r < 8) (hk : k < 8) :
    windowSample s c (x * 8) (y * 8) r k < s.planeSize c := by
  obtain ⟨hx, hy⟩ := h
  obtain ⟨-, -, hpw, hph⟩ := hg c
  rw [← windowSample_eq]
  exact block_sample_lt (by omega) (by omega) hr hk

/-- Samples of two macroblocks of a grid coincide only if the macroblocks do (R33). -/
theorem unit_eq_of_windowSample_eq {s : State} {c : Comp} (hpw : s.pw c = 8 * s.cols c)
    {x y r k x' y' r' k' : Nat} (hx : x < s.cols c) (hx' : x' < s.cols c) (hr : r < 8) (hk : k < 8)
    (hr' : r' < 8) (hk' : k' < 8)
    (h : windowSample s c (x' * 8) (y' * 8) r' k' = windowSample s c (x * 8) (y * 8) r k) :
    x' = x ∧ y' = y := by
  have := unit_eq_of_index_eq (n := s.pw c) (x := x * 8 + k) (y := y * 8 + r) (x' := x' * 8 + k')
    (y' := y' * 8 + r') (by omega) (by omega) (by unfold windowSample at h; omega)
  omega

/-- The order of macroblocks of one component is that of their records (R226). -/
theorem unitBefore_same_iff {s : State} {c : Comp} {x y x' y' : Nat} :
    unitBefore s (c, x', y') (c, x, y) ↔ y' * s.cols c + x' < y * s.cols c + x := by
  simp [unitBefore]

end Sys2Proof.Machine
end

section
/-! ### The search of one macroblock -/

namespace Sys2Proof.Machine

open Sys2Proof.Claim

/-- The anchor block of a macroblock holds its samples of `A` (R150). -/
def AnchorHolds (s : State) (c : Comp) (cur : Frame) (A : Nat → Byte) (mbX mbY : Nat) : Prop :=
  ∀ r k, r < 8 → k < 8 → Space.read (cur.orig.get c) (windowSample s c (mbX * 8) (mbY * 8) r k) =
    some (A (windowSample s c (mbX * 8) (mbY * 8) r k))

theorem anchorHolds_of_holds {s : State} {c : Comp} {cur : Frame} {A : Nat → Byte} {mbX mbY : Nat}
    (hg : GridOk s) (h : InGrid s c mbX mbY) (hA : Holds (cur.orig.get c) (s.planeSize c) A) :
    AnchorHolds s c cur A mbX mbY :=
  fun _ _ hr hk => hA _ (windowSample_lt hg h hr hk)

section
variable {s : State} {c : Comp} {cur ref : Frame} {A B : Nat → Byte} {mbX mbY : Nat}

/-- Over a defined anchor block, a candidate whose window is defined has its score (R141, R153). -/
theorem meScore_of_defined (hA : AnchorHolds s c cur A mbX mbY) {p : Nat × Nat}
    (hB : ∀ r k, r < 8 → k < 8 → Space.read (ref.recons.get c) (windowSample s c p.1 p.2 r k) =
      some (B (windowSample s c p.1 p.2 r k))) :
    meScore (cur.orig.get c) (ref.recons.get c) (s.pw c) (mbX * 8) (mbY * 8) p =
      some (candidateScore s c A B mbX mbY p.1 p.2) := by
  unfold meScore
  rw [sadValue_of_defined (A := A) (B := B), sumAbsDiff_windows]
  · rfl
  · intro i hi
    obtain ⟨r, k, hr, hk, rfl⟩ := mem_windowIndices_iff_windowSample.mp hi
    exact hA r k hr hk
  · intro i hi
    obtain ⟨r, k, hr, hk, rfl⟩ := mem_windowIndices_iff_windowSample.mp hi
    exact hB r k hr hk

/-- A candidate with an `undef` sample in its window has no score (R66, R154). -/
theorem meScore_of_undef {p : Nat × Nat} (h : ∃ r k, r < 8 ∧ k < 8 ∧
      Space.read (ref.recons.get c) (windowSample s c p.1 p.2 r k) = none) :
    meScore (cur.orig.get c) (ref.recons.get c) (s.pw c) (mbX * 8) (mbY * 8) p = none := by
  obtain ⟨r, k, hr, hk, h⟩ := h
  exact sadValue_eq_none_iff.mpr
    (.inr ⟨_, mem_windowIndices_iff_windowSample.mpr ⟨r, k, hr, hk, rfl⟩, h⟩)

end

/-- The search's state after the candidates `cands`, all of which have a score. -/
def searchFold (s : State) (c : Comp) (A B : Nat → Byte) (mbX mbY : Nat) (cands : List (Nat × Nat))
    (st : Search) : Search :=
  cands.foldl (fun st p =>
    st.consider (mbX * 8) (mbY * 8) p (candidateScore s c A B mbX mbY p.1 p.2)) st

/-- SAD_ACC after some candidates: unchanged if there were none, otherwise the score of the last
(R43). -/
theorem searchFold_sadAcc (s : State) (c : Comp) (A B : Nat → Byte) (mbX mbY : Nat)
    {cands : List (Nat × Nat)} (hord : cands.Pairwise rasterBefore) (st : Search) :
    (cands = [] → (searchFold s c A B mbX mbY cands st).sadAcc = st.sadAcc) ∧
      ∀ p ∈ cands, (∀ q ∈ cands, ¬ rasterBefore p q) →
        (searchFold s c A B mbX mbY cands st).sadAcc.toNat =
          candidateScore s c A B mbX mbY p.1 p.2 := by
  refine ⟨fun h => by rw [h]; rfl, fun p hp hlast => ?_⟩
  obtain ⟨-, hacc⟩ := consider_foldl (fun p => candidateScore s c A B mbX mbY p.1 p.2)
    (mbX * 8) (mbY * 8) cands st
  obtain ⟨pre, post, rfl⟩ := List.append_of_mem hp
  obtain ⟨-, hpost, -⟩ := List.pairwise_append.mp hord
  have hnil : post = [] := by
    refine List.eq_nil_iff_forall_not_mem.mpr (fun q hq => ?_)
    exact hlast q (by simp [hq]) ((List.pairwise_cons.mp hpost).1 q hq)
  subst hnil
  rw [List.getLast?_concat] at hacc
  rw [searchFold, hacc, toNat_candidateScore]

/-- What a search over all candidates keeps is the result R154 to R156 give. -/
theorem searchFold_result (s : State) (c : Comp) (A B : Nat → Byte) (mbX mbY : Nat) (old : MbRecord)
    (acc : Word) :
    let st := searchFold s c A B mbX mbY (s.meWindow c mbX mbY).candidates (searchStart old acc)
    SearchResult s c A B mbX mbY old st.record (BitVec.ofNat 32 st.best) := by
  intro st
  obtain ⟨hkept, -⟩ := consider_foldl (fun p => candidateScore s c A B mbX mbY p.1 p.2)
    (mbX * 8) (mbY * 8) (s.meWindow c mbX mbY).candidates (searchStart old acc)
  change (_ ∧ st.best = _ ∧ st.mvX = _ ∧ st.mvY = _) ∨
    (∃ pre p post, _ ∧ _ ∧ _ ∧ _ ∧ st.best = _ ∧ st.mvX = _ ∧ st.mvY = _) at hkept
  refine ⟨rfl, fun hnone => ?_, fun ⟨x₀, y₀, h₀⟩ => ?_⟩
  · rcases hkept with ⟨-, hbest, hmvX, hmvY⟩ | ⟨pre, p, post, hsplit, -⟩
    · exact ⟨hmvX, hmvY, by rw [hbest]; rfl⟩
    · have hp : p ∈ (s.meWindow c mbX mbY).candidates := by rw [hsplit]; simp
      exact absurd (mem_meWindow_candidates.mp hp) (hnone _ _)
  · rcases hkept with ⟨hall, -⟩ | ⟨pre, p, post, hsplit, -, hpre, hpost, hbest, hmvX, hmvY⟩
    · have hle := hall (x₀, y₀) (mem_meWindow_candidates.mpr h₀)
      have : candidateScore s c A B mbX mbY x₀ y₀ ≤ 16320 := distortion_le A B _ _ _
      simp only [searchStart] at hle
      omega
    · have hp : p ∈ (s.meWindow c mbX mbY).candidates := by rw [hsplit]; simp
      have hcand := mem_meWindow_candidates.mp hp
      obtain ⟨hvecX, hvecY⟩ := candidate_vector hcand
      have hord := candidates_rasterBefore (s.meWindow c mbX mbY)
      rw [hsplit] at hord
      refine ⟨p.1, p.2, hcand, by rw [← hvecX, ← hmvX]; rfl, by rw [← hvecY, ← hmvY]; rfl,
        by rw [hbest, toNat_candidateScore], fun x' y' h' => ?_⟩
      have hmem : (x', y') ∈ pre ++ p :: post := hsplit ▸ mem_meWindow_candidates.mpr h'
      by_cases hb : rasterBefore (x', y') p
      · have hlt := hpre (x', y') ((mem_before_iff hord).mpr ⟨hmem, hb⟩)
        exact ⟨hlt.le, fun _ => hlt⟩
      · refine ⟨?_, fun h => absurd h hb⟩
        rcases List.mem_append.mp hmem with hm | hm
        · exact (hpre (x', y') hm).le
        · rcases List.mem_cons.mp hm with rfl | hm
          · exact le_rfl
          · exact hpost (x', y') hm

section
variable {s : State} {c : Comp} {cur ref : Frame} {A B : Nat → Byte} {mbX mbY : Nat}
  {old : MbRecord} (hcur : s.cur = some cur) (href : s.ref = some ref)
  (hold : Space.read (cur.mb.get c) (mbY * s.cols c + mbX) = some old)
  (hA : AnchorHolds s c cur A mbX mbY)
include hcur href hold hA

/-- A search all of whose windows are defined writes its result (R154 to R157). -/
theorem meAt_searches (hB : WindowsHold s c ref B mbX mbY) :
    ∃ m best acc, meAt c (mbX, mbY) s = .done (((s.setSadAcc acc).setCur
        (cur.writeMb c (mbY * s.cols c + mbX) m)).setMeResult best m.word) ∧
      SearchResult s c A B mbX mbY old m best ∧
      ((∀ x y, ¬ Candidate s c mbX mbY x y) → acc = s.sadAcc) ∧
      ∀ x y, LastCandidate s c mbX mbY x y → acc.toNat = candidateScore s c A B mbX mbY x y := by
  have hdone := meAt_done (mb := (mbX, mbY)) hcur href hold (fun p hp =>
    meScore_of_defined (B := B) hA (fun r k hr hk =>
      hB p.1 p.2 r k (mem_meWindow_candidates.mp hp) hr hk))
  obtain ⟨hnone, hlast⟩ := searchFold_sadAcc s c A B mbX mbY
    (candidates_rasterBefore (s.meWindow c mbX mbY)) (searchStart old s.sadAcc)
  refine ⟨_, _, _, hdone, searchFold_result s c A B mbX mbY old s.sadAcc, fun h => ?_,
    fun x y ⟨hcand, hmax⟩ => ?_⟩
  · refine hnone (List.eq_nil_iff_forall_not_mem.mpr (fun p hp => ?_))
    exact h _ _ (mem_meWindow_candidates.mp hp)
  · refine hlast (x, y) (mem_meWindow_candidates.mpr hcand) (fun q hq => ?_)
    have := hmax q.1 q.2 (mem_meWindow_candidates.mp hq)
    simp only [rasterBefore]
    omega

/-- A search that reaches an `undef` sample stops there; SAD_ACC holds the last finished sum (R66,
R154). -/
theorem meAt_stops {x y : Nat} (hstop : SearchStopsAt s c ref B mbX mbY x y) :
    ∃ acc, meAt c (mbX, mbY) s = .raised .undef (s.setSadAcc acc) ∧
      SadBefore s c A B mbX mbY x y s.sadAcc acc := by
  obtain ⟨hcand, hundef, hbefore⟩ := hstop
  obtain ⟨pre, post, hsplit⟩ :=
    List.append_of_mem (mem_meWindow_candidates (p := (x, y)).mpr hcand)
  have hord := candidates_rasterBefore (s.meWindow c mbX mbY)
  rw [hsplit] at hord
  have hpre : ∀ q, q ∈ pre ↔ Candidate s c mbX mbY q.1 q.2 ∧ rasterBefore q (x, y) := by
    intro q
    rw [mem_before_iff hord, ← hsplit, mem_meWindow_candidates]
  have hloop := searchLoop_stops (ax := mbX * 8) (ay := mbY * 8) (post := post)
    (fun q hq => meScore_of_defined (B := B) hA (fun r k hr hk =>
      hbefore q.1 q.2 r k ((hpre q).mp hq).1 ((hpre q).mp hq).2 hr hk))
    (meScore_of_undef (cur := cur) (p := (x, y)) hundef) (searchStart old s.sadAcc)
  refine ⟨(searchFold s c A B mbX mbY pre (searchStart old s.sadAcc)).sadAcc, ?_, ?_⟩
  · simp only [meAt, hcur, href, hold, meSearch, hsplit, hloop]
    rfl
  · obtain ⟨hnone, hlast⟩ := searchFold_sadAcc s c A B mbX mbY
      (List.pairwise_append.mp hord).1 (searchStart old s.sadAcc)
    refine ⟨fun h => ?_, fun x' y' h' hb' hmax => ?_⟩
    · refine hnone (List.eq_nil_iff_forall_not_mem.mpr (fun q hq => ?_))
      exact h _ _ ((hpre q).mp hq).1 ((hpre q).mp hq).2
    · refine hlast (x', y') ((hpre _).mpr ⟨h', hb'⟩) (fun q hq => ?_)
      exact hmax q.1 q.2 ((hpre q).mp hq).1 ((hpre q).mp hq).2

end

end Sys2Proof.Machine
end

section
/-! ### Sweeps that stop at a macroblock -/

namespace Sys2Proof.Machine

open Sys2Proof.Claim

/-- A sweep whose first `n` units complete reaches unit `n` in a state with the property carried
along, and ends there if that unit raises a fault (R15, R244). -/
theorem sweep_reaches {α : Type} {f : α → State → Run} (I : Nat → State → Prop) {us : List α}
    {n : Nat} (hn : n < us.length)
    (h : ∀ k (hk : k < n) s, I k s → ∃ t, f us[k] s = .done t ∧ I (k + 1) t) {s : State}
    (hs : I 0 s) :
    ∃ t, I n t ∧ ∀ e u, f us[n] t = .raised e u → sweep f us s = .raised e u := by
  have hlen : (us.take n).length = n := by rw [List.length_take]; omega
  obtain ⟨t, ht, hI⟩ := sweep_completes I (us := us.take n)
    (fun k hk s hs => by
      rw [List.getElem_take]
      exact h k (by omega) s hs) s hs
  rw [hlen] at hI
  refine ⟨t, hI, fun e u hu => ?_⟩
  have hsplit : us = us.take n ++ us[n] :: us.drop (n + 1) := by
    rw [List.getElem_cons_drop, List.take_append_drop]
  calc sweep f us s = (sweep f (us.take n) s).andThen (sweep f (us[n] :: us.drop (n + 1))) := by
        rw [← sweep_append, ← hsplit]
    _ = .raised e u := by rw [ht, Run.andThen_done, sweep_cons, hu, Run.andThen_raised]

/-- The same for the macroblocks of a grid, by column and row (R226, R227). -/
theorem sweep_raster_reaches {f : Nat × Nat → State → Run} (I : Nat → State → Prop)
    {cols rows x y : Nat} (hx : x < cols) (hy : y < rows)
    (h : ∀ x' y', x' < cols → y' < rows → y' * cols + x' < y * cols + x → ∀ s,
      I (y' * cols + x') s → ∃ t, f (x', y') s = .done t ∧ I (y' * cols + x' + 1) t) {s : State}
    (hs : I 0 s) :
    ∃ t, I (y * cols + x) t ∧
      ∀ e u, f (x, y) t = .raised e u → sweep f (raster cols rows) s = .raised e u := by
  have hn : y * cols + x < cols * rows := record_lt hx hy
  have hget : ∀ k (hk : k < (raster cols rows).length),
      (raster cols rows)[k] = (k % cols, k / cols) := by
    intro k hk
    rw [raster_length] at hk
    exact List.getElem_eq_iff _ |>.mpr (raster_getElem? cols rows hk)
  have hunit : ((y * cols + x) % cols, (y * cols + x) / cols) = (x, y) :=
    Prod.ext_iff.mpr (unit_eq_of_index_eq hx (Nat.mod_lt _ (by omega)) (Nat.div_add_mod' _ cols))
  obtain ⟨t, hI, hstop⟩ := sweep_reaches (f := f) I (us := raster cols rows) (n := y * cols + x)
    (by rw [raster_length]; exact hn)
    (fun k hk s hs => by
      have hk' := Nat.div_add_mod' k cols
      rw [hget]
      have := h (k % cols) (k / cols) (Nat.mod_lt _ (by omega))
        (Nat.div_lt_of_lt_mul (by omega)) (by rw [hk']; exact hk) s
      rw [hk'] at this
      exact this hs) hs
  rw [hget, hunit] at hstop
  exact ⟨t, hI, hstop⟩

/-! #### Frames -/

theorem Triple.set_get_self {α : Type} (t : Triple α) (c : Comp) : t.set c (t.get c) = t := by
  cases c <;> rfl

theorem Triple.set_set {α : Type} (t : Triple α) (c : Comp) (a b : α) :
    (t.set c a).set c b = t.set c b := by
  cases c <;> rfl

theorem Frame.setPred_get_self (f : Frame) (c : Comp) : f.setPred c (f.pred.get c) = f := by
  rw [Frame.setPred, Triple.set_get_self]

theorem Frame.setPred_setPred (f : Frame) (c : Comp) (p q : Space Byte) :
    (f.setPred c p).setPred c q = f.setPred c q := by
  simp only [Frame.setPred, Triple.set_set]

@[simp] theorem Frame.setPred_pred_get (f : Frame) (c : Comp) (p : Space Byte) :
    (f.setPred c p).pred.get c = p := Triple.get_set_same _ _ _

/-- A frame with the grid of one component replaced. -/
def Frame.setMb (f : Frame) (c : Comp) (grid : Space MbRecord) : Frame :=
  { f with mb := f.mb.set c grid }

theorem Frame.setMb_get_self (f : Frame) (c : Comp) : f.setMb c (f.mb.get c) = f := by
  rw [Frame.setMb, Triple.set_get_self]

@[simp] theorem Frame.setMb_mb_get (f : Frame) (c : Comp) (grid : Space MbRecord) :
    (f.setMb c grid).mb.get c = grid := Triple.get_set_same _ _ _

/-- A record written is an element of the component's grid replaced. -/
theorem Frame.writeMb_setMb (f : Frame) (c : Comp) (grid : Space MbRecord) (j : Nat)
    (m : MbRecord) : (f.setMb c grid).writeMb c j m = f.setMb c (Space.write grid j m) := by
  simp only [Frame.writeMb, Frame.setMb, Triple.get_set_same, Triple.set_set]

/-- Only the elements of `MB[c]` of the current frame see that grid replaced. -/
theorem State.element_setMb (s : State) (g : Frame) (c : Comp) (grid : Space MbRecord)
    (sp : SpaceRef) (i : Nat) : (s.setCur (g.setMb c grid)).element sp i =
      if sp = .mb .cur c then (Space.read grid i).map MbRecord.word
      else (s.setCur g).element sp i := by
  split
  · next h => subst h; simp [State.element, State.plane, State.frame]
  next hne =>
  cases sp with
  | mb f d =>
    cases f with
    | cur =>
      have hd : d ≠ c := fun e => hne (by rw [e])
      simp only [State.element, State.plane, State.frame, State.setCur_cur, Frame.setMb,
        Triple.get_set_of_ne _ _ hd]
    | ref => rfl
  | orig f d => cases f <;> rfl
  | recons f d => cases f <;> rfl
  | resid f d => cases f <;> rfl
  | pred f d => cases f <;> rfl
  | picIn d => rfl
  | qt d => rfl
  | blkIn => rfl
  | blkOut => rfl

end Sys2Proof.Machine
end

section
/-! ### What an inter frame gives the motion commands -/

namespace Sys2Proof.Claim

open Sys2Proof.Machine

/-- A constructed state without a fault is READY or ENDED (R241). -/
theorem Live.lifecycle_constructed {s : State} (h : Live s) : s.lifecycle.constructed = true := by
  obtain ⟨hf, hv⟩ := h
  unfold State.lifecycle
  rw [hf, hv]
  cases s.ended <;> rfl

section
variable {s : State} {c : Comp} {cur ref : Frame} {A : Nat → Byte} {M : Nat → MbRecord}

theorem Startable.curKey (h : Startable s c cur ref A M) : s.curKey = false := by
  rw [State.curKey, h.cur_eq]
  exact h.inter

theorem Startable.refValid (h : Startable s c cur ref A M) : s.refValid = true := by
  rw [State.refValid, h.ref_eq]
  rfl

theorem Startable.curValid (h : Startable s c cur ref A M) : s.curValid = true := by
  rw [State.curValid, h.cur_eq]
  rfl

theorem Startable.searchable (h : Startable s c cur ref A M) : s.searchable = true := by
  rw [State.searchable, h.curValid, h.refValid, h.curKey]
  rfl

/-- The record of a macroblock, as the statements index it (R33). -/
theorem Startable.read_record (h : Startable s c cur ref A M) {x y : Nat} (hin : InGrid s c x y) :
    Space.read (cur.mb.get c) (y * s.cols c + x) = some (M (y * s.cols c + x)) :=
  h.records _ (record_lt hin.1 hin.2)

end

end Sys2Proof.Claim
end

section
/-! ### Searches over a component -/

namespace Sys2Proof.Machine

open Sys2Proof.Claim

/-- The state in which the search of macroblock `n` of a component begins or ends: POS, SAD_ACC, the
result registers and the component's records are `pos`, `acc`, `best`, `mv` and `grid` (R157). -/
def searchState (s : State) (c : Comp) (cur : Frame) (pos acc best mv : Word)
    (grid : Space MbRecord) : State :=
  (((s.setPos pos).setSadAcc acc).setCur (cur.setMb c grid)).setMeResult best mv

/-- The records and the result registers once the first `n` macroblocks of a component, in raster
order, are searched: each has its result, the last one's is shown, and the other records are the old
ones (R157, R160). -/
structure Searched (s : State) (c : Comp) (cur : Frame) (A B : Nat → Byte) (M : Nat → MbRecord)
    (n : Nat) (best mv : Word) (grid : Space MbRecord) : Prop where
  kept : ∀ j, n ≤ j → Space.read grid j = Space.read (cur.mb.get c) j
  found : ∀ x y, x < s.cols c → y * s.cols c + x < n →
    ∃ m b, Space.read grid (y * s.cols c + x) = some m ∧
      SearchResult s c A B x y (M (y * s.cols c + x)) m b ∧
      (y * s.cols c + x + 1 = n → mv = m.word ∧ best = b)
  start : n = 0 → best = s.meBest ∧ mv = s.meMv

section
variable {s : State} {c : Comp} {cur ref : Frame} {A B : Nat → Byte} {M : Nat → MbRecord}

theorem Searched.zero : Searched s c cur A B M 0 s.meBest s.meMv (cur.mb.get c) :=
  ⟨fun _ _ => rfl, fun _ _ _ h => absurd h (by omega), fun _ => ⟨rfl, rfl⟩⟩

/-- One more macroblock: its record receives its result (R155 to R157). -/
theorem Searched.succ {x y : Nat} {best mv b : Word} {grid : Space MbRecord} {m : MbRecord}
    (h : Searched s c cur A B M (y * s.cols c + x) best mv grid) (hx : x < s.cols c)
    (hres : SearchResult s c A B x y (M (y * s.cols c + x)) m b) :
    Searched s c cur A B M (y * s.cols c + x + 1) b m.word
      (Space.write grid (y * s.cols c + x) m) where
  kept j hj := by
    rw [Space.read_write_of_ne _ _ (by omega)]
    exact h.kept j (by omega)
  found x' y' hx' hlt := by
    by_cases he : y' * s.cols c + x' = y * s.cols c + x
    · obtain ⟨rfl, rfl⟩ := unit_eq_of_index_eq hx hx' he
      exact ⟨m, b, Space.read_write_same _ _ _, hres, fun _ => ⟨rfl, rfl⟩⟩
    · obtain ⟨m', b', hm', hres', -⟩ := h.found x' y' hx' (by omega)
      refine ⟨m', b', ?_, hres', fun e => absurd (Nat.succ.inj e) he⟩
      rw [Space.read_write_of_ne _ _ he, hm']
  start h := absurd h (by omega)

variable {pos acc best mv : Word} {grid : Space MbRecord} {x y : Nat}

theorem searchState_self (hcur : s.cur = some cur) :
    searchState s c cur s.pos s.sadAcc s.meBest s.meMv (cur.mb.get c) = s := by
  rw [searchState, Frame.setMb_get_self]
  exact State.setCur_self hcur

/-- The search of the next macroblock, when all its windows are defined (R157). -/
theorem meUnit_searched (hs : Startable s c cur ref A M) (hin : InGrid s c x y)
    (hB : WindowsHold s c ref B x y)
    (h : Searched s c cur A B M (y * s.cols c + x) best mv grid) :
    ∃ acc' best' mv' grid', meUnit c (x, y) (searchState s c cur pos acc best mv grid) =
        .done (searchState s c cur (posOf c x y) acc' best' mv' grid') ∧
      Searched s c cur A B M (y * s.cols c + x + 1) best' mv' grid' := by
  have hold := (h.kept _ le_rfl).trans (hs.read_record hin)
  obtain ⟨m, b, acc', hdone, hres, -⟩ :=
    meAt_searches (s := searchState s c cur (posOf c x y) acc best mv grid)
      (cur := cur.setMb c grid) rfl hs.ref_eq
      ((congrArg (Space.read · _) (Frame.setMb_mb_get _ _ _)).trans hold)
      (anchorHolds_of_holds hs.grid hin hs.orig) hB
  refine ⟨acc', b, m.word, _, hdone.trans ?_, h.succ hin.1 hres⟩
  rw [Frame.writeMb_setMb]
  rfl

/-- The search of the next macroblock, when it reaches an `undef` sample (R66, R157). -/
theorem meUnit_stops (hs : Startable s c cur ref A M) (hin : InGrid s c x y) {px py : Nat}
    (hstop : SearchStopsAt s c ref B x y px py)
    (h : Searched s c cur A B M (y * s.cols c + x) best mv grid) :
    ∃ acc', meUnit c (x, y) (searchState s c cur pos acc best mv grid) =
        .raised .undef (searchState s c cur (posOf c x y) acc' best mv grid) ∧
      SadBefore s c A B x y px py acc acc' := by
  have hold := (h.kept _ le_rfl).trans (hs.read_record hin)
  exact meAt_stops (s := searchState s c cur (posOf c x y) acc best mv grid)
    (cur := cur.setMb c grid) rfl hs.ref_eq
    ((congrArg (Space.read · _) (Frame.setMb_mb_get _ _ _)).trans hold)
    (anchorHolds_of_holds hs.grid hin hs.orig) hstop

/-- The sweep of a component stops at the macroblock whose search does, the ones before it searched
(R157, R160). -/
theorem meSweep_stops (hs : Startable s c cur ref A M) (hin : InGrid s c x y) {px py : Nat}
    (hstop : SearchStopsAt s c ref B x y px py)
    (hbefore : ∀ x' y', InGrid s c x' y' → y' * s.cols c + x' < y * s.cols c + x →
      WindowsHold s c ref B x' y') :
    ∃ acc acc' best mv grid, meSweep c s =
        .raised .undef (searchState s c cur (posOf c x y) acc' best mv grid) ∧
      Searched s c cur A B M (y * s.cols c + x) best mv grid ∧
      SadBefore s c A B x y px py acc acc' := by
  obtain ⟨t, ⟨pos, acc, best, mv, grid, rfl, hsearched⟩, hraise⟩ := sweep_raster_reaches
    (f := meUnit c) (s := s)
    (fun n t => ∃ pos acc best mv grid, t = searchState s c cur pos acc best mv grid ∧
      Searched s c cur A B M n best mv grid) hin.1 hin.2
    (by
      rintro x' y' hx' hy' hlt t ⟨pos, acc, best, mv, grid, rfl, h⟩
      obtain ⟨acc', best', mv', grid', hdone, h'⟩ :=
        meUnit_searched (pos := pos) (acc := acc) hs ⟨hx', hy'⟩ (hbefore x' y' ⟨hx', hy'⟩ hlt) h
      exact ⟨_, hdone, _, _, _, _, _, rfl, h'⟩)
    ⟨_, _, _, _, _, (searchState_self hs.cur_eq).symm, Searched.zero⟩
  obtain ⟨acc', hstopped, hsad⟩ := meUnit_stops (pos := pos) (acc := acc) hs hin hstop hsearched
  exact ⟨acc, acc', best, mv, grid, hraise _ _ hstopped, hsearched, hsad⟩

end

end Sys2Proof.Machine
end

section
/-! ### Compensation over a component -/

namespace Sys2Proof.Machine

open Sys2Proof.Claim

/-! #### The copy of one block, sample by sample -/

/-- Sample `i` of a block, row by row, is moved from the source window to the destination window
(R171). -/
theorem blockMoves_getElem? (pw o d : Nat) {i : Nat} (h : i < 64) :
    (blockMoves pw o d)[i]? = some (o + i / 8 * pw + i % 8, d + i / 8 * pw + i % 8) := by
  have hoff : (blockOffsets pw)[i]? = some (i / 8 * pw + i % 8) := by
    have := windowIndices_getElem? 0 pw h
    simpa only [windowIndices, Nat.zero_add, List.map_id'] using this
  rw [blockMoves, List.getElem?_map, hoff, Option.map_some, Nat.add_assoc, Nat.add_assoc]

/-- The first `n` moves of a block are those of its samples below `n`. -/
theorem mem_take_blockMoves {pw o d n : Nat} (hn : n ≤ 64) {m : Nat × Nat} :
    m ∈ (blockMoves pw o d).take n ↔
      ∃ i, i < n ∧ m = (o + i / 8 * pw + i % 8, d + i / 8 * pw + i % 8) := by
  rw [List.mem_iff_getElem?]
  constructor
  · rintro ⟨i, hi⟩
    have hin : i < n := by
      by_contra hge
      rw [List.getElem?_eq_none (by rw [List.length_take]; omega)] at hi
      cases hi
    rw [List.getElem?_take_of_lt hin, blockMoves_getElem? pw o d (by omega)] at hi
    exact ⟨i, hin, (Option.some.inj hi).symm⟩
  · rintro ⟨i, hi, rfl⟩
    exact ⟨i, by rw [List.getElem?_take_of_lt hi, blockMoves_getElem? pw o d (by omega)]⟩

/-- A copy whose sample `n` is the first `undef` one has copied the `n` samples before it (R66,
R171). -/
theorem copySamples_stops_at {src dst : Space Byte} {B : Nat → Byte} {pw o d n : Nat} (hpw : 8 ≤ pw)
    (hn : n < 64)
    (hB : ∀ i, i < n → Space.read src (o + i / 8 * pw + i % 8) = some (B (o + i / 8 * pw + i % 8)))
    (hundef : Space.read src (o + n / 8 * pw + n % 8) = none) :
    ∃ p, copySamples src (blockMoves pw o d) dst = (p, false) ∧
      (∀ i, i < n → Space.read p (d + i / 8 * pw + i % 8) = some (B (o + i / 8 * pw + i % 8))) ∧
      (∀ j, (∀ i, i < n → j ≠ d + i / 8 * pw + i % 8) → Space.read p j = Space.read dst j) ∧
      (n = 0 → p = dst) := by
  obtain ⟨hlen, hget⟩ := List.getElem?_eq_some_iff.mp (blockMoves_getElem? pw o d hn)
  have hsplit : blockMoves pw o d = (blockMoves pw o d).take n ++
      (o + n / 8 * pw + n % 8, d + n / 8 * pw + n % 8) :: (blockMoves pw o d).drop (n + 1) := by
    rw [← hget, List.getElem_cons_drop, List.take_append_drop]
  have hpre : ∀ m ∈ (blockMoves pw o d).take n, Space.read src m.1 = some (B m.1) := by
    intro m hm
    obtain ⟨i, hi, rfl⟩ := (mem_take_blockMoves hn.le).mp hm
    exact hB i hi
  have hnodup : (((blockMoves pw o d).take n).map Prod.snd).Nodup := by
    rw [List.map_take, blockMoves_snd]
    exact (windowIndices_nodup hpw d).sublist (List.take_sublist n _)
  obtain ⟨p, hp, hread⟩ := copySamples_completes hpre hnodup dst
  refine ⟨p, ?_, fun i hi => hread _ ((mem_take_blockMoves hn.le).mpr ⟨i, hi, rfl⟩),
    fun j hj => ?_, fun h0 => ?_⟩
  · rw [hsplit, copySamples_stops hpre hundef, hp]
  · refine copySamples_frame hp (fun m hm e => ?_)
    obtain ⟨i, hi, rfl⟩ := (mem_take_blockMoves hn.le).mp hm
    exact hj i hi e.symm
  · subst h0
    exact (Prod.ext_iff.mp hp).1.symm

/-- Where a macroblock's source window starts and what that says of the model's check (R171). -/
theorem sourceInside_iff {s : State} {c : Comp} {mbX mbY : Nat} {m : MbRecord} :
    (sourceInside (sourceX mbX m) (s.pw c) && sourceInside (sourceY mbY m) (s.ph c)) = true ↔
      SourceInside s c mbX mbY m := by
  simp only [sourceInside, SourceInside, Bool.and_eq_true, decide_eq_true_eq, and_assoc]

/-- `mc_block` that faults leaves the prediction with the `n` samples it copied (R66, R171, R172).
-/
theorem mcAt_stops {s : State} {c : Comp} {cur ref : Frame} {B : Nat → Byte} {mbX mbY : Nat}
    {m : MbRecord} {code : Word} {n : Nat} (hcur : s.cur = some cur) (href : s.ref = some ref)
    (hm : Space.read (cur.mb.get c) (mbY * s.cols c + mbX) = some m) (hpw : 8 ≤ s.pw c)
    (hstop : CopyStops s c ref B mbX mbY m code n) :
    ∃ e p, (e.code.setWidth 32 : Word) = code ∧
      mcAt c (mbX, mbY) s = .raised e (s.setCur (cur.setPred c p)) ∧
      (∀ i, i < n → Space.read p (windowSample s c (mbX * 8) (mbY * 8) (i / 8) (i % 8)) =
        some (B (sourceSample s c mbX mbY m (i / 8) (i % 8)))) ∧
      (∀ j, (∀ i, i < n → j ≠ windowSample s c (mbX * 8) (mbY * 8) (i / 8) (i % 8)) →
        Space.read p j = Space.read (cur.pred.get c) j) ∧
      (n = 0 → p = cur.pred.get c) := by
  obtain ⟨huse, ⟨rfl, rfl, hout⟩ | ⟨rfl, hn, hin, hB, hundef⟩⟩ := hstop
  · refine ⟨.geometry, cur.pred.get c, rfl, ?_, fun i hi => absurd hi (by omega), fun _ _ => rfl,
      fun _ => rfl⟩
    rw [Frame.setPred_get_self, State.setCur_self hcur]
    simp only [← sourceInside_iff, Bool.not_eq_true] at hout
    simp only [sourceX, sourceY] at hout
    simp only [mcAt, hcur, href, hm, huse, if_true, hout, Bool.false_eq_true, if_false]
  · obtain ⟨p, hp, hread, hkeep, hzero⟩ := copySamples_stops_at (src := ref.recons.get c)
      (dst := cur.pred.get c) (B := B) (pw := s.pw c)
      (o := sampleIndex (s.pw c) (sourceX mbX m).toNat (sourceY mbY m).toNat)
      (d := sampleIndex (s.pw c) (mbX * 8) (mbY * 8)) hpw hn
      (by simp only [windowSample_eq]; exact hB) (by rw [windowSample_eq]; exact hundef)
    simp only [windowSample_eq] at hread hkeep
    refine ⟨.undef, p, rfl, ?_, hread, hkeep, hzero⟩
    rw [← sourceInside_iff] at hin
    simp only [sourceX, sourceY] at hin hp
    simp only [mcAt, hcur, href, hm, huse, if_true, hin, hp]

/-! #### The macroblocks before -/

/-- The state in which the compensation of a macroblock begins or ends: POS and the component's
prediction are `pos` and `p` (R171). -/
def compensateState (s : State) (c : Comp) (cur : Frame) (pos : Word) (p : Space Byte) : State :=
  (s.setPos pos).setCur (cur.setPred c p)

/-- Element `j` belongs to an inter macroblock among the first `n` of the component, in raster
order. -/
def InCompensated (s : State) (c : Comp) (M : Nat → MbRecord) (n j : Nat) : Prop :=
  ∃ x y r k, InGrid s c x y ∧ y * s.cols c + x < n ∧ r < 8 ∧ k < 8 ∧
    (M (y * s.cols c + x)).useMv = true ∧ j = windowSample s c (x * 8) (y * 8) r k

/-- The prediction once the first `n` macroblocks of a component are compensated: the regions of the
inter ones hold the displaced blocks, every other sample is the old one (R171, R173). -/
structure Compensated (s : State) (c : Comp) (cur : Frame) (B : Nat → Byte) (M : Nat → MbRecord)
    (n : Nat) (p : Space Byte) : Prop where
  copied : ∀ x y r k, InGrid s c x y → y * s.cols c + x < n → r < 8 → k < 8 →
    (M (y * s.cols c + x)).useMv = true →
    Space.read p (windowSample s c (x * 8) (y * 8) r k) =
      some (B (sourceSample s c x y (M (y * s.cols c + x)) r k))
  kept : ∀ j, ¬ InCompensated s c M n j → Space.read p j = Space.read (cur.pred.get c) j

section
variable {s : State} {c : Comp} {cur ref : Frame} {A B : Nat → Byte} {M : Nat → MbRecord}
  {p : Space Byte} {pos : Word} {x y : Nat}

theorem Compensated.zero : Compensated s c cur B M 0 (cur.pred.get c) :=
  ⟨fun _ _ _ _ _ h => absurd h (by omega), fun _ _ => rfl⟩

theorem InCompensated.mono {m n j : Nat} (hmn : m ≤ n) (h : InCompensated s c M m j) :
    InCompensated s c M n j := by
  obtain ⟨x, y, r, k, hin, hlt, h⟩ := h
  exact ⟨x, y, r, k, hin, by omega, h⟩

/-- One more inter macroblock: its region receives the displaced block, and no other is touched
(R171). -/
theorem Compensated.succ (hpw : s.pw c = 8 * s.cols c) (hin : InGrid s c x y)
    (h : Compensated s c cur B M (y * s.cols c + x) p)
    (huse : (M (y * s.cols c + x)).useMv = true) {p' : Space Byte}
    (hnew : ∀ r k, r < 8 → k < 8 → Space.read p' (windowSample s c (x * 8) (y * 8) r k) =
      some (B (sourceSample s c x y (M (y * s.cols c + x)) r k)))
    (hold : ∀ j, (∀ r k, r < 8 → k < 8 → j ≠ windowSample s c (x * 8) (y * 8) r k) →
      Space.read p' j = Space.read p j) :
    Compensated s c cur B M (y * s.cols c + x + 1) p' where
  copied x' y' r k hin' hlt hr hk huse' := by
    by_cases he : y' * s.cols c + x' = y * s.cols c + x
    · obtain ⟨rfl, rfl⟩ := unit_eq_of_index_eq hin.1 hin'.1 he
      exact hnew r k hr hk
    · rw [hold, h.copied x' y' r k hin' (by omega) hr hk huse']
      intro r' k' hr' hk' e
      obtain ⟨rfl, rfl⟩ := unit_eq_of_windowSample_eq hpw hin.1 hin'.1 hr' hk' hr hk e
      exact he rfl
  kept j hj := by
    rw [hold, h.kept j (fun hb => hj (hb.mono (Nat.le_succ _)))]
    intro r k hr hk e
    exact hj ⟨x, y, r, k, hin, by omega, hr, hk, huse, e⟩

/-- One more macroblock without a vector: nothing changes (R171). -/
theorem Compensated.succ_of_intra (h : Compensated s c cur B M (y * s.cols c + x) p)
    (huse : (M (y * s.cols c + x)).useMv = false) :
    Compensated s c cur B M (y * s.cols c + x + 1) p where
  copied x' y' r k hin' hlt hr hk huse' := by
    have he : y' * s.cols c + x' ≠ y * s.cols c + x := by
      intro he
      rw [he, huse] at huse'
      cases huse'
    exact h.copied x' y' r k hin' (by omega) hr hk huse'
  kept j hj := h.kept j (fun hb => hj (hb.mono (Nat.le_succ _)))

theorem compensateState_self (hcur : s.cur = some cur) :
    compensateState s c cur s.pos (cur.pred.get c) = s := by
  rw [compensateState, Frame.setPred_get_self]
  exact State.setCur_self hcur

/-- The compensation of the next macroblock, when it can be completed (R171). -/
theorem mcUnit_compensated (hs : Startable s c cur ref A M) (hin : InGrid s c x y)
    (hc : Compensable s c ref B x y (M (y * s.cols c + x)))
    (h : Compensated s c cur B M (y * s.cols c + x) p) :
    ∃ p', mcUnit c (x, y) (compensateState s c cur pos p) =
        .done (compensateState s c cur (posOf c x y) p') ∧
      Compensated s c cur B M (y * s.cols c + x + 1) p' := by
  obtain ⟨-, -, hpw, -⟩ := hs.grid c
  cases huse : (M (y * s.cols c + x)).useMv with
  | false =>
    refine ⟨p, ?_, h.succ_of_intra huse⟩
    exact mcAt_of_intra (s := compensateState s c cur (posOf c x y) p) rfl hs.ref_eq
      (hs.read_record hin) huse
  | true =>
    obtain ⟨⟨hx0, hxw, hy0, hyh⟩, hB⟩ := hc huse
    obtain ⟨p', hdone, hnew, hold⟩ := mcAt_copies (mb := (x, y)) (B := B)
      (s := compensateState s c cur (posOf c x y) p) (cur := cur.setPred c p) (ref := ref)
      (sx := (sourceX x (M (y * s.cols c + x))).toNat)
      (sy := (sourceY y (M (y * s.cols c + x))).toNat) rfl hs.ref_eq (hs.read_record hin) huse
      (Int.toNat_of_nonneg hx0) (Int.toNat_of_nonneg hy0)
      (show _ + 8 ≤ s.pw c by omega) (show _ + 8 ≤ s.ph c by omega) hB
    refine ⟨p', hdone.trans ?_, h.succ hpw hin huse hnew (fun j hj => ?_)⟩
    · rw [Frame.setPred_setPred]
      rfl
    · rw [hold j hj, Frame.setPred_pred_get]

/-- The compensation of the next macroblock, when it faults after `n` samples (R171, R172). -/
theorem mcUnit_stops (hs : Startable s c cur ref A M) (hin : InGrid s c x y) {code : Word} {n : Nat}
    (hstop : CopyStops s c ref B x y (M (y * s.cols c + x)) code n) (pos : Word) (p : Space Byte) :
    ∃ e p', (e.code.setWidth 32 : Word) = code ∧
      mcUnit c (x, y) (compensateState s c cur pos p) =
        .raised e (compensateState s c cur (posOf c x y) p') ∧
      (∀ i, i < n → Space.read p' (windowSample s c (x * 8) (y * 8) (i / 8) (i % 8)) =
        some (B (sourceSample s c x y (M (y * s.cols c + x)) (i / 8) (i % 8)))) ∧
      (∀ j, (∀ i, i < n → j ≠ windowSample s c (x * 8) (y * 8) (i / 8) (i % 8)) →
        Space.read p' j = Space.read p j) ∧
      (n = 0 → p' = p) := by
  obtain ⟨hcols, -, hpw, -⟩ := hs.grid c
  obtain ⟨e, p', hcode, hraise, hnew, hold, hzero⟩ :=
    mcAt_stops (s := compensateState s c cur (posOf c x y) p) (cur := cur.setPred c p) (ref := ref)
      rfl hs.ref_eq (hs.read_record hin) (show 8 ≤ s.pw c by omega) hstop
  rw [Frame.setPred_setPred] at hraise
  rw [Frame.setPred_pred_get] at hold hzero
  exact ⟨e, p', hcode, hraise, hnew, hold, hzero⟩

/-- The sweep of a component stops at the macroblock that faults, the ones before it compensated
(R171, R173). -/
theorem mcSweep_stops (hs : Startable s c cur ref A M) (hin : InGrid s c x y) {code : Word}
    {n : Nat} (hstop : CopyStops s c ref B x y (M (y * s.cols c + x)) code n)
    (hbefore : ∀ x' y', InGrid s c x' y' → y' * s.cols c + x' < y * s.cols c + x →
      Compensable s c ref B x' y' (M (y' * s.cols c + x'))) :
    ∃ e p p', (e.code.setWidth 32 : Word) = code ∧
      mcSweep c s = .raised e (compensateState s c cur (posOf c x y) p') ∧
      Compensated s c cur B M (y * s.cols c + x) p ∧
      (∀ i, i < n → Space.read p' (windowSample s c (x * 8) (y * 8) (i / 8) (i % 8)) =
        some (B (sourceSample s c x y (M (y * s.cols c + x)) (i / 8) (i % 8)))) ∧
      ∀ j, (∀ i, i < n → j ≠ windowSample s c (x * 8) (y * 8) (i / 8) (i % 8)) →
        Space.read p' j = Space.read p j := by
  obtain ⟨t, ⟨pos, p, rfl, hcomp⟩, hraise⟩ := sweep_raster_reaches (f := mcUnit c) (s := s)
    (fun n t => ∃ pos p, t = compensateState s c cur pos p ∧ Compensated s c cur B M n p)
    hin.1 hin.2
    (by
      rintro x' y' hx' hy' hlt t ⟨pos, p, rfl, h⟩
      obtain ⟨p', hdone, h'⟩ :=
        mcUnit_compensated (pos := pos) hs ⟨hx', hy'⟩ (hbefore x' y' ⟨hx', hy'⟩ hlt) h
      exact ⟨_, hdone, _, _, rfl, h'⟩)
    ⟨_, _, (compensateState_self hs.cur_eq).symm, Compensated.zero⟩
  obtain ⟨e, p', hcode, hstopped, hnew, hold, -⟩ := mcUnit_stops hs hin hstop pos p
  exact ⟨e, p, p', hcode, hraise _ _ hstopped, hcomp, hnew, hold⟩

end

end Sys2Proof.Machine
end

section
/-! ### Motion commands that stop -/

namespace Sys2Proof.Machine

open Sys2Proof.Claim

/-- `exec_of_raised` in the words of the statements. -/
theorem exec_raises {i : Instr} {s t : State} {e : Cause} (ha : accepts i s = true)
    (hb : bodyOf i s = .raised e t) (hf : t.faulted = false) :
    exec i s = .next (recorded t (e.code.setWidth 32) (encode i)) :=
  exec_of_raised ha hb hf

/-- MC_BLOCK on an inter frame, for a macroblock of the grid (R172). -/
theorem mcBlockBody_of_inter {s : State} {c : Comp} {mbX mbY : Nat} (hkey : s.curKey = false)
    (href : s.refValid = true) (hin : InGrid s c mbX mbY) :
    mcBlockBody c mbY mbX s = mcUnit c (mbX, mbY) s := by
  obtain ⟨hx, hy⟩ := hin
  rw [mcBlockBody, if_pos ⟨hx, hy⟩, hkey, href]
  rfl

/-- MC_COMP on an inter frame (R173). -/
theorem mcCompBody_of_inter {s : State} {c : Comp} (hkey : s.curKey = false)
    (href : s.refValid = true) : mcCompBody c s = mcSweep c s := by
  rw [mcCompBody, hkey, href]
  rfl

section
variable {s : State} {c : Comp} {cur ref : Frame} {A B : Nat → Byte} {M : Nat → MbRecord}

/-! #### What the states of a sweep hold -/

theorem element_searchState (hcur : s.cur = some cur) (pos acc best mv : Word)
    (grid : Space MbRecord) (sp : SpaceRef) (i : Nat) :
    (searchState s c cur pos acc best mv grid).element sp i =
      if sp = .mb .cur c then (Space.read grid i).map MbRecord.word else s.element sp i := by
  rw [State.element_congr (t := searchState s c cur pos acc best mv grid)
    (s := s.setCur (cur.setMb c grid)) rfl rfl rfl rfl rfl rfl, State.element_setMb,
    State.setCur_self hcur]

theorem element_compensateState (hcur : s.cur = some cur) (pos : Word) (p : Space Byte)
    (sp : SpaceRef) (i : Nat) :
    (compensateState s c cur pos p).element sp i =
      if sp = .pred .cur c then (Space.read p i).map wordOfByte else s.element sp i := by
  rw [State.element_congr (t := compensateState s c cur pos p)
    (s := s.setCur (cur.setPred c p)) rfl rfl rfl rfl rfl rfl, State.element_setPred,
    State.setCur_self hcur]

/-- A search leaves every element but the records that differ. -/
theorem memoryFrame_searchState (hcur : s.cur = some cur) (pos acc best mv : Word)
    {grid : Space MbRecord} {P : Nat → Prop}
    (h : ∀ i, ¬ P i → Space.read grid i = Space.read (cur.mb.get c) i) :
    MemoryFrame s (searchState s c cur pos acc best mv grid)
      (fun sp i => sp = .mb .cur c ∧ P i) := by
  intro sp i hP
  rw [element_searchState hcur]
  split
  · next hsp =>
    rw [h i (fun hi => hP ⟨hsp, hi⟩), hsp]
    simp only [State.element, State.plane, State.frame, hcur]
  · rfl

/-- A compensation leaves every element but the predicted samples that differ. -/
theorem memoryFrame_compensateState (hcur : s.cur = some cur) (pos : Word) {p : Space Byte}
    {P : Nat → Prop} (h : ∀ i, ¬ P i → Space.read p i = Space.read (cur.pred.get c) i) :
    MemoryFrame s (compensateState s c cur pos p) (fun sp i => sp = .pred .cur c ∧ P i) := by
  intro sp i hP
  rw [element_compensateState hcur]
  split
  · next hsp =>
    rw [h i (fun hi => hP ⟨hsp, hi⟩), hsp]
    simp only [State.element, State.plane, State.frame, hcur]
  · rfl

theorem slotsFrame_searchState (hcur : s.cur = some cur) (pos acc best mv : Word)
    (grid : Space MbRecord) : SlotsFrame s (searchState s c cur pos acc best mv grid) :=
  slotsFrame_of_eq (by rw [hcur]; rfl) rfl

theorem slotsFrame_compensateState (hcur : s.cur = some cur) (pos : Word) (p : Space Byte) :
    SlotsFrame s (compensateState s c cur pos p) :=
  slotsFrame_of_eq (by rw [hcur]; rfl) rfl

/-- A predicted sample as the host reads it. -/
theorem element_pred_compensateState (hcur : s.cur = some cur) (pos : Word) {p : Space Byte}
    {i : Nat} {b : Byte} (h : Space.read p i = some b) :
    (compensateState s c cur pos p).element (.pred .cur c) i = some (b.setWidth 32) := by
  rw [element_compensateState hcur, if_pos rfl, h]
  rfl

/-! #### The four commands -/

variable {mbX mbY : Nat} (hs : Startable s c cur ref A M) (hin : InGrid s c mbX mbY)
include hs hin

/-- ME_BLOCK whose search reaches an `undef` sample (R157, R159). -/
theorem meBlock_stops {x y : Nat} (hstop : SearchStopsAt s c ref B mbX mbY x y) :
    ∃ t, exec (.meBlock c mbY mbX) s =
        .next (recorded t 0x06#32 (encode (.meBlock c mbY mbX))) ∧
      t = { s with pos := posOf c mbX mbY, sadAcc := t.sadAcc } ∧
      SadBefore s c A B mbX mbY x y s.sadAcc t.sadAcc := by
  obtain ⟨acc, hraise, hsad⟩ := meAt_stops (s := s.setPos (posOf c mbX mbY)) hs.cur_eq hs.ref_eq
    (hs.read_record hin) (anchorHolds_of_holds hs.grid hin hs.orig) hstop
  have ha : accepts (.meBlock c mbY mbX) s = true := by
    simp only [accepts, hs.live.lifecycle_constructed, hs.searchable, Bool.and_self]
  exact ⟨_, exec_raises ha ((if_pos hin).trans hraise) hs.live.1, rfl, hsad⟩

/-- ME_COMP whose search reaches an `undef` sample at a macroblock (R157, R160). -/
theorem meComp_stops {x y : Nat} (hstop : SearchStopsAt s c ref B mbX mbY x y)
    (hbefore : ∀ x₁ y₁, InGrid s c x₁ y₁ → unitBefore s (c, x₁, y₁) (c, mbX, mbY) →
      WindowsHold s c ref B x₁ y₁) :
    ∃ t, exec (.meComp c) s = .next (recorded t 0x06#32 (encode (.meComp c))) ∧
      t = { s with
        pos := posOf c mbX mbY, sadAcc := t.sadAcc, meBest := t.meBest, meMv := t.meMv,
        cur := t.cur } ∧
      SlotsFrame s t ∧
      MemoryFrame s t (fun sp i => sp = .mb .cur c ∧ i < mbY * s.cols c + mbX) ∧
      (∀ x₁ y₁, InGrid s c x₁ y₁ → unitBefore s (c, x₁, y₁) (c, mbX, mbY) →
        ∃ m best, t.element (.mb .cur c) (y₁ * s.cols c + x₁) = some m.word ∧
          SearchResult s c A B x₁ y₁ (M (y₁ * s.cols c + x₁)) m best ∧
          (y₁ * s.cols c + x₁ + 1 = mbY * s.cols c + mbX → t.meMv = m.word ∧ t.meBest = best)) ∧
      (mbX = 0 → mbY = 0 → t.meBest = s.meBest ∧ t.meMv = s.meMv) ∧
      SadBefore s c A B mbX mbY x y t.sadAcc t.sadAcc := by
  simp only [unitBefore_same_iff] at hbefore ⊢
  obtain ⟨_, acc, best, mv, grid, hraise, hsearched, hsad⟩ := meSweep_stops hs hin hstop hbefore
  have ha : accepts (.meComp c) s = true := by
    simp only [accepts, hs.live.lifecycle_constructed, hs.searchable, Bool.and_self]
  refine ⟨_, exec_raises ha hraise hs.live.1, rfl, slotsFrame_searchState hs.cur_eq _ _ _ _ _,
    memoryFrame_searchState hs.cur_eq _ _ _ _ (fun i hi => hsearched.kept i (not_lt.mp hi)),
    fun x₁ y₁ hin₁ hlt => ?_, fun hx hy => hsearched.start (by simp [hx, hy]),
    fun _ => rfl, hsad.2⟩
  obtain ⟨m, b, hm, hres, hlast⟩ := hsearched.found x₁ y₁ hin₁.1 hlt
  refine ⟨m, b, ?_, hres, hlast⟩
  rw [element_searchState hs.cur_eq, if_pos rfl, hm, Option.map_some]

variable {code : Word} {n : Nat}
  (hstop : CopyStops s c ref B mbX mbY (M (mbY * s.cols c + mbX)) code n)
include hstop

/-- MC_BLOCK whose vector leaves the plane or whose window holds an `undef` sample (R171, R172). -/
theorem mcBlock_stops :
    ∃ t, exec (.mcBlock c mbY mbX) s = .next (recorded t code (encode (.mcBlock c mbY mbX))) ∧
      t = { s with pos := posOf c mbX mbY, cur := t.cur } ∧ SlotsFrame s t ∧
      (n = 0 → t.cur = s.cur) ∧
      (∀ i, i < n →
        t.element (.pred .cur c) (windowSample s c (mbX * 8) (mbY * 8) (i / 8) (i % 8)) =
          some ((B (sourceSample s c mbX mbY (M (mbY * s.cols c + mbX)) (i / 8)
            (i % 8))).setWidth 32)) ∧
      MemoryFrame s t (fun sp j => sp = .pred .cur c ∧
        ∃ i, i < n ∧ j = windowSample s c (mbX * 8) (mbY * 8) (i / 8) (i % 8)) := by
  obtain ⟨e, p, rfl, hraise, hnew, hold, hzero⟩ := mcUnit_stops hs hin hstop s.pos (cur.pred.get c)
  rw [compensateState_self hs.cur_eq] at hraise
  have ha : accepts (.mcBlock c mbY mbX) s = true := by
    simp only [accepts, hs.live.lifecycle_constructed, hs.curValid, Bool.and_self]
  have hbody := mcBlockBody_of_inter hs.curKey hs.refValid hin
  refine ⟨_, exec_raises ha (hbody.trans hraise) hs.live.1, rfl,
    slotsFrame_compensateState hs.cur_eq _ _, fun h0 => ?_,
    fun i hi => element_pred_compensateState hs.cur_eq _ (hnew i hi),
    memoryFrame_compensateState hs.cur_eq _ (fun j hj => hold j (fun i hi e => hj ⟨i, hi, e⟩))⟩
  rw [hzero h0, compensateState, Frame.setPred_get_self, State.setCur_cur, hs.cur_eq]

/-- MC_COMP whose compensation faults at a macroblock (R171, R173). -/
theorem mcComp_stops
    (hbefore : ∀ x₁ y₁, InGrid s c x₁ y₁ → unitBefore s (c, x₁, y₁) (c, mbX, mbY) →
      Compensable s c ref B x₁ y₁ (M (y₁ * s.cols c + x₁))) :
    ∃ t, exec (.mcComp c) s = .next (recorded t code (encode (.mcComp c))) ∧
      t = { s with pos := posOf c mbX mbY, cur := t.cur } ∧ SlotsFrame s t ∧
      (∀ x₁ y₁ r k, InGrid s c x₁ y₁ → unitBefore s (c, x₁, y₁) (c, mbX, mbY) → r < 8 → k < 8 →
        (M (y₁ * s.cols c + x₁)).useMv = true →
        t.element (.pred .cur c) (windowSample s c (x₁ * 8) (y₁ * 8) r k) =
          some ((B (sourceSample s c x₁ y₁ (M (y₁ * s.cols c + x₁)) r k)).setWidth 32)) ∧
      (∀ i, i < n →
        t.element (.pred .cur c) (windowSample s c (mbX * 8) (mbY * 8) (i / 8) (i % 8)) =
          some ((B (sourceSample s c mbX mbY (M (mbY * s.cols c + mbX)) (i / 8)
            (i % 8))).setWidth 32)) ∧
      MemoryFrame s t (fun sp j => sp = .pred .cur c ∧
        ((∃ x₁ y₁ r k, InGrid s c x₁ y₁ ∧ unitBefore s (c, x₁, y₁) (c, mbX, mbY) ∧ r < 8 ∧ k < 8 ∧
            (M (y₁ * s.cols c + x₁)).useMv = true ∧
            j = windowSample s c (x₁ * 8) (y₁ * 8) r k) ∨
          ∃ i, i < n ∧ j = windowSample s c (mbX * 8) (mbY * 8) (i / 8) (i % 8))) := by
  have hn : n ≤ 64 := by
    obtain ⟨-, ⟨-, rfl, -⟩ | ⟨-, hn, -⟩⟩ := hstop
    · exact Nat.zero_le _
    · exact hn.le
  obtain ⟨-, -, hpw, -⟩ := hs.grid c
  simp only [unitBefore_same_iff] at hbefore ⊢
  obtain ⟨e, p, p', rfl, hraise, hcomp, hnew, hold⟩ := mcSweep_stops hs hin hstop hbefore
  have ha : accepts (.mcComp c) s = true := by
    simp only [accepts, hs.live.lifecycle_constructed, hs.curValid, Bool.and_self]
  have hbody := mcCompBody_of_inter (c := c) hs.curKey hs.refValid
  refine ⟨_, exec_raises ha (hbody.trans hraise) hs.live.1, rfl,
    slotsFrame_compensateState hs.cur_eq _ _, fun x₁ y₁ r k hin₁ hlt hr hk huse => ?_,
    fun i hi => element_pred_compensateState hs.cur_eq _ (hnew i hi),
    memoryFrame_compensateState hs.cur_eq _ (fun j hj => ?_)⟩
  · refine element_pred_compensateState hs.cur_eq _ ?_
    rw [hold, hcomp.copied x₁ y₁ r k hin₁ hlt hr hk huse]
    intro i hi e
    obtain ⟨rfl, rfl⟩ := unit_eq_of_windowSample_eq hpw hin.1 hin₁.1 (by omega) (by omega) hr hk e
    exact absurd hlt (lt_irrefl _)
  · rw [hold j (fun i hi e => hj (.inr ⟨i, hi, e⟩)), hcomp.kept j (fun h => hj (.inl h))]

end

end Sys2Proof.Machine
end

section
namespace Sys2Proof.Proofs

open Sys2Proof.Machine Sys2Proof.Claim

/-- Settles O48: each command stops where its macroblock does, in the state its sweep has reached.
-/
theorem motionCommandsNeedReference : Obligations.MotionCommandsNeedReference := by
  intro s c cur ref A B M mbX mbY hs hin
  exact ⟨fun x y hstop => ⟨meBlock_stops hs hin hstop, meComp_stops hs hin hstop⟩,
    fun code n hstop => ⟨mcBlock_stops hs hin hstop, mcComp_stops hs hin hstop⟩⟩

end Sys2Proof.Proofs
end

section
/-! ### The command word -/

namespace Sys2Proof

/-! #### What a successful decoding says -/

/-- The fields of an opcode's word make a command of that opcode (R95). -/
theorem opcode_of_decodeFields {op : Opcode} {w : Word} {i : Instr}
    (h : decodeFields op w = .ok i) : i.opcode = op := by
  cases op with
  | ctxNew | encodeImage | streamEnd | abort | zzFwd | zzInv | sad => cases h; rfl
  | meComp | mcComp | dctqBlock | deqidctBlock | dctqPlane | deqidctPlane
  | dctqRow | deqidctRow | meBlock | mcBlock =>
    obtain ⟨c, rfl, -⟩ := decodeComp_eq_ok h
    rfl

/-- A word is a command exactly when it has the command's opcode number, zero in the must-be-zero bits,
and the command's fields (R95, R98). -/
theorem decode_eq_ok_iff {w : Word} {i : Instr} :
    decode w = .ok i ↔ (w.toNat / 2 ^ 24 = i.opcode.code.toNat ∧
      w.toNat % 2 ^ i.opcode.format.zeroBits = 0) ∧ decodeFields i.opcode w = .ok i := by
  constructor
  · intro h
    obtain ⟨op, ho, hz, hd⟩ := decode_eq_ok h
    rw [opcode_of_decodeFields hd]
    exact ⟨⟨ho, hz⟩, hd⟩
  · rintro ⟨⟨ho, hz⟩, hd⟩
    rw [decode_of_opcode ho hz, hd]

/-! #### Fields of encoded words (R92, R93) -/

section
variable (op : Opcode) (c : Comp) {fy fx : Nat}

theorem decodeComp_wordC (make : Comp → Instr) : decodeComp (wordC op c) make = .ok (make c) := by
  have := c.number_lt
  exact decodeComp_of_number (by rw [wordC_toNat]; omega) make

theorem decodeComp_wordM (hy : fitsField fy) (hx : fitsField fx) (make : Comp → Instr) :
    decodeComp (wordM op c fy fx) make = .ok (make c) := by
  have := c.number_lt
  exact decodeComp_of_number (by rw [wordM_toNat op c hy hx]; omega) make

theorem fyField_wordM (hy : fitsField fy) (hx : fitsField fx) :
    fyField (wordM op c fy fx) = fy := by
  rw [fyField_eq, wordM_toNat op c hy hx]
  omega

theorem fxField_wordM (hy : fitsField fy) (hx : fitsField fx) :
    fxField (wordM op c fy fx) = fx := by
  rw [fxField_eq, wordM_toNat op c hy hx]
  omega

theorem spAField_wordS (a b : Byte) : spAField (wordS op a b) = a := by
  apply BitVec.eq_of_toNat_eq
  rw [spAField_toNat, wordS_toNat]
  omega

theorem spBField_wordS (a b : Byte) : spBField (wordS op a b) = b := by
  apply BitVec.eq_of_toNat_eq
  rw [spBField_toNat, wordS_toNat]
  omega

end

/-- A format M decoding reads back the component and both indices. -/
theorem decodeFieldsM_wordM (op : Opcode) (c : Comp) {fy fx : Nat} (hy : fitsField fy)
    (hx : fitsField fx) (make : Comp → Nat → Nat → Instr) :
    decodeComp (wordM op c fy fx)
      (fun c' => make c' (fyField (wordM op c fy fx)) (fxField (wordM op c fy fx))) =
        .ok (make c fy fx) := by
  rw [decodeComp_wordM op c hy hx, fyField_wordM op c hy hx, fxField_wordM op c hy hx]

/-- A format R decoding reads back the component and the band: format R is format M with `FX` zero. -/
theorem decodeFieldsR_wordR (op : Opcode) (c : Comp) {fy : Nat} (hy : fitsField fy)
    (make : Comp → Nat → Instr) :
    decodeComp (wordR op c fy) (fun c' => make c' (fyField (wordR op c fy))) = .ok (make c fy) :=
  decodeFieldsM_wordM op c hy (by decide) (fun c fy _ => make c fy)

/-- The fields of a well-formed command's word are the command's. -/
theorem decodeFields_encode {i : Instr} (h : i.wellFormed = true) :
    decodeFields i.opcode (encode i) = .ok i := by
  cases i with
  | ctxNew | encodeImage | streamEnd | abort | zzFwd | zzInv => rfl
  | meComp c | mcComp c | dctqBlock c | deqidctBlock c | dctqPlane c | deqidctPlane c =>
    exact decodeComp_wordC _ c _
  | dctqRow c band => exact decodeFieldsR_wordR _ c (of_decide_eq_true h) .dctqRow
  | deqidctRow c band => exact decodeFieldsR_wordR _ c (of_decide_eq_true h) .deqidctRow
  | meBlock c mbY mbX =>
    simp only [Instr.wellFormed, Bool.and_eq_true, decide_eq_true_eq] at h
    exact decodeFieldsM_wordM _ c h.1 h.2 .meBlock
  | mcBlock c mbY mbX =>
    simp only [Instr.wellFormed, Bool.and_eq_true, decide_eq_true_eq] at h
    exact decodeFieldsM_wordM _ c h.1 h.2 .mcBlock
  | sad spA spB =>
    simp only [Instr.opcode, encode, decodeFields, spAField_wordS, spBField_wordS]

/-- The laws of the opcode number and the must-be-zero bits, put together for every command. -/
theorem encode_opcode (i : Instr) : Laws.EncodeOpcode.Statement i := by
  cases i with
  | ctxNew => exact Laws.EncodeOpcode.ctxNew
  | encodeImage => exact Laws.EncodeOpcode.encodeImage
  | streamEnd => exact Laws.EncodeOpcode.streamEnd
  | abort => exact Laws.EncodeOpcode.abort
  | sad spA spB => exact Laws.EncodeOpcode.sad spA spB
  | meBlock c mbY mbX => exact Laws.EncodeOpcode.meBlock c mbY mbX
  | meComp c => exact Laws.EncodeOpcode.meComp c
  | mcBlock c mbY mbX => exact Laws.EncodeOpcode.mcBlock c mbY mbX
  | mcComp c => exact Laws.EncodeOpcode.mcComp c
  | dctqBlock c => exact Laws.EncodeOpcode.dctqBlock c
  | deqidctBlock c => exact Laws.EncodeOpcode.deqidctBlock c
  | dctqRow c band => exact Laws.EncodeOpcode.dctqRow c band
  | deqidctRow c band => exact Laws.EncodeOpcode.deqidctRow c band
  | dctqPlane c => exact Laws.EncodeOpcode.dctqPlane c
  | deqidctPlane c => exact Laws.EncodeOpcode.deqidctPlane c
  | zzFwd => exact Laws.EncodeOpcode.zzFwd
  | zzInv => exact Laws.EncodeOpcode.zzInv

theorem decode_encode {i : Instr} (h : i.wellFormed = true) : decode (encode i) = .ok i := by
  obtain ⟨hopc, hzero⟩ := encode_opcode i h
  exact decode_eq_ok_iff.2 ⟨⟨by rw [← opcField_toNat, hopc], hzero⟩, decodeFields_encode h⟩

/-! #### A word is made of its fields (R92, R93) -/

section
variable {w : Word} {op : Opcode} (ho : w.toNat / 2 ^ 24 = op.code.toNat)
include ho

theorem wordN_of_fields (hz : w.toNat % 2 ^ 24 = 0) : wordN op = w := by
  apply BitVec.eq_of_toNat_eq
  rw [wordN_toNat]
  omega

theorem wordS_of_fields (hz : w.toNat % 2 ^ 8 = 0) : wordS op (spAField w) (spBField w) = w := by
  apply BitVec.eq_of_toNat_eq
  rw [wordS_toNat, spAField_toNat, spBField_toNat]
  omega

variable {c : Comp} (hc : w.toNat / 2 ^ 22 % 4 = c.number)
include hc

theorem wordC_of_fields (hz : w.toNat % 2 ^ 22 = 0) : wordC op c = w := by
  apply BitVec.eq_of_toNat_eq
  rw [wordC_toNat]
  omega

theorem wordM_of_fields : wordM op c (fyField w) (fxField w) = w := by
  apply BitVec.eq_of_toNat_eq
  rw [wordM_toNat op c (fitsField_fyField w) (fitsField_fxField w), fyField_eq, fxField_eq]
  omega

theorem wordR_of_fields (hz : w.toNat % 2 ^ 11 = 0) : wordR op c (fyField w) = w := by
  have hfx : fxField w = 0 := (fxField_eq w).trans hz
  have h := wordM_of_fields ho hc
  rwa [hfx, ← wordR_eq_wordM] at h

end

/-- A word with an opcode's number and zero bits is the encoding of the command its fields make. -/
theorem encode_of_decodeFields {op : Opcode} {w : Word} {i : Instr}
    (ho : w.toNat / 2 ^ 24 = op.code.toNat) (hz : w.toNat % 2 ^ op.format.zeroBits = 0)
    (hd : decodeFields op w = .ok i) : encode i = w ∧ i.wellFormed = true := by
  have hy := fitsField_fyField w
  have hx := fitsField_fxField w
  cases op with
  | ctxNew | encodeImage | streamEnd | abort | zzFwd | zzInv =>
    cases hd
    exact ⟨wordN_of_fields ho hz, rfl⟩
  | sad =>
    cases hd
    exact ⟨wordS_of_fields ho hz, rfl⟩
  | meComp | mcComp | dctqBlock | deqidctBlock | dctqPlane | deqidctPlane =>
    obtain ⟨c, rfl, hc⟩ := decodeComp_eq_ok hd
    exact ⟨wordC_of_fields ho hc hz, rfl⟩
  | dctqRow | deqidctRow =>
    obtain ⟨c, rfl, hc⟩ := decodeComp_eq_ok hd
    exact ⟨wordR_of_fields ho hc hz, decide_eq_true hy⟩
  | meBlock | mcBlock =>
    obtain ⟨c, rfl, hc⟩ := decodeComp_eq_ok hd
    exact ⟨wordM_of_fields ho hc, by simp only [Instr.wellFormed, hy, hx, decide_true, Bool.and_self]⟩

/-! #### The opcode map (R95) -/

/-- A format with a component decodes exactly when `COMP` is not 3 (R97). -/
theorem exists_decodeComp_iff (w : Word) (make : Comp → Instr) :
    (∃ i, decodeComp w make = .ok i) ↔ w.toNat / 2 ^ 22 % 4 ≠ 3 := by
  constructor
  · rintro ⟨i, hi⟩
    obtain ⟨c, -, hc⟩ := decodeComp_eq_ok hi
    have := c.number_lt
    omega
  · intro h
    have hcomp : ∃ c : Comp, w.toNat / 2 ^ 22 % 4 = c.number := by
      obtain h0 | h1 | h2 : w.toNat / 2 ^ 22 % 4 = 0 ∨ w.toNat / 2 ^ 22 % 4 = 1 ∨
          w.toNat / 2 ^ 22 % 4 = 2 := by omega
      · exact ⟨.y, h0⟩
      · exact ⟨.u, h1⟩
      · exact ⟨.v, h2⟩
    obtain ⟨c, hc⟩ := hcomp
    exact ⟨make c, decodeComp_of_number hc make⟩

/-- The fields of an opcode's word make a command unless the format holds a component and `COMP` is 3. -/
theorem exists_decodeFields_iff (op : Opcode) (w : Word) :
    (∃ i, decodeFields op w = .ok i) ↔
      (op.format.hasComp = true → w.toNat / 2 ^ 22 % 4 ≠ 3) := by
  cases op with
  | ctxNew | encodeImage | streamEnd | abort | zzFwd | zzInv | sad =>
    exact ⟨fun _ h => (by cases h), fun _ => ⟨_, rfl⟩⟩
  | meComp | mcComp | dctqBlock | deqidctBlock | dctqPlane | deqidctPlane
  | dctqRow | deqidctRow | meBlock | mcBlock =>
    exact (exists_decodeComp_iff w _).trans ⟨fun h _ => h, fun h => h rfl⟩

theorem Format.zeroBits_le (f : Format) : f.zeroBits ≤ 24 := by cases f <;> decide

/-- A row's mask: all of the opcode bits, and below them the must-be-zero bits (R95). -/
theorem Opcode.maskWord_parts (op : Opcode) :
    op.maskWord.toNat / 2 ^ 24 = 2 ^ 8 - 1 ∧
      op.maskWord.toNat % 2 ^ 24 = 2 ^ op.format.zeroBits - 1 := by
  unfold Opcode.maskWord
  generalize op.format = f
  cases f <;> decide

/-- What a row's mask keeps of a word: the opcode number and the must-be-zero bits. -/
theorem and_maskWord_toNat (op : Opcode) (w : Word) :
    (w &&& op.maskWord).toNat =
      2 ^ 24 * (w.toNat / 2 ^ 24) + w.toNat % 2 ^ op.format.zeroBits := by
  obtain ⟨hhigh, hlow⟩ := op.maskWord_parts
  have hdiv : (w &&& op.maskWord).toNat / 2 ^ 24 = w.toNat / 2 ^ 24 := by
    rw [BitVec.toNat_and, Nat.and_div_two_pow, hhigh, Nat.and_two_pow_sub_one_eq_mod]
    omega
  have hmod : (w &&& op.maskWord).toNat % 2 ^ 24 = w.toNat % 2 ^ op.format.zeroBits := by
    rw [BitVec.toNat_and, Nat.and_mod_two_pow, hlow, Nat.and_two_pow_sub_one_eq_mod,
      Nat.mod_mod_of_dvd _ (Nat.pow_dvd_pow 2 op.format.zeroBits_le)]
  rw [← hdiv, ← hmod, Nat.div_add_mod]

/-- The match and mask of a row compare the opcode number and the must-be-zero bits (R95). -/
theorem and_maskWord_eq_matchWord_iff (op : Opcode) (w : Word) :
    w &&& op.maskWord = op.matchWord ↔
      w.toNat / 2 ^ 24 = op.code.toNat ∧ w.toNat % 2 ^ op.format.zeroBits = 0 := by
  have hmatch : op.matchWord.toNat = 2 ^ 24 * op.code.toNat := wordN_toNat op
  have hlt : w.toNat % 2 ^ op.format.zeroBits < 2 ^ 24 :=
    (Nat.mod_lt _ (Nat.two_pow_pos _)).trans_le
      (Nat.pow_le_pow_right (by decide) op.format.zeroBits_le)
  rw [← BitVec.toNat_inj, and_maskWord_toNat, hmatch]
  generalize w.toNat % 2 ^ op.format.zeroBits = low at hlt ⊢
  omega

/-- R95 with the machine's own match and mask words. -/
theorem exists_decode_iff (op : Opcode) (w : Word) :
    (∃ i, decode w = .ok i ∧ i.opcode = op) ↔
      (w &&& op.maskWord = op.matchWord ∧
        (op.format.hasComp = true → w.toNat / 2 ^ 22 % 4 ≠ 3)) := by
  rw [and_maskWord_eq_matchWord_iff, ← exists_decodeFields_iff]
  constructor
  · rintro ⟨i, hi, rfl⟩
    obtain ⟨hbits, hd⟩ := decode_eq_ok_iff.1 hi
    exact ⟨hbits, i, hd⟩
  · rintro ⟨⟨ho, hz⟩, i, hd⟩
    exact ⟨i, (decode_of_opcode ho hz).trans hd, opcode_of_decodeFields hd⟩

/-- The transcribed rows of R95 hold the machine's match word, mask word and format. -/
theorem opcodeMap_row {row : Opcode × Word × Word × Bool} (h : row ∈ Claim.opcodeMap) :
    row = (row.1, row.1.matchWord, row.1.maskWord, row.1.format.hasComp) := by
  revert row
  decide

end Sys2Proof
end

section
/-! ### The issue of a command word -/

namespace Sys2Proof.Machine

open Sys2Proof.Claim

/-- A write of CMD issues the word (R90). -/
theorem hostWrite_cmd {s : State} (hf : s.faulted = false) (w : Word) :
    hostWrite 0x00#8 w s = issue w s := by
  have hcmd : HostReg.ofNumber 0x00#8 = some .cmd := HostReg.ofNumber_number .cmd
  unfold hostWrite
  rw [if_neg (by simp [hf]), hcmd]

theorem issue_of_ok {w : Word} {i : Instr} (h : decode w = .ok i) (s : State) :
    issue w s = exec i s := by
  unfold issue
  rw [h]

theorem issue_of_error {s : State} (hf : s.faulted = false) {w : Word} {e : DecodeError}
    (h : decode w = .error e) : issue w s = .next (s.recordFault .illegalCmd w) := by
  unfold issue
  rw [h, ← State.raise_of_not_faulted hf]

/-- The step that writes CMD issues the word in the state without that access. -/
theorem step_of_next_cmd {s : State} {w : Word} {rest : List HostAccess}
    (hnext : Next s (.write 0x00#8 w) rest) (hf : s.faulted = false) :
    step s = issue w (taken s rest) := by
  rw [step_of_next hnext, hostAccess, hostWrite_cmd (s := taken s rest) hf]

/-- `withFetchWord` puts the write of the word to CMD in front of the pending accesses. -/
theorem next_withFetchWord (s : State) (w : Word) :
    Next (s.withFetchWord 32 w.toNat) (.write 0x00#8 w) s.pending := by
  unfold Next State.withFetchWord
  rw [Nat.mod_eq_of_lt w.isLt, BitVec.ofNat_toNat, BitVec.setWidth_eq]

end Sys2Proof.Machine
end

section
/-! ### The statements on the command word -/

namespace Sys2Proof.Proofs

open Sys2Proof.Machine Sys2Proof.Claim

/-- Settles O1: the word carries the opcode number, the zero bits and the fields the decoder reads. -/
theorem decodeOfEncode : Obligations.DecodeOfEncode := fun _ h => decode_encode h

/-- Settles O2: a decoded word has zero in the must-be-zero bits, and its other bits are fields. -/
theorem encodeOfDecode : Obligations.EncodeOfDecode := by
  intro w i h
  obtain ⟨⟨ho, hz⟩, hd⟩ := decode_eq_ok_iff.1 h
  exact encode_of_decodeFields ho hz hd

/-- Settles O3: the mask keeps the opcode number and the must-be-zero bits, which the decoder compares. -/
theorem decodeFollowsOpcodeMap : Obligations.DecodeFollowsOpcodeMap := by
  intro row hrow w
  rw [opcodeMap_row hrow]
  exact exists_decode_iff row.1 w

/-- Settles O4: the decoder computes on each word. -/
theorem decodeOfSampleWords : Obligations.DecodeOfSampleWords :=
  ⟨rfl, rfl, rfl, rfl, rfl, rfl, rfl, rfl, rfl⟩

/-- Settles O5: the step issues the word, and the issue of a command's word runs the command. -/
theorem stepRunsDecodedCommand : Obligations.StepRunsDecodedCommand := by
  have hrun : ∀ (s : State) (w : Word) (i : Instr) (rest : List HostAccess),
      Next s (.write 0x00#8 w) rest → s.faulted = false → decode w = .ok i →
      step s = exec i (taken s rest) :=
    fun s w i rest hnext hf hd => (step_of_next_cmd hnext hf).trans (issue_of_ok hd _)
  exact ⟨hrun, fun s w i hf hd => hrun _ w i s.pending (next_withFetchWord s w) hf hd⟩

/-- Settles O6: the step issues the word, and the issue of any other word records the fault. -/
theorem stepRefusesIllegalWord : Obligations.StepRefusesIllegalWord := by
  intro s w e rest hnext hf hd
  rw [step_of_next_cmd hnext hf, issue_of_error (s := taken s rest) hf hd]
  rfl

end Sys2Proof.Proofs
end

section
/-! ### The frame history and the keyframe schedule -/

namespace Sys2Proof.Machine

theorem State.nextIsKey_iff {s : State} :
    s.nextIsKey = true ↔ s.frameNum = 0#32 ∨ s.framesSinceKf = s.params.kfInterval := by
  simp only [State.nextIsKey, Bool.or_eq_true, beq_iff_eq]

/-- The next picture is an inter frame: it is not the first, and the interval is not over (R124 (b)). -/
theorem State.nextIsKey_eq_false_iff {s : State} :
    s.nextIsKey = false ↔ s.frameNum ≠ 0#32 ∧ s.framesSinceKf ≠ s.params.kfInterval := by
  rw [← Bool.not_eq_true, State.nextIsKey_iff, not_or]

/-- A store through the window leaves the frame history (R61). -/
theorem storeElement_sameHistory (s : State) (sp : SpaceRef) (i : Nat) (v : Word) :
    SameHistory s (s.storeElement sp i v) := by
  obtain ⟨e, hkey, -, horig⟩ := storeElement_frame s sp i v
  exact ⟨by rw [e], by rw [e], by rw [e], horig, hkey⟩

/-! #### The history -/

/-- The history invariant speaks of the counters, of which slots are filled, and of the keyframe flag. -/
theorem State.HistoryInv.of_sameHistory {s t : State} (hs : s.HistoryInv) (h : SameHistory s t) :
    t.HistoryInv := by
  obtain ⟨hnum, hsince, href, -, hkey⟩ := h
  obtain ⟨hle, hnone, hzero, hempty, hinter⟩ := hs
  have hcur : t.cur = none ↔ s.cur = none := by
    rw [← Option.map_eq_none_iff (f := Frame.keyframe), hkey, Option.map_eq_none_iff]
  unfold State.HistoryInv
  rw [hnum, hsince, href, hcur]
  refine ⟨hle, hnone, hzero, hempty, fun f hf hk => ?_⟩
  rw [hf, Option.map_some, hk] at hkey
  obtain ⟨g, hg, hgk⟩ := Option.map_eq_some_iff.mp hkey.symm
  exact hinter g hg hgk

/-- Where there is no frame and no picture was taken, the history is consistent (R121, R271). -/
theorem State.HistoryInv.of_empty {s : State} (hnum : s.frameNum = 0#32)
    (hsince : s.framesSinceKf = 0#32) (hcur : s.cur = none) (href : s.ref = none) :
    s.HistoryInv := by
  unfold State.HistoryInv
  simp [hnum, hsince, hcur, href]

/-- The move and the allocation of an inter frame: the old frame, which is there, becomes its reference
(R124 (a) to (c)). -/
theorem State.HistoryInv.acceptPicture {s : State} (hs : s.HistoryInv) (hk : s.nextIsKey = false) :
    s.acceptPicture.HistoryInv := by
  obtain ⟨hle, hnone, hzero, -, -⟩ := hs
  obtain ⟨hnum, -⟩ := State.nextIsKey_eq_false_iff.mp hk
  have hcur : s.cur ≠ none := fun h => hnum (hnone.mpr h)
  unfold State.HistoryInv
  simp only [State.acceptPicture_frameNum, State.acceptPicture_framesSinceKf, hk, Bool.false_eq_true,
    if_false, State.acceptPicture_cur, State.acceptPicture_ref, reduceCtorEq, iff_false, false_implies,
    true_and]
  exact ⟨hle, hnum, hzero, fun _ _ _ => hcur⟩

/-- Counting a picture whose frame is allocated keeps the history consistent (R124 (e)). -/
theorem State.HistoryInv.countPicture {s : State} (hmax : s.frameNum ≠ 0xFFFFFFFF#32)
    (hle : s.framesSinceKf.toNat ≤ s.frameNum.toNat) (hcur : s.cur ≠ none)
    (href : ∀ f, s.cur = some f → f.keyframe = false → s.ref ≠ none) :
    s.countPicture.HistoryInv := by
  unfold State.HistoryInv
  simp only [State.countPicture_frameNum, State.countPicture_framesSinceKf, State.countPicture_cur,
    State.countPicture_ref, hcur, iff_false, false_implies, true_and]
  exact ⟨by bv_omega, by bv_omega, by bv_omega, href⟩

/-- A keyframe needs no reference (R124 (b), R125). -/
theorem State.HistoryInv.count_keyframe {s : State} (hmax : s.frameNum ≠ 0xFFFFFFFF#32)
    (hk : s.nextIsKey = true) : s.acceptPicture.countPicture.HistoryInv := by
  refine .countPicture hmax (by simp [hk]) (fun e => (nomatch e)) (fun f e hf => ?_)
  rw [← Option.some.inj e] at hf
  exact absurd (hk.symm.trans hf) (by decide)

/-- An inter frame keeps the history consistent, whether its search comes to its end or not. -/
theorem State.HistoryInv.count_inter {s u : State} (hs : s.HistoryInv)
    (hmax : s.frameNum ≠ 0xFFFFFFFF#32) (hk : s.nextIsKey = false) (hu : Parts s.acceptPicture u) :
    u.HistoryInv ∧ u.countPicture.HistoryInv := by
  have hinv : u.HistoryInv := (hs.acceptPicture hk).of_sameHistory hu.sameHistory
  have hnum : u.frameNum = s.frameNum := hu.sameHistory.1
  refine ⟨hinv, ?_⟩
  obtain ⟨hle, hnone, -, -, hinter⟩ := hinv
  have hcur : u.cur ≠ none := fun e => by
    rw [← hnone, hnum] at e
    exact (State.nextIsKey_eq_false_iff.mp hk).1 e
  exact .countPicture (hnum ▸ hmax) hle hcur hinter

/-- Every command keeps the history consistent; only ENCODE_IMAGE moves it, and only CTX_NEW empties
it. -/
theorem State.HistoryInv.exec {i : Instr} {s t : State} (h : exec i s = .next t)
    (hf : s.faulted = false) (hs : s.HistoryInv) : t.HistoryInv := by
  refine command_keeps h hf hs (fun _ _ _ _ hs => hs) ?construct ?image (fun _ => hs) ?part
  case construct =>
    intro w hh _ _ _ _ _
    exact .of_empty rfl rfl rfl rfl
  case image =>
    intro _ _ hmax _
    exact ⟨.count_keyframe hmax, fun hk _ => hs.count_inter hmax hk⟩
  case part =>
    intro _ u v _ hp hu
    exact hu.of_sameHistory (Parts.sameHistory (.single hp))

/-! #### The schedule -/

/-- The schedule invariant speaks of the counters and the interval. -/
theorem State.ScheduleInv.of_eq {s t : State} (hs : s.ScheduleInv) (hnum : t.frameNum = s.frameNum)
    (hsince : t.framesSinceKf = s.framesSinceKf) (hparams : t.params = s.params) :
    t.ScheduleInv := by
  unfold State.ScheduleInv
  rw [hnum, hsince, hparams]
  exact hs

theorem State.ScheduleInv.of_parts {s t : State} (hs : s.ScheduleInv) (h : Parts s t) :
    t.ScheduleInv :=
  hs.of_eq (by rw [h.frame.1]) (by rw [h.frame.1]) (by rw [h.frame.1])

/-- Before the first picture there is nothing to say. -/
theorem State.ScheduleInv.of_first {s : State} (h : s.frameNum = 0#32) : s.ScheduleInv :=
  fun hnum => absurd h hnum

/-- Under the schedule the next picture is a keyframe exactly when the interval divides FRAMENUM
(R125). -/
theorem State.ScheduleInv.nextIsKey_iff_dvd {s : State} (hs : s.ScheduleInv)
    (hK : s.params.kfInterval ≠ 0#32) :
    s.nextIsKey = true ↔ s.params.kfInterval.toNat ∣ s.frameNum.toNat := by
  rw [State.nextIsKey_iff]
  by_cases hnum : s.frameNum = 0#32
  · simp [hnum]
  · obtain ⟨hpos, hle, hsched⟩ := hs hnum
    obtain ⟨hleK, hdvd⟩ := hsched hK
    have hsplit : s.frameNum.toNat = s.frameNum.toNat - s.framesSinceKf.toNat +
        s.framesSinceKf.toNat := by omega
    rw [or_iff_right hnum, hsplit, Nat.dvd_add_right hdvd]
    constructor
    · intro h
      rw [h]
    · intro h
      exact BitVec.eq_of_toNat_eq (Nat.le_antisymm hleK (Nat.le_of_dvd hpos h))

/-- The same for the interval 0: only the first picture is one. -/
theorem State.ScheduleInv.nextIsKey_iff_first {s : State} (hs : s.ScheduleInv)
    (hK : s.params.kfInterval = 0#32) : s.nextIsKey = true ↔ s.frameNum = 0#32 := by
  rw [State.nextIsKey_iff, hK]
  refine ⟨fun h => ?_, .inl⟩
  by_contra hnum
  obtain ⟨hpos, -⟩ := hs hnum
  rw [h.resolve_left hnum] at hpos
  exact absurd hpos (by decide)

/-- Counting a picture moves the schedule on by one (R124 (e), R125). -/
theorem State.ScheduleInv.countPicture {s : State} (hmax : s.frameNum ≠ 0xFFFFFFFF#32)
    (hle : s.framesSinceKf.toNat ≤ s.frameNum.toNat)
    (hsched : s.params.kfInterval ≠ 0#32 →
      s.framesSinceKf.toNat < s.params.kfInterval.toNat ∧
        s.params.kfInterval.toNat ∣ s.frameNum.toNat - s.framesSinceKf.toNat) :
    s.countPicture.ScheduleInv := by
  intro _
  have hnum : s.countPicture.frameNum.toNat = s.frameNum.toNat + 1 := by
    rw [State.countPicture_frameNum]
    bv_omega
  have hsince : s.countPicture.framesSinceKf.toNat = s.framesSinceKf.toNat + 1 := by
    rw [State.countPicture_framesSinceKf]
    bv_omega
  rw [hnum, hsince, State.countPicture_params, Nat.add_sub_add_right]
  exact ⟨by omega, by omega, hsched⟩

/-- A keyframe restarts the count since the last one, and stands where the interval divides FRAMENUM
(R124 (b), R125). -/
theorem State.ScheduleInv.count_keyframe {s : State} (hs : s.ScheduleInv)
    (hmax : s.frameNum ≠ 0xFFFFFFFF#32) (hk : s.nextIsKey = true) :
    s.acceptPicture.countPicture.ScheduleInv := by
  have hzero : s.acceptPicture.framesSinceKf = 0#32 := by simp [hk]
  refine .countPicture hmax (by rw [hzero]; exact Nat.zero_le _) (fun hK => ?_)
  have hdvd := (hs.nextIsKey_iff_dvd hK).mp hk
  rw [hzero]
  exact ⟨Nat.pos_of_ne_zero (fun h => hK (BitVec.eq_of_toNat_eq h)), hdvd⟩

/-- An inter frame comes before the interval is over (R124 (b), R125). -/
theorem State.ScheduleInv.count_inter {s u : State} (hs : s.ScheduleInv)
    (hmax : s.frameNum ≠ 0xFFFFFFFF#32) (hk : s.nextIsKey = false) (hu : Parts s.acceptPicture u) :
    u.ScheduleInv ∧ u.countPicture.ScheduleInv := by
  have hsince : s.acceptPicture.framesSinceKf = s.framesSinceKf := by simp [hk]
  have hinv : u.ScheduleInv := (hs.of_eq (t := s.acceptPicture) rfl hsince rfl).of_parts hu
  obtain ⟨hfirst, hinside⟩ := State.nextIsKey_eq_false_iff.mp hk
  have hnum : u.frameNum = s.frameNum := by rw [hu.frame.1]; rfl
  have hcount : u.framesSinceKf = s.framesSinceKf := by rw [hu.frame.1]; exact hsince
  have hparams : u.params = s.params := by rw [hu.frame.1]; rfl
  obtain ⟨-, hle, hsched⟩ := hinv (hnum ▸ hfirst)
  refine ⟨hinv, .countPicture (hnum ▸ hmax) hle (fun hK => ?_)⟩
  obtain ⟨hleK, hdvd⟩ := hsched hK
  refine ⟨lt_of_le_of_ne hleK (fun h => hinside ?_), hdvd⟩
  rw [← hcount, ← hparams]
  exact BitVec.eq_of_toNat_eq h

/-- Every command keeps the schedule; only ENCODE_IMAGE moves it, and only CTX_NEW begins it again. -/
theorem State.ScheduleInv.exec {i : Instr} {s t : State} (h : exec i s = .next t)
    (hf : s.faulted = false) (hs : s.ScheduleInv) : t.ScheduleInv := by
  refine command_keeps h hf hs (fun _ _ _ _ hs => hs) ?construct ?image (fun _ => hs) ?part
  case construct =>
    intro w hh _ _ _ _ _
    exact .of_first rfl
  case image =>
    intro _ _ hmax _
    exact ⟨hs.count_keyframe hmax, fun hk _ => hs.count_inter hmax hk⟩
  case part =>
    intro _ u v _ hp hu
    exact hu.of_parts (.single hp)

end Sys2Proof.Machine
end

section
namespace Sys2Proof.Proofs

open Sys2Proof.Machine Sys2Proof.Claim

/-- Settles O25: only ENCODE_IMAGE moves the frames, and an inter frame's reference is the frame the
counters say is there. -/
theorem stepKeepsFrameHistory : Obligations.StepKeepsFrameHistory := by
  intro s t hs h
  exact step_keeps h hs
    (host := fun _ _ _ _ hs => hs)
    (reset := fun _ _ => .of_empty rfl rfl rfl rfl)
    (fault := fun _ _ _ _ hs => hs)
    (args := fun _ _ _ _ _ _ hs => hs)
    (store := fun s sp v hs _ _ => hs.of_sameHistory (storeElement_sameHistory s sp _ v))
    (cmd := fun _ _ _ hf hs he => hs.exec he hf)

/-- Settles O26: a keyframe comes when the count since the last one reaches the interval, and it stands a
multiple of the interval after the first picture. -/
theorem keyframesComeEveryInterval : Obligations.KeyframesComeEveryInterval := by
  refine ⟨fun s t hs h => ?_, fun s hs => ⟨hs.nextIsKey_iff_dvd, hs.nextIsKey_iff_first⟩⟩
  refine step_keeps h hs
    (host := fun _ _ _ _ hs => hs)
    (reset := fun _ _ => .of_first rfl)
    (fault := fun _ _ _ _ hs => hs)
    (args := fun _ _ _ _ _ _ hs => hs)
    (store := fun s sp v hs _ _ => ?_)
    (cmd := fun _ _ _ hf hs he => hs.exec he hf)
  rw [(storeElement_frame s sp s.maddr.toNat v).1]
  exact hs

end Sys2Proof.Proofs
end

section
/-! ### Acceptance, in the words of the statements -/

namespace Sys2Proof.Machine

open Sys2Proof.Claim

section
variable {s : State} (hf : s.faulted = false)
include hf

theorem lifecycle_unconstructed_iff :
    (s.lifecycle == .unconstructed) = true ↔ s.ctxValid = false := by
  unfold State.lifecycle
  rw [hf]
  cases s.ctxValid <;> cases s.ended <;> decide

theorem lifecycle_ready_iff :
    (s.lifecycle == .ready) = true ↔ s.ctxValid = true ∧ s.ended = false := by
  unfold State.lifecycle
  rw [hf]
  cases s.ctxValid <;> cases s.ended <;> decide

theorem lifecycle_constructed_iff : s.lifecycle.constructed = true ↔ s.ctxValid = true := by
  unfold State.lifecycle
  rw [hf]
  cases s.ctxValid <;> cases s.ended <;> decide

theorem lifecycle_ne_faulted : (s.lifecycle != .faulted) = true := by
  unfold State.lifecycle
  rw [hf]
  cases s.ctxValid <;> cases s.ended <;> decide

end

theorem State.curValid_iff {s : State} : s.curValid = true ↔ s.cur ≠ none := by
  rw [State.curValid, Option.isSome_iff_ne_none]

theorem State.searchable_iff {s : State} : s.searchable = true ↔ InterFrame s := by
  unfold State.searchable State.curValid State.refValid State.curKey InterFrame
  cases s.cur <;> cases s.ref <;> simp [keyFlag]

/-- Without a fault the machine accepts what the table of R241 accepts. -/
theorem accepts_iff {s : State} (hf : s.faulted = false) (i : Instr) :
    accepts i s = true ↔ Accepted i s := by
  cases i with
  | ctxNew => exact lifecycle_unconstructed_iff hf
  | encodeImage =>
    simp only [accepts, Accepted, Bool.and_eq_true, lifecycle_ready_iff hf, bne_iff_ne, and_assoc]
  | streamEnd => exact lifecycle_ready_iff hf
  | abort => exact iff_true_intro (lifecycle_ne_faulted hf)
  | sad | dctqBlock | deqidctBlock | zzFwd | zzInv => exact lifecycle_constructed_iff hf
  | meBlock | meComp =>
    simp only [accepts, Accepted, Bool.and_eq_true, lifecycle_constructed_iff hf,
      State.searchable_iff]
  | mcBlock | mcComp | dctqRow | deqidctRow | dctqPlane | deqidctPlane =>
    simp only [accepts, Accepted, Bool.and_eq_true, lifecycle_constructed_iff hf, State.curValid_iff]

section
variable {i : Instr} {s : State} (hf : s.faulted = false)
include hf

/-- An accepted command whose rule completes. -/
theorem exec_completes {t : State} (ha : Accepted i s) (hb : bodyOf i s = .done t) :
    exec i s = .next t :=
  exec_of_done ((accepts_iff hf i).mpr ha) hb

/-- An accepted command whose rule faults before it has written anything. -/
theorem exec_faults {e : Cause} (ha : Accepted i s) (hb : bodyOf i s = .raised e s) :
    exec i s = .next (recorded s (e.code.setWidth 32) (encode i)) :=
  exec_raises ((accepts_iff hf i).mpr ha) hb hf

/-- A command the state does not accept (R243). -/
theorem exec_refused (ha : ¬ Accepted i s) : exec i s = .next (recorded s 0x04#32 (encode i)) :=
  exec_of_not_accepted (by rwa [← Bool.not_eq_true, accepts_iff hf]) hf

end

end Sys2Proof.Machine
end

section
/-! ### The context commands -/

namespace Sys2Proof.Machine

open Sys2Proof.Claim

/-! #### The constructed context -/

/-- What a step other than reset leaves once the context is constructed (R123). -/
def SameContext (s t : State) : Prop :=
  t.ctxValid = true ∧ t.width = s.width ∧ t.height = s.height ∧ t.geom = s.geom ∧ t.qt = s.qt ∧
    t.params = s.params

theorem SameContext.refl {s : State} (hv : s.ctxValid = true) : SameContext s s :=
  ⟨hv, rfl, rfl, rfl, rfl, rfl⟩

theorem Parts.sameContext {s t u : State} (h : Parts s t) (hs : SameContext u s) :
    SameContext u t := by
  rw [h.frame.1]
  exact hs

/-- A constructed context refuses CTX_NEW, and no other command touches it (R123, R241). -/
theorem SameContext.exec {i : Instr} {s t u : State} (h : exec i s = .next t)
    (hf : s.faulted = false) (hs : SameContext u s) : SameContext u t := by
  refine command_keeps h hf hs (fun _ _ _ _ hs => hs) ?construct ?image (fun _ => hs) ?part
  case construct =>
    intro w hh hv _ _ _ _
    exact absurd (hs.1.symm.trans hv) (by decide)
  case image =>
    intro _ _ _ _
    have hacc : SameContext u s.acceptPicture := hs
    exact ⟨fun _ => hs, fun _ v hv => ⟨hv.sameContext hacc, hv.sameContext hacc⟩⟩
  case part =>
    intro _ v w _ hp hv
    exact Parts.sameContext (.single hp) hv

/-- A read changes nothing but the fault record and the model's record of reads (R29). -/
theorem hostRead_sameContext (reg : Byte) {s u : State} (hs : SameContext u s) :
    SameContext u (hostRead reg s) := by
  rcases hostRead_cases reg s with ⟨w, -, e⟩ | ⟨c, -, ⟨-, e⟩ | ⟨-, e⟩⟩ <;> rw [e] <;> exact hs

/-- A write changes the context only through a command (R27, R61). -/
theorem hostWrite_sameContext {reg : Byte} {v : Word} {s t u : State}
    (h : hostWrite reg v s = .next t) (hs : SameContext u s) : SameContext u t := by
  rcases hostWrite_cases h with
    ⟨-, e⟩ | ⟨hf, ⟨c, w, e⟩ | ⟨a, b, c, m, n, e⟩ | ⟨sp, -, -, e⟩ | ⟨i, e⟩⟩
  · rw [e]; exact hs
  · rw [e]; exact hs
  · rw [e]; exact hs
  · rw [e, (storeElement_frame s sp s.maddr.toNat v).1]; exact hs
  · exact hs.exec e hf

/-- A step that is not the reset event leaves a constructed context (R123). -/
theorem step_sameContext {s t : State} (hv : s.ctxValid = true)
    (hreset : s.pending.head? ≠ some .reset) (h : step s = .next t) : SameContext s t := by
  cases hp : s.pending with
  | nil =>
    simp only [step, hp] at h
    cases h
    exact .refl hv
  | cons a rest =>
    rw [step_of_next hp] at h
    have hs : SameContext s (taken s rest) := .refl hv
    cases a with
    | reset => exact absurd (by rw [hp]; rfl) hreset
    | read reg => cases h; exact hostRead_sameContext reg hs
    | write reg v => exact hostWrite_sameContext h hs

/-! #### The tables -/

/-- A default table's entry `k` gives entry `k` of the table built from it (R122). -/
theorem read_buildTable (d : Vector Byte 64) (k : Fin 64) :
    Space.read (buildTable d) k = some (qtEntry d[k]) := by
  have htable : buildTable d = (List.range 64).map (fun j => (j, qtEntry (d.toList.getD j 0#8))) := by
    refine List.ext_getElem (by simp [buildTable]) (fun j hj _ => ?_)
    have : j < 64 := by simpa [buildTable] using hj
    simp [buildTable, List.getD_eq_getElem?_getD, this]
  rw [htable, Space.read_map_range, if_pos k.isLt]
  simp

/-- An entry's value is 1 to 255 (R36, R122). -/
theorem tableEntry_range (e : Byte) :
    1 ≤ max 1 (e.toNat * 10 / 25) ∧ max 1 (e.toNat * 10 / 25) ≤ 255 := by
  have := e.isLt
  exact ⟨le_max_left _ _, max_le (by omega) (by omega)⟩

/-- So nothing of it is cut off in the table (R122). -/
theorem wordOfByte_qtEntry (e : Byte) :
    wordOfByte (qtEntry e) = BitVec.ofNat 32 (max 1 (e.toNat * 10 / 25)) := by
  obtain ⟨-, hle⟩ := tableEntry_range e
  exact BitVec.setWidth_ofNat_of_le_of_lt (by decide) (hle.trans_lt (by decide))

theorem toNat_tableWord (e : Byte) :
    1 ≤ (BitVec.ofNat 32 (max 1 (e.toNat * 10 / 25))).toNat ∧
      (BitVec.ofNat 32 (max 1 (e.toNat * 10 / 25))).toNat ≤ 255 := by
  obtain ⟨hpos, hle⟩ := tableEntry_range e
  rw [BitVec.toNat_ofNat]
  omega

/-- The default table of a component: one for luma, one shared by both chroma components (R122). -/
def defaultTable (p : Params) (c : Comp) : Vector Byte 64 :=
  if c = .y then p.qtDefLuma else p.qtDefChroma

/-- What the host reads from a table CTX_NEW has built (R122). -/
theorem element_qt_construct (s : State) (w h : Nat) (c : Comp) (k : Fin 64) :
    (s.construct w h).element (.qt c) k =
      some (BitVec.ofNat 32 (max 1 ((defaultTable s.params c)[k].toNat * 10 / 25))) := by
  rw [← wordOfByte_qtEntry]
  cases c <;> exact congrArg (Option.map wordOfByte) (read_buildTable _ k)

end Sys2Proof.Machine
end

section
namespace Sys2Proof.Proofs

open Sys2Proof.Machine Sys2Proof.Claim

/-- Settles O18: each of the checks is the first thing the command's rule does. -/
theorem operandCheckFaultsChangeNothingElse : Obligations.OperandCheckFaultsChangeNothingElse := by
  intro s hf
  refine ⟨fun ha hdim => ?_, fun c mbY mbX hout => ⟨fun ha => ?_, fun ha => ?_⟩,
    fun c band hout => ⟨fun ha => ?_, fun ha => ?_⟩⟩
  · refine exec_faults (e := .config) hf ha (if_neg ?_)
    rw [Bool.and_eq_true, legalDim_iff, legalDim_iff, State.widthOperand, State.heightOperand]
    omega
  · exact exec_faults (e := .geometry) hf ha (if_neg (by omega))
  · exact exec_faults (e := .geometry) hf ha (if_neg (by omega))
  · exact exec_faults (e := .geometry) hf ha (if_neg (by omega))
  · exact exec_faults (e := .geometry) hf ha (if_neg (by omega))

/-- Settles O21: only CTX_NEW writes the geometry and the tables, and it is not accepted again. -/
theorem geometryAndTablesAreImmutable : Obligations.GeometryAndTablesAreImmutable := by
  refine ⟨fun s t hv hreset h => step_sameContext hv hreset h, fun s hv hf => ?_⟩
  exact exec_refused (i := .ctxNew) hf (fun ha => absurd (hv.symm.trans ha) (by decide))

/-- Settles O32: the tables are built entry by entry from the default tables. -/
theorem ctxNewBuildsTables : Obligations.CtxNewBuildsTables := by
  intro s hf ha hw1 hw2 hh1 hh2
  have hbody : bodyOf .ctxNew s =
      .done (s.construct s.widthOperand.toNat s.heightOperand.toNat) := by
    refine if_pos ?_
    rw [Bool.and_eq_true, legalDim_iff, legalDim_iff]
    exact ⟨⟨hw1, hw2⟩, hh1, hh2⟩
  refine ⟨_, exec_completes hf ha hbody, rfl, fun k => ⟨?_, ?_, fun c => ?_⟩⟩
  · exact element_qt_construct s _ _ .y k
  · exact element_qt_construct s _ _ .u k
  · exact ⟨_, element_qt_construct s _ _ c k, toNat_tableWord _⟩

/-- Settles O19: the rule of ABORT raises its fault at once, in any state without one. -/
theorem abortRecordsInputError : Obligations.AbortRecordsInputError :=
  fun _ hf => exec_faults (i := .abort) (e := .input) hf trivial rfl

/-- Settles O38: the rule of STREAM_END sets the flag. -/
theorem streamEndSetsEnded : Obligations.StreamEndSetsEnded :=
  fun _ hf ha => exec_completes hf ha rfl

end Sys2Proof.Proofs
end

section
/-! ### The picture and its frame -/

namespace Sys2Proof.Machine

open Sys2Proof.Claim

theorem allDefined_of_holds {α : Type} {m : Space α} {n : Nat} {A : Nat → α} (h : Holds m n A) :
    Space.allDefined m n = true :=
  Space.allDefined_iff.mpr (fun i hi => ⟨A i, h i hi⟩)

theorem pictureComplete_of_holds {s : State} {X : Comp → Nat → Byte}
    (h : ∀ c, Holds (s.picIn.get c) (s.planeSize c) (X c)) : s.pictureComplete = true :=
  State.pictureComplete_iff.mpr (fun c => allDefined_of_holds (h c))

/-- One `undef` element leaves the picture incomplete (R126). -/
theorem pictureComplete_of_undef {s : State} {c : Comp} {i : Nat} (hi : i < s.planeSize c)
    (h : Space.read (s.picIn.get c) i = none) : ¬ s.pictureComplete = true := by
  intro hp
  obtain ⟨a, ha⟩ := Space.allDefined_iff.mp (State.pictureComplete_iff.mp hp c) i hi
  rw [h] at ha
  cases ha

theorem holds_fill {α : Type} (n : Nat) (a : α) : Holds (Space.fill n a) n (fun _ => a) :=
  fun i hi => by rw [Space.read_fill, if_pos hi]

/-- What allocation puts in a frame: the picture, the flat prediction, the default records, and no
reconstruction and no coefficient (R44 to R46). -/
theorem State.newFrame_planes (s : State) (key : Bool) (c : Comp) :
    (s.newFrame key).orig.get c = s.picIn.get c ∧ (s.newFrame key).recons.get c = [] ∧
      (s.newFrame key).resid.get c = [] ∧
      Holds ((s.newFrame key).pred.get c) (s.planeSize c) (fun _ => s.params.intraFill) ∧
      Holds ((s.newFrame key).mb.get c) (s.gridSize c) (fun _ => .default) := by
  simp only [State.newFrame, Triple.get_of]
  exact ⟨trivial, by cases c <;> rfl, by cases c <;> rfl, holds_fill _ _, holds_fill _ _⟩

/-- ENCODE_IMAGE of a keyframe runs no search (R124, R125). -/
theorem encodeImageBody_of_key {s : State} (hp : s.pictureComplete = true)
    (hk : s.nextIsKey = true) : encodeImageBody s = .done s.acceptPicture.countPicture := by
  rw [encodeImageBody, if_pos hp, if_pos hk, Run.andThen_done]

/-- ENCODE_IMAGE of an inter frame searches it before it counts it (R124 (d), (e)). -/
theorem encodeImageBody_of_inter {s : State} (hp : s.pictureComplete = true)
    (hk : s.nextIsKey = false) :
    encodeImageBody s = (meFrame s.acceptPicture).andThen (fun t => .done t.countPicture) := by
  rw [encodeImageBody, if_pos hp, if_neg (by simp [hk])]

end Sys2Proof.Machine
end

section
/-! ### The search over a picture -/

namespace Sys2Proof.Machine

open Sys2Proof.Claim

/-! #### One sweep over all macroblocks -/

/-- The macroblocks of some components, in the order the search visits them (R226). -/
def State.unitsOf (s : State) (cs : List Comp) : List (Comp × Nat × Nat) :=
  cs.flatMap (fun c => (raster (s.cols c) (s.rows c)).map (fun p => (c, p)))

/-- The search of a macroblock given with its component. -/
def searchUnit (u : Comp × Nat × Nat) (s : State) : Run := meUnit u.1 u.2 s

theorem sweep_map {α β : Type} (f : β → State → Run) (g : α → β) (us : List α) (s : State) :
    sweep f (us.map g) s = sweep (fun a => f (g a)) us s := by
  induction us generalizing s with
  | nil => rfl
  | cons u us ih => simp only [List.map_cons, sweep_cons, funext ih]

/-- Sweeps over components make up one sweep over their macroblocks, since no search changes the
geometry. -/
theorem sweep_meSweep {s t : State} (h : Parts s t) (hk : ∀ f, s.cur = some f → f.keyframe = false)
    (cs : List Comp) : sweep meSweep cs t = sweep searchUnit (s.unitsOf cs) t := by
  induction cs generalizing t with
  | nil => rfl
  | cons c cs ih =>
    have hfirst : sweep searchUnit ((raster (s.cols c) (s.rows c)).map (fun p => (c, p))) t =
        meSweep c t := by
      rw [sweep_map, meSweep, h.cols, h.rows]
      rfl
    rw [State.unitsOf, List.flatMap_cons, sweep_append, hfirst, sweep_cons]
    have hparts := h.trans (meSweep_parts (c := c) (h.keyframe hk))
    cases hr : meSweep c t with
    | raised e u => rfl
    | done u =>
      rw [hr] at hparts
      exact ih hparts

/-- The macroblocks of a picture: Y, then U, then V (R226). -/
def State.units (s : State) : List (Comp × Nat × Nat) := s.unitsOf [.y, .u, .v]

theorem meFrame_eq {s : State} (hk : ∀ f, s.cur = some f → f.keyframe = false) :
    meFrame s = sweep searchUnit s.units s :=
  sweep_meSweep .refl hk _

theorem mem_units {s : State} {c : Comp} {x y : Nat} : (c, x, y) ∈ s.units ↔ InGrid s c x y := by
  have hc : c ∈ [Comp.y, .u, .v] := by cases c <;> decide
  simp only [State.units, State.unitsOf, List.mem_flatMap, List.mem_map, Prod.mk.injEq]
  constructor
  · rintro ⟨_, -, p, hp, rfl, rfl⟩
    exact mem_raster.mp hp
  · intro h
    exact ⟨c, hc, (x, y), mem_raster.mpr h, rfl, rfl⟩

theorem raster_pairwise (cols rows : Nat) :
    (raster cols rows).Pairwise (fun p q => p.2 * cols + p.1 < q.2 * cols + q.1) := by
  rw [List.pairwise_iff_getElem]
  intro i j hi hj hij
  rw [raster_length] at hi hj
  rw [List.getElem_eq_iff _ |>.mpr (raster_getElem? cols rows hi),
    List.getElem_eq_iff _ |>.mpr (raster_getElem? cols rows hj)]
  simpa only [Nat.div_add_mod'] using hij

/-- The macroblocks stand in the order of the statements (R226). -/
theorem units_pairwise (s : State) : s.units.Pairwise (unitBefore s) := by
  unfold State.units State.unitsOf
  rw [List.pairwise_flatMap]
  constructor
  · intro c _
    rw [List.pairwise_map]
    exact (raster_pairwise _ _).imp (fun h => .inr ⟨rfl, h⟩)
  · have hcomps : [Comp.y, .u, .v].Pairwise (fun c d => c.number < d.number) := by decide
    refine hcomps.imp (fun h p hp q hq => .inl ?_)
    obtain ⟨_, -, rfl⟩ := List.mem_map.mp hp
    obtain ⟨_, -, rfl⟩ := List.mem_map.mp hq
    exact h

theorem unitBefore_asymm {s : State} {p q : Comp × Nat × Nat} (h : unitBefore s p q) :
    ¬ unitBefore s q p := by
  obtain ⟨c, x, y⟩ := p
  obtain ⟨d, x', y'⟩ := q
  rcases h with h | ⟨rfl, h⟩
  · rintro (h' | ⟨rfl, -⟩)
    · exact lt_asymm h h'
    · exact lt_irrefl _ h
  · rw [unitBefore_same_iff]
    exact lt_asymm h

/-! #### What a search leaves -/

/-- The state in which the search of a macroblock begins or ends: POS, SAD_ACC, the result registers and
the current frame are `pos`, `acc`, `best`, `mv` and `f` (R157). -/
def imageState (s : State) (f : Frame) (pos acc best mv : Word) : State :=
  { s with pos := pos, sadAcc := acc, meBest := best, meMv := mv, cur := some f }

theorem imageState_self {s : State} {cur : Frame} (hcur : s.cur = some cur) :
    imageState s cur s.pos s.sadAcc s.meBest s.meMv = s := by
  rw [imageState, ← hcur]

/-- A search moves from one such state to the next (R157). -/
theorem imageState_search (s : State) (f g : Frame) (pos acc acc' best best' mv mv' : Word) :
    (((imageState s f pos acc best mv).setSadAcc acc').setCur g).setMeResult best' mv' =
      imageState s g pos acc' best' mv' := rfl

/-- The frame, SAD_ACC and the result registers once the macroblocks `us` of a picture have been searched,
in order: each has its result, the last one shows its position and its result, SAD_ACC holds the last
finished sum, and the other records are the allocated ones (R43, R157). -/
structure ImageSearched (s : State) (cur : Frame) (A B : Comp → Nat → Byte)
    (us : List (Comp × Nat × Nat)) (f : Frame) (pos acc best mv : Word) : Prop where
  frame : f = { cur with mb := f.mb }
  kept : ∀ c x y, InGrid s c x y → (c, x, y) ∉ us →
    Space.read (f.mb.get c) (y * s.cols c + x) = Space.read (cur.mb.get c) (y * s.cols c + x)
  found : ∀ c x y, (c, x, y) ∈ us → ∃ m b, Space.read (f.mb.get c) (y * s.cols c + x) = some m ∧
    SearchResult s c (A c) (B c) x y .default m b ∧
    ((∀ u ∈ us, ¬ unitBefore s (c, x, y) u) → pos = posOf c x y ∧ mv = m.word ∧ best = b)
  quiet : (∀ c x y, (c, x, y) ∈ us → ∀ x' y', ¬ Candidate s c x y x' y') → acc = s.sadAcc
  last : ∀ c x y x' y', (c, x, y) ∈ us → LastCandidate s c x y x' y' →
    (∀ c₁ x₁ y₁, (c₁, x₁, y₁) ∈ us → unitBefore s (c, x, y) (c₁, x₁, y₁) →
      ∀ x₂ y₂, ¬ Candidate s c₁ x₁ y₁ x₂ y₂) →
    acc.toNat = candidateScore s c (A c) (B c) x y x' y'

section
variable {s : State} {cur ref : Frame} {A B : Comp → Nat → Byte}

theorem ImageSearched.nil : ImageSearched s cur A B [] cur s.pos s.sadAcc s.meBest s.meMv where
  frame := rfl
  kept _ _ _ _ _ := rfl
  found _ _ _ h := absurd h List.not_mem_nil
  quiet _ := rfl
  last _ _ _ _ _ h := absurd h List.not_mem_nil

variable {us : List (Comp × Nat × Nat)} {f : Frame} {pos acc best mv acc' b : Word} {c : Comp}
  {x y : Nat} {m : MbRecord}

/-- A record written is the one of its macroblock and of no other (R33). -/
theorem read_writeMb (hin : InGrid s c x y) {d : Comp} {x' y' : Nat} (hx' : x' < s.cols d) :
    Space.read ((f.writeMb c (y * s.cols c + x) m).mb.get d) (y' * s.cols d + x') =
      if (d, x', y') = (c, x, y) then some m else Space.read (f.mb.get d) (y' * s.cols d + x') := by
  by_cases hd : d = c
  · subst hd
    rw [Frame.writeMb, Triple.get_set_same, Space.read_write]
    congr 1
    simp only [Prod.mk.injEq, true_and, eq_iff_iff]
    constructor
    · exact unit_eq_of_index_eq hin.1 hx'
    · rintro ⟨rfl, rfl⟩
      rfl
  · rw [Frame.writeMb, Triple.get_set_of_ne _ _ hd, if_neg (fun e => hd (Prod.mk.inj e).1)]

/-- One more macroblock (R155 to R157). -/
theorem ImageSearched.snoc (h : ImageSearched s cur A B us f pos acc best mv)
    (hgrid : ∀ d x' y', (d, x', y') ∈ us → InGrid s d x' y') (hin : InGrid s c x y)
    (hbefore : ∀ u ∈ us, unitBefore s u (c, x, y))
    (hres : SearchResult s c (A c) (B c) x y .default m b)
    (hquiet : (∀ x' y', ¬ Candidate s c x y x' y') → acc' = acc)
    (hlast : ∀ x' y', LastCandidate s c x y x' y' →
      acc'.toNat = candidateScore s c (A c) (B c) x y x' y') :
    ImageSearched s cur A B (us ++ [(c, x, y)]) (f.writeMb c (y * s.cols c + x) m) (posOf c x y) acc'
      b m.word where
  frame := by rw [h.frame]; rfl
  kept d x' y' hd hnot := by
    rw [List.mem_append, List.mem_singleton, not_or] at hnot
    rw [read_writeMb hin hd.1, if_neg hnot.2]
    exact h.kept d x' y' hd hnot.1
  found d x' y' hmem := by
    rcases List.mem_append.mp hmem with hmem | hmem
    · have hb := hbefore _ hmem
      have hne : (d, x', y') ≠ (c, x, y) := fun e => unitBefore_asymm hb (e ▸ hb)
      obtain ⟨m', b', hm', hres', -⟩ := h.found d x' y' hmem
      refine ⟨m', b', ?_, hres', fun hlast => absurd hb (hlast _ (by simp))⟩
      rw [read_writeMb hin (hgrid d x' y' hmem).1, if_neg hne, hm']
    · cases List.mem_singleton.mp hmem
      exact ⟨m, b, by rw [read_writeMb hin hin.1, if_pos rfl], hres, fun _ => ⟨rfl, rfl, rfl⟩⟩
  quiet hnone := by
    rw [hquiet (hnone c x y (by simp))]
    exact h.quiet (fun d x' y' hmem => hnone d x' y' (List.mem_append_left _ hmem))
  last d x₁ y₁ x' y' hmem hcand hnone := by
    rcases List.mem_append.mp hmem with hmem | hmem
    · rw [hquiet (hnone c x y (by simp) (hbefore _ hmem))]
      exact h.last d x₁ y₁ x' y' hmem hcand
        (fun d' x₂ y₂ hmem' => hnone d' x₂ y₂ (List.mem_append_left _ hmem'))
    · cases List.mem_singleton.mp hmem
      exact hlast x' y' hcand

/-- The windows of a wholly reconstructed reference are reconstructed (R153). -/
theorem windowsHold_of_holds {B : Nat → Byte} (h : Holds (ref.recons.get c) (s.planeSize c) B)
    (mbX mbY : Nat) : WindowsHold s c ref B mbX mbY := by
  intro x y r k hcand hr hk
  obtain ⟨-, hx, -, hy⟩ := hcand
  refine h _ ?_
  rw [← windowSample_eq]
  exact block_sample_lt (by omega) (by omega) hr hk

/-- What the search of a newly allocated inter frame starts from (R124 (a) to (c)). -/
def ImageStartable (s : State) (cur ref : Frame) (A : Comp → Nat → Byte) : Prop :=
  ∀ c, Startable s c cur ref (A c) (fun _ => .default)

variable (hs : ImageStartable s cur ref A)
include hs

/-- The search of the next macroblock of a picture, when all its windows are defined (R157). -/
theorem searchUnit_searched (h : ImageSearched s cur A B us f pos acc best mv)
    (hgrid : ∀ d x' y', (d, x', y') ∈ us → InGrid s d x' y') (hin : InGrid s c x y)
    (hbefore : ∀ u ∈ us, unitBefore s u (c, x, y)) (hB : WindowsHold s c ref (B c) x y) :
    ∃ f' acc' best' mv', searchUnit (c, x, y) (imageState s f pos acc best mv) =
        .done (imageState s f' (posOf c x y) acc' best' mv') ∧
      ImageSearched s cur A B (us ++ [(c, x, y)]) f' (posOf c x y) acc' best' mv' := by
  have hnew : (c, x, y) ∉ us := fun hmem => unitBefore_asymm (hbefore _ hmem) (hbefore _ hmem)
  have hold := (h.kept c x y hin hnew).trans ((hs c).read_record hin)
  have hanchor : AnchorHolds s c f (A c) x y := by
    rw [h.frame]
    exact anchorHolds_of_holds (hs c).grid hin (hs c).orig
  obtain ⟨m, b, acc', hdone, hres, hquiet, hlast⟩ :=
    meAt_searches (s := imageState s f (posOf c x y) acc best mv) rfl (hs c).ref_eq hold hanchor hB
  rw [imageState_search] at hdone
  exact ⟨_, _, _, _, hdone, h.snoc hgrid hin hbefore hres hquiet hlast⟩

/-- The search over a picture whose reference has every window defined completes (R124 (d), R226). -/
theorem meFrame_searched (hB : ∀ c x y, InGrid s c x y → WindowsHold s c ref (B c) x y) :
    ∃ f pos acc best mv, meFrame s = .done (imageState s f pos acc best mv) ∧
      ImageSearched s cur A B s.units f pos acc best mv := by
  have hkey : ∀ g, s.cur = some g → g.keyframe = false := by
    intro g hg
    rw [(hs .y).cur_eq] at hg
    rw [← Option.some.inj hg]
    exact (hs .y).inter
  have hmem : ∀ k d x' y', (d, x', y') ∈ s.units.take k → InGrid s d x' y' :=
    fun k d x' y' h => mem_units.mp (List.mem_of_mem_take h)
  obtain ⟨t, ht, f, pos, acc, best, mv, rfl, himage⟩ := sweep_completes
    (f := searchUnit) (us := s.units)
    (fun k t => ∃ f pos acc best mv, t = imageState s f pos acc best mv ∧
      ImageSearched s cur A B (s.units.take k) f pos acc best mv)
    (by
      rintro k hk t ⟨f, pos, acc, best, mv, rfl, h⟩
      have hord := (units_pairwise s).sublist (List.take_sublist (k + 1) _)
      rw [List.take_succ_eq_append_getElem hk] at hord
      rw [List.take_succ_eq_append_getElem hk]
      obtain ⟨-, -, hbefore⟩ := List.pairwise_append.mp hord
      have hin : InGrid s _ _ _ := mem_units.mp (List.getElem_mem hk)
      obtain ⟨f', acc', best', mv', hdone, h'⟩ := searchUnit_searched hs h (hmem k) hin
        (fun u hu => hbefore u hu _ (by simp)) (hB _ _ _ hin)
      exact ⟨_, hdone, _, _, _, _, _, rfl, h'⟩)
    s ⟨cur, _, _, _, _, (imageState_self (hs .y).cur_eq).symm, ImageSearched.nil⟩
  rw [List.take_length] at himage
  exact ⟨f, pos, acc, best, mv, (meFrame_eq hkey).trans ht, himage⟩

end

/-- The last macroblock of a picture is the last one of V (R226). -/
theorem last_unit {s : State} (hg : GridOk s) :
    (Comp.v, s.cols .v - 1, s.rows .v - 1) ∈ s.units ∧
      (∀ u ∈ s.units, ¬ unitBefore s (.v, s.cols .v - 1, s.rows .v - 1) u) ∧
      (s.rows .v - 1) * s.cols .v + (s.cols .v - 1) = s.gridSize .v - 1 := by
  obtain ⟨hcols, hrows, -⟩ := hg .v
  have hindex : (s.rows .v - 1) * s.cols .v + (s.cols .v - 1) = s.gridSize .v - 1 := by
    have : s.cols .v ≤ s.rows .v * s.cols .v := Nat.le_mul_of_pos_left _ hrows
    rw [State.gridSize, Nat.mul_comm (s.cols .v), Nat.sub_mul]
    omega
  refine ⟨mem_units.mpr ⟨by omega, by omega⟩, fun (c, x, y) hu => ?_, hindex⟩
  rw [unitBefore, hindex]
  rintro (h | ⟨rfl, h⟩)
  · have hmax : c.number ≤ Comp.v.number := by cases c <;> decide
    exact absurd h (not_lt.mpr hmax)
  · obtain ⟨hx, hy⟩ := mem_units.mp hu
    have hlt : y * s.cols .v + x < s.gridSize .v := record_lt hx hy
    exact absurd hlt (not_lt.mpr (Nat.le_of_pred_lt h))

/-- The frames and the allocated planes an inter frame's search starts from (R124). -/
theorem imageStartable_acceptPicture {s : State} {X : Comp → Nat → Byte} {old : Frame}
    (hlive : Live s) (hg : GridOk s) (hX : ∀ c, Holds (s.picIn.get c) (s.planeSize c) (X c))
    (hcur : s.cur = some old) (hk : s.nextIsKey = false) :
    ImageStartable s.acceptPicture (s.newFrame s.nextIsKey) old X := by
  intro c
  obtain ⟨-, -, -, -, hmb⟩ := s.newFrame_planes s.nextIsKey c
  exact ⟨hlive, rfl, hk, hcur, hg, hX c, hmb⟩

/-- The state an inter frame's ENCODE_IMAGE ends in, against the one it began in (R124). -/
theorem countPicture_imageState {s : State} (hk : s.nextIsKey = false) (f : Frame)
    (pos acc best mv : Word) :
    (imageState s.acceptPicture f pos acc best mv).countPicture =
      { s with
        ref := s.cur, cur := some f, frameNum := s.frameNum + 1#32,
        framesSinceKf := s.framesSinceKf + 1#32, pos := pos, sadAcc := acc, meBest := best,
        meMv := mv } := by
  simp only [imageState, State.countPicture, State.acceptPicture, hk, Bool.false_eq_true, if_false]

end Sys2Proof.Machine
end

section
namespace Sys2Proof.Proofs

open Sys2Proof.Machine Sys2Proof.Claim

/-- Settles O34: the keyframe decision, the allocation, and the counters are record updates. -/
theorem encodeImageOfKeyframe : Obligations.EncodeImageOfKeyframe := by
  intro s X hf ha hX hkey
  have hk : s.nextIsKey = true := State.nextIsKey_iff.mpr hkey
  have hbody := encodeImageBody_of_key (pictureComplete_of_holds hX) hk
  refine ⟨_, s.newFrame s.nextIsKey, exec_completes hf ha hbody, ?_, hk, s.newFrame_planes _⟩
  simp only [State.countPicture, State.acceptPicture, hk, if_true]
  rfl

/-- Settles O35: one sweep over the macroblocks of all components, which carries along what is
searched. -/
theorem encodeImageOfInterFrame : Obligations.EncodeImageOfInterFrame := by
  intro s X B old hf ha hg hX hcur hB hfirst hinside
  have hk : s.nextIsKey = false := State.nextIsKey_eq_false_iff.mpr ⟨hfirst, hinside⟩
  obtain ⟨f, pos, acc, best, mv, hsweep, himage⟩ :=
    meFrame_searched (B := B) (imageStartable_acceptPicture ⟨hf, ha.1⟩ hg hX hcur hk)
      (fun c x y _ => windowsHold_of_holds (hB c) x y)
  have hbody : encodeImageBody s = .done { s with
      ref := s.cur, cur := some f, frameNum := s.frameNum + 1#32,
      framesSinceKf := s.framesSinceKf + 1#32, pos := pos, sadAcc := acc, meBest := best,
      meMv := mv } := by
    rw [encodeImageBody_of_inter (pictureComplete_of_holds hX) hk, hsweep, Run.andThen_done,
      countPicture_imageState hk]
  obtain ⟨hmem, hafter, hindex⟩ := last_unit hg
  obtain ⟨m, b, hm, hres, hshown⟩ := himage.found _ _ _ hmem
  obtain ⟨hpos, hmv, hbest⟩ := hshown hafter
  refine ⟨_, f, exec_completes hf ha hbody, ?state, ?key, fun c => ?frame,
    ⟨m, ?record, hmv, hbest ▸ hres⟩, ?quiet, ?last⟩
  case state =>
    rw [← hcur, hpos]
  case key =>
    rw [himage.frame]
    exact hk
  case frame =>
    obtain ⟨horig, hrecons, hresid, hpred, -⟩ := s.newFrame_planes s.nextIsKey c
    rw [himage.frame]
    refine ⟨horig, hrecons, hresid, hpred, fun x y hx hy => ?_⟩
    obtain ⟨m', b', hm', hres', -⟩ := himage.found c x y (mem_units.mpr ⟨hx, hy⟩)
    exact ⟨m', b', hm', hres'⟩
  case record =>
    rw [← hindex]
    exact hm
  case quiet =>
    exact fun hnone => himage.quiet (fun c x y hmem => hnone c x y (mem_units.mp hmem))
  case last =>
    intro c x y x' y' hin hcand hnone
    exact himage.last c x y x' y' (mem_units.mpr hin) hcand
      (fun c₁ x₁ y₁ hmem => hnone c₁ x₁ y₁ (mem_units.mp hmem))

/-- Settles O36: the picture is checked before anything is written. -/
theorem encodeImageNeedsWholePicture : Obligations.EncodeImageNeedsWholePicture := by
  intro s c i hf ha hi hundef
  exact exec_faults (e := .undef) hf ha (if_neg (pictureComplete_of_undef hi hundef))

end Sys2Proof.Proofs
end

section
/-! ### The distortion over 64 pairs of samples, and the spaces a SAD names -/

namespace Sys2Proof.Machine

open Sys2Proof.Claim

/-! #### Distortion of two blocks -/

/-- The window of origin `o` and stride `t` is defined; its sample in row `r`, column `k` is `a r k`
(R65). -/
def ReadsBlock (m : Space Byte) (o t : Nat) (a : Nat → Nat → Byte) : Prop :=
  ∀ r k, r < 8 → k < 8 → Space.read m (o + r * t + k) = some (a r k)

/-- The sum of R141 over the samples of two blocks, wherever these stand. -/
def blockDistortion (a b : Nat → Nat → Byte) : Nat :=
  ∑ r ∈ Finset.range 8, ∑ k ∈ Finset.range 8, absDiff (a r k) (b r k)

/-- The sample at an index, 0 where it is `undef`. -/
def sampleAt (m : Space Byte) (i : Nat) : Byte := (Space.read m i).getD 0#8

theorem sampleAt_of_read {m : Space Byte} {i : Nat} {v : Byte} (h : Space.read m i = some v) :
    sampleAt m i = v := by
  rw [sampleAt, h, Option.getD_some]

/-- A window with no `undef` sample has a block. -/
theorem readsBlock_of_defined {m : Space Byte} {o t : Nat}
    (h : ∀ i ∈ windowIndices o t, Space.read m i ≠ none) :
    ReadsBlock m o t (fun r k => sampleAt m (o + r * t + k)) := by
  intro r k hr hk
  obtain ⟨v, hv⟩ := Option.ne_none_iff_exists'.mp (h _ (mem_windowIndices.mpr ⟨r, k, hr, hk, rfl⟩))
  exact hv.trans (congrArg some (sampleAt_of_read hv).symm)

theorem ReadsBlock.read_eq_sampleAt {m : Space Byte} {o t i : Nat} {a : Nat → Nat → Byte}
    (h : ReadsBlock m o t a) (hi : i ∈ windowIndices o t) :
    Space.read m i = some (sampleAt m i) := by
  obtain ⟨r, k, hr, hk, rfl⟩ := mem_windowIndices.mp hi
  rw [sampleAt_of_read (h r k hr hk), h r k hr hk]

/-- The machine's distortion of two defined windows is that of their blocks (R141). -/
theorem sadValue_of_readsBlock {m n : Space Byte} {oa ob t : Nat} {a b : Nat → Nat → Byte}
    (ha : ReadsBlock m oa t a) (hb : ReadsBlock n ob t b) :
    sadValue m oa n ob t = some (blockDistortion a b) := by
  rw [sadValue_of_defined (fun _ => ha.read_eq_sampleAt) (fun _ => hb.read_eq_sampleAt),
    sumAbsDiff_windows]
  refine congrArg some (Finset.sum_congr rfl fun r hr => Finset.sum_congr rfl fun k hk => ?_)
  rw [Finset.mem_range] at hr hk
  rw [sampleAt_of_read (ha r k hr hk), sampleAt_of_read (hb r k hr hk), absDiff]

/-- A distortion exists exactly when both windows have a block, and is the blocks' (R141). -/
theorem sadValue_eq_some_iff {m n : Space Byte} {oa ob t d : Nat} :
    sadValue m oa n ob t = some d ↔
      ∃ a b, ReadsBlock m oa t a ∧ ReadsBlock n ob t b ∧ blockDistortion a b = d := by
  constructor
  · intro h
    have hdef := mt sadValue_eq_none_iff.mpr (h ▸ Option.some_ne_none d)
    push Not at hdef
    have ha := readsBlock_of_defined hdef.1
    have hb := readsBlock_of_defined hdef.2
    exact ⟨_, _, ha, hb, Option.some.inj ((sadValue_of_readsBlock ha hb).symm.trans h)⟩
  · rintro ⟨a, b, ha, hb, rfl⟩
    exact sadValue_of_readsBlock ha hb

theorem blockDistortion_comm (a b : Nat → Nat → Byte) :
    blockDistortion a b = blockDistortion b a := by
  simp only [blockDistortion, absDiff_comm]

/-- A distortion is 0 exactly when the 64 pairs are equal (R145). -/
theorem blockDistortion_eq_zero {a b : Nat → Nat → Byte} :
    blockDistortion a b = 0 ↔ ∀ r k, r < 8 → k < 8 → a r k = b r k := by
  simp only [blockDistortion, Finset.sum_eq_zero_iff, Finset.mem_range, absDiff_eq_zero]
  exact forall_congr' fun r => forall_comm

theorem absDiff_eq_max {a b : Byte} :
    absDiff a b = 255 ↔ (a = 0#8 ∧ b = 255#8) ∨ (a = 255#8 ∧ b = 0#8) := by
  have ha := a.isLt
  have hb := b.isLt
  simp only [absDiff, ← BitVec.toNat_inj, BitVec.toNat_ofNat]
  omega

/-- The sum reaches 64 times 255 exactly when every one of its terms is 255 (R144). -/
theorem blockDistortion_eq_max {a b : Nat → Nat → Byte} :
    blockDistortion a b = 16320 ↔ ∀ r k, r < 8 → k < 8 → absDiff (a r k) (b r k) = 255 := by
  have hrow : ∀ r ∈ Finset.range 8,
      ∑ k ∈ Finset.range 8, absDiff (a r k) (b r k) ≤ ∑ _k ∈ Finset.range 8, 255 :=
    fun r _ => Finset.sum_le_sum fun k _ => absDiff_le _ _
  have hmax : 16320 = ∑ _r ∈ Finset.range 8, ∑ _k ∈ Finset.range 8, 255 := by simp
  rw [hmax, blockDistortion, Finset.sum_eq_sum_iff_of_le hrow]
  simp only [Finset.sum_eq_sum_iff_of_le fun k (_ : k ∈ Finset.range 8) => absDiff_le _ _,
    Finset.mem_range]
  exact forall_congr' fun r => forall_comm

/-! #### The spaces a SAD names -/

/-- The samples of a sample space; the other spaces hold none. -/
def State.samples (s : State) : SpaceRef → Space Byte
  | .orig f c => s.plane f Frame.orig c
  | .recons f c => s.plane f Frame.recons c
  | .pred f c => s.plane f Frame.pred c
  | .picIn c => s.picIn.get c
  | .resid _ _ | .mb _ _ | .qt _ | .blkIn | .blkOut => []

section
variable {s : State} {id ia ib : Byte} {sp a b : SpaceRef}

/-- A sample on the host interface is the byte, zero-extended (R63). -/
theorem State.element_of_sampleSpace (h : isSampleSpace sp = true) (i : Nat) :
    s.element sp i = (Space.read (s.samples sp) i).map wordOfByte := by
  cases sp with
  | orig | recons | pred | picIn => rfl
  | resid | mb | qt | blkIn | blkOut => cases h

theorem State.read_samples_of_element {i : Nat} {v : Byte} (h : isSampleSpace sp = true)
    (hv : s.element sp i = some (v.setWidth 32)) : Space.read (s.samples sp) i = some v := by
  rw [State.element_of_sampleSpace h, Option.map_eq_some_iff] at hv
  obtain ⟨w, hw, he⟩ := hv
  have : w = v := by simpa [wordOfByte] using congrArg (BitVec.setWidth 8) he
  rw [hw, this]

theorem State.read_samples_of_undef {i : Nat} (h : isSampleSpace sp = true)
    (hv : s.element sp i = none) : Space.read (s.samples sp) i = none := by
  rwa [State.element_of_sampleSpace h, Option.map_eq_none_iff] at hv

/-- A plane of a slot is its frame's, if there is one (R37). -/
theorem State.map_frame_plane (s : State) (f : Slot) (part : Frame → Triple (Space Byte)) (c : Comp)
    (size : Nat) :
    (s.frame f).map (fun fr => ((part fr).get c, size)) =
      if (s.frame f).isSome then some (s.plane f part c, size) else none := by
  unfold State.plane
  cases s.frame f <;> rfl

/-- A SAD takes the space an id names if it is a sample space and exists (R142). -/
theorem State.sadSpace_of_ofId (h : SpaceRef.ofId id = some sp) :
    s.sadSpace id =
      if isSampleSpace sp && s.hasSpace sp then some (s.samples sp, s.spaceSize sp) else none := by
  unfold State.sadSpace
  rw [h]
  cases sp with
  | orig f c => exact s.map_frame_plane f Frame.orig c _
  | recons f c => exact s.map_frame_plane f Frame.recons c _
  | pred f c => exact s.map_frame_plane f Frame.pred c _
  | picIn c => rfl
  | resid | mb | qt | blkIn | blkOut => rfl

theorem State.sadSpace_eq_some_iff {m : Space Byte} {size : Nat} :
    s.sadSpace id = some (m, size) ↔ ∃ sp, SpaceRef.ofId id = some sp ∧ isSampleSpace sp = true ∧
      s.hasSpace sp = true ∧ m = s.samples sp ∧ size = s.spaceSize sp := by
  cases h : SpaceRef.ofId id with
  | none => simp [State.sadSpace, h]
  | some sp =>
    rw [State.sadSpace_of_ofId h]
    simp only [Option.ite_none_right_eq_some, Bool.and_eq_true, Option.some.injEq, Prod.mk.injEq,
      exists_eq_left', and_assoc, @eq_comm _ m, @eq_comm _ size]

/-- `id` names the existing sample space `sp`, and the window of origin `o` is valid in it (R65,
R142). -/
structure SadWindow (s : State) (id : Byte) (o : Nat) (sp : SpaceRef) : Prop where
  names : SpaceRef.ofId id = some sp
  sample : isSampleSpace sp = true
  present : s.hasSpace sp = true
  valid : o + 7 * s.arg2.toNat + 7 < s.spaceSize sp

theorem not_sadWindow_of_size_le {o : Nat}
    (h : ∀ sp, SpaceRef.ofId id = some sp → isSampleSpace sp = true → s.hasSpace sp = true →
      s.spaceSize sp ≤ o + 7 * s.arg2.toNat + 7) (sp : SpaceRef) : ¬ SadWindow s id o sp :=
  fun w => absurd w.valid (Nat.not_lt.mpr (h sp w.names w.sample w.present))

/-- With two valid windows, SAD completes if the distortion exists and raises `E_UNDEF` if not
(R142). -/
theorem sadBody_of_windows (ha : SadWindow s ia s.arg0.toNat a)
    (hb : SadWindow s ib s.arg1.toNat b) :
    sadBody ia ib s =
      (sadValue (s.samples a) s.arg0.toNat (s.samples b) s.arg1.toNat s.arg2.toNat).elim
        (.raised .undef s) (fun d => .done (s.setSadAcc (BitVec.ofNat 32 d))) := by
  have hsa := State.sadSpace_eq_some_iff.mpr ⟨a, ha.names, ha.sample, ha.present, rfl, rfl⟩
  have hsb := State.sadSpace_eq_some_iff.mpr ⟨b, hb.names, hb.sample, hb.present, rfl, rfl⟩
  have hvalid : (windowValid s.offA s.stride (s.spaceSize a) &&
      windowValid s.offB s.stride (s.spaceSize b)) = true := by
    simp only [windowValid, Bool.and_eq_true, decide_eq_true_eq]
    exact ⟨ha.valid, hb.valid⟩
  simp only [sadBody, hsa, hsb]
  rw [if_pos hvalid, State.offA, State.offB, State.stride]
  split
  · next d hd => rw [hd, Option.elim_some]
  · next hd => rw [hd, Option.elim_none]

/-- Without a valid window in an existing sample space on either side, SAD raises `E_GEOMETRY`
(R142). -/
theorem sadBody_of_no_window
    (h : (∀ a, ¬ SadWindow s ia s.arg0.toNat a) ∨ ∀ b, ¬ SadWindow s ib s.arg1.toNat b) :
    sadBody ia ib s = .raised .geometry s := by
  unfold sadBody
  split
  · next hsa hsb =>
    obtain ⟨a, hna, hta, hxa, -, rfl⟩ := State.sadSpace_eq_some_iff.mp hsa
    obtain ⟨b, hnb, htb, hxb, -, rfl⟩ := State.sadSpace_eq_some_iff.mp hsb
    refine if_neg fun hvalid => ?_
    simp only [windowValid, Bool.and_eq_true, decide_eq_true_eq] at hvalid
    obtain ⟨hva, hvb⟩ := hvalid
    rcases h with h | h
    · exact h a ⟨hna, hta, hxa, hva⟩
    · exact h b ⟨hnb, htb, hxb, hvb⟩
  · rfl

end

end Sys2Proof.Machine
end

section
/-! ### SAD: the obligations -/

namespace Sys2Proof.Proofs

open Sys2Proof.Machine Sys2Proof.Claim

/-- Settles O39: both ids name their space, so the sum is formed over the samples the host reads. -/
theorem sadSumsAbsoluteDifferences : Obligations.SadSumsAbsoluteDifferences := by
  intro s a b A B hlive hsa hsb hxa hxb hva hvb hA hB
  have hbody := sadBody_of_windows ⟨a.ofId_id, hsa, hxa, hva⟩ ⟨b.ofId_id, hsb, hxb, hvb⟩
  rw [sadValue_of_readsBlock (fun r k hr hk => State.read_samples_of_element hsa (hA r k hr hk))
    (fun r k hr hk => State.read_samples_of_element hsb (hB r k hr hk))] at hbody
  exact exec_completes hlive.1 hlive.2 hbody

/-- Settles O40: SAD checks the spaces and windows before it reads, and writes only a finished sum. -/
theorem sadFaultsLeaveAccumulator : Obligations.SadFaultsLeaveAccumulator := by
  intro s ia ib hlive
  constructor
  · intro h
    exact exec_faults (e := .geometry) hlive.1 hlive.2
      (sadBody_of_no_window (h.imp not_sadWindow_of_size_le not_sadWindow_of_size_le))
  · intro a b r k hna hnb hsa hsb hxa hxb hva hvb hr hk hundef
    have hbody := sadBody_of_windows ⟨hna, hsa, hxa, hva⟩ ⟨hnb, hsb, hxb, hvb⟩
    have hnone :
        sadValue (s.samples a) s.arg0.toNat (s.samples b) s.arg1.toNat s.arg2.toNat = none := by
      refine sadValue_eq_none_iff.mpr (hundef.imp (fun h => ?_) (fun h => ?_))
      · exact ⟨_, mem_windowIndices.mpr ⟨r, k, hr, hk, rfl⟩, State.read_samples_of_undef hsa h⟩
      · exact ⟨_, mem_windowIndices.mpr ⟨r, k, hr, hk, rfl⟩, State.read_samples_of_undef hsb h⟩
    rw [hnone] at hbody
    exact exec_faults (e := .undef) hlive.1 hlive.2 hbody

/-- Settles O41: a distortion is the sum over two blocks of samples, and each law is one of that
sum. -/
theorem distortionLaws : Obligations.DistortionLaws := by
  intro m n oa ob t d h
  obtain ⟨a, b, ha, hb, rfl⟩ := sadValue_eq_some_iff.mp h
  refine ⟨sadValue_le h, ?max, ?symm, ?zero, ?values⟩
  case max =>
    rw [blockDistortion_eq_max]
    refine forall₄_congr fun r k hr hk => ?_
    rw [ha r k hr hk, hb r k hr hk, absDiff_eq_max]
    simp only [Option.some.injEq]
  case symm =>
    rw [blockDistortion_comm]
    exact sadValue_of_readsBlock hb ha
  case zero =>
    rw [blockDistortion_eq_zero]
    refine forall₄_congr fun r k hr hk => ?_
    rw [ha r k hr hk, hb r k hr hk, Option.some.injEq]
  case values =>
    intro m' n' oa' ob' t' hsame
    exact sadValue_of_readsBlock (fun r k hr hk => (hsame r k hr hk).1.trans (ha r k hr hk))
      (fun r k hr hk => (hsame r k hr hk).2.trans (hb r k hr hk))

end Sys2Proof.Proofs
end

section
/-! ### Searches that complete -/

namespace Sys2Proof.Claim

open Sys2Proof.Machine

theorem Searchable.startable {s : State} {c : Comp} {cur ref : Frame} {A B : Nat → Byte}
    {M : Nat → MbRecord} (h : Searchable s c cur ref A B M) : Startable s c cur ref A M :=
  ⟨h.live, h.cur_eq, h.inter, h.ref_eq, h.grid, h.orig, h.records⟩

/-- Where a search can start, ME_BLOCK and ME_COMP are accepted (R151, R241). -/
theorem Startable.accepted {s : State} {c : Comp} {cur ref : Frame} {A : Nat → Byte}
    {M : Nat → MbRecord} (h : Startable s c cur ref A M) : s.ctxValid = true ∧ InterFrame s :=
  ⟨h.live.2, cur, ref, h.cur_eq, h.inter, h.ref_eq⟩

end Sys2Proof.Claim

namespace Sys2Proof.Machine

open Sys2Proof.Claim

/-- A sweep over a grid completes when each macroblock does, and carries a property indexed by the
macroblocks done (R226, R227). -/
theorem sweep_raster_completes {f : Nat × Nat → State → Run} (I : Nat → State → Prop)
    {cols rows : Nat}
    (h : ∀ x y, x < cols → y < rows → ∀ s, I (y * cols + x) s →
      ∃ t, f (x, y) s = .done t ∧ I (y * cols + x + 1) t) {s : State} (hs : I 0 s) :
    ∃ t, sweep f (raster cols rows) s = .done t ∧ I (cols * rows) t := by
  rw [← raster_length cols rows]
  refine sweep_completes I (fun k hk s hI => ?_) s hs
  rw [List.getElem_eq_iff hk |>.mpr (raster_getElem? cols rows (raster_length cols rows ▸ hk))]
  obtain ⟨hx, hy⟩ : k % cols < cols ∧ k / cols < rows := by
    rw [raster_length] at hk
    exact ⟨Nat.mod_lt _ (Nat.pos_of_mul_pos_right (Nat.zero_lt_of_lt hk)),
      Nat.div_lt_of_lt_mul hk⟩
  have hunit := h _ _ hx hy s
  rw [Nat.div_add_mod'] at hunit
  exact hunit hI

/-- The last macroblock of a component has the grid's last record (R33). -/
theorem last_record {s : State} (hg : GridOk s) (c : Comp) :
    InGrid s c (s.cols c - 1) (s.rows c - 1) ∧
      (s.rows c - 1) * s.cols c + (s.cols c - 1) + 1 = s.gridSize c := by
  obtain ⟨hcols, hrows, -⟩ := hg c
  have hle : s.cols c ≤ s.rows c * s.cols c := Nat.le_mul_of_pos_left _ hrows
  refine ⟨⟨by omega, by omega⟩, ?_⟩
  rw [State.gridSize, Nat.mul_comm (s.cols c), Nat.sub_mul]
  omega

section
variable {s : State} {c : Comp} {cur ref : Frame} {A B : Nat → Byte} {M : Nat → MbRecord}
  {pos acc best mv : Word} {grid : Space MbRecord} {x y : Nat}

/-- A record as the host reads it. -/
theorem element_mb_searchState (hcur : s.cur = some cur) {i : Nat} {m : MbRecord}
    (h : Space.read grid i = some m) :
    (searchState s c cur pos acc best mv grid).element (.mb .cur c) i = some m.word := by
  rw [element_searchState hcur, if_pos rfl, h, Option.map_some]

/-- The search of a macroblock all of whose windows are defined: it writes POS, the sum, the record
and the result registers (R153 to R157). -/
theorem meUnit_searches (hs : Startable s c cur ref A M) (hin : InGrid s c x y)
    (hB : WindowsHold s c ref B x y)
    (hold : Space.read grid (y * s.cols c + x) = some (M (y * s.cols c + x))) :
    ∃ m b acc', meUnit c (x, y) (searchState s c cur pos acc best mv grid) =
        .done (searchState s c cur (posOf c x y) acc' b m.word
          (Space.write grid (y * s.cols c + x) m)) ∧
      SearchResult s c A B x y (M (y * s.cols c + x)) m b ∧
      ((∀ x' y', ¬ Candidate s c x y x' y') → acc' = acc) ∧
      ∀ x' y', LastCandidate s c x y x' y' → acc'.toNat = candidateScore s c A B x y x' y' := by
  obtain ⟨m, b, acc', hdone, hresult⟩ :=
    meAt_searches (s := searchState s c cur (posOf c x y) acc best mv grid)
      (cur := cur.setMb c grid) rfl hs.ref_eq
      ((congrArg (Space.read · _) (Frame.setMb_mb_get _ _ _)).trans hold)
      (anchorHolds_of_holds hs.grid hin hs.orig) hB
  rw [Frame.writeMb_setMb] at hdone
  exact ⟨m, b, acc', hdone, hresult⟩

/-- `Searched`, together with what POS and SAD_ACC show after the first `n` macroblocks: the last one
of them, and the sum of the last candidate of all (R43, R157). -/
structure Swept (s : State) (c : Comp) (cur : Frame) (A B : Nat → Byte) (M : Nat → MbRecord)
    (n : Nat) (pos acc best mv : Word) (grid : Space MbRecord) : Prop where
  searched : Searched s c cur A B M n best mv grid
  shown : ∀ x y, InGrid s c x y → y * s.cols c + x + 1 = n → pos = posOf c x y
  quiet : (∀ x y, InGrid s c x y → y * s.cols c + x < n → ∀ x' y', ¬ Candidate s c x y x' y') →
    acc = s.sadAcc
  last : ∀ x y x' y', InGrid s c x y → y * s.cols c + x < n → LastCandidate s c x y x' y' →
    (∀ x₁ y₁, InGrid s c x₁ y₁ → y₁ * s.cols c + x₁ < n →
      unitBefore s (c, x, y) (c, x₁, y₁) → ∀ x₂ y₂, ¬ Candidate s c x₁ y₁ x₂ y₂) →
    acc.toNat = candidateScore s c A B x y x' y'

theorem Swept.zero :
    Swept s c cur A B M 0 s.pos s.sadAcc s.meBest s.meMv (cur.mb.get c) where
  searched := Searched.zero
  shown _ _ _ h := absurd h (Nat.succ_ne_zero _)
  quiet _ := rfl
  last _ _ _ _ _ h := absurd h (Nat.not_lt_zero _)

/-- One more macroblock: a sum of its own replaces the sum of those before (R43). -/
theorem Swept.succ {m : MbRecord} {b acc' : Word}
    (h : Swept s c cur A B M (y * s.cols c + x) pos acc best mv grid) (hin : InGrid s c x y)
    (hres : SearchResult s c A B x y (M (y * s.cols c + x)) m b)
    (hquiet : (∀ x' y', ¬ Candidate s c x y x' y') → acc' = acc)
    (hlast : ∀ x' y', LastCandidate s c x y x' y' →
      acc'.toNat = candidateScore s c A B x y x' y') :
    Swept s c cur A B M (y * s.cols c + x + 1) (posOf c x y) acc' b m.word
      (Space.write grid (y * s.cols c + x) m) where
  searched := h.searched.succ hin.1 hres
  shown x' y' hin' he := by
    obtain ⟨rfl, rfl⟩ := unit_eq_of_index_eq hin.1 hin'.1 (Nat.succ.inj he)
    rfl
  quiet hnone := by
    rw [hquiet (hnone x y hin (Nat.lt_succ_self _))]
    exact h.quiet (fun x' y' hin' hlt => hnone x' y' hin' (Nat.lt_succ_of_lt hlt))
  last x₁ y₁ x' y' hin₁ hlt hcand hnone := by
    rcases Nat.lt_succ_iff_lt_or_eq.mp hlt with hlt | he
    · rw [hquiet (hnone x y hin (Nat.lt_succ_self _) (unitBefore_same_iff.mpr hlt))]
      exact h.last x₁ y₁ x' y' hin₁ hlt hcand
        (fun x₂ y₂ hin₂ hlt₂ => hnone x₂ y₂ hin₂ (Nat.lt_succ_of_lt hlt₂))
    · obtain ⟨rfl, rfl⟩ := unit_eq_of_index_eq hin.1 hin₁.1 he
      exact hlast x' y' hcand

/-- The sweep of a component whose windows are all defined completes (R157, R160). -/
theorem meSweep_completes (hs : Startable s c cur ref A M)
    (hB : ∀ x y, InGrid s c x y → WindowsHold s c ref B x y) :
    ∃ pos acc best mv grid, meSweep c s = .done (searchState s c cur pos acc best mv grid) ∧
      Swept s c cur A B M (s.gridSize c) pos acc best mv grid := by
  obtain ⟨t, ht, pos, acc, best, mv, grid, rfl, hswept⟩ := sweep_raster_completes
    (f := meUnit c) (cols := s.cols c) (rows := s.rows c) (s := s)
    (fun n t => ∃ pos acc best mv grid, t = searchState s c cur pos acc best mv grid ∧
      Swept s c cur A B M n pos acc best mv grid)
    (by
      rintro x y hx hy t ⟨pos, acc, best, mv, grid, rfl, h⟩
      have hin : InGrid s c x y := ⟨hx, hy⟩
      obtain ⟨m, b, acc', hdone, hres, hquiet, hlast⟩ := meUnit_searches (pos := pos) (acc := acc)
        (best := best) (mv := mv) hs hin (hB x y hin)
        ((h.searched.kept _ le_rfl).trans (hs.read_record hin))
      exact ⟨_, hdone, _, _, _, _, _, rfl, h.succ hin hres hquiet hlast⟩)
    ⟨_, _, _, _, _, (searchState_self hs.cur_eq).symm, Swept.zero⟩
  exact ⟨pos, acc, best, mv, grid, ht, hswept⟩

end

/-- A candidate lies short of the last window position; in the last column or row it lies before the
anchor (R153, R161). -/
theorem candidate_short_of_edge {s : State} {c : Comp} {mbX mbY x y : Nat} (hg : GridOk s)
    (h : Candidate s c mbX mbY x y) :
    x + 8 < s.pw c ∧ y + 8 < s.ph c ∧ (mbX = s.cols c - 1 → x < mbX * 8) ∧
      (mbY = s.rows c - 1 → y < mbY * 8) := by
  obtain ⟨-, hx, -, hy⟩ := h
  obtain ⟨-, -, hpw, hph⟩ := hg c
  omega

end Sys2Proof.Machine
end

section
/-! ### Motion estimation: the obligations -/

namespace Sys2Proof.Proofs

open Sys2Proof.Machine Sys2Proof.Claim

/-- Settles O42: the search of one macroblock, from the state ME_BLOCK starts in. -/
theorem meBlockFindsFirstMinimum : Obligations.MeBlockFindsFirstMinimum := by
  intro s c cur ref A B M mbX mbY h hx hy
  have hs := h.startable
  have hin : InGrid s c mbX mbY := ⟨hx, hy⟩
  obtain ⟨m, b, acc, hdone, hres, hquiet, hlast⟩ := meUnit_searches (pos := s.pos)
    (acc := s.sadAcc) (best := s.meBest) (mv := s.meMv) hs hin (windowsHold_of_holds h.recons _ _)
    (hs.read_record hin)
  rw [searchState_self hs.cur_eq] at hdone
  exact ⟨_, m, exec_completes hs.live.1 hs.accepted ((if_pos hin).trans hdone), rfl,
    slotsFrame_searchState hs.cur_eq _ _ _ _ _,
    element_mb_searchState hs.cur_eq (Space.read_write_same _ _ _),
    memoryFrame_searchState hs.cur_eq _ _ _ _ (fun _ hi => Space.read_write_of_ne _ _ hi),
    hres, hquiet, hlast⟩

/-- Settles O43: a sweep over the component that carries along what is searched and what POS and
SAD_ACC show. -/
theorem meCompSearchesEveryMacroblock : Obligations.MeCompSearchesEveryMacroblock := by
  intro s c cur ref A B M h
  have hs := h.startable
  obtain ⟨pos, acc, best, mv, grid, hdone, hswept⟩ :=
    meSweep_completes hs (fun x y _ => windowsHold_of_holds h.recons x y)
  obtain ⟨hlastIn, hend⟩ := last_record hs.grid c
  have hbelow : ∀ {x y}, InGrid s c x y → y * s.cols c + x < s.gridSize c :=
    fun hin => record_lt hin.1 hin.2
  refine ⟨_, exec_completes hs.live.1 hs.accepted hdone, ?state,
    slotsFrame_searchState hs.cur_eq _ _ _ _ _,
    memoryFrame_searchState hs.cur_eq _ _ _ _
      (fun i hi => hswept.searched.kept i (not_lt.mp hi)),
    fun x y hx hy => ?found, ?shown, fun hnone => ?quiet,
    fun x y x' y' hin hcand hnone => ?last⟩
  case state =>
    rw [← hswept.shown _ _ hlastIn hend]
    rfl
  case found =>
    obtain ⟨m, b, hm, hres, -⟩ := hswept.searched.found x y hx (hbelow ⟨hx, hy⟩)
    exact ⟨m, b, element_mb_searchState hs.cur_eq hm, hres⟩
  case shown =>
    obtain ⟨m, b, hm, hres, hshown⟩ := hswept.searched.found _ _ hlastIn.1 (hbelow hlastIn)
    obtain ⟨rfl, rfl⟩ := hshown hend
    rw [Nat.eq_sub_of_add_eq hend] at hm hres
    exact ⟨m, element_mb_searchState hs.cur_eq hm, rfl, hres⟩
  case quiet =>
    exact hswept.quiet (fun x y hin _ => hnone x y hin)
  case last =>
    exact hswept.last x y x' y' hin (hbelow hin) hcand (fun x₁ y₁ hin₁ _ => hnone x₁ y₁ hin₁)

/-- Settles O44: the machine's candidates are those of R153, whose window is half-open. -/
theorem lastColumnHasNoZeroVector : Obligations.LastColumnHasNoZeroVector := by
  intro s c mbX mbY x y hg _ _ hmem
  have hcand := mem_meWindow_candidates.mp hmem
  exact ⟨hcand, candidate_short_of_edge hg hcand⟩

end Sys2Proof.Proofs
end

section
/-! ### Compensations that complete -/

namespace Sys2Proof.Machine

open Sys2Proof.Claim

/-- What `mc_block` does to the samples of a prediction when it completes: without a vector nothing,
with one the macroblock's region receives the displaced block and no other sample changes (R171). -/
structure BlockCompensated (s : State) (c : Comp) (B : Nat → Byte) (x y : Nat) (m : MbRecord)
    (old new : Space Byte) : Prop where
  unchanged : m.useMv = false → new = old
  copied : m.useMv = true → ∀ r k, r < 8 → k < 8 →
    Space.read new (windowSample s c (x * 8) (y * 8) r k) = some (B (sourceSample s c x y m r k))
  kept : ∀ j, (∀ r k, r < 8 → k < 8 → j ≠ windowSample s c (x * 8) (y * 8) r k) →
    Space.read new j = Space.read old j

section
variable {s : State} {c : Comp} {cur ref : Frame} {B : Nat → Byte} {M : Nat → MbRecord}
  {m : MbRecord} {p p' : Space Byte} {x y : Nat}

/-- `mc_block` of a macroblock that can be compensated writes POS and the prediction (R171). -/
theorem mcUnit_completes (href : s.ref = some ref)
    (hm : Space.read (cur.mb.get c) (y * s.cols c + x) = some m)
    (hc : Compensable s c ref B x y m) (pos : Word) (p : Space Byte) :
    ∃ p', mcUnit c (x, y) (compensateState s c cur pos p) =
        .done (compensateState s c cur (posOf c x y) p') ∧
      BlockCompensated s c B x y m p p' := by
  cases huse : m.useMv with
  | false =>
    exact ⟨p, mcAt_of_intra (s := compensateState s c cur (posOf c x y) p) rfl href hm huse,
      fun _ => rfl, fun h => absurd h (by simp [huse]), fun _ _ => rfl⟩
  | true =>
    obtain ⟨⟨hx0, hxw, hy0, hyh⟩, hB⟩ := hc huse
    obtain ⟨p', hdone, hnew, hold⟩ := mcAt_copies (mb := (x, y))
      (s := compensateState s c cur (posOf c x y) p) (cur := cur.setPred c p) (B := B) rfl href hm
      huse (Int.toNat_of_nonneg hx0) (Int.toNat_of_nonneg hy0)
      (show (sourceX x m).toNat + 8 ≤ s.pw c by omega)
      (show (sourceY y m).toNat + 8 ≤ s.ph c by omega) hB
    rw [Frame.setPred_setPred] at hdone
    rw [Frame.setPred_pred_get] at hold
    exact ⟨p', hdone, fun h => absurd h (by simp [huse]), fun _ => hnew, hold⟩

/-- A macroblock whose source window, if it has a vector, lies inside a wholly reconstructed
reference can be compensated (R171). -/
theorem compensable_of_holds (hB : Holds (ref.recons.get c) (s.planeSize c) B)
    (hin : m.useMv = true → SourceInside s c x y m) : Compensable s c ref B x y m := by
  intro huse
  obtain ⟨hx0, hxw, hy0, hyh⟩ := hin huse
  refine ⟨hin huse, fun r k hr hk => hB _ ?_⟩
  rw [sourceSample, ← windowSample_eq]
  exact block_sample_lt (by omega) (by omega) hr hk

/-! #### Every macroblock of a component -/

/-- One more macroblock, with or without a vector (R171). -/
theorem Compensated.succ_of_block (hpw : s.pw c = 8 * s.cols c) (hin : InGrid s c x y)
    (h : Compensated s c cur B M (y * s.cols c + x) p)
    (hblock : BlockCompensated s c B x y (M (y * s.cols c + x)) p p') :
    Compensated s c cur B M (y * s.cols c + x + 1) p' := by
  cases huse : (M (y * s.cols c + x)).useMv with
  | false =>
    rw [hblock.unchanged huse]
    exact h.succ_of_intra huse
  | true => exact h.succ hpw hin huse (hblock.copied huse) hblock.kept

/-- The sweep of a component whose macroblocks can all be compensated completes, and POS shows the
last one (R171, R173, R230). -/
theorem mcSweep_completes (hcur : s.cur = some cur) (href : s.ref = some ref) (hg : GridOk s)
    (hM : Holds (cur.mb.get c) (s.gridSize c) M)
    (hc : ∀ x y, InGrid s c x y → Compensable s c ref B x y (M (y * s.cols c + x))) :
    ∃ p, mcSweep c s =
        .done (compensateState s c cur (posOf c (s.cols c - 1) (s.rows c - 1)) p) ∧
      Compensated s c cur B M (s.gridSize c) p := by
  obtain ⟨-, -, hpw, -⟩ := hg c
  obtain ⟨_, hdone, pos, p, rfl, hcomp, hshown⟩ := sweep_raster_completes
    (f := mcUnit c) (cols := s.cols c) (rows := s.rows c) (s := s)
    (fun n t => ∃ pos p, t = compensateState s c cur pos p ∧ Compensated s c cur B M n p ∧
      ∀ x y, InGrid s c x y → y * s.cols c + x + 1 = n → pos = posOf c x y)
    (by
      rintro x y hx hy _ ⟨pos, p, rfl, h, -⟩
      have hin : InGrid s c x y := ⟨hx, hy⟩
      obtain ⟨p', hdone, hblock⟩ :=
        mcUnit_completes href (hM _ (record_lt hx hy)) (hc x y hin) pos p
      refine ⟨_, hdone, _, _, rfl, h.succ_of_block hpw hin hblock, fun x' y' hin' he => ?_⟩
      obtain ⟨rfl, rfl⟩ := unit_eq_of_index_eq hx hin'.1 (Nat.succ.inj he)
      rfl)
    ⟨_, _, (compensateState_self hcur).symm, Compensated.zero,
      fun _ _ _ h => absurd h (Nat.succ_ne_zero _)⟩
  obtain ⟨hlastIn, hend⟩ := last_record hg c
  rw [hshown _ _ hlastIn hend] at hdone
  exact ⟨p, hdone, hcomp⟩

/-! #### Which samples a component's compensation writes -/

variable {n j : Nat}

theorem InCompensated.lt_planeSize (hg : GridOk s) (h : InCompensated s c M n j) :
    j < s.planeSize c := by
  obtain ⟨x, y, r, k, hin, -, hr, hk, -, rfl⟩ := h
  exact windowSample_lt hg hin hr hk

/-- The region of a macroblock without a vector is not written (R171). -/
theorem not_inCompensated_of_intra (hpw : s.pw c = 8 * s.cols c) (hx : x < s.cols c) {r k : Nat}
    (hr : r < 8) (hk : k < 8) (huse : ¬ (M (y * s.cols c + x)).useMv = true) :
    ¬ InCompensated s c M n (windowSample s c (x * 8) (y * 8) r k) := by
  rintro ⟨x', y', r', k', hin', -, hr', hk', huse', e⟩
  obtain ⟨rfl, rfl⟩ := unit_eq_of_windowSample_eq hpw hin'.1 hx hr' hk' hr hk e
  exact huse huse'

end

/-! #### The commands -/

theorem State.curKey_of_cur {s : State} {cur : Frame} (hcur : s.cur = some cur) :
    s.curKey = cur.keyframe := by
  rw [State.curKey, hcur]
  rfl

theorem State.refValid_of_ref {s : State} {ref : Frame} (href : s.ref = some ref) :
    s.refValid = true := by
  rw [State.refValid, href]
  rfl

section
variable {s : State} {c : Comp} {cur ref : Frame} (hlive : Live s) (hcur : s.cur = some cur)
include hlive hcur

/-- MC_BLOCK and MC_COMP are accepted in a live state with a current frame (R241). -/
theorem compensation_accepted : s.ctxValid = true ∧ s.cur ≠ none :=
  ⟨hlive.2, hcur.trans_ne (Option.some_ne_none cur)⟩

/-- MC_BLOCK on an inter frame with a reference is `mc_block` (R172). -/
theorem exec_mcBlock_of_inter (hinter : cur.keyframe = false) (href : s.ref = some ref)
    {x y : Nat} (hin : InGrid s c x y) {t : State} (ht : mcUnit c (x, y) s = .done t) :
    exec (.mcBlock c y x) s = .next t := by
  have hkey := (State.curKey_of_cur hcur).trans hinter
  have hvalid := State.refValid_of_ref href
  exact exec_completes hlive.1 (compensation_accepted hlive hcur)
    ((mcBlockBody_of_inter hkey hvalid hin).trans ht)

/-- MC_COMP on an inter frame with a reference is the sweep of its component (R173). -/
theorem exec_mcComp_of_inter (hinter : cur.keyframe = false) (href : s.ref = some ref) {t : State}
    (ht : mcSweep c s = .done t) : exec (.mcComp c) s = .next t := by
  have hkey := (State.curKey_of_cur hcur).trans hinter
  have hvalid := State.refValid_of_ref href
  exact exec_completes hlive.1 (compensation_accepted hlive hcur)
    ((mcCompBody_of_inter hkey hvalid).trans ht)

/-- On a keyframe MC_BLOCK writes POS and nothing else (R172, R174). -/
theorem exec_mcBlock_of_key (hkeyframe : cur.keyframe = true) {x y : Nat}
    (hin : InGrid s c x y) : exec (.mcBlock c y x) s = .next (s.setPos (posOf c x y)) := by
  have hkey := (State.curKey_of_cur hcur).trans hkeyframe
  exact exec_completes hlive.1 (compensation_accepted hlive hcur)
    ((if_pos hin).trans (if_pos hkey))

/-- On a keyframe MC_COMP writes POS and nothing else (R173, R174). -/
theorem exec_mcComp_of_key (hkeyframe : cur.keyframe = true) :
    exec (.mcComp c) s = .next (s.setPos (posOf c (s.cols c - 1) (s.rows c - 1))) := by
  have hkey := (State.curKey_of_cur hcur).trans hkeyframe
  exact exec_completes hlive.1 (compensation_accepted hlive hcur) (if_pos hkey)

end

end Sys2Proof.Machine
end

section
/-! ### Motion compensation: the obligations -/

namespace Sys2Proof.Proofs

open Sys2Proof.Machine Sys2Proof.Claim

/-- Settles O45: `mc_block` of a macroblock whose source window is defined writes its region. -/
theorem mcBlockCopiesDisplacedBlock : Obligations.McBlockCopiesDisplacedBlock := by
  intro s c cur ref B m mbX mbY sx sy hlive hcur hinter href hg hB hx hy hm huse hsx hsy hw hh
  have hsrcX : sourceX mbX m = sx := hsx.symm
  have hsrcY : sourceY mbY m = sy := hsy.symm
  have hinside : SourceInside s c mbX mbY m := by
    rw [SourceInside, hsrcX, hsrcY]
    omega
  obtain ⟨p, hdone, hblock⟩ :=
    mcUnit_completes href hm (compensable_of_holds hB fun _ => hinside) s.pos (cur.pred.get c)
  rw [compensateState_self hcur] at hdone
  have hcopied := hblock.copied huse
  simp only [sourceSample, hsrcX, hsrcY, Int.toNat_natCast] at hcopied
  exact ⟨_, exec_mcBlock_of_inter hlive hcur hinter href ⟨hx, hy⟩ hdone, rfl,
    slotsFrame_compensateState hcur _ _,
    fun r k hr hk => element_pred_compensateState hcur _ (hcopied r k hr hk),
    memoryFrame_compensateState hcur _ fun j hj => hblock.kept j fun r k hr hk e =>
      hj ⟨r, k, hr, hk, e⟩⟩

/-- Settles O46: without a vector `mc_block` keeps the prediction; on a keyframe it is not run. -/
theorem mcWithoutVectorOnlyWritesPos : Obligations.McWithoutVectorOnlyWritesPos := by
  intro s c cur hlive hcur
  refine ⟨fun mbX mbY m hx hy hinter hne hm huse => ?_,
    fun mbX mbY hx hy hkey => exec_mcBlock_of_key hlive hcur hkey ⟨hx, hy⟩,
    fun hkey => exec_mcComp_of_key hlive hcur hkey⟩
  obtain ⟨ref, href⟩ := Option.ne_none_iff_exists'.mp hne
  exact exec_mcBlock_of_inter hlive hcur hinter href ⟨hx, hy⟩
    (mcAt_of_intra (s := s.setPos _) hcur href hm huse)

/-- Settles O47: a sweep over the component that carries along which regions are compensated. -/
theorem mcCompCompensatesEveryMacroblock : Obligations.McCompCompensatesEveryMacroblock := by
  intro s c cur ref B M hlive hcur hinter href hg hB hM hinside
  obtain ⟨-, -, hpw, -⟩ := hg c
  obtain ⟨p, hdone, hcomp⟩ := mcSweep_completes hcur href hg hM
    (fun x y hin => compensable_of_holds hB (hinside x y hin.1 hin.2))
  have hframe := memoryFrame_compensateState hcur (posOf c (s.cols c - 1) (s.rows c - 1)) hcomp.kept
  refine ⟨_, exec_mcComp_of_inter hlive hcur hinter href hdone, rfl,
    slotsFrame_compensateState hcur _ _, fun sp i hP => ?frame, fun x y r k hx hy hr hk => ?region⟩
  case frame =>
    exact hframe sp i fun ⟨hsp, hi⟩ => hP ⟨hsp, hi.lt_planeSize hg⟩
  case region =>
    split
    · next huse =>
      exact element_pred_compensateState hcur _
        (hcomp.copied x y r k ⟨hx, hy⟩ (record_lt hx hy) hr hk huse)
    · next huse =>
      exact hframe _ _ fun ⟨_, hi⟩ => not_inCompensated_of_intra hpw hx hr hk huse hi

end Sys2Proof.Proofs
end


section
/-! ### The zig-zag order and the zero block -/

namespace Sys2Proof.Machine

/-! #### The two reorders -/

section
variable {α : Type}

theorem getD_map_range_64 (f : Nat → α) {k : Nat} (hk : k < 64) (d : α) :
    ((List.range 64).map f).getD k d = f k := by
  rw [List.getD_eq_getElem _ _ (by simpa using hk), List.getElem_map, List.getElem_range]

/-- Two arrays of 64 entries that agree entry by entry are equal. -/
theorem ext_getD_64 {a b : List α} {d : α} (ha : a.length = 64) (hb : b.length = 64)
    (h : ∀ i, i < 64 → a.getD i d = b.getD i d) : a = b := by
  refine List.ext_getElem (ha.trans hb.symm) (fun i hi hi' => ?_)
  rw [← List.getD_eq_getElem a d hi, ← List.getD_eq_getElem b d hi']
  exact h i (ha ▸ hi)

/-- The inverse reorder undoes the forward one (R187). -/
theorem fromZigzag_toZigzag {a : List α} (ha : a.length = 64) (d : α) :
    fromZigzag d (toZigzag d a) = a := by
  refine ext_getD_64 (d := d) (fromZigzag_length _ _) ha (fun i hi => ?_)
  obtain ⟨hlt, hinv⟩ := zigzag_zigzagInv ⟨i, hi⟩
  rw [fromZigzag_getD hi, toZigzag_getD hlt, hinv]

/-- The forward reorder undoes the inverse one (R187). -/
theorem toZigzag_fromZigzag {a : List α} (ha : a.length = 64) (d : α) :
    toZigzag d (fromZigzag d a) = a := by
  refine ext_getD_64 (d := d) (toZigzag_length _ _) ha (fun k hk => ?_)
  rw [toZigzag_getD hk, fromZigzag_getD_zigzag hk]

/-- A reorder of equal entries gives equal entries. -/
theorem permute_replicate (t : List Nat) (n : Nat) (d : α) :
    permute t d (List.replicate n d) = List.replicate t.length d := by
  rw [permute, List.map_eq_replicate_iff]
  intro i _
  rw [List.getD_eq_getElem?_getD, List.getElem?_replicate]
  split <;> rfl

end

/-! #### Zero -/

theorem toRows_zero : toRows .zero (List.replicate 64 .zero) = zeroRows := by decide

theorem flatten_zeroRows : zeroRows.flatten = List.replicate 64 .zero := by decide

/-- An operation that takes 0 to 0, whatever the table entry, takes the zero block to the zero
block. -/
theorem zipWith_replicate_left {α β γ : Type} {f : α → β → γ} {a : α} {b : γ}
    (h : ∀ e, f a e = b) {n : Nat} {q : List β} (hq : q.length = n) :
    List.zipWith f (List.replicate n a) q = List.replicate n b := by
  refine List.ext_getElem (by simp [hq]) (fun i _ _ => ?_)
  rw [List.getElem_zipWith, List.getElem_replicate, List.getElem_replicate, h]

theorem fwdScaled_zero : fwdScaled (List.replicate 64 0#16) = List.replicate 64 .zero := by
  rw [fwdScaled, List.map_replicate, show F32.ofInt (0#16).toInt = .zero from rfl, toRows_zero,
    twoPass_zero fdct1d_zero, scale_zero, flatten_zeroRows]

theorem fwdBlock_zero {q : List Byte} (hq : q.length = 64) :
    fwdBlock (List.replicate 64 0#16) q = List.replicate 64 0#16 := by
  rw [fwdBlock, fwdScaled_zero, toZigzag, permute_replicate]
  exact zipWith_replicate_left quantize_zero hq

theorem invBlock_zero {q : List Byte} (hq : q.length = 64) :
    invBlock (List.replicate 64 0#16) q = List.replicate 64 0#16 := by
  have hround : sat16 F32.zero.rha = 0#16 := by decide
  have hreorder : fromZigzag F32.zero (List.replicate 64 .zero) = List.replicate 64 .zero :=
    permute_replicate zigzagInv 64 _
  simp only [invBlock, zipWith_replicate_left dequantize_zero hq, List.map_replicate,
    F32.ofInt_zero, hreorder, toRows_zero, scale_zero, twoPass_zero idct1d_zero, flatten_zeroRows,
    hround]

end Sys2Proof.Machine
end

section
/-! ### Zig-zag, zero and saturation: the obligations -/

namespace Sys2Proof.Proofs

open Sys2Proof.Machine Sys2Proof.Claim

/-- Settles O49: the two tables are inverse to each other, so the two reorders are. -/
theorem zigzagIsBijection : Obligations.ZigzagIsBijection := by
  refine ⟨fun i hi => ?bijection, by decide +kernel, fun a ha => ⟨fromZigzag_toZigzag ha _,
    toZigzag_fromZigzag ha _, fun k hk => ⟨toZigzag_getD hk _ _, fromZigzag_getD_zigzag hk _ _⟩⟩⟩
  case bijection =>
    obtain ⟨hlt, hinv⟩ := zigzag_zigzagInv ⟨i, hi⟩
    refine ⟨zigzagInv.getD i 0, hlt, hinv, rfl, fun k hk hki => ?_⟩
    obtain ⟨-, hk'⟩ := zigzagInv_zigzag ⟨k, hk⟩
    rw [← hki, hk']

/-- Settles O50: every stage of both paths takes 0 to 0, whatever the table. -/
theorem zeroBlockRoundTrip : Obligations.ZeroBlockRoundTrip :=
  fun _ hq => ⟨fwdBlock_zero hq, invBlock_zero hq⟩

/-- Refutes O53: the first coefficient of 64 residuals of 32767, with a table of ones, saturates at
32767 (V-TQ-8), that of their negations at -32768. -/
theorem not_forwardPathIsOddEverywhere : ¬ Obligations.ForwardPathIsOddEverywhere := by
  intro h
  have hodd := congrArg List.head? (h (List.replicate 64 32767#16) (List.replicate 64 1#8) rfl rfl
    (List.forall_mem_replicate.mpr (.inr (by decide)))
    (List.forall_mem_replicate.mpr (.inr (by decide))))
  exact absurd hodd (by decide +kernel)

end Sys2Proof.Proofs
end

section
/-! ### The formulas of the two paths -/

namespace Sys2Proof.Exact32

open Sys2Proof.Machine Sys2Proof.Claim

section
variable (r q : Nat → Half) (Q : Nat → Byte)

/-- Coefficient `k` of the machine's forward path is the formula of R189. -/
theorem fwdBlock_getD {k : Nat} (hk : k < 64) (hQ : 1 ≤ (Q k).toNat) :
    (fwdBlock ((List.range 64).map r) ((List.range 64).map Q)).getD k 0#16 =
      forwardPath r Q k := by
  obtain ⟨hlt, -⟩ := zigzagInv_zigzag ⟨k, hk⟩
  have hscaled : (toZigzag F32.zero (fwdScaled ((List.range 64).map r)))[k]? =
      some ((fwdScaled ((List.range 64).map r)).getD (zigzag.getD k 0) .zero) := by
    rw [← toZigzag_getD hk, List.getD_eq_getElem _ _ (by simpa using hk)]
    exact List.getElem?_eq_getElem _
  rw [List.getD_eq_getElem?_getD, fwdBlock_getElem?, hscaled, List.getElem?_map,
    List.getElem?_range hk]
  simp only [Option.map_some, Option.getD_some]
  rw [quantize_val _ _ hQ, fwdScaled_val r hlt]
  rfl

/-- The dequantized coefficients, in zig-zag order, as the machine's values. -/
theorem dequantized_getD {k : Nat} (hk : k < 64) :
    val (((List.zipWith dequantize ((List.range 64).map q) ((List.range 64).map Q)).map
      F32.ofInt).getD k .zero) = f32 (dequantized (q k) (Q k)) := by
  rw [List.getD_eq_getElem _ _ (by simpa using hk)]
  simp only [List.getElem_map, List.getElem_zipWith, List.getElem_range, val_ofInt,
    dequantize_val]

/-- Residual `(x, y)` of the machine's inverse path is the formula of R190. -/
theorem invBlock_getD {y x : Nat} (hy : y < 8) (hx : x < 8) :
    (invBlock ((List.range 64).map q) ((List.range 64).map Q)).getD (y * 8 + x) 0#16 =
      inversePath q Q y x := by
  have hi : y * 8 + x < 64 := by omega
  have hdeq : ∀ i, i < 64 → val ((fromZigzag F32.zero ((List.zipWith dequantize
      ((List.range 64).map q) ((List.range 64).map Q)).map F32.ofInt)).getD i .zero) =
      f32 (dequantized (q (zigzagInv.getD i 0)) (Q (zigzagInv.getD i 0))) := by
    intro i hi
    rw [fromZigzag_getD hi, dequantized_getD q Q (zigzag_zigzagInv ⟨i, hi⟩).1]
  have hrep := ((rep_toRows hdeq).scale (k := Machine.sqrt2)
    (fun _ _ _ _ => f32_idem _)).twoPass passOf_idct
  rw [invBlock, List.getD_eq_getElem?_getD, List.getElem?_map,
    List.getElem?_eq_getElem (by rw [flatten_twoPass_length]; exact hi), Option.map_some,
    Option.getD_some, ← List.getD_eq_getElem _ F32.zero, sat16_eq, rha_val, hrep.flatten hi,
    show (y * 8 + x) / 8 = y by omega, show (y * 8 + x) % 8 = x by omega,
    show val Machine.sqrt2 = sqrt2 by decide +kernel]
  rfl

end

end Sys2Proof.Exact32
end

section
/-! ### The basis and the cosine -/

namespace Sys2Proof.Exact32

/-! #### The cosine at multiples of a sixteenth of a half turn -/

/-- `cos(n pi / 16)` (R183). -/
noncomputable def cosAt (n : Nat) : ℝ := Real.cos (n * Real.pi / 16)

theorem cosAt_double (n : Nat) : cosAt (2 * n) = 2 * cosAt n ^ 2 - 1 := by
  rw [cosAt, cosAt, ← Real.cos_two_mul]
  congr 1
  push_cast
  ring

theorem cosAt_eight : cosAt 8 = 0 := by
  rw [cosAt, ← Real.cos_pi_div_two]
  congr 1
  push_cast
  ring

/-- The cosine is odd about the quarter turn. -/
theorem cosAt_reflect {n : Nat} (h : n ≤ 16) : cosAt (16 - n) = -cosAt n := by
  rw [cosAt, cosAt, ← Real.cos_pi_sub]
  congr 1
  push_cast [h]
  ring

/-- A half turn negates the cosine. -/
theorem cosAt_eq_neg {n : Nat} (h : 16 ≤ n) : cosAt n = -cosAt (n - 16) := by
  rw [cosAt, cosAt, ← Real.cos_add_pi]
  congr 1
  push_cast [h]
  ring

/-- A whole turn keeps the cosine. -/
theorem cosAt_mod (n : Nat) : cosAt (n % 32) = cosAt n := by
  rw [cosAt, cosAt, ← Real.cos_add_nat_mul_two_pi _ (n / 32)]
  congr 1
  have hturns : (n : ℝ) = 32 * (n / 32 : Nat) + (n % 32 : Nat) := by
    exact_mod_cast (Nat.div_add_mod n 32).symm
  rw [hturns]
  ring

theorem cosAt_nonneg {n : Nat} (h : n ≤ 8) : 0 ≤ cosAt n := by
  have hn : (n : ℝ) ≤ 8 := by exact_mod_cast h
  have hpi := Real.pi_pos
  apply Real.cos_nonneg_of_neg_pi_div_two_le_of_le
  · have : (0 : ℝ) ≤ n * Real.pi / 16 := by positivity
    linarith
  · nlinarith

/-- Bounds of the cosine at twice the angle give bounds at the angle. -/
theorem cosAt_mem_of_double {n : Nat} (hn : n ≤ 8) {lo hi a b : ℝ}
    (h : cosAt (2 * n) ∈ Set.Icc lo hi) (ha : 2 * a ^ 2 - 1 ≤ lo) (hb : hi ≤ 2 * b ^ 2 - 1)
    (hb0 : 0 ≤ b) : cosAt n ∈ Set.Icc a b := by
  obtain ⟨hlo, hhi⟩ := h
  have h0 := cosAt_nonneg hn
  rw [cosAt_double] at hlo hhi
  exact ⟨le_of_sq_le_sq (by linarith) h0, le_of_sq_le_sq (by linarith) hb0⟩

/-- The same where the double angle lies beyond the quarter turn: it mirrors an angle before it. -/
theorem cosAt_mem_of_mirrored_double {n : Nat} (hn : n ≤ 8) {lo hi a b : ℝ}
    (h : cosAt (16 - 2 * n) ∈ Set.Icc lo hi) (ha : 2 * a ^ 2 - 1 ≤ -hi) (hb : -lo ≤ 2 * b ^ 2 - 1)
    (hb0 : 0 ≤ b) : cosAt n ∈ Set.Icc a b := by
  rw [cosAt_reflect (by omega)] at h
  obtain ⟨hlo, hhi⟩ := h
  exact cosAt_mem_of_double hn ⟨neg_le.mpr hhi, le_neg.mpr hlo⟩ ha hb hb0

/-- The cosine at the seven angles of R184, to ten places, each from the one at twice the angle. -/
theorem cosAt_bounds :
    cosAt 1 ∈ Set.Icc 0.98078528040 0.98078528041 ∧
    cosAt 2 ∈ Set.Icc 0.923879532510 0.923879532513 ∧
    cosAt 3 ∈ Set.Icc 0.83146961230 0.83146961231 ∧
    cosAt 4 ∈ Set.Icc 0.707106781186 0.707106781187 ∧
    cosAt 5 ∈ Set.Icc 0.55557023301 0.55557023303 ∧
    cosAt 6 ∈ Set.Icc 0.382683432364 0.382683432367 ∧
    cosAt 7 ∈ Set.Icc 0.19509032201 0.19509032202 := by
  have h8 : cosAt 8 ∈ Set.Icc (0 : ℝ) 0 := by simp [cosAt_eight]
  have h4 : cosAt 4 ∈ Set.Icc 0.707106781186 0.707106781187 :=
    cosAt_mem_of_double (by decide) h8 (by norm_num) (by norm_num) (by norm_num)
  have h2 : cosAt 2 ∈ Set.Icc 0.923879532510 0.923879532513 :=
    cosAt_mem_of_double (by decide) h4 (by norm_num) (by norm_num) (by norm_num)
  have h6 : cosAt 6 ∈ Set.Icc 0.382683432364 0.382683432367 :=
    cosAt_mem_of_mirrored_double (by decide) h4 (by norm_num) (by norm_num) (by norm_num)
  exact ⟨cosAt_mem_of_double (by decide) h2 (by norm_num) (by norm_num) (by norm_num), h2,
    cosAt_mem_of_double (by decide) h6 (by norm_num) (by norm_num) (by norm_num), h4,
    cosAt_mem_of_mirrored_double (by decide) h6 (by norm_num) (by norm_num) (by norm_num), h6,
    cosAt_mem_of_mirrored_double (by decide) h2 (by norm_num) (by norm_num) (by norm_num)⟩

/-! #### Rounding to nearest -/

/-- `q` is within half a unit in the last place of `x` (R183). -/
def Nearest (q : ℚ) (x : ℝ) : Prop := |(q : ℝ) - x| ≤ (ulp q : ℝ) / 2

theorem Nearest.neg {q : ℚ} {x : ℝ} (h : Nearest q x) : Nearest (-q) (-x) := by
  unfold Nearest at *
  rwa [ulp_neg, Rat.cast_neg, ← neg_sub', abs_neg]

/-- The unit in the last place of a number between two powers of two. -/
theorem ulp_eq {q : ℚ} {l : Int} (h : (2 : ℚ) ^ l ≤ |q| ∧ |q| < 2 ^ (l + 1)) :
    ulp q = 2 ^ (l - 23) := by
  rw [ulp, log_eq h.1 h.2]

theorem nearest_of_mem {q : ℚ} {l : Int} {x a b : ℝ}
    (hq : (2 : ℚ) ^ l ≤ |q| ∧ |q| < 2 ^ (l + 1)) (hx : x ∈ Set.Icc a b)
    (ha : (q : ℝ) - a ≤ 2 ^ (l - 23) / 2) (hb : b - (q : ℝ) ≤ 2 ^ (l - 23) / 2) :
    Nearest q x := by
  obtain ⟨h1, h2⟩ := hx
  rw [Nearest, ulp_eq hq, abs_le]
  push_cast
  constructor <;> linarith

/-- The seven magnitudes of R184 are the cosines rounded to nearest. -/
theorem cosine_nearest {n : Nat} (h1 : 1 ≤ n) (h7 : n ≤ 7) : Nearest (cosine n) (cosAt n) := by
  obtain ⟨c1, c2, c3, c4, c5, c6, c7⟩ := cosAt_bounds
  interval_cases n
  · refine nearest_of_mem (l := -1) ?_ c1 ?_ ?_ <;> norm_num [cosine]
  · refine nearest_of_mem (l := -1) ?_ c2 ?_ ?_ <;> norm_num [cosine]
  · refine nearest_of_mem (l := -1) ?_ c3 ?_ ?_ <;> norm_num [cosine]
  · refine nearest_of_mem (l := -1) ?_ c4 ?_ ?_ <;> norm_num [cosine]
  · refine nearest_of_mem (l := -1) ?_ c5 ?_ ?_ <;> norm_num [cosine]
  · refine nearest_of_mem (l := -2) ?_ c6 ?_ ?_ <;> norm_num [cosine]
  · refine nearest_of_mem (l := -3) ?_ c7 ?_ ?_ <;> norm_num [cosine]

/-- The symmetries of the cosine carry this to every angle of R183. -/
theorem cosineOf_nearest {n : Nat} (h : n < 32) (h8 : n % 8 ≠ 0) :
    Nearest (cosineOf n) (cosAt n) := by
  unfold cosineOf
  split_ifs with ha hb hc
  · exact cosine_nearest (by omega) (by omega)
  · rw [← neg_neg (cosAt n), ← cosAt_reflect hb]
    exact (cosine_nearest (by omega) (by omega)).neg
  · rw [cosAt_eq_neg (by omega)]
    exact (cosine_nearest (by omega) (by omega)).neg
  · rw [cosAt_eq_neg (by omega), ← cosAt_reflect (by omega), show 16 - (n - 16) = 32 - n by omega]
    exact cosine_nearest (by omega) (by omega)

/-- The machine's basis is the cosine matrix rounded to nearest (R183, R184). -/
theorem B_nearest {u x : Nat} (hu : u < 8) (hx : x < 8) :
    Nearest (B u x)
      (if u = 0 then 1 / Real.sqrt 2 else Real.cos ((2 * x + 1) * u * Real.pi / 16)) := by
  unfold B
  split_ifs with h0
  · have hquarter : 1 / Real.sqrt 2 = cosAt 4 := by
      rw [cosAt, show ((4 : Nat) : ℝ) * Real.pi / 16 = Real.pi / 4 by push_cast; ring,
        Real.cos_pi_div_four, Real.sqrt_div_self']
    rw [hquarter]
    exact cosine_nearest (by decide) (by decide)
  · have hodd : ∀ u x : Fin 8, u.val ≠ 0 → (2 * x.val + 1) * u.val % 32 % 8 ≠ 0 := by decide
    have hcos : Real.cos ((2 * x + 1) * u * Real.pi / 16) = cosAt ((2 * x + 1) * u % 32) := by
      rw [cosAt_mod, cosAt]
      push_cast
      rfl
    rw [hcos]
    exact cosineOf_nearest (Nat.mod_lt _ (by decide)) (hodd ⟨u, hu⟩ ⟨x, hx⟩ h0)

end Sys2Proof.Exact32
end

section
/-! ### The size of a coefficient -/

namespace Sys2Proof.Exact32

open Sys2Proof.Machine

/-- The most one rounding can enlarge a magnitude by (R182 (a)). -/
def growth : ℚ := 1 + 1 / 2 ^ 24

theorem one_le_growth : 1 ≤ growth := by norm_num [growth]

/-- A rounded number is bounded by a bound of the number, times `growth`. -/
theorem abs_f32_le_of_abs_le {x b : ℚ} (h : |x| ≤ b) : |f32 x| ≤ growth * b := by
  calc |f32 x| ≤ |x| * growth := abs_f32_le x
    _ ≤ b * growth := mul_le_mul_of_nonneg_right h (zero_le_one.trans one_le_growth)
    _ = growth * b := mul_comm _ _

/-- An accumulation of `n` terms is bounded by the sum of their bounds, up to `n + 1` roundings. -/
theorem abs_accumulate_le {p b : Nat → ℚ} (n : Nat) (h : ∀ i, i < n → |p i| ≤ b i) :
    |accumulate p n| ≤ growth ^ (n + 1) * ∑ i ∈ Finset.range n, b i := by
  induction n with
  | zero => simp [accumulate]
  | succ n ih =>
    have hacc := ih (fun i hi => h i (by omega))
    have hterm := abs_f32_le_of_abs_le (h n (by omega))
    have hb : 0 ≤ b n := (abs_nonneg _).trans (h n (by omega))
    have hgrowth : growth * b n ≤ growth ^ (n + 1) * b n :=
      mul_le_mul_of_nonneg_right (le_self_pow₀ one_le_growth (Nat.succ_ne_zero n)) hb
    rw [Finset.sum_range_succ, pow_succ', mul_assoc]
    refine abs_f32_le_of_abs_le ?_
    calc |accumulate p n + f32 (p n)| ≤ |accumulate p n| + |f32 (p n)| := abs_add_le _ _
      _ ≤ growth ^ (n + 1) * ∑ i ∈ Finset.range n, b i + growth ^ (n + 1) * b n := by linarith
      _ = _ := by ring

/-- No row of the basis has a larger sum of magnitudes than the constant one. -/
theorem sum_abs_B_le (u : Fin 8) : ∑ x ∈ Finset.range 8, |B u x| ≤ 8 * cosine 4 := by
  revert u
  decide +kernel

/-- The most one pass can enlarge a bound of a row by. -/
def passGain : ℚ := growth ^ 9 * (8 * cosine 4)

theorem abs_fdct_le {row : Nat → ℚ} {M : ℚ} (h : ∀ x, x < 8 → |row x| ≤ M) {u : Nat} (hu : u < 8) :
    |fdct row u| ≤ passGain * M := by
  have hM : 0 ≤ M := (abs_nonneg _).trans (h 0 (by decide))
  have hterm : ∀ x, x < 8 → |row x * B u x| ≤ M * |B u x| := fun x hx => by
    rw [abs_mul]
    exact mul_le_mul_of_nonneg_right (h x hx) (abs_nonneg _)
  have hpos : (0 : ℚ) ≤ growth ^ 9 := pow_nonneg (zero_le_one.trans one_le_growth) _
  calc |fdct row u| ≤ growth ^ 9 * ∑ x ∈ Finset.range 8, M * |B u x| := abs_accumulate_le 8 hterm
    _ = growth ^ 9 * M * ∑ x ∈ Finset.range 8, |B u x| := by rw [← Finset.mul_sum]; ring
    _ ≤ growth ^ 9 * M * (8 * cosine 4) :=
      mul_le_mul_of_nonneg_left (sum_abs_B_le ⟨u, hu⟩) (mul_nonneg hpos hM)
    _ = passGain * M := by rw [passGain]; ring

theorem abs_twoPass_fdct_le {m : Nat → Nat → ℚ} {M : ℚ}
    (h : ∀ y x, y < 8 → x < 8 → |m y x| ≤ M) {v u : Nat} (hv : v < 8) (hu : u < 8) :
    |twoPass fdct m v u| ≤ passGain * (passGain * M) :=
  abs_fdct_le (fun y hy => abs_fdct_le (fun x hx => h y x hy hx) hu) hv

theorem abs_scale_le {m : Nat → Nat → ℚ} {M : ℚ} {v u : Nat} (h : |m v u| ≤ M) :
    |scale isqrt2 m v u| ≤ growth * (growth * M) := by
  have hfactor : ∀ (x : ℚ) (n : Nat), |x * if n = 0 then isqrt2 else 1| ≤ |x| := fun x n => by
    rw [abs_mul]
    exact mul_le_of_le_one_right (abs_nonneg _) (by split <;> norm_num [isqrt2, abs_le])
  exact abs_f32_le_of_abs_le
    ((hfactor _ v).trans (abs_f32_le_of_abs_le ((hfactor _ u).trans h)))

/-- A bound of the scaled coefficients of residuals in -255..255 (R192). -/
def scaledBound : ℚ := growth * (growth * (passGain * (passGain * (growth * 255))))

theorem abs_scaled_le {r : Nat → Half} (h : ∀ i, i < 64 → |((r i).toInt : ℚ)| ≤ 255) {v u : Nat}
    (hv : v < 8) (hu : u < 8) :
    |scaled r v u| ≤ scaledBound :=
  abs_scale_le (abs_twoPass_fdct_le (m := fun y x => f32 (r (y * 8 + x)).toInt)
    (fun y x hy hx => abs_f32_le_of_abs_le (h (y * 8 + x) (by omega))) hv hu)

theorem f32_natCast {n : Nat} (h : n ≤ 2 ^ 24) : f32 n = n := by
  simpa using f32_of_small h 0

theorem abs_rha_le {x : ℚ} {n : Nat} (h : |x| < n + 1 / 2) : |rha x| ≤ n := by
  wlog hx : 0 ≤ x generalizing x with H
  · have := H (x := -x) (by rwa [abs_neg]) (by linarith)
    rwa [rha_neg, abs_neg] at this
  · rw [abs_of_nonneg hx] at h
    have hlt : ⌊x + 1 / 2⌋ < (n : Int) + 1 := Int.floor_lt.mpr (by push_cast; linarith)
    have h0 : 0 ≤ ⌊x + 1 / 2⌋ := Int.floor_nonneg.mpr (by linarith)
    rw [rha, if_pos hx, abs_of_nonneg h0]
    omega

theorem toInt_sat16 {n : Int} (h1 : -32768 ≤ n) (h2 : n ≤ 32767) : (sat16 n).toInt = n := by
  rw [sat16, BitVec.toInt_ofInt, Int.bmod_eq_of_le] <;> omega

/-- A coefficient of residuals in -255..255, for a table entry of at least 1, is at most 2040 in
magnitude (R192). -/
theorem abs_coefficient_le {r : Nat → Half} (h : ∀ i, i < 64 → |((r i).toInt : ℚ)| ≤ 255) {e : Byte}
    (he : 1 ≤ e.toNat) {i : Nat} (hi : i < 64) : |(coefficient r e i).toInt| ≤ 2040 := by
  have hs := abs_scaled_le h (v := i / 8) (u := i % 8) (by omega) (by omega)
  have hquarter : |f32 (scaled r (i / 8) (i % 8) / 4)| ≤ growth * (scaledBound / 4) :=
    abs_f32_le_of_abs_le (by
      rw [abs_div, abs_of_pos (by norm_num : (0 : ℚ) < 4)]
      exact div_le_div_of_nonneg_right hs (by norm_num))
  have he' : (1 : ℚ) ≤ e.toNat := by exact_mod_cast he
  have hentry : f32 (e.toNat : ℚ) = e.toNat := f32_natCast (by have := e.isLt; omega)
  have hquotient : |f32 (f32 (scaled r (i / 8) (i % 8) / 4) / f32 e.toNat)| ≤
      growth * (growth * (scaledBound / 4)) :=
    abs_f32_le_of_abs_le (by
      rw [hentry, abs_div, abs_of_pos (zero_lt_one.trans_le he')]
      exact (div_le_self (abs_nonneg _) he').trans hquarter)
  have hrha := abs_rha_le (n := 2040) (hquotient.trans_lt (by
    norm_num [growth, scaledBound, passGain, cosine]))
  rw [coefficient, toInt_sat16]
  · exact hrha
  all_goals have := abs_le.mp hrha; omega

end Sys2Proof.Exact32
end

section
/-! ### Oddness and size of the forward path -/

namespace Sys2Proof.Machine

open Sys2Proof.Claim

/-- An array of 64 entries, as a function of the index. -/
theorem eq_map_getD_64 {α : Type} {a : List α} (ha : a.length = 64) (d : α) :
    a = (List.range 64).map (fun i => a.getD i d) :=
  ext_getD_64 (d := d) ha (by simp)
    (fun _ hi => (getD_map_range_64 (fun i => a.getD i d) hi d).symm)

/-- Where negating a residual is exact and no coefficient saturates, the forward path is odd
(R192, R196). -/
theorem fwdBlock_neg {r : List Half} {q : List Byte} (hr : ∀ h ∈ r, h ≠ 0x8000#16)
    (hsat : ∀ h ∈ fwdBlock r q, h ≠ 0x8000#16 ∧ h ≠ 0x7FFF#16) :
    fwdBlock (r.map (fun h => -h)) q = (fwdBlock r q).map (fun h => -h) := by
  have hscaled : toZigzag .zero (fwdScaled (r.map (fun h => -h))) =
      (toZigzag .zero (fwdScaled r)).map F32.neg := by
    rw [fwdScaled_neg hr]
    exact permute_neg zigzag _
  rw [fwdBlock, hscaled]
  refine List.ext_getElem (by simp [fwdBlock]) (fun k hk _ => ?_)
  simp only [List.getElem_zipWith, List.getElem_map, fwdBlock]
  obtain ⟨hmin, hmax⟩ := hsat _ (List.getElem_mem (l := fwdBlock r q) (n := k)
    (by simpa [fwdBlock] using hk))
  simp only [fwdBlock, List.getElem_zipWith] at hmin hmax
  exact quantize_neg hmin hmax

/-- Each coefficient of a block is the formula of R189. -/
theorem exists_forwardPath_of_mem {r : List Half} {q : List Byte} (hr : r.length = 64)
    (hq : q.length = 64) (hentries : ∀ e ∈ q, 1 ≤ e.toNat) {h : Half} (hh : h ∈ fwdBlock r q) :
    ∃ k, k < 64 ∧ 1 ≤ (q.getD k 0#8).toNat ∧
      h = forwardPath (fun i => r.getD i 0#16) (fun i => q.getD i 0#8) k := by
  obtain ⟨k, hk, rfl⟩ := List.mem_iff_getElem.mp hh
  have hk64 : k < 64 := (fwdBlock_length r hq) ▸ hk
  have hentry : 1 ≤ (q.getD k 0#8).toNat := by
    rw [List.getD_eq_getElem _ _ (hq ▸ hk64)]
    exact hentries _ (List.getElem_mem _)
  refine ⟨k, hk64, hentry, ?_⟩
  rw [← Exact32.fwdBlock_getD _ _ hk64 hentry, ← eq_map_getD_64 hr, ← eq_map_getD_64 hq,
    List.getD_eq_getElem]

end Sys2Proof.Machine
end

section
/-! ### The formulas of the transform: the obligations -/

namespace Sys2Proof.Proofs

open Sys2Proof.Machine Sys2Proof.Claim

/-- Settles O51: the basis is rounded to nearest, the machine's passes compute the exact ones, and
the quantizer pairs coefficient and table entry by position. -/
theorem tableEntryMatchesPosition : Obligations.TableEntryMatchesPosition := by
  refine ⟨fun u x hu hx => Exact32.B_nearest hu hx, fun r q Q => ⟨fun hQ k hk =>
    Exact32.fwdBlock_getD r Q hk (hQ k hk), fun y x hy hx => Exact32.invBlock_getD q Q hy hx⟩,
    fun r q q' hr hq hq' => ⟨fwdBlock_length r hq, invBlock_length r q, fun k hk => ?_⟩⟩
  exact (fwdBlock_getElem? r q k).trans (by rw [hk, ← fwdBlock_getElem?]; rfl)

/-- Settles O52: every stage before the saturation is odd, and 8-bit residuals stay below it. -/
theorem forwardPathIsOdd : Obligations.ForwardPathIsOdd := by
  refine ⟨fun r q _ _ hr hsat => fwdBlock_neg hr hsat, fun r q hr hq hentries hsmall h hh => ?_⟩
  obtain ⟨k, hk, hentry, rfl⟩ := exists_forwardPath_of_mem hr hq hentries hh
  have hresidual : ∀ i, i < 64 → |((r.getD i 0#16).toInt : ℚ)| ≤ 255 := fun i hi => by
    rw [List.getD_eq_getElem _ _ (hr ▸ hi)]
    obtain ⟨hlo, hhi⟩ := hsmall _ (List.getElem_mem (hr ▸ hi))
    exact abs_le.mpr ⟨by exact_mod_cast hlo, by exact_mod_cast hhi⟩
  exact abs_le.mp (Exact32.abs_coefficient_le hresidual hentry (zigzagInv_zigzag ⟨k, hk⟩).1)

end Sys2Proof.Proofs
end

section
/-! ### The block-buffer commands -/

namespace Sys2Proof.Machine

open Sys2Proof.Claim

/-- Only the elements of `BLK_OUT` see that buffer replaced. -/
theorem State.element_setBlkOut (s : State) (m : Space Half) (sp : SpaceRef) (i : Nat) :
    (s.setBlkOut m).element sp i =
      if sp = .blkOut then (Space.read m i).map wordOfHalf else s.element sp i := by
  cases sp <;> rfl

/-- The buffer after 64 consecutive writes: what was written, and nothing else changed. -/
theorem read_writeFrom_64 {α : Type} (m : Space α) (n : Nat) {out : List α} (hout : out.length = 64)
    (d : α) :
    (∀ k, k < 64 → Space.read (Space.writeFrom m n out) (n + k) = some (out.getD k d)) ∧
      ∀ j, (∀ k, k < 64 → j ≠ n + k) → Space.read (Space.writeFrom m n out) j = Space.read m j := by
  refine ⟨fun k hk => ?_, fun j hj => ?_⟩
  · rw [Space.read_writeFrom, if_pos (by omega), Nat.add_sub_cancel_left,
      List.getD_eq_getElem _ _ (by omega), List.getElem?_eq_getElem]
  · rw [Space.read_writeFrom, if_neg]
    rintro ⟨hle, hlt⟩
    exact hj (j - n) (by omega) (by omega)

section
variable {s : State}

/-- A block-buffer command reads the whole block before it writes (R197 to R200). -/
theorem bufferCommand_of_holds {R : Nat → Half} (hR : Holds s.blkIn 64 R)
    {f : List Half → Option (List Half)} {out : List Half}
    (hf : f ((List.range 64).map R) = some out) :
    bufferCommand f s = .done (s.setBlkOut (Space.writeFrom s.blkOut 0 out)) := by
  simp only [bufferCommand, read64_of_defined hR, hf]

theorem bufferCommand_of_undef {i : Nat} (hi : i < 64) (hundef : Space.read s.blkIn i = none)
    (f : List Half → Option (List Half)) : bufferCommand f s = .raised .undef s := by
  simp only [bufferCommand, read64_eq_none_iff.mpr ⟨i, hi, hundef⟩]

/-- What a block-buffer command that completes leaves (R197 to R200). -/
theorem exec_writes_blkOut (hlive : Live s) {i : Instr} (ha : Accepted i s) {out : List Half}
    (hout : out.length = 64)
    (hbody : bodyOf i s = .done (s.setBlkOut (Space.writeFrom s.blkOut 0 out))) :
    ∃ t, exec i s = .next t ∧ t = { s with blkOut := t.blkOut } ∧
      MemoryFrame s t (fun sp i => sp = .blkOut ∧ i < 64) ∧
      ∀ k, k < 64 → t.element .blkOut k = some ((out.getD k 0#16).signExtend 32) := by
  obtain ⟨hnew, hold⟩ := read_writeFrom_64 s.blkOut 0 hout 0#16
  refine ⟨_, exec_completes hlive.1 ha hbody, rfl, fun sp j hj => ?_, fun k hk => ?_⟩
  · rw [State.element_setBlkOut]
    split
    · next hsp =>
      subst hsp
      rw [hold j (fun k hk e => hj ⟨rfl, by omega⟩)]
      rfl
    · rfl
  · rw [State.element_setBlkOut, if_pos rfl, ← Nat.zero_add k, hnew k hk, Nat.zero_add]
    rfl

end

end Sys2Proof.Machine
end

section
/-! ### The block-buffer commands: the obligations -/

namespace Sys2Proof.Proofs

open Sys2Proof.Machine Sys2Proof.Claim

/-- Settles O54: each command is its function of the block, written to `BLK_OUT`. -/
theorem blockBufferCommandsWriteBlkOut : Obligations.BlockBufferCommandsWriteBlkOut := by
  intro s R hlive hR
  refine ⟨fun c Q hQ => ?paths, ?forward, ?inverse⟩
  case paths =>
    have htable : s.table c = some ((List.range 64).map Q) := read64_of_defined hQ
    refine ⟨fun hentries => ?_, ?_⟩
    · obtain ⟨t, ht, hframe, hmem, hout⟩ := exec_writes_blkOut hlive (i := .dctqBlock c) hlive.2
        (out := fwdBlock ((List.range 64).map R) ((List.range 64).map Q))
        (fwdBlock_length _ (by simp)) (bufferCommand_of_holds hR (congrArg _ htable))
      refine ⟨t, ht, hframe, hmem, fun k hk => ?_⟩
      rw [hout k hk, Exact32.fwdBlock_getD R Q hk (hentries k hk)]
    · obtain ⟨t, ht, hframe, hmem, hout⟩ := exec_writes_blkOut hlive (i := .deqidctBlock c) hlive.2
        (out := invBlock ((List.range 64).map R) ((List.range 64).map Q))
        (invBlock_length _ _) (bufferCommand_of_holds hR (congrArg _ htable))
      refine ⟨t, ht, hframe, hmem, fun y x hy hx => ?_⟩
      rw [hout _ (by omega), Exact32.invBlock_getD R Q hy hx]
  case forward =>
    obtain ⟨t, ht, hframe, hmem, hout⟩ := exec_writes_blkOut hlive (i := .zzFwd) hlive.2
      (toZigzag_length 0#16 ((List.range 64).map R))
      (bufferCommand_of_holds hR (f := fun b => some (toZigzag 0#16 b)) rfl)
    refine ⟨t, ht, hframe, hmem, fun k hk => ?_⟩
    rw [hout k hk, toZigzag_getD hk, getD_map_range_64 R (zigzagInv_zigzag ⟨k, hk⟩).1]
  case inverse =>
    obtain ⟨t, ht, hframe, hmem, hout⟩ := exec_writes_blkOut hlive (i := .zzInv) hlive.2
      (fromZigzag_length 0#16 ((List.range 64).map R))
      (bufferCommand_of_holds hR (f := fun b => some (fromZigzag 0#16 b)) rfl)
    refine ⟨t, ht, hframe, hmem, fun k hk => ?_⟩
    rw [hout _ (zigzagInv_zigzag ⟨k, hk⟩).1, fromZigzag_getD_zigzag hk, getD_map_range_64 R hk]

/-- Settles O55: the block is read whole before anything else is done. -/
theorem blockBufferCommandsNeedWholeBlock : Obligations.BlockBufferCommandsNeedWholeBlock := by
  intro s i c hlive hi hundef
  have hstop := bufferCommand_of_undef hi hundef
  exact ⟨exec_faults (i := .dctqBlock c) hlive.1 hlive.2 (hstop _),
    exec_faults (i := .deqidctBlock c) hlive.1 hlive.2 (hstop _),
    exec_faults (i := .zzFwd) hlive.1 hlive.2 (hstop fun b => some (toZigzag 0#16 b)),
    exec_faults (i := .zzInv) hlive.1 hlive.2 (hstop fun b => some (fromZigzag 0#16 b))⟩

end Sys2Proof.Proofs
end

section
/-! ### Sweeps over the blocks of a plane -/

namespace Sys2Proof.Machine

open Sys2Proof.Claim

/-! #### Rows and planes as one list of blocks -/

/-- The block drivers' unit for a block given by its column and its band. -/
def blockUnit (unit : Comp → Nat → Nat → State → Run) (c : Comp) (b : Nat × Nat) : State → Run :=
  unit c b.2 b.1

/-- The blocks of one band, from the left (R229). -/
def bandBlocks (cols band : Nat) : List (Nat × Nat) := (List.range cols).map (fun bx => (bx, band))

@[simp] theorem mem_bandBlocks {cols band : Nat} {b : Nat × Nat} :
    b ∈ bandBlocks cols band ↔ b.1 < cols ∧ b.2 = band := by
  obtain ⟨x, y⟩ := b
  simp [bandBlocks, eq_comm]

theorem bandBody_eq_sweep (unit : Comp → Nat → Nat → State → Run) {c : Comp} {band : Nat}
    {s : State} (hband : band < s.ph c / 8) :
    bandBody unit c band s = sweep (blockUnit unit c) (bandBlocks (s.pw c / 8) band) s := by
  rw [bandBody, if_pos hband, bandBlocks, sweep_map]
  rfl

/-- Sweeps over bands make up one sweep over their blocks, since no block changes the geometry. -/
theorem sweep_bandBody {unit : Comp → Nat → Nat → State → Run}
    (hunit : ∀ {c bx band s}, bx < s.pw c / 8 → band < s.ph c / 8 →
      Parts s (unit c band bx s).state)
    {s t : State} (h : Parts s t) (c : Comp) {bands : List Nat}
    (hbands : ∀ band ∈ bands, band < s.ph c / 8) :
    sweep (bandBody unit c) bands t =
      sweep (blockUnit unit c) (bands.flatMap (bandBlocks (s.pw c / 8))) t := by
  induction bands generalizing t with
  | nil => rfl
  | cons band bands ih =>
    have hfirst : bandBody unit c band t =
        sweep (blockUnit unit c) (bandBlocks (s.pw c / 8) band) t := by
      rw [← h.pw]
      exact bandBody_eq_sweep unit (by rw [h.ph]; exact hbands band (by simp))
    have hparts := h.trans (bandBody_parts hunit c band t)
    rw [List.flatMap_cons, sweep_append, sweep_cons, ← hfirst]
    cases hr : bandBody unit c band t with
    | raised e u => rfl
    | done u =>
      rw [hr] at hparts
      exact ih hparts (fun b hb => hbands b (by simp [hb]))

theorem planeBody_eq_sweep {unit : Comp → Nat → Nat → State → Run}
    (hunit : ∀ {c bx band s}, bx < s.pw c / 8 → band < s.ph c / 8 →
      Parts s (unit c band bx s).state) (c : Comp) (s : State) :
    planeBody unit c s = sweep (blockUnit unit c) (raster (s.pw c / 8) (s.ph c / 8)) s :=
  sweep_bandBody hunit .refl c (fun _ h => List.mem_range.mp h)

theorem bandBlocks_getLast? {cols : Nat} (h : 1 ≤ cols) (band : Nat) :
    (bandBlocks cols band).getLast? = some (cols - 1, band) := by
  obtain ⟨n, rfl⟩ := Nat.exists_eq_add_of_le' h
  simp [bandBlocks, List.range_succ]

/-- A band starts with its leftmost block (R229). -/
theorem bandBlocks_eq_cons {cols : Nat} (h : 1 ≤ cols) (band : Nat) :
    ∃ rest, bandBlocks cols band = (0, band) :: rest := by
  obtain ⟨n, rfl⟩ := Nat.exists_eq_add_of_le' h
  rw [bandBlocks, List.range_succ_eq_map, List.map_cons]
  exact ⟨_, rfl⟩

theorem raster_getLast? {cols rows : Nat} (hc : 1 ≤ cols) (hr : 1 ≤ rows) :
    (raster cols rows).getLast? = some (cols - 1, rows - 1) := by
  obtain ⟨n, rfl⟩ := Nat.exists_eq_add_of_le' hr
  have hlast := bandBlocks_getLast? hc n
  rw [bandBlocks] at hlast
  rw [raster_succ, List.getLast?_append, hlast]
  rfl

/-- A list in the order of a key, split at one of its elements: before it stand those of a smaller
key. -/
theorem exists_split_at {β : Type} {us : List β} {key : β → Nat}
    (hord : us.Pairwise (fun p q => key p < key q)) {b : β} (hb : b ∈ us) :
    ∃ pre post, us = pre ++ b :: post ∧ ∀ p, p ∈ pre ↔ p ∈ us ∧ key p < key b := by
  obtain ⟨pre, post, rfl⟩ := List.append_of_mem hb
  obtain ⟨-, hpost, hpre⟩ := List.pairwise_append.mp hord
  refine ⟨pre, post, rfl, fun p =>
    ⟨fun hp => ⟨List.mem_append_left _ hp, hpre p hp b (by simp)⟩, ?_⟩⟩
  rintro ⟨hp, hlt⟩
  refine (List.mem_append.mp hp).resolve_right (fun hp => ?_)
  rcases List.mem_cons.mp hp with rfl | hp
  · exact lt_irrefl _ hlt
  · exact lt_asymm hlt ((List.pairwise_cons.mp hpost).1 p hp)

theorem bandBlocks_pairwise (cols band : Nat) :
    (bandBlocks cols band).Pairwise (fun p q => p.1 < q.1) := by
  rw [bandBlocks, List.pairwise_map]
  exact List.pairwise_lt_range

/-! #### What the blocks of a list have written -/

/-- The space `new` once the blocks `us` are written to `old`: entry `i` of block `b` is `val b i`,
and stands at `idx b i`; every other element is the old one. -/
structure BlocksWritten {α : Type} (idx : Nat × Nat → Nat → Nat) (val : Nat × Nat → Nat → α)
    (us : List (Nat × Nat)) (old new : Space α) : Prop where
  stored : ∀ b ∈ us, ∀ i, i < 64 → Space.read new (idx b i) = some (val b i)
  kept : ∀ j, (∀ b ∈ us, ∀ i, i < 64 → j ≠ idx b i) → Space.read new j = Space.read old j

section
variable {α : Type} {idx : Nat × Nat → Nat → Nat} {val : Nat × Nat → Nat → α}
  {us : List (Nat × Nat)} {b : Nat × Nat} {old m m' : Space α}

theorem BlocksWritten.nil : BlocksWritten idx val [] old old :=
  ⟨fun _ h => absurd h List.not_mem_nil, fun _ _ => rfl⟩

/-- One more block, whose entries stand where no other block's do. -/
theorem BlocksWritten.snoc (h : BlocksWritten idx val us old m)
    (hone : BlocksWritten idx val [b] m m')
    (hinj : ∀ b' ∈ us, ∀ i i', i < 64 → i' < 64 → idx b' i' = idx b i → b' = b) :
    BlocksWritten idx val (us ++ [b]) old m' where
  stored b' hb' i' hi' := by
    by_cases he : b' = b
    · exact hone.stored b' (by simp [he]) i' hi'
    · have hmem : b' ∈ us := by simpa [he] using hb'
      rw [hone.kept, h.stored b' hmem i' hi']
      intro b₀ hb₀ i hi e
      rw [List.mem_singleton.mp hb₀] at e
      exact he (hinj b' hmem i i' hi hi' e)
  kept j hj := by
    rw [hone.kept j (fun b' hb' => hj b' (List.mem_append_right _ hb')),
      h.kept j (fun b' hb' => hj b' (List.mem_append_left _ hb'))]

/-! #### The plane a driver writes -/

/-- A plane of the current frame as a block driver writes it: `put pos m` is the state with POS at
`pos` and the plane `m`, and nothing else changed. -/
structure DriverPlane (s : State) (α : Type) where
  ref : SpaceRef
  word : α → Word
  old : Space α
  put : Word → Space α → State
  put_old : ∀ pos, put pos old = s.setPos pos
  put_eq : ∀ pos m, put pos m = { s with pos := pos, cur := (put pos m).cur }
  slotsFrame_put : ∀ pos m, SlotsFrame s (put pos m)
  element_put : ∀ pos m sp i, (put pos m).element sp i =
    if sp = ref then (Space.read m i).map word else s.element sp i

theorem DriverPlane.put_self {s : State} (p : DriverPlane s α) : p.put s.pos p.old = s :=
  p.put_old s.pos

/-- A block is processed whatever the plane holds: POS names it, its 64 entries are written and no
other element is (R201, R202). -/
def BlockDone {s : State} (p : DriverPlane s α) (f : Nat × Nat → State → Run) (c : Comp)
    (idx : Nat × Nat → Nat → Nat) (val : Nat × Nat → Nat → α) (b : Nat × Nat) : Prop :=
  ∀ pos m, ∃ m', f b (p.put pos m) = .done (p.put (posOf c b.1 b.2) m') ∧
    BlocksWritten idx val [b] m m'

variable {s : State} {p : DriverPlane s α} {f : Nat × Nat → State → Run} {c : Comp} {cols : Nat}

/-- Entries of two blocks of a grid with `cols` columns stand at the same place only if the blocks
are the same. -/
def SeparatesBlocks (cols : Nat) (idx : Nat × Nat → Nat → Nat) : Prop :=
  ∀ b b' i i', b.1 < cols → b'.1 < cols → i < 64 → i' < 64 → idx b' i' = idx b i → b' = b

section
variable (hidx : SeparatesBlocks cols idx) (hcols : ∀ b ∈ us, b.1 < cols)
  (hdone : ∀ b ∈ us, BlockDone p f c idx val b)
include hidx hcols hdone

/-- A sweep over blocks that can all be processed completes, and POS names the last (R229, R230). -/
theorem sweep_blocks_completes :
    ∃ pos m, sweep f us s = .done (p.put pos m) ∧ BlocksWritten idx val us p.old m ∧
      ∀ b ∈ us.getLast?, pos = posOf c b.1 b.2 := by
  induction us using List.reverseRecOn with
  | nil => exact ⟨s.pos, p.old, by rw [p.put_self, sweep_nil], .nil, by simp⟩
  | append_singleton us b ih =>
    obtain ⟨pos, m, hsweep, hwritten, -⟩ := ih (fun b hb => hcols b (List.mem_append_left _ hb))
      (fun b hb => hdone b (List.mem_append_left _ hb))
    obtain ⟨m', hstep, hone⟩ := hdone b (by simp) pos m
    refine ⟨posOf c b.1 b.2, m', ?_, hwritten.snoc hone (fun b' hb' i i' => ?_), by simp⟩
    · rw [sweep_append, hsweep, Run.andThen_done, sweep_cons, hstep, Run.andThen_done, sweep_nil]
    · exact hidx b b' i i' (hcols b (by simp)) (hcols b' (List.mem_append_left _ hb'))

/-- A sweep ends at the first block that raises a fault, the blocks before it processed (R205,
R244). -/
theorem sweep_blocks_stops {e : Cause} {post : List (Nat × Nat)}
    (hstop : ∀ pos m, f b (p.put pos m) = .raised e (p.put (posOf c b.1 b.2) m)) :
    ∃ m, sweep f (us ++ b :: post) s = .raised e (p.put (posOf c b.1 b.2) m) ∧
      BlocksWritten idx val us p.old m := by
  obtain ⟨pos, m, hsweep, hwritten, -⟩ := sweep_blocks_completes hidx hcols hdone
  refine ⟨m, ?_, hwritten⟩
  rw [sweep_append, hsweep, Run.andThen_done, sweep_cons, hstop, Run.andThen_raised]

end

/-- An entry as the host reads it. -/
theorem BlocksWritten.element (h : BlocksWritten idx val us p.old m) (pos : Word) (hb : b ∈ us)
    {i : Nat} (hi : i < 64) : (p.put pos m).element p.ref (idx b i) = some (p.word (val b i)) := by
  rw [p.element_put, if_pos rfl, h.stored b hb i hi, Option.map_some]

/-- The blocks' entries are all that changes. -/
theorem BlocksWritten.memoryFrame (h : BlocksWritten idx val us p.old m) (pos : Word)
    {P : Nat → Prop} (hP : ∀ b ∈ us, ∀ i, i < 64 → P (idx b i)) :
    MemoryFrame s (p.put pos m) (fun sp j => sp = p.ref ∧ P j) := by
  intro sp j hj
  have hself := p.element_put s.pos p.old sp j
  rw [p.put_self] at hself
  rw [p.element_put, hself]
  split
  · next hsp =>
    rw [h.kept j (fun b hb i hi e => hj ⟨hsp, e ▸ hP b hb i hi⟩)]
  · rfl

end

end Sys2Proof.Machine
end

section
/-! ### The coefficient plane and the reconstructed plane -/

namespace Sys2Proof.Machine

open Sys2Proof.Claim

/-! #### Frames -/

theorem Frame.setResid_setResid (f : Frame) (c : Comp) (m m' : Space Half) :
    (f.setResid c m).setResid c m' = f.setResid c m' := by
  simp only [Frame.setResid, Triple.set_set]

@[simp] theorem Frame.setResid_resid_get (f : Frame) (c : Comp) (m : Space Half) :
    (f.setResid c m).resid.get c = m := Triple.get_set_same _ _ _

theorem Frame.setRecons_setRecons (f : Frame) (c : Comp) (m m' : Space Byte) :
    (f.setRecons c m).setRecons c m' = f.setRecons c m' := by
  simp only [Frame.setRecons, Triple.set_set]

@[simp] theorem Frame.setRecons_recons_get (f : Frame) (c : Comp) (m : Space Byte) :
    (f.setRecons c m).recons.get c = m := Triple.get_set_same _ _ _

/-- Only the elements of `RESID[c]` of the current frame see that plane replaced. -/
theorem State.element_setResid (s : State) (g : Frame) (c : Comp) (m : Space Half) (sp : SpaceRef)
    (i : Nat) : (s.setCur (g.setResid c m)).element sp i =
      if sp = .resid .cur c then (Space.read m i).map wordOfHalf
      else (s.setCur g).element sp i := by
  split
  · next h => subst h; simp [State.element, State.plane, State.frame]
  next hne =>
  cases sp with
  | resid f d =>
    cases f with
    | cur =>
      have hd : d ≠ c := fun e => hne (by rw [e])
      simp only [State.element, State.plane, State.frame, State.setCur_cur, Frame.setResid,
        Triple.get_set_of_ne _ _ hd]
    | ref => rfl
  | orig f | recons f | pred f | mb f => cases f <;> rfl
  | picIn | qt | blkIn | blkOut => rfl

/-- Only the elements of `RECONS[c]` of the current frame see that plane replaced. -/
theorem State.element_setRecons (s : State) (g : Frame) (c : Comp) (m : Space Byte) (sp : SpaceRef)
    (i : Nat) : (s.setCur (g.setRecons c m)).element sp i =
      if sp = .recons .cur c then (Space.read m i).map wordOfByte
      else (s.setCur g).element sp i := by
  split
  · next h => subst h; simp [State.element, State.plane, State.frame]
  next hne =>
  cases sp with
  | recons f d =>
    cases f with
    | cur =>
      have hd : d ≠ c := fun e => hne (by rw [e])
      simp only [State.element, State.plane, State.frame, State.setCur_cur, Frame.setRecons,
        Triple.get_set_of_ne _ _ hd]
    | ref => rfl
  | orig f | resid f | pred f | mb f => cases f <;> rfl
  | picIn | qt | blkIn | blkOut => rfl

section
variable {s : State} {cur : Frame} (hcur : s.cur = some cur) (c : Comp)

/-- The plane DCTQ writes (R201). -/
def residPlane : DriverPlane s Half where
  ref := .resid .cur c
  word := wordOfHalf
  old := cur.resid.get c
  put pos m := (s.setPos pos).setCur (cur.setResid c m)
  put_old pos := by
    rw [Frame.setResid, Triple.set_get_self]
    exact State.setCur_self (s := s.setPos pos) hcur
  put_eq _ _ := rfl
  slotsFrame_put _ _ := slotsFrame_of_eq (by rw [hcur]; rfl) rfl
  element_put pos m sp i := by
    rw [State.element_setResid, State.setCur_self (s := s.setPos pos) hcur]
    congr 1

/-- The plane DEQIDCT writes (R202). -/
def reconsPlane : DriverPlane s Byte where
  ref := .recons .cur c
  word := wordOfByte
  old := cur.recons.get c
  put pos m := (s.setPos pos).setCur (cur.setRecons c m)
  put_old pos := by
    rw [Frame.setRecons, Triple.set_get_self]
    exact State.setCur_self (s := s.setPos pos) hcur
  put_eq _ _ := rfl
  slotsFrame_put _ _ := slotsFrame_of_eq (by rw [hcur]; rfl) rfl
  element_put pos m sp i := by
    rw [State.element_setRecons, State.setCur_self (s := s.setPos pos) hcur]
    congr 1

end

/-! #### Where a block's entries stand -/

/-- Coefficient `i` of a block in the coefficient plane, block-linear (R62). -/
def coeffAt (s : State) (c : Comp) (b : Nat × Nat) (i : Nat) : Nat :=
  (b.2 * s.cols c + b.1) * 64 + i

/-- Sample `i` of a block, row by row, in the plane (R233). -/
def blockSampleAt (s : State) (c : Comp) (b : Nat × Nat) (i : Nat) : Nat :=
  windowSample s c (b.1 * 8) (b.2 * 8) (i / 8) (i % 8)

section
variable {s : State} {c : Comp}

theorem separatesBlocks_coeffAt : SeparatesBlocks (s.cols c) (coeffAt s c) := by
  intro b b' i i' hb hb' hi hi' h
  unfold coeffAt at h
  exact Prod.ext_iff.mpr (unit_eq_of_index_eq hb hb' (by omega))

theorem separatesBlocks_blockSampleAt (hpw : s.pw c = 8 * s.cols c) :
    SeparatesBlocks (s.cols c) (blockSampleAt s c) := by
  intro b b' i i' hb hb' hi hi' h
  exact Prod.ext_iff.mpr (unit_eq_of_windowSample_eq hpw hb hb' (by omega) (by omega) (by omega)
    (by omega) h)

/-- The columns and bands of blocks are those of the macroblock grid (R229, R234). -/
theorem blocks_eq_grid (hg : GridOk s) (c : Comp) :
    s.pw c / 8 = s.cols c ∧ s.ph c / 8 = s.rows c := by
  obtain ⟨-, -, hpw, hph⟩ := hg c
  omega

theorem coeffAt_eq (hg : GridOk s) (b : Nat × Nat) (i : Nat) :
    coeffAt s c b i = coeffIndex (s.pw c) b.1 b.2 + i := by
  rw [coeffIndex, (blocks_eq_grid hg c).1]
  rfl

theorem coeffAt_lt (hg : GridOk s) {b : Nat × Nat} (hb : InGrid s c b.1 b.2) {i : Nat}
    (hi : i < 64) : coeffAt s c b i < s.planeSize c := by
  obtain ⟨hpw, hph⟩ := blocks_eq_grid hg c
  rw [coeffAt_eq hg]
  exact coeff_lt (hpw ▸ hb.1) (hph ▸ hb.2) hi

theorem blockSampleAt_lt (hg : GridOk s) {b : Nat × Nat} (hb : InGrid s c b.1 b.2) {i : Nat}
    (hi : i < 64) : blockSampleAt s c b i < s.planeSize c :=
  windowSample_lt hg hb (by omega) (by omega)

/-- Every element of a plane is a sample of one of its blocks (R233, R234). -/
theorem exists_blockSampleAt (hg : GridOk s) {j : Nat} (hj : j < s.planeSize c) :
    ∃ b i, InGrid s c b.1 b.2 ∧ i < 64 ∧ j = blockSampleAt s c b i := by
  obtain ⟨hcols, -, hpw, hph⟩ := hg c
  have hpos : 0 < s.pw c := by omega
  have hx : j % s.pw c < s.pw c := Nat.mod_lt _ hpos
  have hy : j / s.pw c < s.ph c := Nat.div_lt_of_lt_mul hj
  refine ⟨(j % s.pw c / 8, j / s.pw c / 8), j / s.pw c % 8 * 8 + j % s.pw c % 8,
    ⟨show _ < _ by omega, show _ < _ by omega⟩, by omega, ?_⟩
  have hrow : j / s.pw c / 8 * 8 + (j / s.pw c % 8 * 8 + j % s.pw c % 8) / 8 = j / s.pw c := by
    omega
  have hcol : j % s.pw c / 8 * 8 + (j / s.pw c % 8 * 8 + j % s.pw c % 8) % 8 = j % s.pw c := by
    omega
  rw [blockSampleAt, windowSample, hrow, Nat.add_assoc, hcol, Nat.div_add_mod']

end

/-! #### One block -/

theorem reconSample_eq (r : Half) (p : Byte) : reconSample r p = clampedSample r p := by
  unfold reconSample clampedSample clamp
  congr 1
  split_ifs <;> omega

section
variable {s : State} {c : Comp} {cur : Frame} {A P Q : Nat → Byte} {K : Nat → Half} {b : Nat × Nat}

/-- Coefficient `i` of block `b` by the formula of R189. -/
def codedCoeff (s : State) (c : Comp) (A P Q : Nat → Byte) (b : Nat × Nat) (i : Nat) : Half :=
  forwardPath (residualSample A P (s.pw c) b.1 b.2) Q i

/-- Sample `i` of block `b`, row by row, by the formula of R190 and the prediction (R202). -/
def decodedSample (s : State) (c : Comp) (K : Nat → Half) (P Q : Nat → Byte) (b : Nat × Nat)
    (i : Nat) : Byte :=
  clampedSample (inversePath (blockCoeff K (s.cols c) b.1 b.2) Q (i / 8) (i % 8))
    (P (blockSampleAt s c b i))

/-- A block of DCTQ over defined planes and a defined table (R201). -/
theorem dctq_blockDone (h : Transformable s c cur A P Q) (hb : InGrid s c b.1 b.2) :
    BlockDone (residPlane h.cur_eq c) (blockUnit dctqUnit c) c (coeffAt s c) (codedCoeff s c A P Q)
      b := by
  intro pos m
  obtain ⟨hpw, hph⟩ := blocks_eq_grid h.grid c
  obtain ⟨hnew, hold⟩ := read_writeFrom_64 m (coeffIndex (s.pw c) b.1 b.2)
    (fwdBlock_length ((List.range 64).map (residualSample A P (s.pw c) b.1 b.2))
      (q := (List.range 64).map Q) (by simp)) 0#16
  simp only [← coeffAt_eq h.grid] at hnew hold
  refine ⟨_, (dctqAt_completes (s := (residPlane h.cur_eq c).put (posOf c b.1 b.2) m)
    (cur := cur.setResid c m) rfl (hpw ▸ hb.1) (hph ▸ hb.2) h.orig h.pred h.table).trans ?_,
    fun b' hb' i hi => ?_, fun j hj => hold j (fun i hi => hj b (by simp) i hi)⟩
  · rw [Frame.setResid_setResid, Frame.setResid_resid_get]
    rfl
  · rw [List.mem_singleton.mp hb', hnew i hi, Exact32.fwdBlock_getD _ Q hi (h.entries i hi)]
    rfl

/-- A block of DEQIDCT whose coefficients are defined (R202). -/
theorem deqidct_blockDone (h : Reconstructible s c cur P Q) (hb : InGrid s c b.1 b.2)
    (hK : ∀ k, k < 64 →
      Space.read (cur.resid.get c) (coeffAt s c b k) = some (K (coeffAt s c b k))) :
    BlockDone (reconsPlane h.cur_eq c) (blockUnit deqidctUnit c) c (blockSampleAt s c)
      (decodedSample s c K P Q) b := by
  intro pos m
  obtain ⟨hpw, hph⟩ := blocks_eq_grid h.grid c
  have hblock : (fun k => K (coeffIndex (s.pw c) b.1 b.2 + k)) = blockCoeff K (s.cols c) b.1 b.2 :=
    funext fun k => congrArg K (coeffAt_eq h.grid b k).symm
  simp only [coeffAt_eq h.grid] at hK
  obtain ⟨m', hdone, hnew, hold⟩ := deqidctAt_completes
    (s := (reconsPlane h.cur_eq c).put (posOf c b.1 b.2) m) (cur := cur.setRecons c m) rfl
    (hpw ▸ hb.1) (hph ▸ hb.2) hK h.pred h.table
  rw [Frame.setRecons_setRecons] at hdone
  rw [Frame.setRecons_recons_get] at hold
  refine ⟨m', hdone, fun b' hb' i hi => ?_, fun j hj => hold j (fun y x hy hx e => ?_)⟩
  · have hsample := hnew (i / 8) (i % 8) (by omega) (by omega)
    rw [reconSample_eq, Exact32.invBlock_getD _ Q (by omega) (by omega)] at hsample
    rw [List.mem_singleton.mp hb', decodedSample, ← hblock]
    exact hsample
  · refine hj b (by simp) (y * 8 + x) (by omega) ?_
    rw [blockSampleAt, show (y * 8 + x) / 8 = y by omega, show (y * 8 + x) % 8 = x by omega]
    exact e

/-- A block of DEQIDCT with an `undef` coefficient raises `E_UNDEF` before it writes a sample (R66,
R202). -/
theorem deqidct_blockStops (hcur : s.cur = some cur) (hg : GridOk s) {k : Nat} (hk : k < 64)
    (hundef : Space.read (cur.resid.get c) (coeffAt s c b k) = none) (pos : Word) (m : Space Byte) :
    blockUnit deqidctUnit c b ((reconsPlane hcur c).put pos m) =
      .raised .undef ((reconsPlane hcur c).put (posOf c b.1 b.2) m) := by
  have hread : Space.readAll ((cur.setRecons c m).resid.get c)
      (List.range' (coeffIndex (s.pw c) b.1 b.2) 64) = none := by
    refine Space.readAll_eq_none_iff.mpr ⟨_, ?_, hundef⟩
    rw [coeffAt_eq hg]
    exact List.mem_range'.mpr ⟨k, hk, by omega⟩
  show deqidctAt c b.2 b.1 ((reconsPlane hcur c).put (posOf c b.1 b.2) m) = _
  unfold deqidctAt
  have hcur' : ((reconsPlane hcur c).put (posOf c b.1 b.2) m).cur = some (cur.setRecons c m) := rfl
  have hpw : ((reconsPlane hcur c).put (posOf c b.1 b.2) m).pw c = s.pw c := rfl
  simp only [hcur', hpw, hread]

end

end Sys2Proof.Machine
end

section
/-! ### The row and plane drivers -/

namespace Sys2Proof.Machine

open Sys2Proof.Claim

section
variable {s : State} {c : Comp}

/-! #### The commands as sweeps over blocks -/

theorem bandBody_eq_blocks (unit : Comp → Nat → Nat → State → Run) (hg : GridOk s) {band : Nat}
    (hband : band < s.rows c) :
    bandBody unit c band s = sweep (blockUnit unit c) (bandBlocks (s.cols c) band) s := by
  obtain ⟨hpw, hph⟩ := blocks_eq_grid hg c
  rw [bandBody_eq_sweep unit (hph ▸ hband), hpw]

theorem planeBody_eq_blocks {unit : Comp → Nat → Nat → State → Run}
    (hunit : ∀ {c bx band s}, bx < s.pw c / 8 → band < s.ph c / 8 →
      Parts s (unit c band bx s).state) (hg : GridOk s) :
    planeBody unit c s = sweep (blockUnit unit c) (raster (s.cols c) (s.rows c)) s := by
  obtain ⟨hpw, hph⟩ := blocks_eq_grid hg c
  rw [planeBody_eq_sweep hunit, hpw, hph]

theorem inGrid_of_mem_bandBlocks {band : Nat} (hband : band < s.rows c) {b : Nat × Nat}
    (hb : b ∈ bandBlocks (s.cols c) band) : InGrid s c b.1 b.2 := by
  obtain ⟨hx, hy⟩ := mem_bandBlocks.mp hb
  exact ⟨hx, hy ▸ hband⟩

theorem inGrid_of_mem_raster {b : Nat × Nat} (hb : b ∈ raster (s.cols c) (s.rows c)) :
    InGrid s c b.1 b.2 := mem_raster.mp hb

/-! #### A driver that completes, a driver that stops -/

section
variable {α : Type} {p : DriverPlane s α} {f : Nat × Nat → State → Run}
  {idx : Nat × Nat → Nat → Nat} {val : Nat × Nat → Nat → α} {us : List (Nat × Nat)}
  {b : Nat × Nat} {i : Instr} (hlive : Live s) (ha : Accepted i s)
  (hidx : SeparatesBlocks (s.cols c) idx) (hgrid : ∀ b ∈ us, InGrid s c b.1 b.2)
  (hdone : ∀ b ∈ us, BlockDone p f c idx val b)
include hlive ha hidx hgrid hdone

/-- A driver all of whose blocks can be processed (R201 to R204). -/
theorem exec_blocks_completes (hbody : bodyOf i s = sweep f us s) (hlast : us.getLast? = some b) :
    ∃ m, exec i s = .next (p.put (posOf c b.1 b.2) m) ∧ BlocksWritten idx val us p.old m := by
  obtain ⟨pos, m, hsweep, hwritten, hpos⟩ :=
    sweep_blocks_completes hidx (fun b hb => (hgrid b hb).1) hdone
  obtain rfl := hpos b hlast
  exact ⟨m, exec_completes hlive.1 ha (hbody.trans hsweep), hwritten⟩

/-- A driver that reaches a block which raises a fault (R205, R244). -/
theorem exec_blocks_stops {e : Cause} {post : List (Nat × Nat)}
    (hbody : bodyOf i s = sweep f (us ++ b :: post) s)
    (hstop : ∀ pos m, f b (p.put pos m) = .raised e (p.put (posOf c b.1 b.2) m)) :
    ∃ m, exec i s =
        .next (recorded (p.put (posOf c b.1 b.2) m) (e.code.setWidth 32) (encode i)) ∧
      BlocksWritten idx val us p.old m := by
  obtain ⟨m, hsweep, hwritten⟩ :=
    sweep_blocks_stops hidx (fun b hb => (hgrid b hb).1) hdone hstop (post := post)
  have hfaulted := (congrArg State.faulted (p.put_eq (posOf c b.1 b.2) m)).trans hlive.1
  exact ⟨m, exec_raises ((accepts_iff hlive.1 i).mpr ha) (hbody.trans hsweep) hfaulted, hwritten⟩

end

variable {cur : Frame} {K : Nat → Half} {P Q : Nat → Byte} {us : List (Nat × Nat)} {m : Space Byte}

/-- The inverse driver reaches a block with an `undef` coefficient, the blocks before it
reconstructed (R202, R205). -/
theorem exec_deqidct_stops (h : Reconstructible s c cur P Q) (hgrid : ∀ b ∈ us, InGrid s c b.1 b.2)
    (hK : ∀ b ∈ us, ∀ k, k < 64 →
      Space.read (cur.resid.get c) (coeffAt s c b k) = some (K (coeffAt s c b k)))
    {b : Nat × Nat} {post : List (Nat × Nat)} {i : Instr} (ha : Accepted i s)
    (hbody : bodyOf i s = sweep (blockUnit deqidctUnit c) (us ++ b :: post) s)
    {k : Nat} (hk : k < 64) (hundef : Space.read (cur.resid.get c) (coeffAt s c b k) = none) :
    ∃ m, exec i s = .next (recorded ((reconsPlane h.cur_eq c).put (posOf c b.1 b.2) m) 0x06#32
        (encode i)) ∧
      BlocksWritten (blockSampleAt s c) (decodedSample s c K P Q) us (reconsPlane h.cur_eq c).old
        m := by
  obtain ⟨-, -, hpw, -⟩ := h.grid c
  exact exec_blocks_stops h.live ha (separatesBlocks_blockSampleAt hpw) hgrid
    (fun b hb => deqidct_blockDone h (hgrid b hb) (hK b hb)) hbody
    (deqidct_blockStops h.cur_eq h.grid hk hundef)

/-- DEQIDCT_ROW whose first block has an `undef` coefficient writes POS and no sample (R202). -/
theorem exec_deqidctRow_stops_first (hlive : Live s) (hcur : s.cur = some cur) (hg : GridOk s)
    {band k : Nat} (hband : band < s.rows c) (hk : k < 64)
    (hundef : Space.read (cur.resid.get c) (coeffAt s c (0, band) k) = none) :
    exec (.deqidctRow c band) s =
      .next (recorded (s.setPos (posOf c 0 band)) 0x06#32 (encode (.deqidctRow c band))) := by
  obtain ⟨hcols, -⟩ := hg c
  obtain ⟨rest, hblocks⟩ := bandBlocks_eq_cons hcols band
  have hfirst := deqidct_blockStops hcur hg hk hundef s.pos (reconsPlane hcur c).old
  rw [DriverPlane.put_self, DriverPlane.put_old] at hfirst
  refine exec_raises (e := .undef)
    ((accepts_iff hlive.1 (.deqidctRow c band)).mpr (compensation_accepted hlive hcur))
    ((bandBody_eq_blocks deqidctUnit hg hband).trans ?_) hlive.1
  rw [hblocks, sweep_cons, hfirst, Run.andThen_raised]

/-- A reconstructed sample as the host reads it (R202). -/
theorem element_reconstructed {hcur : s.cur = some cur}
    (h : BlocksWritten (blockSampleAt s c) (decodedSample s c K P Q) us (reconsPlane hcur c).old m)
    (pos : Word) {bx band y x : Nat} (hb : (bx, band) ∈ us) (hy : y < 8) (hx : x < 8) :
    ((reconsPlane hcur c).put pos m).element (.recons .cur c)
        (windowSample s c (bx * 8) (band * 8) y x) =
      some (reconstructed s c K P Q bx band y x) := by
  have helement := h.element pos hb (i := y * 8 + x) (by omega)
  simp only [blockSampleAt, decodedSample, show (y * 8 + x) / 8 = y by omega,
    show (y * 8 + x) % 8 = x by omega] at helement
  exact helement

end

end Sys2Proof.Machine
end

section
/-! ### The row and plane drivers: the obligations -/

namespace Sys2Proof.Proofs

open Sys2Proof.Machine Sys2Proof.Claim

/-- Settles O56: a sweep over the blocks of the band, each of which can be transformed. -/
theorem dctqRowTransformsBand : Obligations.DctqRowTransformsBand := by
  intro s c cur A P Q band h hband
  have hgrid := fun b => inGrid_of_mem_bandBlocks hband (b := b)
  obtain ⟨hcols, -⟩ := h.grid c
  obtain ⟨m, hexec, hwritten⟩ := exec_blocks_completes (i := .dctqRow c band) h.live
    (compensation_accepted h.live h.cur_eq) separatesBlocks_coeffAt hgrid
    (fun b hb => dctq_blockDone h (hgrid b hb)) (bandBody_eq_blocks dctqUnit h.grid hband)
    (bandBlocks_getLast? hcols band)
  refine ⟨_, hexec, rfl, DriverPlane.slotsFrame_put _ _ _,
    fun bx k hbx hk => hwritten.element _ (b := (bx, band)) (mem_bandBlocks.mpr ⟨hbx, rfl⟩) hk,
    hwritten.memoryFrame _ fun b hb k hk => ?_⟩
  obtain ⟨hbx, rfl⟩ := mem_bandBlocks.mp hb
  exact ⟨b.1, k, hbx, hk, rfl⟩

/-- Settles O57: the same over every block of the plane. -/
theorem dctqPlaneTransformsPlane : Obligations.DctqPlaneTransformsPlane := by
  intro s c cur A P Q h
  have hgrid := fun b => inGrid_of_mem_raster (s := s) (c := c) (b := b)
  obtain ⟨hcols, hrows, -⟩ := h.grid c
  obtain ⟨m, hexec, hwritten⟩ := exec_blocks_completes (i := .dctqPlane c) h.live
    (compensation_accepted h.live h.cur_eq) separatesBlocks_coeffAt hgrid
    (fun b hb => dctq_blockDone h (hgrid b hb)) (planeBody_eq_blocks dctqUnit_parts h.grid)
    (raster_getLast? hcols hrows)
  exact ⟨_, hexec, rfl, DriverPlane.slotsFrame_put _ _ _, fun bx band k hbx hband hk =>
    hwritten.element _ (b := (bx, band)) (mem_raster.mpr ⟨hbx, hband⟩) hk,
    hwritten.memoryFrame _ fun b hb k hk => coeffAt_lt h.grid (hgrid b hb) hk⟩

/-- Settles O58: a sweep over the blocks of the band, each of which can be reconstructed. -/
theorem deqidctRowReconstructsBand : Obligations.DeqidctRowReconstructsBand := by
  intro s c cur K P Q band h hband hK
  have hgrid := fun b => inGrid_of_mem_bandBlocks hband (b := b)
  obtain ⟨hcols, -, hpw, -⟩ := h.grid c
  obtain ⟨m, hexec, hwritten⟩ := exec_blocks_completes (i := .deqidctRow c band) h.live
    (compensation_accepted h.live h.cur_eq) (separatesBlocks_blockSampleAt hpw) hgrid
    (fun b hb => deqidct_blockDone h (hgrid b hb) fun k hk => by
      obtain ⟨hbx, rfl⟩ := mem_bandBlocks.mp hb
      exact hK b.1 k hbx hk)
    (bandBody_eq_blocks deqidctUnit h.grid hband) (bandBlocks_getLast? hcols band)
  refine ⟨_, hexec, rfl, DriverPlane.slotsFrame_put _ _ _, fun bx y x hbx hy hx =>
    element_reconstructed hwritten _ (mem_bandBlocks.mpr ⟨hbx, rfl⟩) hy hx,
    hwritten.memoryFrame _ fun b hb k hk => ?_⟩
  obtain ⟨hbx, rfl⟩ := mem_bandBlocks.mp hb
  exact ⟨b.1, k / 8, k % 8, hbx, by omega, by omega, rfl⟩

/-- Settles O59: the same over every block of the plane, and a plane is made of its blocks. -/
theorem deqidctPlaneReconstructsPlane : Obligations.DeqidctPlaneReconstructsPlane := by
  intro s c cur K P Q h hK
  have hgrid := fun b => inGrid_of_mem_raster (s := s) (c := c) (b := b)
  obtain ⟨hcols, hrows, hpw, -⟩ := h.grid c
  obtain ⟨m, hexec, hwritten⟩ := exec_blocks_completes (i := .deqidctPlane c) h.live
    (compensation_accepted h.live h.cur_eq) (separatesBlocks_blockSampleAt hpw) hgrid
    (fun b hb => deqidct_blockDone h (hgrid b hb) fun k hk =>
      hK _ (coeffAt_lt h.grid (hgrid b hb) hk))
    (planeBody_eq_blocks deqidctUnit_parts h.grid) (raster_getLast? hcols hrows)
  refine ⟨_, hexec, rfl, DriverPlane.slotsFrame_put _ _ _, fun bx band y x hbx hband hy hx =>
    element_reconstructed hwritten _ (mem_raster.mpr ⟨hbx, hband⟩) hy hx, fun j hj => ?_,
    hwritten.memoryFrame _ fun b hb k hk => blockSampleAt_lt h.grid (hgrid b hb) hk⟩
  obtain ⟨b, i, hb, hi, rfl⟩ := exists_blockSampleAt h.grid hj
  exact (hwritten.element _ (mem_raster.mpr hb) hi).trans_ne (Option.some_ne_none _)

/-- Settles O60: the sweep stops at the first block with an `undef` coefficient, which writes
nothing. -/
theorem deqidctRowNeedsCoefficients : Obligations.DeqidctRowNeedsCoefficients := by
  refine ⟨fun s c cur band k hlive hcur hg hband hk hundef => ?first,
    fun s c cur K P Q bx band k h hin hk hundef => ⟨fun hK => ?row, fun hK => ?plane⟩⟩
  case first =>
    refine exec_deqidctRow_stops_first hlive hcur hg hband hk ?_
    rwa [coeffAt, Nat.add_zero]
  case row =>
    obtain ⟨pre, post, hsplit, hpre⟩ := exists_split_at (bandBlocks_pairwise (s.cols c) band)
      (mem_bandBlocks.mpr ⟨hin.1, rfl⟩ : (bx, band) ∈ bandBlocks (s.cols c) band)
    have hmem : ∀ b, b ∈ pre ↔ b.1 < bx ∧ b.2 = band := fun b => by
      rw [hpre, mem_bandBlocks]
      exact ⟨fun ⟨⟨_, hy⟩, hx⟩ => ⟨hx, hy⟩, fun ⟨hx, hy⟩ => ⟨⟨hx.trans hin.1, hy⟩, hx⟩⟩
    obtain ⟨m, hexec, hwritten⟩ := exec_deqidct_stops h (b := (bx, band)) (i := .deqidctRow c band)
      (fun b hb => inGrid_of_mem_bandBlocks hin.2 ((hpre b).mp hb).1)
      (fun b hb k hk => by
        obtain ⟨hbx, rfl⟩ := (hmem b).mp hb
        exact hK b.1 k hbx hk)
      (compensation_accepted h.live h.cur_eq)
      (hsplit ▸ bandBody_eq_blocks deqidctUnit h.grid hin.2) hk hundef
    refine ⟨_, hexec, rfl, DriverPlane.slotsFrame_put _ _ _, fun bx₁ y x hbx hy hx =>
      element_reconstructed hwritten _ ((hmem _).mpr ⟨hbx, rfl⟩) hy hx,
      hwritten.memoryFrame _ fun b hb k hk => ?_⟩
    obtain ⟨hbx, rfl⟩ := (hmem b).mp hb
    exact ⟨b.1, k / 8, k % 8, hbx, by omega, by omega, rfl⟩
  case plane =>
    simp only [unitBefore_same_iff] at hK ⊢
    obtain ⟨pre, post, hsplit, hpre⟩ := exists_split_at (raster_pairwise (s.cols c) (s.rows c))
      (mem_raster.mpr hin : (bx, band) ∈ raster (s.cols c) (s.rows c))
    simp only [mem_raster] at hpre
    obtain ⟨m, hexec, hwritten⟩ := exec_deqidct_stops h (b := (bx, band)) (i := .deqidctPlane c)
      (fun b hb => ((hpre b).mp hb).1)
      (fun b hb k hk => hK b.1 b.2 k ((hpre b).mp hb).1 ((hpre b).mp hb).2 hk)
      (compensation_accepted h.live h.cur_eq)
      (hsplit ▸ planeBody_eq_blocks deqidctUnit_parts h.grid) hk hundef
    refine ⟨_, hexec, rfl, DriverPlane.slotsFrame_put _ _ _, fun bx₁ band₁ y x hin₁ hlt hy hx =>
      element_reconstructed hwritten _ ((hpre (bx₁, band₁)).mpr ⟨hin₁, hlt⟩) hy hx,
      hwritten.memoryFrame _ fun b hb k hk => ?_⟩
    obtain ⟨hin₁, hlt⟩ := (hpre b).mp hb
    exact ⟨b.1, b.2, k / 8, k % 8, hin₁, hlt, by omega, by omega, rfl⟩

end Sys2Proof.Proofs
end

section
/-! ### The geometry CTX_NEW computes -/

namespace Sys2Proof.Machine

open Sys2Proof.Claim

/-! #### Padded dimensions -/

/-- Both chroma components are padded to half of luma (R222). -/
theorem padDim_of_ne_luma {c : Comp} (hc : c ≠ .y) (n : Nat) : padDim c n = (n + 15) / 16 * 8 := by
  have hhalf : lumaPad n / 2 = (n + 15) / 16 * 8 := by unfold lumaPad; omega
  cases c with
  | y => exact absurd rfl hc
  | u => exact hhalf
  | v => exact hhalf

section
variable {s : State}

/-- The planes of a constructed context have the padded dimensions of its raw ones (R221, R222). -/
theorem State.constructed.planes (h : s.constructed) (c : Comp) :
    s.pw c = padDim c s.width.toNat ∧ s.ph c = padDim c s.height.toNat := by
  obtain ⟨⟨hw1, hw2⟩, ⟨hh1, hh2⟩, hgeom, -⟩ := h
  have hw := padDim_spec c hw1 hw2
  have hh := padDim_spec c hh1 hh2
  simp only [State.pw, State.ph, hgeom, Triple.get_of, geometryOf, BitVec.toNat_ofNat]
  omega

/-- No plane is larger than the largest raw dimension (R224). -/
theorem State.constructed.planes_le (h : s.constructed) (c : Comp) :
    s.pw c ≤ 16384 ∧ s.ph c ≤ 16384 := by
  obtain ⟨hpw, hph⟩ := h.planes c
  obtain ⟨⟨hw1, hw2⟩, ⟨hh1, hh2⟩, -, -⟩ := h
  exact ⟨hpw ▸ (padDim_spec c hw1 hw2).2.1, hph ▸ (padDim_spec c hh1 hh2).2.1⟩

/-- Luma's planes are made of whole 16x16 blocks (R221). -/
theorem State.constructed.luma_dvd (h : s.constructed) : 16 ∣ s.pw .y ∧ 16 ∣ s.ph .y := by
  obtain ⟨hpw, hph⟩ := h.planes .y
  exact ⟨hpw ▸ (lumaPad_spec _).1, hph ▸ (lumaPad_spec _).1⟩

/-- A chroma plane has exactly half of luma's columns and of its rows of samples (R222). -/
theorem State.constructed.chroma_planes (h : s.constructed) {c : Comp} (hc : c ≠ .y) :
    s.pw c * 2 = s.pw .y ∧ s.ph c * 2 = s.ph .y := by
  obtain ⟨hpw, hph⟩ := h.planes c
  obtain ⟨hpwY, hphY⟩ := h.planes .y
  rw [padDim_of_ne_luma hc] at hpw hph
  simp only [padDim, lumaPad] at hpwY hphY
  omega

/-- Each macroblock of the grid has 64 samples of the plane (R30, R234). -/
theorem planeSize_eq_of_gridOk (hg : GridOk s) (c : Comp) : s.planeSize c = 64 * s.gridSize c := by
  obtain ⟨-, -, hpw, hph⟩ := hg c
  rw [State.planeSize, State.gridSize, hpw, hph]
  ring

/-- The chroma grid has half of luma's columns and rows, and the plane a quarter of its samples
(R223). -/
theorem State.constructed.chroma_grid (h : s.constructed) {c : Comp} (hc : c ≠ .y) :
    s.cols c * 2 = s.cols .y ∧ s.rows c * 2 = s.rows .y ∧ s.planeSize c * 4 = s.planeSize .y := by
  obtain ⟨hpw, hph⟩ := h.chroma_planes hc
  obtain ⟨-, -, hcols, hrows⟩ := h.gridOk c
  obtain ⟨-, -, hcolsY, hrowsY⟩ := h.gridOk .y
  refine ⟨by omega, by omega, ?_⟩
  rw [State.planeSize, State.planeSize, ← hpw, ← hph]
  ring

end

/-! #### The command -/

/-- A register that holds a natural number as a signed value holds it as its word (R121). -/
theorem ofNat_of_toInt_eq {a : Word} {n : Nat} (h : a.toInt = n) : BitVec.ofNat 32 n = a := by
  rw [← BitVec.ofInt_natCast, ← h, BitVec.ofInt_toInt]

/-- The rule of CTX_NEW with legal dimensions (R121). -/
theorem ctxNewBody_of_legal {s : State} {w h : Nat} (hw : s.arg0.toInt = w) (hh : s.arg1.toInt = h)
    (hw1 : 1 ≤ w) (hw2 : w ≤ 16384) (hh1 : 1 ≤ h) (hh2 : h ≤ 16384) :
    ctxNewBody s = .done (s.construct w h) := by
  have hlegal : (legalDim s.widthOperand && legalDim s.heightOperand) = true := by
    rw [Bool.and_eq_true, legalDim_iff, legalDim_iff, State.widthOperand, State.heightOperand]
    omega
  rw [ctxNewBody, if_pos hlegal, State.widthOperand, State.heightOperand, hw, hh, Int.toNat_natCast,
    Int.toNat_natCast]

/-- The planes CTX_NEW leaves for legal dimensions (R221, R222). -/
theorem State.planes_construct (s : State) {w h : Nat} (hw1 : 1 ≤ w) (hw2 : w ≤ 16384)
    (hh1 : 1 ≤ h) (hh2 : h ≤ 16384) (c : Comp) :
    (s.construct w h).pw c = padDim c w ∧ (s.construct w h).ph c = padDim c h := by
  have hplanes := (s.constructed_construct hw1 hw2 hh1 hh2).planes c
  rwa [State.construct_width, State.construct_height, BitVec.toNat_ofNat, BitVec.toNat_ofNat,
    Nat.mod_eq_of_lt (by omega), Nat.mod_eq_of_lt (by omega)] at hplanes

/-- After CTX_NEW every element of the picture is `undef` (R39). -/
theorem element_picIn_construct (s : State) (w h : Nat) (c : Comp) (i : Nat) :
    (s.construct w h).element (.picIn c) i = none := by
  cases c <;> rfl

/-- CTX_NEW that constructs a context leaves a constructed one (R121, R123): in a state with a fault, or
with illegal dimensions, it constructs nothing. -/
theorem exec_ctxNew_constructed {s t : State} (hv : s.ctxValid = false)
    (h : exec .ctxNew s = .next t) (ht : t.ctxValid = true) : t.constructed := by
  refine exec_keeps (P := fun t => t.ctxValid = true → t.constructed) h
    (fun hs => absurd (hv.symm.trans hs) (by decide)) (fun _ => ?body) (fun _ _ _ hs => hs) ht
  case body =>
    show (ctxNewBody s).state.ctxValid = true → (ctxNewBody s).state.constructed
    unfold ctxNewBody
    split
    · next hlegal =>
      rw [Bool.and_eq_true, legalDim_iff, legalDim_iff] at hlegal
      exact fun _ => s.constructed_construct (by omega) (by omega) (by omega) (by omega)
    · exact fun hs => absurd (hv.symm.trans hs) (by decide)

end Sys2Proof.Machine
end

section
namespace Sys2Proof.Proofs

open Sys2Proof.Machine Sys2Proof.Claim

/-- Settles O31: with legal dimensions the rule is `State.construct`, whose planes are the padded
dimensions. -/
theorem ctxNewConstructs : Obligations.CtxNewConstructs := by
  intro s w h hf ha hw hh hw1 hw2 hh1 hh2
  have hplanes := s.planes_construct hw1 hw2 hh1 hh2
  have hgrid := (s.constructed_construct hw1 hw2 hh1 hh2).gridOk
  refine ⟨s.construct w h, exec_completes hf ha (ctxNewBody_of_legal hw hh hw1 hw2 hh1 hh2),
    ?frame, (hplanes .y).1, (hplanes .y).2, fun c hc => ?chroma, fun c => ?grid,
    element_picIn_construct s w h⟩
  case frame => rw [State.construct, ofNat_of_toInt_eq hw, ofNat_of_toInt_eq hh]
  case chroma =>
    exact ⟨(hplanes c).1.trans (padDim_of_ne_luma hc w), (hplanes c).2.trans (padDim_of_ne_luma hc h)⟩
  case grid => exact ⟨(blocks_eq_grid hgrid c).1.symm, (blocks_eq_grid hgrid c).2.symm⟩

/-- Settles O33: what CTX_NEW constructs is a constructed context, and its geometry follows from its raw
dimensions. -/
theorem ctxNewGeometryIsConsistent : Obligations.CtxNewGeometryIsConsistent := by
  intro s t hv hexec ht
  have hc := exec_ctxNew_constructed hv hexec ht
  exact ⟨hc.gridOk, hc.luma_dvd.1, hc.luma_dvd.2,
    fun c => ⟨planeSize_eq_of_gridOk hc.gridOk c, hc.planes_le c⟩, fun _ hne => hc.chroma_grid hne⟩

end Sys2Proof.Proofs
end

section
/-! ### The host's accesses while FAULTED -/

namespace Sys2Proof.Machine

section
variable {s : State} (hf : s.faulted = true)
include hf

/-- A read while FAULTED, whether it returns a value or an unspecified one, moves only the model's own
record of reads (R245). -/
theorem hostRead_of_faulted (reg : Byte) :
    hostRead reg s = { s with
      hostRead := (hostRead reg s).hostRead, freeReads := (hostRead reg s).freeReads } := by
  rcases hostRead_cases reg s with ⟨w, -, e⟩ | ⟨c, -, ⟨-, e⟩ | ⟨hf', -⟩⟩
  · rw [e]; rfl
  · rw [e]; rfl
  · exact absurd (hf.symm.trans hf') (by decide)

/-- A write while FAULTED is ignored, the issue of a command included (R245). -/
theorem hostWrite_of_faulted (reg : Byte) (v : Word) : hostWrite reg v s = .next s :=
  if_pos hf

end

end Sys2Proof.Machine
end

section
/-! ### The statements on faults -/

namespace Sys2Proof.Proofs

open Sys2Proof.Machine Sys2Proof.Claim

/-- Settles O16: the machine's check is the table of R241, and a command that fails it raises
`E_STATE` before its rule runs. -/
theorem unacceptedCommandFaults : Obligations.UnacceptedCommandFaults :=
  fun _ _ hf ha => exec_refused hf ha

/-- Settles O17, by the kind of access: a read moves the record of reads, a write does nothing. -/
theorem faultedStateIsAbsorbing : Obligations.FaultedStateIsAbsorbing := by
  intro s t a rest hf hnext hreset hstep
  have htaken : (taken s rest).faulted = true := hf
  rw [step_of_next hnext] at hstep
  cases a with
  | reset => exact absurd rfl hreset
  | read reg =>
    cases hstep
    exact hostRead_of_faulted htaken reg
  | write reg v =>
    rw [hostAccess, hostWrite_of_faulted htaken] at hstep
    cases hstep
    rfl

end Sys2Proof.Proofs
end

section
/-! ### The search over a picture that stops at a macroblock -/

namespace Sys2Proof.Machine

open Sys2Proof.Claim

/-- The macroblocks of a picture, split at one of them: before it stand those the order puts before it
(R226). -/
theorem units_split {s : State} {c : Comp} {x y : Nat} (hin : InGrid s c x y) :
    ∃ pre post, s.units = pre ++ (c, x, y) :: post ∧ pre.Pairwise (unitBefore s) ∧
      ∀ c₁ x₁ y₁, (c₁, x₁, y₁) ∈ pre ↔
        InGrid s c₁ x₁ y₁ ∧ unitBefore s (c₁, x₁, y₁) (c, x, y) := by
  obtain ⟨pre, post, hsplit⟩ := List.append_of_mem (mem_units.mpr hin)
  have hord := units_pairwise s
  rw [hsplit] at hord
  obtain ⟨hpre, hpost, hbefore⟩ := List.pairwise_append.mp hord
  refine ⟨pre, post, hsplit, hpre, fun c₁ x₁ y₁ => ?_⟩
  rw [← mem_units, hsplit]
  constructor
  · intro hu
    exact ⟨List.mem_append_left _ hu, hbefore _ hu _ (by simp)⟩
  · rintro ⟨hu, hb⟩
    refine (List.mem_append.mp hu).resolve_right (fun hu => ?_)
    rcases List.mem_cons.mp hu with e | hu
    · exact unitBefore_asymm hb (e ▸ hb)
    · exact unitBefore_asymm hb ((List.pairwise_cons.mp hpost).1 _ hu)

/-- No macroblock stands before luma macroblock (0, 0) (R226). -/
theorem not_unitBefore_first {s : State} (p : Comp × Nat × Nat) : ¬ unitBefore s p (.y, 0, 0) := by
  rintro (h | ⟨-, h⟩)
  · exact Nat.not_lt_zero _ h
  · simp at h

section
variable {s : State} {cur ref : Frame} {A B : Comp → Nat → Byte} {us : List (Comp × Nat × Nat)}
  (hs : ImageStartable s cur ref A)
include hs

/-- A sweep over macroblocks of a picture whose windows are all defined completes (R157, R226). -/
theorem sweep_searchUnit_completes (hord : us.Pairwise (unitBefore s))
    (hB : ∀ c x y, (c, x, y) ∈ us → InGrid s c x y ∧ WindowsHold s c ref (B c) x y) :
    ∃ f pos acc best mv, sweep searchUnit us s = .done (imageState s f pos acc best mv) ∧
      ImageSearched s cur A B us f pos acc best mv := by
  induction us using List.reverseRecOn with
  | nil =>
    exact ⟨cur, _, _, _, _, by rw [imageState_self (hs .y).cur_eq, sweep_nil], ImageSearched.nil⟩
  | append_singleton us u ih =>
    obtain ⟨hpre, -, hbefore⟩ := List.pairwise_append.mp hord
    have hB' := fun c x y hmem => hB c x y (List.mem_append_left _ hmem)
    obtain ⟨f, pos, acc, best, mv, hsweep, himage⟩ := ih hpre hB'
    obtain ⟨hin, hwin⟩ := hB u.1 u.2.1 u.2.2 (by simp)
    obtain ⟨f', acc', best', mv', hdone, himage'⟩ := searchUnit_searched hs himage
      (fun d x y hmem => (hB' d x y hmem).1) hin (fun v hv => hbefore v hv _ (by simp)) hwin
    refine ⟨f', _, acc', best', mv', ?_, himage'⟩
    rw [sweep_append, hsweep, Run.andThen_done, sweep_cons, hdone, Run.andThen_done, sweep_nil]

variable {f : Frame} {pos acc best mv : Word} {c : Comp} {x y px py : Nat}

/-- The search of the next macroblock of a picture, when it reaches an `undef` sample (R66, R157). -/
theorem searchUnit_stops (h : ImageSearched s cur A B us f pos acc best mv) (hin : InGrid s c x y)
    (hnew : (c, x, y) ∉ us) (hstop : SearchStopsAt s c ref (B c) x y px py) :
    ∃ acc', searchUnit (c, x, y) (imageState s f pos acc best mv) =
        .raised .undef (imageState s f (posOf c x y) acc' best mv) ∧
      SadBefore s c (A c) (B c) x y px py acc acc' := by
  have hold := (h.kept c x y hin hnew).trans ((hs c).read_record hin)
  have hanchor : AnchorHolds s c f (A c) x y := by
    rw [h.frame]
    exact anchorHolds_of_holds (hs c).grid hin (hs c).orig
  exact meAt_stops (s := imageState s f (posOf c x y) acc best mv) rfl (hs c).ref_eq hold hanchor
    hstop

/-- The search over a picture stops at the macroblock whose search does, the ones before it searched; at
the first macroblock of all, from the old registers (R124 (d), R157, R226). -/
theorem meFrame_stops (hin : InGrid s c x y)
    (hB : ∀ c₁ x₁ y₁, InGrid s c₁ x₁ y₁ → unitBefore s (c₁, x₁, y₁) (c, x, y) →
      WindowsHold s c₁ ref (B c₁) x₁ y₁)
    (hstop : SearchStopsAt s c ref (B c) x y px py) :
    ∃ pre f pos acc acc' best mv,
      meFrame s = .raised .undef (imageState s f (posOf c x y) acc' best mv) ∧
      (∀ c₁ x₁ y₁, (c₁, x₁, y₁) ∈ pre ↔
        InGrid s c₁ x₁ y₁ ∧ unitBefore s (c₁, x₁, y₁) (c, x, y)) ∧
      ImageSearched s cur A B pre f pos acc best mv ∧
      SadBefore s c (A c) (B c) x y px py acc acc' ∧
      (pre = [] → acc = s.sadAcc ∧ best = s.meBest ∧ mv = s.meMv) := by
  obtain ⟨pre, post, hsplit, hord, hpre⟩ := units_split hin
  obtain ⟨f, pos, acc, best, mv, hsweep, himage⟩ := sweep_searchUnit_completes hs hord
    (fun c₁ x₁ y₁ hmem =>
      let ⟨hin₁, hb⟩ := (hpre c₁ x₁ y₁).mp hmem
      ⟨hin₁, hB c₁ x₁ y₁ hin₁ hb⟩)
  have hnew : (c, x, y) ∉ pre := fun hmem =>
    let hb := ((hpre c x y).mp hmem).2
    unitBefore_asymm hb hb
  obtain ⟨acc', hraise, hsad⟩ := searchUnit_stops hs himage hin hnew hstop
  refine ⟨pre, f, pos, acc, acc', best, mv, ?_, hpre, himage, hsad, ?_⟩
  · have hkey : ∀ g, s.cur = some g → g.keyframe = false := fun g hg =>
      Option.some.inj ((hs .y).cur_eq.symm.trans hg) ▸ (hs .y).inter
    rw [meFrame_eq hkey, hsplit, sweep_append, hsweep, Run.andThen_done, sweep_cons, hraise,
      Run.andThen_raised]
  · rintro rfl
    have hstart : s = imageState s f pos acc best mv := Run.done.inj hsweep
    exact ⟨congrArg State.sadAcc hstart.symm, congrArg State.meBest hstart.symm,
      congrArg State.meMv hstart.symm⟩

end

/-- The state the search of an inter frame stops in, against the one ENCODE_IMAGE began in (R124). -/
theorem imageState_acceptPicture {s : State} (hk : s.nextIsKey = false) (f : Frame)
    (pos acc best mv : Word) :
    imageState s.acceptPicture f pos acc best mv =
      { s with
        ref := s.cur, cur := some f, pos := pos, sadAcc := acc, meBest := best, meMv := mv } := by
  simp only [imageState, State.acceptPicture, hk, Bool.false_eq_true, if_false]

end Sys2Proof.Machine
end

section
/-! ### Reset -/

namespace Sys2Proof.Machine

/-- After reset no element of any space is defined (R271). -/
theorem State.element_applyReset (s : State) (sp : SpaceRef) (i : Nat) :
    s.applyReset.element sp i = none := by
  cases sp with
  | orig f | recons f | pred f | resid f | mb f => cases f <;> rfl
  | picIn c | qt c => cases c <;> rfl
  | blkIn | blkOut => rfl

/-- After reset every padded dimension and grid dimension is 0 (R271). -/
theorem State.geometry_applyReset (s : State) (c : Comp) :
    s.applyReset.pw c = 0 ∧ s.applyReset.ph c = 0 ∧ s.applyReset.cols c = 0 ∧
      s.applyReset.rows c = 0 := by
  cases c <;> exact ⟨rfl, rfl, rfl, rfl⟩

/-- After reset every flag of STATUS is clear (R25, R271). -/
theorem State.status_applyReset (s : State) : s.applyReset.status = 0#32 := by
  have hreset : State.reset.status = 0#32 := by decide
  exact hreset

/-- Reset clears the fault record (R271). -/
theorem State.FaultInv.resetWith (p : Params) : (State.resetWith p).FaultInv :=
  ⟨fun _ => ⟨rfl, rfl⟩, fun e => (nomatch e)⟩

/-- Reset leaves no frame, so there is no record (R271). -/
theorem State.VectorInv.resetWith (p : Params) : (State.resetWith p).VectorInv :=
  ⟨fun _ e => (nomatch e), fun _ e => (nomatch e)⟩

end Sys2Proof.Machine
end

section
/-! ### The statements on reset, on steps and on a missing reference -/

namespace Sys2Proof.Proofs

open Sys2Proof.Machine Sys2Proof.Claim

/-- Settles O37: the sweep over all macroblocks stops where the search does, before the counters. -/
theorem encodeImageNeedsReconstructedReference :
    Obligations.EncodeImageNeedsReconstructedReference := by
  intro s X B old c mbX mbY x y hf ha hg hX hcur hfirst hinside hin hB hstop
  have hk : s.nextIsKey = false := State.nextIsKey_eq_false_iff.mpr ⟨hfirst, hinside⟩
  obtain ⟨pre, f, pos, acc, acc', best, mv, hraise, hpre, himage, hsad, hstart⟩ :=
    meFrame_stops (imageStartable_acceptPicture ⟨hf, ha.1⟩ hg hX hcur hk) hin hB hstop
  have hbody : bodyOf .encodeImage s =
      .raised .undef (imageState s.acceptPicture f (posOf c mbX mbY) acc' best mv) := by
    rw [bodyOf, encodeImageBody_of_inter (pictureComplete_of_holds hX) hk, hraise,
      Run.andThen_raised]
  refine ⟨_, f, exec_raises ((accepts_iff hf _).mpr ha) hbody hf, ?state, ?key, fun c₁ => ?frame,
    ⟨fun _ => rfl, hsad.2⟩, ?first⟩
  case state =>
    rw [imageState_acceptPicture hk, hcur]
  case key =>
    rw [himage.frame]
    exact hk
  case frame =>
    obtain ⟨horig, hrecons, hresid, hpred, hmb⟩ := s.newFrame_planes s.nextIsKey c₁
    rw [himage.frame]
    refine ⟨horig, hrecons, hresid, hpred, fun x₁ y₁ hin₁ => ⟨fun hb => ?_, fun hb => ?_⟩⟩
    · obtain ⟨m, b, hm, hres, -⟩ := himage.found c₁ x₁ y₁ ((hpre c₁ x₁ y₁).mpr ⟨hin₁, hb⟩)
      exact ⟨m, b, hm, hres⟩
    · have hkept := himage.kept c₁ x₁ y₁ hin₁ (fun hmem => hb ((hpre c₁ x₁ y₁).mp hmem).2)
      exact hkept.trans (hmb _ (record_lt hin₁.1 hin₁.2))
  case first =>
    rintro rfl rfl rfl
    have hnil : pre = [] := List.eq_nil_iff_forall_not_mem.mpr
      (fun u hu => not_unitBefore_first u ((hpre u.1 u.2.1 u.2.2).mp hu).2)
    obtain ⟨rfl, hbest, hmv⟩ := hstart hnil
    exact ⟨hbest, hmv, hsad⟩

/-- Settles O7, by the kind of access; an empty queue is the first branch of the step. -/
theorem stepAlwaysAnswers : Obligations.StepAlwaysAnswers :=
  ⟨step_answers, fun s h => by rw [step, h]⟩

/-- Settles O8: the step is the reset event, which leaves the record of reset values. -/
theorem resetLeavesResetValues : Obligations.ResetLeavesResetValues := by
  intro s rest hnext
  have helem := (taken s rest).element_applyReset
  exact ⟨(taken s rest).applyReset, step_of_next hnext, ⟨rfl, rfl, rfl, rfl, rfl, rfl, rfl⟩,
    ⟨rfl, rfl, rfl, rfl, (taken s rest).geometry_applyReset⟩,
    ⟨(taken s rest).status_applyReset, rfl, rfl, rfl, rfl⟩, ⟨rfl, rfl, rfl, rfl, rfl⟩,
    fun i => ⟨helem _ i, helem _ i⟩, fun _ i => ⟨helem _ i, helem _ i⟩, rfl, rfl, rfl, rfl⟩

/-- Settles O30: without a context, a frame or a fault each invariant asks only for zeros. -/
theorem resetMeetsInvariants : Obligations.ResetMeetsInvariants :=
  fun p => ⟨.resetWith p, .resetWith p, .of_empty rfl rfl rfl rfl, .of_first rfl, .resetWith p,
    .resetWith p, .resetWith p⟩

end Sys2Proof.Proofs
end
